-- ==== Sys2Proof/Word.lean ====
section
/-! DEFINITION. The word types of the SB24: bytes of a trunk frame, 16-bit fields (node identities, sequence
numbers) and 32-bit words (tags, transaction numbers, sample words, statistic counters). -/

namespace Sys2Proof

/-- One byte of a trunk frame or of the PROM image. -/
abbrev Byte := BitVec 8

/-- A 16-bit field: a node identity or a sequence number (00_scope.md, "Sequence numbers"). -/
abbrev Half := BitVec 16

/-- A 32-bit word: a sample word, a tag, a transaction number, a counter or an event detail. -/
abbrev Word := BitVec 32

end Sys2Proof
end

