-- ==== Sys2Proof/Syntax.lean ====
section
/-! DEFINITION. The commands of the SB24: one constructor for each row of spec/opcode_table.json, with the operands
its occurrence brings. A request row (IDENTIFY to UNKNOWN_REQUEST) is the Control Agent's execution of the request at
the head of its request queue (R176, R177): its operands are that request's payload bytes, which State holds. -/

namespace Sys2Proof

/-- The two trunk ports. -/
inductive Port where
  | ta
  | tb
  deriving DecidableEq, Repr

/-- The two media clock generators. -/
inductive GenIdx where
  | mcg0
  | mcg1
  deriving DecidableEq, Repr

/-- A lane port, L0 to L3. -/
abbrev LaneIdx := Fin 4

/-- A Stream Table entry, stream 0 to stream 63. -/
abbrev StreamIdx := Fin 64

/-- What a pin carries at the two edges of its bit clock: its value at the rising and at the falling edge (R93). -/
structure AtEdges (α : Type) where
  rising : α
  falling : α
  deriving DecidableEq, Repr

/-- The levels of a pin over a lane frame: bit t is the level in bit period t, t = 0 being the sync period of the frame. The
data of the longest frame, 32 slots of 32 bits, ends in period 1024 with data delay 1 (R92, R93). -/
abbrev PinLevels := BitVec 1025

/-- What a frame event takes from outside: the levels of Ln_DIN over the frame that ends, as they stand at either edge of
Ln_BCK (R93, R105); and the order in which the lane's streams are taken, which is open (R103, R162): the streams of `order`
first and then the others by index, the capture streams of `late` after the depth servo. -/
structure FrameData where
  din : AtEdges PinLevels
  order : List StreamIdx
  late : List StreamIdx
  deriving DecidableEq, Repr

/-- A sync leading edge as it may be: the levels of Ln_SYNC in the bit period before and in this one, the bit periods of
Ln_BCK since the lane's previous leading edge (R100, R101), and `frame` for the frame event that falls at this edge, with
data delay 0, or for one that fell before it, with data delay 1. -/
structure SyncChange where
  before : AtEdges Bool
  now : AtEdges Bool
  spacing : Nat
  frame : FrameData
  deriving DecidableEq, Repr

/-- A lane whose count reaches two frame lengths with no edge (R101); `frame` serves a frame event that fell before that,
with data delay 1. -/
structure LaneTimeout where
  lane : LaneIdx
  frame : FrameData
  deriving DecidableEq, Repr

/-- The commands of the part. -/
inductive Instr where
  /-- POWER_ON (R186): power-on resets every block and start-up begins. -/
  | powerOn
  /-- RESET_PIN_RECOGNISED (R186): RESET# has stayed low for 1 ms. -/
  | resetPinRecognised
  /-- RESET_PIN_RELEASE (R186): RESET# rises after a recognised reset. -/
  | resetPinRelease
  /-- PROM_LOAD_COMPLETION (R187, R190): the 256 bits read from PDIO in the order in which they came, the straps
  ID2..ID0 sampled at this moment (R189), and whether TB takes up its LINK input before TA (the order of the two is
  open). -/
  | promLoadCompletion (pdio : Vector Bool 256) (straps : BitVec 3) (tbFirst : Bool)
  /-- LINK_RISE (R46): the LINK input of a port rises. -/
  | linkRise (port : Port)
  /-- LINK_FALL (R46): the LINK input of a port falls. -/
  | linkFall (port : Port)
  /-- TRUNK_FRAME_ARRIVAL (R40, R47): the last byte of a frame is received at a port; `upThroughout` says whether the
  port has been UP from the start of its reception to this moment. -/
  | trunkFrameArrival (port : Port) (frame : List Byte) (upThroughout : Bool)
  /-- SYNC_LEADING_EDGE (R94, R100, R101): Ln_SYNC of a lane as the part samples it. -/
  | syncLeadingEdge (lane : LaneIdx) (change : SyncChange)
  /-- SYNC_TIMEOUT (R101): the count of a lane reaches two frame lengths with no edge. -/
  | syncTimeout (timeout : LaneTimeout)
  /-- FRAME_EVENT (R103): a lane frame ends; `din`, `order` and `late` are those of `FrameData`. -/
  | frameEvent (lane : LaneIdx) (din : AtEdges PinLevels) (order late : List StreamIdx)
  /-- SERVO_REVIEW (R122): the review count of a generator has reached 1024. -/
  | servoReview (gen : GenIdx)
  /-- SAMPLE_FRAME_TX_COMPLETION (R154): a sample frame's transmission and gap end on a port. -/
  | sampleFrameTxCompletion (port : Port)
  /-- REPLY_TX_COMPLETION (R155): a reply's transmission and gap end on a port. -/
  | replyTxCompletion (port : Port)
  /-- ABORT_GAP_END (R157): the gap after an abort by a stop ends on a port. -/
  | abortGapEnd (port : Port)
  /-- AGING_SWEEP (R167): the aging interval expires. -/
  | agingSweep
  /-- UPTIME_TICK (R198): one millisecond passes. -/
  | uptimeTick
  /-- IDENTIFY (R180). -/
  | identify
  /-- STATUS (R181). -/
  | status
  /-- TRUNK_CONFIG (R182). -/
  | trunkConfig
  /-- STREAM_DEFINE (R11 to R16). -/
  | streamDefine
  /-- STREAM_CLEAR (R17). -/
  | streamClear
  /-- STREAM_START (R26 to R28). -/
  | streamStart
  /-- STREAM_STOP (R33, R34, R83, R137 to R140). -/
  | streamStop
  /-- STREAM_QUERY (R18). -/
  | streamQuery
  /-- SLOT_ASSIGN (R109, R110). -/
  | slotAssign
  /-- SLOT_QUERY (R111). -/
  | slotQuery
  /-- LANE_CONFIG (R95, R96). -/
  | laneConfig
  /-- LANE_START (R98). -/
  | laneStart
  /-- LANE_STOP (R102). -/
  | laneStop
  /-- CLOCK_CONFIG (R118, R119). -/
  | clockConfig
  /-- COUNTERS (R183). -/
  | counters
  /-- DISCOVERY_LIST (R169). -/
  | discoveryList
  /-- DISCOVERY_CONFIG (R168). -/
  | discoveryConfig
  /-- EVENTS_FETCH (R196). -/
  | eventsFetch
  /-- EVENT_CONFIG (R193). -/
  | eventConfig
  /-- DEVICE_RESET (R184). -/
  | deviceReset
  /-- UNKNOWN_REQUEST (R173): a request whose code is none of the twenty. -/
  | unknownRequest
  deriving DecidableEq, Repr

end Sys2Proof
end

