-- ==== Sys2Proof/Decode.lean ====
section
/-! DEFINITION. Words that spell commands. The rows of spec/opcode_table.json give no bits ("fields": [] in every
row, no "fixed"), so no word spells a command. Requests reach the part as payload bytes of trunk frames: their codes
and arguments are read in Machine/Operands.lean. -/

namespace Sys2Proof

/-- The command a word of the table spells: none, since the table gives no row any bits. -/
def decodeTableWord (_nbits _w : Nat) : Option Instr := none

end Sys2Proof
end

