-- ==== Sys2Proof/Config.lean ====
section
/-! DEFINITION. What the SB24 fixes once and for all: its capacities, its identification codes and the constants of
its chapters. The spec leaves no implementation-defined value open, and no result undefined, so there is no free
value here; the choices of order it leaves open are operands of the commands (Syntax.lean). -/

namespace Sys2Proof.Config

/-- Stream Table entries (R1). -/
abbrev streams : Nat := 64
/-- Cells of the Cell Memory (R25). -/
abbrev cells : Nat := 1024
/-- Sample words in one cell (R3). -/
abbrev wordsPerCell : Nat := 64
/-- Lane ports (R92). -/
abbrev lanes : Nat := 4
/-- Entries of an out-slot table (R108). -/
abbrev slots : Nat := 32
/-- Capacity of the admission wait list (R29). -/
abbrev waitList : Nat := 8
/-- Capacity of a capture stream's ready list (R129). -/
abbrev readyFrames : Nat := 2
/-- Capacity of the Control Agent's request queue (R175). -/
abbrev requestQueue : Nat := 4
/-- Capacity of a port's reply queue (R156). -/
abbrev replyQueue : Nat := 2
/-- Capacity of the Discovery List (R164). -/
abbrev discoveryRecords : Nat := 16
/-- Capacity of the Event Queue (R191). -/
abbrev eventRecords : Nat := 32
/-- The misplaced-run count at which a playout stream resyncs (R67). -/
abbrev misplacedLimit : Nat := 8
/-- Counting events of one servo review period (R121). -/
abbrev reviewPeriod : Nat := 1024
/-- The trim limit (R123). -/
abbrev trimLimit : Nat := 512
/-- The largest value of NUM and of DEN (R115). -/
abbrev ratioLimit : Nat := 1048575
/-- The internal reference in Hz (R116). -/
abbrev referenceHz : Nat := 98304000
/-- The vendor code IDENTIFY reports (R180). -/
abbrev vendorCode : Nat := 0x5052
/-- The part code IDENTIFY reports (R180). -/
abbrev partCode : Nat := 0x0B24
/-- The revision IDENTIFY reports (R180). -/
abbrev revision : Nat := 1
/-- The destination that addresses all nodes (R56). -/
abbrev broadcastNode : Half := 0xFFFF
/-- The fallback node identity, to which the strap value is added (R189). -/
abbrev fallbackNode : Half := 0x7F00
/-- Idle cycles of the transmit clock after a frame (R148). -/
abbrev gapCycles : Nat := 24

end Sys2Proof.Config
end

