-- ==== Sys2Proof/Machine/Types.lean ====
section
/-! DEFINITION. The kinds of data State is made of: the enumerations of the chapters, the stream entry, the lane port,
the media clock generator, the trunk port, the discovery record, the request and the event record, each with its value
after reset. -/

namespace Sys2Proof.Machine

/-- The phase of start-up (R186, R187, R190). -/
inductive Phase where
  /-- RESET# is held low after a recognised reset. -/
  | resetHeld
  /-- The configuration PROM is being read; both ports are held DOWN. -/
  | loading
  /-- The load has completed. -/
  | started
  deriving DecidableEq, Repr

/-- The start cause of a start-up (R186). -/
inductive StartCause where
  | power
  | pin
  | request
  deriving DecidableEq, Repr

/-- The result of a PROM load (R187, R188). -/
inductive PromResult where
  | loaded
  | absent
  | bad
  deriving DecidableEq, Repr

/-- One thing for each trunk port. -/
structure PerPort (α : Type) where
  ta : α
  tb : α
  deriving DecidableEq, Repr

/-- The value of one port. -/
def PerPort.get {α : Type} (x : PerPort α) : Port → α
  | .ta => x.ta
  | .tb => x.tb

/-- Replace the value of one port. -/
def PerPort.set {α : Type} (x : PerPort α) (p : Port) (a : α) : PerPort α :=
  match p with
  | .ta => { x with ta := a }
  | .tb => { x with tb := a }

/-- A set of trunk ports: an egress, a pending set, the ports seen of a discovery record. -/
abbrev PortSet := PerPort Bool

/-- The empty set of ports. -/
def PortSet.none : PortSet := ⟨false, false⟩

/-- The set of one port. -/
def PortSet.only (p : Port) : PortSet := PerPort.set PortSet.none p true

/-- Whether a set of ports is empty. -/
def PortSet.isNone (x : PortSet) : Bool := !x.ta && !x.tb

/-- One thing for each media clock generator. -/
structure PerGen (α : Type) where
  mcg0 : α
  mcg1 : α
  deriving DecidableEq, Repr

/-- The value of one generator. -/
def PerGen.get {α : Type} (x : PerGen α) : GenIdx → α
  | .mcg0 => x.mcg0
  | .mcg1 => x.mcg1

/-- Replace the value of one generator. -/
def PerGen.set {α : Type} (x : PerGen α) (g : GenIdx) (a : α) : PerGen α :=
  match g with
  | .mcg0 => { x with mcg0 := a }
  | .mcg1 => { x with mcg1 := a }

/-! ## Streams (chapters 1, 4 and 7) -/

/-- The direction of a stream (R1). -/
inductive Direction where
  | playout
  | capture
  deriving DecidableEq, Repr

/-- The states of a stream (section 1.2). -/
inductive StreamState where
  | empty
  | idle
  | waiting
  | armed
  | running
  | starved
  | draining
  deriving DecidableEq, Repr

/-- The three sample and slot widths, 16, 24 and 32 bits. -/
inductive Width where
  | w16
  | w24
  | w32
  deriving DecidableEq, Repr

/-- The concealment setting (R79). -/
inductive Conceal where
  | zero
  | hold
  deriving DecidableEq, Repr

/-- The nine counters of a playout entry (R8). -/
structure PlayoutCounters where
  stored : Word := 0
  duplicates : Word := 0
  late : Word := 0
  ahead : Word := 0
  lost : Word := 0
  starvations : Word := 0
  resyncs : Word := 0
  formatErrors : Word := 0
  ends : Word := 0
  deriving DecidableEq, Repr

/-- The five counters of a capture entry (R9). -/
structure CaptureCounters where
  closed : Word := 0
  sentTa : Word := 0
  sentTb : Word := 0
  overruns : Word := 0
  partials : Word := 0
  deriving DecidableEq, Repr

/-- A sample frame held in a reorder window (R62): its sequence number, END flag, S and sample words in group order. -/
structure PlayFrame where
  seq : Half
  isEnd : Bool
  samples : Nat
  words : List Word
  deriving DecidableEq, Repr

/-- A frame under construction (R129): its sample count and the words taken. -/
structure Construction where
  count : Nat
  words : List Word
  deriving DecidableEq, Repr

/-- A closed frame on a ready list (R129). -/
structure ReadyFrame where
  seq : Half
  isFirst : Bool
  isEnd : Bool
  samples : Nat
  words : List Word
  source : Half
  pendingOn : PortSet
  inTx : PortSet
  deriving DecidableEq, Repr

/-- An entry of the Stream Table: definition, working values and counters (R1, R2, R129). The fields of the other
direction hold zero. -/
structure Stream where
  state : StreamState
  direction : Direction
  tag : Word
  channels : Nat
  width : Width
  frameSamples : Nat
  lane : LaneIdx
  depthMax : Nat
  depthTarget : Nat
  conceal : Conceal
  level : Nat
  egress : PortSet
  channelSlots : List (Option (Fin 32))
  nextSeq : Half
  expected : Option Half
  window : List (Option PlayFrame)
  gap : Bool
  misplaced : Nat
  readIndex : Nat
  hold : List Word
  construction : Option Construction
  firstOfRun : Bool
  ready : List ReadyFrame
  playout : PlayoutCounters
  capture : CaptureCounters
  deriving DecidableEq, Repr

/-- An EMPTY entry: every field zero (R1). -/
def Stream.blank : Stream where
  state := .empty
  direction := .playout
  tag := 0
  channels := 0
  width := .w16
  frameSamples := 0
  lane := 0
  depthMax := 0
  depthTarget := 0
  conceal := .zero
  level := 0
  egress := PortSet.none
  channelSlots := []
  nextSeq := 0
  expected := none
  window := []
  gap := false
  misplaced := 0
  readIndex := 0
  hold := []
  construction := none
  firstOfRun := false
  ready := []
  playout := {}
  capture := {}

/-! ## Lane ports (chapter 5) -/

/-- The direction of a lane (R92). -/
inductive LaneDirection where
  | out
  | inp
  | both
  deriving DecidableEq, Repr

/-- The role of a lane (R92). -/
inductive Role where
  | master0
  | master1
  | slave
  deriving DecidableEq, Repr

/-- The sync shape of a lane (R94). -/
inductive SyncShape where
  | pulse
  | slot
  | half
  deriving DecidableEq, Repr

/-- The sync polarity of a lane (R92). -/
inductive SyncPolarity where
  | high
  | low
  deriving DecidableEq, Repr

/-- The clock edge on which a lane drives its outputs (R92). -/
inductive ClockEdge where
  | driveFalling
  | driveRising
  deriving DecidableEq, Repr

/-- The two edges of a bit clock. -/
inductive BckEdge where
  | rising
  | falling
  deriving DecidableEq, Repr

/-- The configuration record of a lane (R92); `delayOne` is a data delay of 1 bit period. -/
structure LaneConfig where
  direction : LaneDirection
  role : Role
  slots : Nat
  slotWidth : Width
  syncShape : SyncShape
  polarity : SyncPolarity
  delayOne : Bool
  clockEdge : ClockEdge
  deriving DecidableEq, Repr

/-- The default configuration (R92). -/
def LaneConfig.default : LaneConfig where
  direction := .both
  role := .master0
  slots := 8
  slotWidth := .w32
  syncShape := .pulse
  polarity := .high
  delayOne := true
  clockEdge := .driveFalling

/-- The states of a lane (section 5.3). -/
inductive LaneState where
  | off
  | seeking
  | running
  | lost
  deriving DecidableEq, Repr

/-- An occupied out-slot entry: a playout stream and one of its channels (R108). -/
structure OutSlot where
  stream : StreamIdx
  channel : Fin 16
  deriving DecidableEq, Repr

/-- The three counters of a lane (R112). -/
structure LaneCounters where
  frameEvents : Word := 0
  syncLosses : Word := 0
  entries : Word := 0
  deriving DecidableEq, Repr

/-- A lane port. `candidate` says whether a looking slave lane holds a candidate edge (R100); `eventDue` whether the
sync that closes a frame of a slave lane has been found in place and the frame's event has not been given yet, as it
falls one bit period later with data delay 1 (R100, R101); `outWords` are the out-slot words of the frame being driven, empty while nothing is driven (R104). -/
structure Lane where
  config : LaneConfig
  state : LaneState
  candidate : Bool
  eventDue : Bool
  outTable : Vector (Option OutSlot) 32
  outWords : List Word
  counters : LaneCounters
  deriving DecidableEq, Repr

/-- A lane after reset (R92). -/
def Lane.blank : Lane where
  config := LaneConfig.default
  state := .off
  candidate := false
  eventDue := false
  outTable := Vector.replicate 32 none
  outWords := []
  counters := {}

/-! ## Media clock generators (chapter 6) -/

/-- The record of a media clock generator (R115). -/
structure Gen where
  num : Nat
  den : Nat
  trim : Int
  reference : Option StreamIdx
  step : Nat
  window : Nat
  reviewCount : Nat
  deriving DecidableEq, Repr

/-- A generator after reset (R115). -/
def Gen.blank : Gen where
  num := 0
  den := 1
  trim := 0
  reference := none
  step := 1
  window := 1
  reviewCount := 0

/-! ## Trunk ports (chapters 3 and 8) -/

/-- The nine receive counters of a port (R60). -/
structure RxCounters where
  good : Word := 0
  malformed : Word := 0
  checkErrors : Word := 0
  unknownKind : Word := 0
  unknownTag : Word := 0
  inactive : Word := 0
  accepted : Word := 0
  dropped : Word := 0
  notAddressed : Word := 0
  deriving DecidableEq, Repr

/-- The four transmit counters of a port (R161). -/
structure TxCounters where
  samplesSent : Word := 0
  repliesSent : Word := 0
  aborted : Word := 0
  repliesLost : Word := 0
  deriving DecidableEq, Repr

/-- The transmit mode of a port (R147). -/
inductive TxMode where
  | strict
  | weighted
  deriving DecidableEq, Repr

/-- The credits of a port for levels 2, 1 and 0 (R147). -/
structure Credits where
  l2 : Nat := 4
  l1 : Nat := 2
  l0 : Nat := 1
  deriving DecidableEq, Repr

/-- The transmitter of a port and its frame in transmission (R147, R157). -/
inductive Transmitter where
  /-- IDLE. -/
  | idle
  /-- SENDING the reply at the head of the reply queue. -/
  | reply
  /-- SENDING a ready frame of one capture stream: the one marked in transmission on this port. -/
  | sample (stream : StreamIdx)
  /-- SENDING with no frame in transmission: the gap after an abort by a stop (R157). -/
  | abortGap
  deriving DecidableEq, Repr

/-- A reply, its fields fixed when it is appended (R156, R177). -/
structure Reply where
  dest : Half
  source : Half
  txn : Word
  payload : List Byte
  deriving DecidableEq, Repr

/-- A trunk port: its LINK input and link state (R45), receive counters (R60) and transmit state (R147). -/
structure PortState where
  linkPin : Bool
  linkUp : Bool
  rx : RxCounters
  tx : Transmitter
  replies : List Reply
  mode : TxMode
  credits : Credits
  txc : TxCounters
  deriving DecidableEq, Repr

/-- A port after reset, with the level its LINK input stands at. -/
def PortState.blank (linkPin : Bool) : PortState where
  linkPin := linkPin
  linkUp := false
  rx := {}
  tx := .idle
  replies := []
  mode := .strict
  credits := {}
  txc := {}

/-! ## Discovery (chapter 9) -/

/-- A discovery record (R164). -/
structure DiscoveryRecord where
  tag : Word
  ports : PortSet
  channels : Byte
  widthCode : Byte
  samples : Nat
  firstSeq : Half
  count : Word
  seen : Bool
  deriving DecidableEq, Repr

/-- The aging interval A (R167). -/
inductive Aging where
  | off
  | s1
  | s2
  | s4
  | s8
  deriving DecidableEq, Repr

/-- The Discovery List, its aging interval and its overflow count (R164). `restarted` is the
uptime at which DISCOVERY_CONFIG started the running interval again, none for an interval that the load or a sweep
started (R167, R168). -/
structure Discovery where
  records : List DiscoveryRecord
  aging : Aging
  overflow : Word
  restarted : Option Word
  deriving DecidableEq, Repr

/-! ## Control Agent (chapter 10) -/

/-- The control-port selection (R175). -/
inductive ControlPorts where
  | ta
  | tb
  | either
  deriving DecidableEq, Repr

/-- An accepted request (R58, R175): where it came from, its transaction number and its payload, the code first. -/
structure Request where
  port : Port
  source : Half
  txn : Word
  code : Byte
  args : List Byte
  deriving DecidableEq, Repr

/-- The state of the Control Agent (R175, R189). -/
structure Control where
  nodeId : Half
  ports : ControlPorts
  halted : Bool
  requests : List Request
  promResult : PromResult
  startCause : StartCause
  deriving DecidableEq, Repr

/-- The twenty requests (R172). -/
inductive RequestCode where
  | identify
  | status
  | trunkConfig
  | streamDefine
  | streamClear
  | streamStart
  | streamStop
  | streamQuery
  | slotAssign
  | slotQuery
  | laneConfig
  | laneStart
  | laneStop
  | clockConfig
  | counters
  | discoveryList
  | discoveryConfig
  | eventsFetch
  | eventConfig
  | deviceReset
  deriving DecidableEq, Repr

/-- The status codes (R172). -/
inductive Status where
  | ok
  | queued
  | malformed
  | index
  | value
  | state
  | busy
  | tagConflict
  | full
  deriving DecidableEq, Repr

/-- What the execution of a request answers: a status and its result bytes. -/
structure Answer where
  status : Status
  results : List Byte := []
  deriving DecidableEq, Repr

/-! ## Event Queue (chapter 11) -/

/-- The sixteen kinds of event (R192). -/
inductive EventKind where
  | deviceStarted
  | trunkUp
  | trunkDown
  | laneRunning
  | laneLost
  | streamAdmitted
  | streamRunning
  | streamStarved
  | streamResync
  | streamEnded
  | captureOverrun
  | drainDone
  | servoLimit
  | discoveryNew
  | discoveryFull
  | replyLost
  deriving DecidableEq, Repr

/-- The source of an event (R191). -/
inductive Source where
  | none
  | stream (i : StreamIdx)
  | lane (l : LaneIdx)
  | port (p : Port)
  | gen (g : GenIdx)
  deriving DecidableEq, Repr

/-- A level, 0 to 3 (R191). -/
abbrev Level := Fin 4

/-- An event record (R191). -/
structure EventRecord where
  kind : EventKind
  source : Source
  level : Level
  detail : Word
  repeats : Byte
  firstTime : Word
  deriving DecidableEq, Repr

/-- The Event Queue (R191): its records, oldest first, the lost count, the level setting of each of the fifteen kinds
0x02 to 0x10 (none: OFF), the EVT# threshold, the uptime (R198) and the EVT# line (R197; true: asserted). -/
structure EventQueue where
  records : List EventRecord
  lost : Half
  levels : Vector (Option Level) 15
  threshold : Level
  uptime : Word
  asserted : Bool
  deriving DecidableEq, Repr

/-- The default levels of the kinds 0x02 to 0x10, in code order (R192). -/
def defaultLevels : Vector (Option Level) 15 :=
  #v[some 1, some 2, some 0, some 2, some 0, some 0, some 2, some 1, some 1, some 1, some 0, some 2, some 0, some 1,
    some 1]

/-- The Event Queue after reset (R191, R198). -/
def EventQueue.blank : EventQueue where
  records := []
  lost := 0
  levels := defaultLevels
  threshold := 2
  uptime := 0
  asserted := false

end Sys2Proof.Machine
end

