-- ==== Sys2Proof/Machine/State.lean ====
section
/-! DEFINITION. The state of the SB24: everything the spec gives the part, as plain data, the queue of commands that
wait to be taken, and the state right after a power-on reset. -/

namespace Sys2Proof.Machine

/-- Why a step can stop with a fault: never. The spec gives the part no stopping fault, so this type has no
constructor; nobody raises one (safe). -/
inductive Fault where
  deriving DecidableEq, Repr

/-- Why a command can be refused. -/
inductive Refusal where
  /-- Raised by an arm of `exec` whose command has no meaning yet, and by nothing else (safe). -/
  | notModelled (mnemonic : String)
  deriving DecidableEq, Repr

/-- The whole part. -/
structure State where
  /-- The phase of start-up (R186, R187). -/
  phase : Phase
  /-- The Stream Table (R1), with the working values of the Playout Engine and the Capture Packer (R2, R129). -/
  streams : Vector Stream 64
  /-- The admission wait list, head first (R29). -/
  waitList : List StreamIdx
  /-- The lane ports (R92). -/
  lanes : Vector Lane 4
  /-- The media clock generators (R115). -/
  gens : PerGen Gen
  /-- The trunk ports (R45, R60, R147). -/
  ports : PerPort PortState
  /-- The Discovery List (R164). -/
  discovery : Discovery
  /-- The Control Agent (R175). -/
  control : Control
  /-- The Event Queue (R191). -/
  events : EventQueue
  /-- The commands waiting to be taken, the next one first (the model's own). -/
  pending : List Instr
  deriving DecidableEq, Repr

/-- The part right after a power-on reset: the PROM load that follows every reset is in progress (R186, R187). -/
def State.reset : State where
  phase := .loading
  streams := Vector.replicate 64 Stream.blank
  waitList := []
  lanes := Vector.replicate 4 Lane.blank
  gens := ⟨Gen.blank, Gen.blank⟩
  -- DESIGN CHOICE (12), unsafe: the level of a LINK input at power-on is the transceiver's; low is chosen.
  ports := ⟨PortState.blank false, PortState.blank false⟩
  -- DESIGN CHOICE (11), unsafe: A, the node identity, the selection and the PROM result have no stated value before
  -- the load completes.
  discovery := { records := [], aging := .s2, overflow := 0, restarted := none }
  control :=
    { nodeId := Config.fallbackNode, ports := .either, halted := false, requests := [], promResult := .absent,
      startCause := .power }
  events := EventQueue.blank
  pending := []

end Sys2Proof.Machine
end

