-- ==== Sys2Proof/Machine/Ops.lean ====
section
/-! DEFINITION. The named operations over State: the readers and writers of its parts, the walks over the Stream
Table, the counters that stop and the count that wraps. -/

namespace Sys2Proof.Machine

/-! ## Vectors -/

/-- Apply a function to every element of a vector. -/
def mapVec {α β : Type} {n : Nat} (f : α → β) (v : Vector α n) : Vector β n :=
  ⟨⟨v.toArray.toList.map f⟩, by simp⟩

/-- Apply a function of the position to every element of a vector. -/
def mapVecIdx {α β : Type} {n : Nat} (f : Nat → α → β) (v : Vector α n) : Vector β n :=
  ⟨⟨v.toArray.toList.mapIdx f⟩, by simp⟩

/-! ## Readers and writers -/

/-- The entry of a stream. -/
def State.stream (s : State) (i : StreamIdx) : Stream := s.streams.get i

/-- Write the entry of a stream. -/
def State.setStream (s : State) (i : StreamIdx) (x : Stream) : State :=
  { s with streams := s.streams.set i x }

/-- A lane port. -/
def State.lane (s : State) (l : LaneIdx) : Lane := s.lanes.get l

/-- Write a lane port. -/
def State.setLane (s : State) (l : LaneIdx) (x : Lane) : State :=
  { s with lanes := s.lanes.set l x }

/-- A media clock generator. -/
def State.gen (s : State) (g : GenIdx) : Gen := s.gens.get g

/-- Write a media clock generator. -/
def State.setGen (s : State) (g : GenIdx) (x : Gen) : State :=
  { s with gens := s.gens.set g x }

/-- A trunk port. -/
def State.port (s : State) (p : Port) : PortState := s.ports.get p

/-- Write a trunk port. -/
def State.setPort (s : State) (p : Port) (x : PortState) : State :=
  { s with ports := s.ports.set p x }

/-- Write the wait list. -/
def State.setWaitList (s : State) (w : List StreamIdx) : State := { s with waitList := w }

/-- Write the Discovery List. -/
def State.setDiscovery (s : State) (d : Discovery) : State := { s with discovery := d }

/-- Write the Control Agent. -/
def State.setControl (s : State) (c : Control) : State := { s with control := c }

/-- Write the Event Queue. -/
def State.setEvents (s : State) (e : EventQueue) : State := { s with events := e }

/-- Write the queue of waiting commands. -/
def State.setPending (s : State) (cs : List Instr) : State := { s with pending := cs }

/-! ## Walks -/

/-- All stream indices, lowest first. -/
def streamIndices : List StreamIdx := List.finRange 64

/-- All lane indices. -/
def laneIndices : List LaneIdx := List.finRange 4

/-- The streams whose entry meets a condition, lowest index first. -/
def State.streamsWhere (s : State) (f : Stream → Bool) : List StreamIdx :=
  streamIndices.filter (fun i => f (s.stream i))

/-- Do something for each of a list of streams, in the list's order. -/
def State.forStreams (s : State) (is : List StreamIdx) (f : StreamIdx → State → State) : State :=
  is.foldl (fun t i => f i t) s

/-- Apply a function to every entry of the Stream Table. -/
def State.mapStreams (s : State) (f : Stream → Stream) : State := { s with streams := mapVec f s.streams }

/-- Apply a function to every lane port. -/
def State.mapLanes (s : State) (f : Lane → Lane) : State := { s with lanes := mapVec f s.lanes }

/-- A number below a bound as an index. -/
def finOf (k n : Nat) : Option (Fin k) := if h : n < k then some ⟨n, h⟩ else none

/-- The outcome of a step of the part. -/
abbrev Result := Host.Outcome State Fault Refusal

/-! ## Counters -/

/-- Add one to a statistic counter, which stops at 4,294,967,295 (00_scope.md, "Counters"). -/
def bump (c : Word) : Word := if c = 0xFFFFFFFF then c else c + 1

/-- Add a number to a statistic counter, which stops at 4,294,967,295. -/
def bumpBy (c : Word) (n : Nat) : Word := BitVec.ofNat 32 (min (c.toNat + n) 0xFFFFFFFF)

/-- Add one to the event lost count, which stops at 65535 (R195). -/
def bumpLost (c : Half) : Half := if c = 0xFFFF then c else c + 1

/-- Add one to an event repeat count, which stops at 255 (R194). -/
def bumpRepeats (c : Byte) : Byte := if c = 0xFF then c else c + 1

/-! ## Widths and lanes -/

/-- The bits of a width. -/
def Width.bits : Width → Nat
  | .w16 => 16
  | .w24 => 24
  | .w32 => 32

/-- The bytes of a width (R43). -/
def Width.bytes : Width → Nat
  | .w16 => 2
  | .w24 => 3
  | .w32 => 4

/-- The frame length of a lane in bit periods: slots × slot width (R92). -/
def LaneConfig.frameLength (c : LaneConfig) : Nat := c.slots * c.slotWidth.bits

/-- Bits as a number, the first most significant. -/
def ofBits (bits : List Bool) : Nat := bits.foldl (fun n b => n * 2 + b.toNat) 0

/-- The bit period of a lane frame, counted from its sync period, that carries data bit j: data delay later (R93). -/
def LaneConfig.dataPeriod (c : LaneConfig) (j : Nat) : Nat := j + if c.delayOne then 1 else 0

/-- The edge of Ln_BCK on which a lane's outputs change (R92, R93). -/
def LaneConfig.driveEdge (c : LaneConfig) : BckEdge :=
  match c.clockEdge with
  | .driveFalling => .falling
  | .driveRising => .rising

/-- The edge of Ln_BCK on which a lane's inputs are sampled: the other edge (R92, R93). -/
def LaneConfig.sampleEdge (c : LaneConfig) : BckEdge :=
  match c.driveEdge with
  | .falling => .rising
  | .rising => .falling

/-- What an input of a lane is sampled as (R93). -/
def LaneConfig.sampled {α : Type} (c : LaneConfig) (x : AtEdges α) : α :=
  match c.sampleEdge with
  | .rising => x.rising
  | .falling => x.falling

/-- A lane whose direction includes OUT. -/
def LaneConfig.drives (c : LaneConfig) : Bool := c.direction != .inp

/-- A lane whose direction includes IN. -/
def LaneConfig.takes (c : LaneConfig) : Bool := c.direction != .out

/-- The generator a lane's role names, if it is a master. -/
def Role.gen : Role → Option GenIdx
  | .master0 => some .mcg0
  | .master1 => some .mcg1
  | .slave => none

/-- A generator whose NUM is 1 or more is RUNNING, else OFF (R115). -/
def Gen.isRunning (g : Gen) : Bool := g.num != 0

/-! ## Stream entries -/

/-- An active playout stream: PLAYOUT in ARMED, RUNNING or STARVED (section 3.5). -/
def Stream.activePlayout (st : Stream) : Bool :=
  st.direction == .playout && (st.state == .armed || st.state == .running || st.state == .starved)

/-- The number of window positions that hold a frame (R62). -/
def Stream.held (st : Stream) : Nat := st.window.countP Option.isSome

/-- The number of 64-word cells that hold channels × F words (R3). -/
def Stream.cellsPerFrame (st : Stream) : Nat :=
  (st.channels * st.frameSamples + (Config.wordsPerCell - 1)) / Config.wordsPerCell

/-- The size of a stream's reservation: M × k for playout, 3 × k for capture (R23). -/
def Stream.reservation (st : Stream) : Nat :=
  match st.direction with
  | .playout => st.depthMax * st.cellsPerFrame
  | .capture => 3 * st.cellsPerFrame

/-- A stream holds a reservation in ARMED, RUNNING, STARVED and DRAINING, and in no other state (R23). -/
def StreamState.reserves : StreamState → Bool
  | .armed | .running | .starved | .draining => true
  | .empty | .idle | .waiting => false

/-- The cells reserved for a stream as its state stands (R18, R23). -/
def Stream.reserved (st : Stream) : Nat := if st.state.reserves then st.reservation else 0

/-- The cells a stream's frames occupy: k for each frame held, under construction or ready (R22, R24). -/
def Stream.cellsHeld (st : Stream) : Nat :=
  (st.held + (if st.construction.isSome then 1 else 0) + st.ready.length) * st.cellsPerFrame

end Sys2Proof.Machine
end

