-- ==== Sys2Proof/Machine/Flags.lean ====
section
/-! DEFINITION. The Event Queue and the EVT# line (chapter 11): levels, posting, merging, eviction, fetching, and the
judging of the line. Every block posts through `State.post`. -/

namespace Sys2Proof.Machine

/-- The place of a kind among the fifteen kinds whose level can be set, 0x02 to 0x10 in code order (R193); none for
DEVICE_STARTED. -/
def EventKind.setting : EventKind → Option (Fin 15)
  | .deviceStarted => none
  | .trunkUp => some 0
  | .trunkDown => some 1
  | .laneRunning => some 2
  | .laneLost => some 3
  | .streamAdmitted => some 4
  | .streamRunning => some 5
  | .streamStarved => some 6
  | .streamResync => some 7
  | .streamEnded => some 8
  | .captureOverrun => some 9
  | .drainDone => some 10
  | .servoLimit => some 11
  | .discoveryNew => some 12
  | .discoveryFull => some 13
  | .replyLost => some 14

/-- The level of a kind as it stands, none when the kind is OFF; DEVICE_STARTED is fixed at 3 (R192). -/
def EventQueue.levelOf (q : EventQueue) (kind : EventKind) : Option Level :=
  match kind.setting with
  | none => some 3
  | some i => q.levels.get i

/-- Whether a record stands for a kind and a source (R194). -/
def EventRecord.isOf (kind : EventKind) (source : Source) (r : EventRecord) : Bool :=
  r.kind == kind && r.source == source

/-- Whether a record is held at or above the threshold (R197). -/
def EventQueue.due (q : EventQueue) : Bool := q.records.any (fun r => q.threshold ≤ r.level)

/-- EVT# is judged again: asserted while a record at or above the threshold is held (R197). -/
def EventQueue.judge (q : EventQueue) : EventQueue := { q with asserted := q.due }

/-- The record a posting makes: repeat count 1 and the uptime at this posting (R194 step 3). -/
def EventQueue.fresh (q : EventQueue) (kind : EventKind) (source : Source) (level : Level) (detail : Word) :
    EventRecord :=
  { kind := kind, source := source, level := level, detail := detail, repeats := 1, firstTime := q.uptime }

/-- The lowest level present among the records below a level (R195). -/
def EventQueue.lowestBelow (q : EventQueue) (level : Level) : Option Level :=
  [0, 1, 2].find? (fun l => decide (l < level) && q.records.any (fun r => r.level == l))

/-- Remove the youngest record of a level, the one appended most recently (R195). -/
def dropYoungest (level : Level) (rs : List EventRecord) : List EventRecord :=
  (rs.reverse.eraseP (fun r => r.level == level)).reverse

/-- A posting that finds the queue full and no record of its kind and source (R195). -/
def EventQueue.evict (q : EventQueue) (r : EventRecord) : EventQueue :=
  match q.lowestBelow r.level with
  | some low => { q with records := dropYoungest low q.records ++ [r], lost := bumpLost q.lost }.judge
  | none => { q with lost := bumpLost q.lost }

/-- One posting: ignored when its kind is OFF, merged into the record that stands for it, appended while there is
room, else decided by levels (R194). -/
def EventQueue.post (q : EventQueue) (kind : EventKind) (source : Source) (detail : Word) : EventQueue :=
  match q.levelOf kind with
  | none => q
  | some level =>
    if q.records.any (EventRecord.isOf kind source) then
      { q with records := q.records.map fun r =>
          if EventRecord.isOf kind source r then { r with repeats := bumpRepeats r.repeats } else r }
    else if q.records.length < Config.eventRecords then
      { q with records := q.records ++ [q.fresh kind source level detail] }.judge
    else q.evict (q.fresh kind source level detail)

/-- Post an event (R194). -/
def State.post (s : State) (kind : EventKind) (source : Source) (detail : Word) : State :=
  s.setEvents (s.events.post kind source detail)

/-- Post several events of one source, in order. -/
def State.postAll (s : State) (source : Source) (posts : List (EventKind × Word)) : State :=
  posts.foldl (fun t e => t.post e.1 source e.2) s

/-- Take up to n records of one level, the oldest first; the second list is what stays, in order (R196). -/
def takeLevel (level : Level) : Nat → List EventRecord → List EventRecord × List EventRecord
  | _, [] => ([], [])
  | 0, rs => ([], rs)
  | n + 1, r :: rs =>
    if r.level == level then
      let rest := takeLevel level n rs
      (r :: rest.1, rest.2)
    else
      let rest := takeLevel level (n + 1) rs
      (rest.1, r :: rest.2)

/-- Take up to n records, the levels in the given order and the oldest first within a level (R196). -/
def takeByLevel : List Level → Nat → List EventRecord → List EventRecord × List EventRecord
  | [], _, rs => ([], rs)
  | l :: ls, n, rs =>
    let here := takeLevel l n rs
    let rest := takeByLevel ls (n - here.1.length) here.2
    (here.1 ++ rest.1, rest.2)

/-- The records an EVENTS_FETCH of n takes, in the order taken, and the records left (R196). -/
def EventQueue.fetch (q : EventQueue) (n : Nat) : List EventRecord × List EventRecord :=
  takeByLevel [3, 2, 1, 0] n q.records

end Sys2Proof.Machine
end

