-- ==== Sys2Proof/Machine/TrunkFrame.lean ====
section
/-! DEFINITION. The trunk frame as bytes (chapter 3): byte order, the check word, the header fields, the packing of
samples, and the building of the frames the part sends. -/

namespace Sys2Proof.Machine

/-! ## Byte order (00_scope.md, "Byte order") -/

/-- A number as one byte. -/
def byteOf (n : Nat) : Byte := BitVec.ofNat 8 n

/-- A number as two bytes, most significant first. -/
def be2 (n : Nat) : List Byte := [byteOf (n / 256), byteOf n]

/-- A number as four bytes, most significant first. -/
def be4 (n : Nat) : List Byte := [byteOf (n / 16777216), byteOf (n / 65536), byteOf (n / 256), byteOf n]

/-- The number a string of bytes spells, most significant first. -/
def ofBe (bs : List Byte) : Nat := bs.foldl (fun a b => a * 256 + b.toNat) 0

/-- The number of `n` bytes from byte `i` on, most significant first. -/
def beAt (bs : List Byte) (i n : Nat) : Nat := ofBe ((bs.drop i).take n)

/-- Byte `i` of a string of bytes as a number. -/
def byteAt (bs : List Byte) (i : Nat) : Nat := (bs.getD i 0).toNat

/-! ## The check word (R42) -/

/-- One bit of the CRC: generator 0x04C11DB7, written bit-reversed since bits enter least significant first. -/
def crcBit (c : Word) : Word := if c.getLsbD 0 then (c >>> 1) ^^^ 0xEDB88320 else c >>> 1

/-- One byte of the CRC. -/
def crcByte (c : Word) (b : Byte) : Word :=
  crcBit (crcBit (crcBit (crcBit (crcBit (crcBit (crcBit (crcBit (c ^^^ b.setWidth 32))))))))

/-- The check word of a string of bytes: preset to all ones, complemented at the end. -/
def checkWord (bs : List Byte) : Word := ~~~ (bs.foldl crcByte 0xFFFFFFFF)

/-! ## The fields of a received frame (R41) -/

/-- The kind byte. -/
def frameKind (f : List Byte) : Nat := byteAt f 0
/-- The END flag of a SAMPLE frame: bit 1 of the flags. -/
def frameEnd (f : List Byte) : Bool := (f.getD 1 0).getLsbD 1
/-- The destination node. -/
def frameDest (f : List Byte) : Half := BitVec.ofNat 16 (beAt f 2 2)
/-- The source node. -/
def frameSource (f : List Byte) : Half := BitVec.ofNat 16 (beAt f 4 2)
/-- The tag of a SAMPLE frame, the transaction number of a REQUEST. -/
def frameTag (f : List Byte) : Word := BitVec.ofNat 32 (beAt f 6 4)
/-- The sequence number. -/
def frameSeq (f : List Byte) : Half := BitVec.ofNat 16 (beAt f 10 2)
/-- The channels byte. -/
def frameChannels (f : List Byte) : Byte := f.getD 12 0
/-- The width code byte. -/
def frameWidthCode (f : List Byte) : Byte := f.getD 13 0
/-- The payload length field. -/
def framePayloadLength (f : List Byte) : Nat := beAt f 14 2
/-- The payload. -/
def framePayload (f : List Byte) : List Byte := (f.drop 16).take (f.length - 20)
/-- The check word carried: the last four bytes, the first of them least significant. -/
def frameCheckWord (f : List Byte) : Word := BitVec.ofNat 32 (ofBe (f.drop (f.length - 4)).reverse)

/-- The four outcomes of the whole-frame checks (R47): the first check that fails, or a good frame. -/
inductive FrameCheck where
  | malformed
  | checkError
  | unknownKind
  | good
  deriving DecidableEq, Repr

/-- Check 1: length. -/
def lengthOk (f : List Byte) : Bool :=
  20 ≤ f.length && f.length ≤ 1044 && framePayloadLength f == f.length - 20

/-- Check 2: check word. -/
def checkWordOk (f : List Byte) : Bool := frameCheckWord f == checkWord (f.take (f.length - 4))

/-- Check 3: kind. -/
def kindOk (f : List Byte) : Bool := frameKind f == 0x51 || frameKind f == 0x52 || frameKind f == 0x53

/-- Check 4: payload for kind. -/
def payloadOk (f : List Byte) : Bool :=
  !(frameKind f == 0x52 && framePayloadLength f == 0) && !(frameKind f == 0x53 && framePayloadLength f < 2)

/-- The whole-frame checks, in order (R47). -/
def checkFrame (f : List Byte) : FrameCheck :=
  if !lengthOk f then .malformed
  else if !checkWordOk f then .checkError
  else if !kindOk f then .unknownKind
  else if !payloadOk f then .malformed
  else .good

/-! ## Samples in the payload (R43, R44) -/

/-- The width a width code names. -/
def widthOfCode (c : Nat) : Option Width :=
  match c with
  | 0 => some .w16
  | 1 => some .w24
  | 2 => some .w32
  | _ => none

/-- The width code of a width. -/
def Width.code : Width → Nat
  | .w16 => 0
  | .w24 => 1
  | .w32 => 2

/-- A sample's bytes, most significant first, as a left-justified sample word (R44). -/
def wordOfSample (w : Width) (bs : List Byte) : Word := BitVec.ofNat 32 (ofBe bs * 2 ^ (32 - w.bits))

/-- The bytes sent for a sample word: its upper 16, 24 or 32 bits, most significant byte first (R44). -/
def sampleOfWord (w : Width) (x : Word) : List Byte := (be4 x.toNat).take w.bytes

/-- The first `n` sample words of a payload, in group order (R43). -/
def unpackSamples (w : Width) : Nat → List Byte → List Word
  | 0, _ => []
  | n + 1, bs => wordOfSample w (bs.take w.bytes) :: unpackSamples w n (bs.drop w.bytes)

/-- The payload of sample words in group order (R43). -/
def packSamples (w : Width) (xs : List Word) : List Byte := xs.flatMap (sampleOfWord w)

/-- S as a receiver hands it to the Discovery List: the payload length over the group size, rounded down; 0 when the
channels byte is 0 or the width code above 2 (R50). -/
def observedSamples (f : List Byte) : Nat :=
  match widthOfCode (frameWidthCode f).toNat with
  | none => 0
  | some w =>
    if frameChannels f = 0 then 0 else framePayloadLength f / ((frameChannels f).toNat * w.bytes)

/-- S of a SAMPLE frame that passes the format checks against a stream's definition (R53), none when a check fails. -/
def formatCheck (st : Stream) (f : List Byte) : Option Nat :=
  let group := st.channels * st.width.bytes
  let n := framePayloadLength f / group
  if (frameChannels f).toNat == st.channels && (frameWidthCode f).toNat == st.width.code
      && framePayloadLength f == n * group
      && (if frameEnd f then n ≤ st.frameSamples else n == st.frameSamples)
  then some n else none

/-- The frame handed to the Playout Engine (R54). -/
def playFrameOf (st : Stream) (f : List Byte) (n : Nat) : PlayFrame :=
  { seq := frameSeq f, isEnd := frameEnd f, samples := n,
    words := unpackSamples st.width (n * st.channels) (framePayload f) }

/-! ## Frames the part sends -/

/-- The bytes of a trunk frame with its check word, least significant byte first (R41, R42). -/
def buildFrame (kind flags : Nat) (dest source : Half) (tag : Word) (seq : Half) (channels widthCode : Nat)
    (payload : List Byte) : List Byte :=
  let body := [byteOf kind, byteOf flags] ++ be2 dest.toNat ++ be2 source.toNat ++ be4 tag.toNat ++ be2 seq.toNat
    ++ [byteOf channels, byteOf widthCode] ++ be2 payload.length ++ payload
  body ++ (be4 (checkWord body).toNat).reverse

/-- The SAMPLE frame of a ready frame (R136). -/
def sampleFrameBytes (st : Stream) (f : ReadyFrame) : List Byte :=
  buildFrame 0x51 ((if f.isFirst then 1 else 0) + (if f.isEnd then 2 else 0)) 0x0000 f.source st.tag f.seq st.channels
    st.width.code (packSamples st.width f.words)

/-- The REPLY frame of a queued reply (R177). -/
def Reply.bytes (r : Reply) : List Byte := buildFrame 0x53 0 r.dest r.source r.txn 0 0 0 r.payload

/-- The nibbles of a frame on the transmit lines: the less significant nibble of each byte first (R148). -/
def txNibbles (bs : List Byte) : List (BitVec 4) := bs.flatMap fun b => [b.extractLsb' 0 4, b.extractLsb' 4 4]

/-- The cycles of the transmit clock from the first nibble of a frame to its completion: two for each byte, then the
gap (R148). -/
def txCycles (bs : List Byte) : Nat := 2 * bs.length + Config.gapCycles

/-- The frame in transmission on a port, up to the completion at the end of its gap (R147, R148): the reply at the head of
the reply queue, or the ready frame marked in transmission on the port. -/
def State.frameOnTrunk (s : State) (p : Port) : Option (List Byte) :=
  match (s.port p).tx with
  | .idle => none
  | .abortGap => none
  | .reply => (s.port p).replies.head?.map Reply.bytes
  | .sample i => ((s.stream i).ready.find? (fun f => f.inTx.get p)).map (sampleFrameBytes (s.stream i))

/-- The transmit nibble lines of a port t cycles of the transmit clock after the first nibble of the frame in
transmission; none where nothing is driven: on an IDLE port, in the gap after a frame, and in the gap after an abort
(R148, R157). -/
def State.txNibble (s : State) (p : Port) (t : Nat) : Option (BitVec 4) :=
  (s.frameOnTrunk p).bind fun f => (txNibbles f)[t]?

/-- The transmit enable of a port, TA_TXEN or TB_TXEN: high from the first nibble of a frame to its last (R148). -/
def State.txEnable (s : State) (p : Port) (t : Nat) : Bool := (s.txNibble p t).isSome

end Sys2Proof.Machine
end

