-- ==== Sys2Proof/Machine/DiscoveryList.lean ====
section
/-! DEFINITION. The Discovery List (chapter 9): arrivals of unknown tags, the aging sweep, and the removal of records. -/

namespace Sys2Proof.Machine

/-- An arrival whose tag has a record updates it in place (R165). -/
def DiscoveryRecord.update (p : Port) (f : List Byte) (r : DiscoveryRecord) : DiscoveryRecord :=
  { r with
    ports := r.ports.set p true, channels := frameChannels f, widthCode := frameWidthCode f,
    samples := observedSamples f, count := bump r.count, seen := true }

/-- The record an arrival makes (R166). -/
def DiscoveryRecord.fresh (p : Port) (f : List Byte) : DiscoveryRecord :=
  { tag := frameTag f, ports := PortSet.only p, channels := frameChannels f, widthCode := frameWidthCode f,
    samples := observedSamples f, firstSeq := frameSeq f, count := 1, seen := true }

/-- One arrival at the Discovery List: an update, a new record with DISCOVERY_NEW, or an overflow with DISCOVERY_FULL
(R165, R166). -/
def discover (p : Port) (f : List Byte) (s : State) : State :=
  let d := s.discovery
  let tag := frameTag f
  if d.records.any (·.tag == tag) then
    s.setDiscovery { d with records := d.records.map fun r => if r.tag == tag then r.update p f else r }
  else if d.records.length < Config.discoveryRecords then
    (s.setDiscovery { d with records := d.records ++ [DiscoveryRecord.fresh p f] }).post .discoveryNew (.port p) tag
  else (s.setDiscovery { d with overflow := bump d.overflow }).post .discoveryFull (.port p) tag

/-- DISCOVERY_CONFIG starts the aging interval again, and an interval that ran is abandoned (R168). -/
def Discovery.restart (d : Discovery) (uptime : Word) : Discovery := { d with restarted := some uptime }

/-- An expiry that comes with the DISCOVERY_CONFIG that started the interval again is that of the abandoned interval: the
one that runs lasts a second at least (R167, R171). At most one tick of the uptime can come with the two. -/
def Discovery.justRestarted (d : Discovery) (uptime : Word) : Bool :=
  d.restarted.any fun u => decide ((uptime - u).toNat < 2)

/-- A sweep removes the records whose seen flag is clear and clears the flag of the others; the interval is started again
(R167). -/
def Discovery.sweep (d : Discovery) : Discovery :=
  { d with records := (d.records.filter (·.seen)).map fun r => { r with seen := false }, restarted := none }

/-- The removal of the record of a tag (R16, R170). -/
def Discovery.remove (tag : Word) (d : Discovery) : Discovery :=
  { d with records := d.records.filter fun r => r.tag != tag }

/-- AGING_SWEEP (R167): no interval runs while A is off or before the PROM load has completed, so none expires, and the
sweep of an abandoned interval does not take place (R171). -/
def execAgingSweep (s : State) : Result :=
  .next (if s.phase = .started ∧ s.discovery.aging ≠ .off ∧ s.discovery.justRestarted s.events.uptime = false then
      s.setDiscovery s.discovery.sweep
    else s)

end Sys2Proof.Machine
end

