-- ==== Sys2Proof/Machine/Startup.lean ====
section
/-! DEFINITION. Reset and start-up (sections 10.5 and 10.6): the reset of every block, RESET#, the judging of the
configuration PROM image, the completion of the load, and the uptime tick. -/

namespace Sys2Proof.Machine

/-- A reset of every block: everything takes its value for after reset; the LINK inputs keep their levels, the commands
that wait still wait (R186). -/
def blockReset (cause : StartCause) (phase : Phase) (s : State) : State :=
  { State.reset with
    phase := phase,
    ports := ⟨PortState.blank (s.port .ta).linkPin, PortState.blank (s.port .tb).linkPin⟩,
    control := { State.reset.control with startCause := cause },
    pending := s.pending }

/-- POWER_ON (R186). -/
def execPowerOn (s : State) : Result := .next (blockReset .power .loading s)

/-- RESET_PIN_RECOGNISED: the reset takes effect with cause PIN, and the PROM is not read while RESET# stays low
(R186). -/
def execResetPinRecognised (s : State) : Result := .next (blockReset .pin .resetHeld s)

/-- RESET_PIN_RELEASE: start-up begins when RESET# rises after a recognised reset; a shorter low has no effect
(R186). -/
def execResetPinRelease (s : State) : Result :=
  .next (if s.phase = .resetHeld then { s with phase := .loading } else s)

/-- What start-up sends to the PROM: the read command and the address (R187). -/
def promReadCommand : List Byte := [0x03, 0x00, 0x00]

/-- The bits of a byte, most significant first: the order R187 states for the bytes read from PDIO, and the model's for the
bytes sent (log entry 30). -/
def pdioBits (b : Byte) : List Bool := (List.range 8).map b.getMsbD

/-- The bits of the read command and the address on PDIO, in the order in which they are sent. R187 says "most significant
bit first" of the bytes read alone: that the bytes sent go out in that order too is the model's choice (log entry 30,
DESIGN CHOICE). -/
def promReadBits : List Bool := promReadCommand.flatMap pdioBits

/-- A byte read from PDIO, most significant bit first (R187). -/
def byteOfPdio (bits : List Bool) : Byte := byteOf (ofBits bits)

/-- The first n bytes of the bits read from PDIO (R187). -/
def bytesOfPdio : Nat → List Bool → List Byte
  | 0, _ => []
  | n + 1, bits => byteOfPdio (bits.take 8) :: bytesOfPdio n (bits.drop 8)

/-- PCS is active while the PROM is read (R187). -/
def State.promSelected (s : State) : Bool := s.phase == .loading

/-- The clock periods of the PROM read (R187). -/
def promReadPeriods : Nat := (promReadCommand.length + 32) * 8

/-- The settings a start-up applies (R189). -/
structure PromSettings where
  nodeId : Half
  ports : ControlPorts
  aging : Aging
  modeTa : TxMode
  modeTb : TxMode
  deriving DecidableEq, Repr

/-- The control-port selection of a code (R174). -/
def controlPortsOfCode (n : Nat) : Option ControlPorts :=
  match n with
  | 0 => some .ta
  | 1 => some .tb
  | 2 => some .either
  | _ => none

/-- The aging interval of a code (R168). -/
def agingOfCode (n : Nat) : Option Aging :=
  match n with
  | 0 => some .off
  | 1 => some .s1
  | 2 => some .s2
  | 3 => some .s4
  | 4 => some .s8
  | _ => none

/-- The transmit mode of a code (R174). -/
def txModeOfCode (n : Nat) : Option TxMode :=
  match n with
  | 0 => some .strict
  | 1 => some .weighted
  | _ => none

/-- A node identity lies in 0x0001 to 0xFFFE (R175). -/
def nodeIdOk (n : Nat) : Bool := 1 ≤ n && n ≤ 0xFFFE

/-- Judge an image that is not ABSENT: its settings when every check holds, none when it is BAD (R188). -/
def judgeImage (image : List Byte) : Option PromSettings :=
  let modes := byteAt image 7
  if byteAt image 0 = 0x55 ∧ byteAt image 1 = 0x47 ∧ byteAt image 2 = 1 ∧ nodeIdOk (beAt image 3 2) ∧ modes ≤ 3
      ∧ ((image.drop 8).take 23).all (· == 0) ∧ (image.map BitVec.toNat).sum % 256 = 0 then
    match controlPortsOfCode (byteAt image 5), agingOfCode (byteAt image 6) with
    | some c, some a =>
      some
        { nodeId := BitVec.ofNat 16 (beAt image 3 2), ports := c, aging := a,
          modeTa := if modes % 2 = 1 then .weighted else .strict,
          modeTb := if modes / 2 = 1 then .weighted else .strict }
    | _, _ => none
  else none

/-- The defaults of an ABSENT or BAD load: node 0x7F00 plus the straps, EITHER, 2 s, STRICT (R189). -/
def promDefaults (straps : BitVec 3) : PromSettings :=
  { nodeId := Config.fallbackNode + straps.setWidth 16, ports := .either, aging := .s2, modeTa := .strict,
    modeTb := .strict }

/-- The result of a load and the settings it gives (R187, R188, R189). -/
def judgeLoad (image : List Byte) (straps : BitVec 3) : PromResult × PromSettings :=
  if image.all (· == 0xFF) then (.absent, promDefaults straps)
  else
    match judgeImage image with
    | some settings => (.loaded, settings)
    | none => (.bad, promDefaults straps)

/-- The code of a start cause (R174). -/
def StartCause.code : StartCause → Nat
  | .power => 0
  | .pin => 1
  | .request => 2

/-- The code of a PROM result (R174). -/
def PromResult.code : PromResult → Nat
  | .loaded => 0
  | .absent => 1
  | .bad => 2

/-- Apply the result of a load and start the aging interval (R167, R189, R190). -/
def applyLoad (r : PromResult × PromSettings) (s : State) : State :=
  { s with
    phase := .started,
    control := { s.control with nodeId := r.2.nodeId, ports := r.2.ports, promResult := r.1 },
    discovery := { s.discovery with aging := r.2.aging },
    ports := ⟨{ s.ports.ta with mode := r.2.modeTa }, { s.ports.tb with mode := r.2.modeTb }⟩ }

/-- A port takes up its LINK input at the completion of the load (R45). -/
def takeUpLink (p : Port) (s : State) : State :=
  let x := s.port p
  if x.linkPin then (s.setPort p { x with linkUp := true }).post .trunkUp (.port p) 0 else s

/-- Both ports take up their LINK inputs, in either order (R190 step 2). -/
def takeUpLinks (tbFirst : Bool) (s : State) : State :=
  if tbFirst then takeUpLink .ta (takeUpLink .tb s) else takeUpLink .tb (takeUpLink .ta s)

/-- The completion of the PROM load: its result is applied, DEVICE_STARTED is posted, and the ports take up their LINK
inputs (R189, R190). -/
def completeLoad (image : List Byte) (straps : BitVec 3) (tbFirst : Bool) (s : State) : State :=
  let s1 := applyLoad (judgeLoad image straps) s
  takeUpLinks tbFirst
    (s1.post .deviceStarted .none
      (BitVec.ofNat 32 (s1.control.startCause.code * 256 + s1.control.promResult.code)))

/-- PROM_LOAD_COMPLETION (R187, R190); without a load in progress no load completes. -/
def execPromLoadCompletion (pdio : Vector Bool 256) (straps : BitVec 3) (tbFirst : Bool) (s : State) : Result :=
  .next (if s.phase = .loading then completeLoad (bytesOfPdio 32 pdio.toList) straps tbFirst s else s)

/-- UPTIME_TICK: the uptime advances and wraps; it stays at 0 while RESET# is held low (R198). -/
def execUptimeTick (s : State) : Result :=
  .next (if s.phase = .resetHeld then s
    else s.setEvents { s.events with uptime := s.events.uptime + 1 })

end Sys2Proof.Machine
end

