-- ==== Sys2Proof/Machine/Operands.lean ====
section
/-! DEFINITION. The operands of the requests (sections 10.1 and 10.2): request codes, argument lengths and option
bytes, the codings of arguments and results, and the result layouts. -/

namespace Sys2Proof.Machine

/-! ## Codes (R172) -/

/-- The request a code names, none for an unknown code (R172, R173). -/
def RequestCode.ofByte (b : Byte) : Option RequestCode :=
  match b.toNat with
  | 0x01 => some .identify
  | 0x02 => some .status
  | 0x03 => some .trunkConfig
  | 0x04 => some .streamDefine
  | 0x05 => some .streamClear
  | 0x06 => some .streamStart
  | 0x07 => some .streamStop
  | 0x08 => some .streamQuery
  | 0x09 => some .slotAssign
  | 0x0A => some .slotQuery
  | 0x0B => some .laneConfig
  | 0x0C => some .laneStart
  | 0x0D => some .laneStop
  | 0x0E => some .clockConfig
  | 0x0F => some .counters
  | 0x10 => some .discoveryList
  | 0x11 => some .discoveryConfig
  | 0x12 => some .eventsFetch
  | 0x13 => some .eventConfig
  | 0x14 => some .deviceReset
  | _ => none

/-- The status codes (R172). -/
def Status.code : Status → Byte
  | .ok => 0
  | .queued => 1
  | .malformed => 2
  | .index => 3
  | .value => 4
  | .state => 5
  | .busy => 6
  | .tagConflict => 7
  | .full => 8

/-! ## Framing (R173) -/

/-- The argument length of STREAM_DEFINE, which depends on its direction and channels bytes (R174). -/
def defineLengthOk (a : List Byte) : Bool :=
  match byteAt a 1 with
  | 0 => a.length == 13
  | 1 => 7 ≤ a.length && a.length == 12 + byteAt a 6
  | _ => 10 ≤ a.length

/-- Whether the argument length is the one the layout gives (R173, R174). -/
def RequestCode.lengthOk (c : RequestCode) (a : List Byte) : Bool :=
  match c with
  | .identify | .status | .deviceReset => a.length == 0
  | .trunkConfig => a.length == 5
  | .streamDefine => defineLengthOk a
  | .streamClear | .streamStart => a.length == 1
  | .streamStop | .streamQuery => a.length == 2
  | .slotAssign => a.length == 4
  | .slotQuery | .laneStart | .laneStop => a.length == 1
  | .laneConfig => a.length == 9
  | .clockConfig => a.length == 13
  | .counters => a.length == 3
  | .discoveryList => a.length == 1
  | .discoveryConfig => a.length == 2
  | .eventsFetch => a.length == 1
  | .eventConfig => a.length == 16

/-- The place of a request's option byte among its arguments (R173). -/
def RequestCode.optionAt : RequestCode → Option Nat
  | .streamStop => some 1
  | .streamQuery => some 1
  | .clockConfig => some 12
  | .counters => some 2
  | .discoveryList => some 0
  | .discoveryConfig => some 1
  | .identify | .status | .trunkConfig | .streamDefine | .streamClear | .streamStart | .slotAssign | .slotQuery
  | .laneConfig | .laneStart | .laneStop | .eventsFetch | .eventConfig | .deviceReset => none

/-- Whether the option byte at argument k chooses the option (clear, discard, flush, trim reset) rather than keep. The spec
gives the byte the values 0 and 1 (R173) and does not say which is which: that 1 chooses the option and 0 is keep is the
model's choice (log entry 28, DESIGN CHOICE). -/
def optionChosen (a : List Byte) (k : Nat) : Bool := byteAt a k == 1

/-- Whether a request is framed as its layout asks: the length, and an option byte of 0 or 1 (R173). -/
def RequestCode.framed (c : RequestCode) (a : List Byte) : Bool :=
  c.lengthOk a &&
    match c.optionAt with
    | some k => byteAt a k ≤ 1
    | none => true

/-! ## Codings (R174) -/

/-- Stream state. -/
def StreamState.code : StreamState → Nat
  | .empty => 0
  | .idle => 1
  | .waiting => 2
  | .armed => 3
  | .running => 4
  | .starved => 5
  | .draining => 6

/-- Direction. -/
def Direction.code : Direction → Nat
  | .playout => 0
  | .capture => 1

/-- Concealment. -/
def Conceal.code : Conceal → Nat
  | .zero => 0
  | .hold => 1

/-- Concealment of a code. -/
def concealOfCode (n : Nat) : Option Conceal :=
  match n with
  | 0 => some .zero
  | 1 => some .hold
  | _ => none

/-- Egress and ports seen: TA 1, TB 2, both 3. -/
def PortSet.code (x : PortSet) : Nat := (if x.ta then 1 else 0) + (if x.tb then 2 else 0)

/-- Egress of a code: TA, TB or BOTH. -/
def egressOfCode (n : Nat) : Option PortSet :=
  match n with
  | 1 => some ⟨true, false⟩
  | 2 => some ⟨false, true⟩
  | 3 => some ⟨true, true⟩
  | _ => none

/-- Port index. -/
def portCode : Port → Nat
  | .ta => 0
  | .tb => 1

/-- Port of an index. -/
def portOfCode (n : Nat) : Option Port :=
  match n with
  | 0 => some .ta
  | 1 => some .tb
  | _ => none

/-- Generator index. -/
def genCode : GenIdx → Nat
  | .mcg0 => 0
  | .mcg1 => 1

/-- Generator of an index. -/
def genOfCode (n : Nat) : Option GenIdx :=
  match n with
  | 0 => some .mcg0
  | 1 => some .mcg1
  | _ => none

/-- Control ports. -/
def ControlPorts.code : ControlPorts → Nat
  | .ta => 0
  | .tb => 1
  | .either => 2

/-- Transmit mode. -/
def TxMode.code : TxMode → Nat
  | .strict => 0
  | .weighted => 1

/-- Lane state. -/
def LaneState.code : LaneState → Nat
  | .off => 0
  | .seeking => 1
  | .running => 2
  | .lost => 3

/-- Lane direction. -/
def LaneDirection.code : LaneDirection → Nat
  | .out => 0
  | .inp => 1
  | .both => 2

/-- Lane direction of a code. -/
def laneDirectionOfCode (n : Nat) : Option LaneDirection :=
  match n with
  | 0 => some .out
  | 1 => some .inp
  | 2 => some .both
  | _ => none

/-- Role. -/
def Role.code : Role → Nat
  | .master0 => 0
  | .master1 => 1
  | .slave => 2

/-- Role of a code. -/
def roleOfCode (n : Nat) : Option Role :=
  match n with
  | 0 => some .master0
  | 1 => some .master1
  | 2 => some .slave
  | _ => none

/-- Sync shape. -/
def SyncShape.code : SyncShape → Nat
  | .pulse => 0
  | .slot => 1
  | .half => 2

/-- Sync shape of a code. -/
def syncShapeOfCode (n : Nat) : Option SyncShape :=
  match n with
  | 0 => some .pulse
  | 1 => some .slot
  | 2 => some .half
  | _ => none

/-- Sync polarity. -/
def SyncPolarity.code : SyncPolarity → Nat
  | .high => 0
  | .low => 1

/-- Sync polarity of a code. -/
def polarityOfCode (n : Nat) : Option SyncPolarity :=
  match n with
  | 0 => some .high
  | 1 => some .low
  | _ => none

/-- Clock edge. -/
def ClockEdge.code : ClockEdge → Nat
  | .driveFalling => 0
  | .driveRising => 1

/-- Clock edge of a code. -/
def clockEdgeOfCode (n : Nat) : Option ClockEdge :=
  match n with
  | 0 => some .driveFalling
  | 1 => some .driveRising
  | _ => none

/-- A data delay of 0 or 1 bit period. -/
def delayOfCode (n : Nat) : Option Bool :=
  match n with
  | 0 => some false
  | 1 => some true
  | _ => none

/-- Aging interval (R168). -/
def Aging.code : Aging → Nat
  | .off => 0
  | .s1 => 1
  | .s2 => 2
  | .s4 => 3
  | .s8 => 4

/-- Event kind (R192). -/
def EventKind.code : EventKind → Nat
  | .deviceStarted => 0x01
  | .trunkUp => 0x02
  | .trunkDown => 0x03
  | .laneRunning => 0x04
  | .laneLost => 0x05
  | .streamAdmitted => 0x06
  | .streamRunning => 0x07
  | .streamStarved => 0x08
  | .streamResync => 0x09
  | .streamEnded => 0x0A
  | .captureOverrun => 0x0B
  | .drainDone => 0x0C
  | .servoLimit => 0x0D
  | .discoveryNew => 0x0E
  | .discoveryFull => 0x0F
  | .replyLost => 0x10

/-- Event source: its type and its index. -/
def Source.code : Source → Nat × Nat
  | .none => (0, 0)
  | .stream i => (1, i.val)
  | .lane l => (2, l.val)
  | .port p => (3, portCode p)
  | .gen g => (4, genCode g)

/-- A two-valued field whose coding R174 states: link (DOWN 0, UP 1), generator state (OFF 0, RUNNING 1), E unset 0 or set
1, data delay 0 or 1. -/
def flagCode (b : Bool) : Nat := if b then 1 else 0

/-- The gap flag and the seen flag of a result. R174 gives each one byte and no coding: 1 for set and 0 for clear is the
model's choice (log entry 29, DESIGN CHOICE). -/
def setClearCode (b : Bool) : Nat := if b then 1 else 0

/-- A channel-slot item of a code: a slot 0-31, or NONE (inner none); no item for other codes (R12). -/
def channelSlotOfCode (n : Nat) : Option (Option (Fin 32)) :=
  if n = 0xFF then some none else (finOf 32 n).map some

/-- A channel-slot item. -/
def channelSlotCode : Option (Fin 32) → Nat
  | some k => k.val
  | none => 0xFF

/-- Numbers as bytes, one each. -/
def bytesOf (ns : List Nat) : List Byte := ns.map byteOf

/-- Counters as bytes, four each. -/
def wordsOf (ws : List Word) : List Byte := ws.flatMap fun w => be4 w.toNat

/-- An out-slot entry: stream and channel, both 0xFF when empty. -/
def outSlotBytes : Option OutSlot → List Byte
  | some e => bytesOf [e.stream.val, e.channel.val]
  | none => bytesOf [0xFF, 0xFF]

/-- A reference stream: its index, 0xFF for none. -/
def referenceCode : Option StreamIdx → Nat
  | some i => i.val
  | none => 0xFF

/-- A signed 16-bit field. -/
def signed2 (t : Int) : List Byte := be2 (BitVec.ofInt 16 t).toNat

/-! ## Counters in the order of their tables (R8, R9, R60, R112, R161) -/

/-- The nine playout counters. -/
def PlayoutCounters.list (c : PlayoutCounters) : List Word :=
  [c.stored, c.duplicates, c.late, c.ahead, c.lost, c.starvations, c.resyncs, c.formatErrors, c.ends]

/-- The five capture counters. -/
def CaptureCounters.list (c : CaptureCounters) : List Word :=
  [c.closed, c.sentTa, c.sentTb, c.overruns, c.partials]

/-- The nine receive counters. -/
def RxCounters.list (c : RxCounters) : List Word :=
  [c.good, c.malformed, c.checkErrors, c.unknownKind, c.unknownTag, c.inactive, c.accepted, c.dropped,
    c.notAddressed]

/-- The four transmit counters. -/
def TxCounters.list (c : TxCounters) : List Word := [c.samplesSent, c.repliesSent, c.aborted, c.repliesLost]

/-- The three lane counters. -/
def LaneCounters.list (c : LaneCounters) : List Word := [c.frameEvents, c.syncLosses, c.entries]

/-! ## Result layouts (R174) -/

/-- The eight configuration fields of a lane, in LANE_CONFIG order. -/
def LaneConfig.bytes (c : LaneConfig) : List Byte :=
  bytesOf
    [c.direction.code, c.role.code, c.slots, c.slotWidth.code, c.syncShape.code, c.polarity.code,
      flagCode c.delayOne, c.clockEdge.code]

/-- The part of a STREAM_QUERY result both directions share. -/
def Stream.headBytes (st : Stream) : List Byte :=
  bytesOf [st.state.code, st.direction.code] ++ be4 st.tag.toNat
    ++ bytesOf [st.channels, st.width.code, st.frameSamples, st.lane.val, st.cellsPerFrame] ++ be2 st.reserved

/-- The STREAM_QUERY result of a playout entry, and of an EMPTY one; the coding of the gap flag is the model's (log entry
29). -/
def Stream.playoutBytes (st : Stream) : List Byte :=
  st.headBytes
    ++ bytesOf [st.depthMax, st.depthTarget, st.conceal.code, flagCode st.expected.isSome]
    ++ be2 (st.expected.getD 0).toNat ++ bytesOf [st.held, setClearCode st.gap] ++ wordsOf st.playout.list

/-- The STREAM_QUERY result of a capture entry. -/
def Stream.captureBytes (st : Stream) : List Byte :=
  st.headBytes ++ bytesOf [st.level, st.egress.code, st.ready.length] ++ be2 st.nextSeq.toNat
    ++ wordsOf st.capture.list ++ bytesOf (st.channelSlots.map channelSlotCode)

/-- The result of a STREAM_QUERY (R18). -/
def Stream.queryBytes (st : Stream) : List Byte :=
  match st.direction with
  | .playout => st.playoutBytes
  | .capture => st.captureBytes

/-- The result of a CLOCK_CONFIG: the generator's settings (R119). -/
def Gen.settingBytes (g : Gen) : List Byte :=
  be4 g.num ++ be4 g.den ++ bytesOf [flagCode g.isRunning, referenceCode g.reference, g.step, g.window]
    ++ signed2 g.trim ++ be2 g.reviewCount

/-- What STATUS reports of a generator (R181). -/
def Gen.statusBytes (g : Gen) : List Byte := bytesOf [flagCode g.isRunning] ++ signed2 g.trim ++ be2 g.reviewCount

/-- What STATUS reports of a port's transmit side: mode and credits for levels 2, 1, 0 (R181). -/
def PortState.statusBytes (x : PortState) : List Byte :=
  bytesOf [x.mode.code, x.credits.l2, x.credits.l1, x.credits.l0]

/-- One record of a DISCOVERY_LIST result; the coding of the seen flag is the model's (log entry 29). -/
def DiscoveryRecord.bytes (r : DiscoveryRecord) : List Byte :=
  be4 r.tag.toNat ++ bytesOf [r.ports.code, r.channels.toNat, r.widthCode.toNat] ++ be2 r.samples
    ++ be2 r.firstSeq.toNat ++ be4 r.count.toNat ++ bytesOf [setClearCode r.seen]

/-- One record of an EVENTS_FETCH result. -/
def EventRecord.bytes (r : EventRecord) : List Byte :=
  bytesOf [r.kind.code, r.source.code.1, r.source.code.2, r.level.val] ++ be4 r.detail.toNat
    ++ bytesOf [r.repeats.toNat] ++ be4 r.firstTime.toNat

end Sys2Proof.Machine
end

