-- ==== Sys2Proof/Machine/CellMemory.lean ====
section
/-! DEFINITION. Cell Memory and admission (chapter 2): the unreserved count, the admission test of the wait list, and
the release of a reservation. -/

namespace Sys2Proof.Machine

/-- The sum of all current reservations (R23). -/
def State.reservedCells (s : State) : Nat := (streamIndices.map fun i => (s.stream i).reserved).sum

/-- The unreserved count: 1024 minus the sum of all current reservations (R25). -/
def State.unreserved (s : State) : Nat := Config.cells - s.reservedCells

/-- A stream enters ARMED from IDLE or WAITING with an empty window and nothing under construction or ready (R62,
R129). The hold values are carried as they stand. -/
def Stream.enterArmed (st : Stream) : Stream :=
  { st with
    state := .armed, expected := none, window := [], gap := false, misplaced := 0, readIndex := 0,
    construction := none, firstOfRun := false, ready := [] }

/-- Admit the streams at the head of a wait list while each fits, posting STREAM_ADMITTED for each; the first that
does not fit and those behind it stay (R30). -/
def admitFrom : List StreamIdx → State → State
  | [], s => s.setWaitList []
  | i :: rest, s =>
    let st := s.stream i
    if st.reservation ≤ s.unreserved then
      admitFrom rest ((s.setStream i st.enterArmed).post .streamAdmitted (.stream i) (BitVec.ofNat 32 st.reservation))
    else s.setWaitList (i :: rest)

/-- The admission test of the wait list (R30). -/
def admissionTest (s : State) : State := admitFrom s.waitList s

/-- A stream whose frames have been released goes to IDLE, its reservation is released and the admission test follows
within the same event (R31). -/
def releaseToIdle (i : StreamIdx) (s : State) : State :=
  admissionTest (s.setStream i { s.stream i with state := .idle })

/-- STREAM_STOP of a WAITING stream: it leaves the wait list for IDLE, and when it was the head the new head is tested
(R34). -/
def stopWaiting (i : StreamIdx) (s : State) : State :=
  let s1 := (s.setStream i { s.stream i with state := .idle }).setWaitList (s.waitList.filter (· != i))
  if s.waitList.head? = some i then admissionTest s1 else s1

end Sys2Proof.Machine
end

