-- ==== Sys2Proof/Machine/Playout.lean ====
section
/-! DEFINITION. The Playout Engine (chapter 4): the arrival of a frame at a reorder window, the step of a stream at a
frame event of its timing lane, and the release of a window. -/

namespace Sys2Proof.Machine

/-- A 16-bit sequence number as an event detail. -/
def seqDetail (x : Half) : Word := x.setWidth 32

/-! ## Arrivals (section 4.2) -/

/-- Store a frame at a window position: counted in frames stored, and the misplaced-run count goes to 0 (R64). -/
def Stream.storeAt (st : Stream) (d : Nat) (f : PlayFrame) : Stream :=
  { st with
    window := st.window.set d (some f), misplaced := 0,
    playout := { st.playout with stored := bump st.playout.stored } }

/-- Open a window at a frame: E becomes its sequence number and it is stored at position 0 (R65, R68 step 3). -/
def Stream.openWindow (st : Stream) (f : PlayFrame) : Stream :=
  Stream.storeAt { st with expected := some f.seq, window := List.replicate st.depthMax none } 0 f

/-- Count a misplaced arrival at distance d: ahead up to 32767, else late; the misplaced-run count rises (R63, R67). -/
def Stream.countMisplaced (st : Stream) (d : Nat) : Stream :=
  { st with
    misplaced := st.misplaced + 1,
    playout :=
      if d ≤ 32767 then { st.playout with ahead := bump st.playout.ahead }
      else { st.playout with late := bump st.playout.late } }

/-- A resync onto a frame: the window is released, E is the frame's sequence, the frame is stored at position 0 and
the stream is ARMED (R68). -/
def Stream.resync (st : Stream) (f : PlayFrame) : Stream :=
  Stream.openWindow
    { st with
      gap := false, readIndex := 0, state := .armed,
      playout := { st.playout with resyncs := bump st.playout.resyncs } } f

/-- One arrival at an active playout stream, with the events it posts (R65 to R68). -/
def Stream.arrive (st : Stream) (f : PlayFrame) : Stream × List (EventKind × Word) :=
  match st.expected with
  | none => (st.openWindow f, [])
  | some e =>
    let d := (f.seq - e).toNat
    if d < st.depthMax then
      if (st.window.getD d none).isSome then
        ({ st with playout := { st.playout with duplicates := bump st.playout.duplicates } }, [])
      else if d = 0 ∧ st.gap then
        ({ st with playout := { st.playout with late := bump st.playout.late } }, [])
      else (st.storeAt d f, [])
    else
      let st1 := st.countMisplaced d
      if Config.misplacedLimit ≤ st1.misplaced then (st1.resync f, [(.streamResync, seqDetail f.seq)])
      else (st1, [])

/-! ## Frame events (sections 4.3 to 4.5) -/

/-- What one step of a stream at a frame event leaves: the entry, one word per channel, the events posted, and whether
the stream entered RUNNING at the event. -/
structure PlayStep where
  stream : Stream
  words : List Word
  posts : List (EventKind × Word)
  entered : Bool
  deriving DecidableEq, Repr

/-- A zero word for every channel. -/
def Stream.zeroWords (st : Stream) : List Word := List.replicate st.channels 0

/-- Concealment words, by the concealment setting (R79). -/
def Stream.concealWords (st : Stream) : List Word :=
  match st.conceal with
  | .zero => st.zeroWords
  | .hold => st.hold

/-- The words of sample i of a frame, one per channel (R43). -/
def Stream.sampleWords (st : Stream) (f : PlayFrame) (i : Nat) : List Word :=
  (f.words.drop (i * st.channels)).take st.channels

/-- The play length of a frame: F, or S for an END frame (R73). -/
def Stream.playLength (st : Stream) (f : PlayFrame) : Nat := if f.isEnd then f.samples else st.frameSamples

/-- Release every frame and unset E (R82, R83, R84). -/
def Stream.flushWindow (st : Stream) : Stream :=
  { st with expected := none, window := [], gap := false, misplaced := 0, readIndex := 0 }

/-- Move E and the window n sequences on (R74, R80). -/
def Stream.advance (st : Stream) (n : Nat) : Stream :=
  { st with
    expected := st.expected.map (· + BitVec.ofNat 16 n),
    window := st.window.drop n ++ List.replicate (min n st.window.length) none,
    readIndex := 0 }

/-- The completion of an END frame: the window is released and the stream goes to ARMED (R82). -/
def Stream.completeEnd (st : Stream) : Stream :=
  { st.flushWindow with state := .armed, playout := { st.playout with ends := bump st.playout.ends } }

/-- The event an END completion posts (R82). -/
def endPost (f : PlayFrame) : EventKind × Word := (.streamEnded, seqDetail f.seq)

/-- Give sample i of the frame at position E; the last sample of its play length completes the frame (R73, R74, R75,
R81). -/
def Stream.giveSample (st : Stream) (f : PlayFrame) (i : Nat) : PlayStep :=
  let words := st.sampleWords f i
  let st1 := { st with hold := words, readIndex := i + 1 }
  if i + 1 < st.playLength f then { stream := st1, words := words, posts := [], entered := false }
  else if f.isEnd then { stream := st1.completeEnd, words := words, posts := [endPost f], entered := false }
  else { stream := st1.advance 1, words := words, posts := [], entered := false }

/-- The end of a gap: the position is counted lost and E advances (R77). -/
def Stream.endGap (st : Stream) : Stream :=
  { st.advance 1 with gap := false, playout := { st.playout with lost := bump st.playout.lost } }

/-- One lane frame of a gap is given; after the F-th the gap ends (R76, R77). -/
def Stream.gapStep (st : Stream) : PlayStep :=
  let st1 := { st with gap := true, readIndex := st.readIndex + 1 }
  { stream := if st1.readIndex < st.frameSamples then st1 else st1.endGap,
    words := st.concealWords, posts := [], entered := false }

/-- The event a starvation posts: the frozen E (R78). -/
def Stream.sequencePost (st : Stream) (kind : EventKind) : EventKind × Word := (kind, seqDetail (st.expected.getD 0))

/-- The stream starves (R78). -/
def Stream.starve (st : Stream) : PlayStep :=
  { stream :=
      { st with state := .starved, playout := { st.playout with starvations := bump st.playout.starvations } },
    words := st.concealWords, posts := [st.sequencePost .streamStarved], entered := false }

/-- The frame at position E. -/
def Stream.front (st : Stream) : Option PlayFrame := st.window.head?.join

/-- The boundary step of a RUNNING stream: play the frame at position E, begin a gap, or starve (R73, R76, R78, R81). -/
def Stream.boundary (st : Stream) : PlayStep :=
  match st.front with
  | some f =>
    if f.isEnd && f.samples == 0 then
      { stream := st.completeEnd, words := st.zeroWords, posts := [endPost f], entered := false }
    else st.giveSample f 0
  | none => if 0 < st.held then st.gapStep else st.starve

/-- Entry to RUNNING at a frame event, with the boundary step at the same event (R72, R80). -/
def Stream.enterRunning (st : Stream) : PlayStep :=
  let st1 := { st with state := .running }
  let r := st1.boundary
  { r with posts := st1.sequencePost .streamRunning :: r.posts, entered := true }

/-- The position of the oldest frame held (R80). -/
def Stream.oldest (st : Stream) : Nat := st.window.findIdx Option.isSome

/-- Leaving STARVED: E advances to the oldest frame held, and each position passed over is lost (R80). -/
def Stream.skipToOldest (st : Stream) : Stream :=
  { st.advance st.oldest with playout := { st.playout with lost := bumpBy st.playout.lost st.oldest } }

/-- The step of a playout stream at a frame event of its timing lane (R72 to R82). A stream that is not active takes
no step and gives no words (R71). -/
def Stream.playStep (st : Stream) : PlayStep :=
  match st.state with
  | .armed =>
    if st.held < st.depthTarget then { stream := st, words := st.zeroWords, posts := [], entered := false }
    else st.enterRunning
  | .running =>
    if st.gap then st.gapStep
    else if st.readIndex = 0 then st.boundary
    else
      match st.front with
      | some f => st.giveSample f st.readIndex
      | none => st.boundary
  | .starved =>
    if st.held < st.depthTarget then { stream := st, words := st.concealWords, posts := [], entered := false }
    else st.skipToOldest.enterRunning
  | .empty | .idle | .waiting | .draining => { stream := st, words := [], posts := [], entered := false }

/-- One playout stream takes its step at a frame event (R71, R103). -/
def playTask (i : StreamIdx) (s : State) : State :=
  let r := (s.stream i).playStep
  (s.setStream i r.stream).postAll (.stream i) r.posts

/-! ## Stopping (section 4.6) -/

/-- STREAM_STOP of an active playout stream: its frames are released, it goes to IDLE, and its reservation is released
with the admission test (R83). -/
def stopPlayout (i : StreamIdx) (s : State) : State := releaseToIdle i (s.setStream i (s.stream i).flushWindow)

end Sys2Proof.Machine
end

