-- ==== Sys2Proof/Machine/Transmit.lean ====
section
/-! DEFINITION. The Transmit Arbiters (sections 8.2 and 8.3): what is eligible at a port, the choice in either mode,
and the grant. -/

namespace Sys2Proof.Machine

/-- A ready frame that a port still owes a transmission and is not sending (R149). -/
def ReadyFrame.owedOn (p : Port) (f : ReadyFrame) : Bool := f.pendingOn.get p && !f.inTx.get p

/-- A capture stream whose ready list holds a frame pending on a port and not in transmission on it (R149). -/
def Stream.eligibleAt (p : Port) (st : Stream) : Bool := st.direction == .capture && st.ready.any (ReadyFrame.owedOn p)

/-- The streams with an eligible sample frame at a port, lowest index first (R149). -/
def State.eligible (s : State) (p : Port) : List StreamIdx := s.streamsWhere (Stream.eligibleAt p)

/-- The lowest stream index of a level among the eligible (R153). -/
def State.firstAt (s : State) (is : List StreamIdx) (level : Nat) : Option StreamIdx :=
  is.find? (fun i => (s.stream i).level == level)

/-- The choice of a STRICT port: the highest level present (R151). -/
def State.strictChoice (s : State) (is : List StreamIdx) : Option StreamIdx :=
  [2, 1, 0].findSome? (s.firstAt is)

/-- The credit of a level. -/
def Credits.of (c : Credits) : Nat → Nat
  | 2 => c.l2
  | 1 => c.l1
  | _ => c.l0

/-- Spend one credit of a level (R152). -/
def Credits.spend (c : Credits) : Nat → Credits
  | 2 => { c with l2 := c.l2 - 1 }
  | 1 => { c with l1 := c.l1 - 1 }
  | _ => { c with l0 := c.l0 - 1 }

/-- Step 1 of R152: among the levels with an eligible frame, the highest whose credit is above 0. -/
def State.creditChoice (s : State) (is : List StreamIdx) (c : Credits) : Option StreamIdx :=
  [2, 1, 0].findSome? fun level => if 0 < c.of level then s.firstAt is level else none

/-- The choice of a WEIGHTED port and the credits after it: when no eligible level has credit, the credits are
reloaded and the choice is made again (R152). -/
def State.weightedChoice (s : State) (is : List StreamIdx) (c : Credits) : Option (StreamIdx × Credits) :=
  match s.creditChoice is c with
  | some i => some (i, c.spend (s.stream i).level)
  | none => (s.creditChoice is {}).map fun i => (i, Credits.spend {} (s.stream i).level)

/-- The stream whose frame a port grants and the port's credits after the grant (R151, R152). -/
def State.choose (s : State) (p : Port) : Option (StreamIdx × Credits) :=
  let is := s.eligible p
  match (s.port p).mode with
  | .strict => (s.strictChoice is).map fun i => (i, (s.port p).credits)
  | .weighted => s.weightedChoice is (s.port p).credits

/-- Mark the oldest frame owed on a port as in transmission on it (R149, R153). -/
def markGranted (p : Port) : List ReadyFrame → List ReadyFrame
  | [] => []
  | f :: fs => if f.owedOn p then { f with inTx := f.inTx.set p true } :: fs else f :: markGranted p fs

/-- Grant a sample frame of a stream on a port (R153). -/
def grantSample (p : Port) (i : StreamIdx) (credits : Credits) (s : State) : State :=
  (s.setStream i { s.stream i with ready := markGranted p (s.stream i).ready }).setPort p
    { s.port p with tx := .sample i, credits := credits }

/-- Run the arbiter of a port: at an UP port with an IDLE transmitter the reply at the head of the queue is granted,
else the chosen sample frame; nothing happens when nothing is eligible (R150, R151). -/
def runArbiter (p : Port) (s : State) : State :=
  let x := s.port p
  if x.linkUp && x.tx == .idle then
    if x.replies.isEmpty then
      match s.choose p with
      | some (i, credits) => grantSample p i credits s
      | none => s
    else s.setPort p { x with tx := .reply }
  else s

/-- The arbiters of both ports run at an event (R150). The two grants do not order against one another (R162). -/
def runArbiters (s : State) : State := runArbiter .tb (runArbiter .ta s)

end Sys2Proof.Machine
end

