-- ==== Sys2Proof/Machine/Capture.lean ====
section
/-! DEFINITION. The Capture Packer (chapter 7): taking samples, closing frames, overrun, stopping, draining, and the
loss of the timing lane. -/

namespace Sys2Proof.Machine

/-! ## Slot words (R105, R106, R131) -/

/-- A slot's bits as a sample word: they fill the word from its most significant bit (R105). -/
def leftJustify (w : Width) (x : Word) : Word := x <<< (32 - w.bits)

/-- The bits of a word that a slot carries: its upper bits, the lower dropped without rounding (R104). -/
def slotBits (w : Width) (x : Word) : Word := x >>> (32 - w.bits)

/-- The bits that a lane receives in a slot: the slots follow one another in the data of the frame, each with its most
significant bit first (R93). -/
def LaneConfig.slotLevels (c : LaneConfig) (line : PinLevels) (slot : Nat) : List Bool :=
  (List.range c.slotWidth.bits).map fun k => line.getLsbD (c.dataPeriod (slot * c.slotWidth.bits + k))

/-- The in-slot word a lane offers for a slot, put together from Ln_DIN: 0 on a lane of direction OUT and at or beyond the
slot count (R93, R105, R131). -/
def LaneConfig.inWord (c : LaneConfig) (line : PinLevels) (k : Fin 32) : Word :=
  if c.takes && k.val < c.slots then leftJustify c.slotWidth (BitVec.ofNat 32 (ofBits (c.slotLevels line k.val))) else 0

/-- The words a capture stream takes at a frame event, one per channel (R131). -/
def Stream.takeWords (st : Stream) (c : LaneConfig) (line : PinLevels) : List Word :=
  st.channelSlots.map fun item =>
    match item with
    | some k => c.inWord line k
    | none => 0

/-! ## Closing a frame (section 7.3) -/

/-- The ports of a set that are UP (R132 step 5). -/
def State.upPorts (s : State) (x : PortSet) : PortSet :=
  ⟨x.ta && (s.port .ta).linkUp, x.tb && (s.port .tb).linkUp⟩

/-- The frame a close makes of the construction (R132 steps 1 to 5, R137). -/
def closingFrame (s : State) (st : Stream) (isEnd : Bool) : ReadyFrame :=
  let con := st.construction.getD ⟨0, []⟩
  { seq := st.nextSeq, isFirst := st.firstOfRun, isEnd := isEnd, samples := con.count, words := con.words,
    source := s.control.nodeId, pendingOn := s.upPorts st.egress, inTx := PortSet.none }

/-- What a close does to the entry beside disposing of the frame (R132 steps 1, 2, 4 and 7). -/
def Stream.afterClose (st : Stream) (isEnd : Bool) : Stream :=
  { st with
    nextSeq := st.nextSeq + 1, firstOfRun := false,
    construction := if isEnd then none else some ⟨0, []⟩,
    capture := { st.capture with closed := bump st.capture.closed } }

/-- Count an overrun drop (R134). -/
def Stream.countOverrun (st : Stream) : Stream :=
  { st with capture := { st.capture with overruns := bump st.capture.overruns } }

/-- Dispose of a closing frame: released at once without an UP port (R133), appended while the ready list has room,
else the overrun choice, whose victim's sequence is given back (R134). -/
def Stream.dispose (st : Stream) (f : ReadyFrame) : Stream × Option Half :=
  if f.pendingOn.isNone then (st, none)
  else if st.ready.length < Config.readyFrames then ({ st with ready := st.ready ++ [f] }, none)
  else
    match st.ready.find? (fun v => v.inTx.isNone) with
    | some v =>
      ({ st.countOverrun with ready := st.ready.eraseP (fun v => v.inTx.isNone) ++ [f] }, some v.seq)
    | none => (st.countOverrun, some f.seq)

/-- The close of the frame under construction, full or as an END frame (R132, R137). -/
def closeFrame (isEnd : Bool) (i : StreamIdx) (s : State) : State :=
  let st := s.stream i
  let r := (st.afterClose isEnd).dispose (closingFrame s st isEnd)
  let s1 := s.setStream i r.1
  match r.2 with
  | some victim => s1.post .captureOverrun (.stream i) (seqDetail victim)
  | none => s1

/-! ## Running (section 7.2) -/

/-- Add one sample group to the frame under construction (R131). -/
def Stream.addGroup (st : Stream) (words : List Word) : Stream :=
  let con := st.construction.getD ⟨0, []⟩
  { st with construction := some ⟨con.count + 1, con.words ++ words⟩ }

/-- Whether the construction holds F samples (R132). -/
def Stream.constructionFull (st : Stream) : Bool :=
  match st.construction with
  | some con => st.frameSamples ≤ con.count
  | none => false

/-- A RUNNING capture stream takes the samples of the frame just ended, and closes a full frame (R131, R132). -/
def takeSamples (c : LaneConfig) (line : PinLevels) (i : StreamIdx) (s : State) : State :=
  let st := (s.stream i).addGroup ((s.stream i).takeWords c line)
  let s1 := s.setStream i st
  if st.constructionFull then closeFrame false i s1 else s1

/-- Entry to RUNNING: the first-of-run mark is set and a frame under construction begins (R130). -/
def Stream.beginRun (st : Stream) : Stream :=
  { st with state := .running, firstOfRun := true, construction := some ⟨0, []⟩ }

/-- One capture stream acts at a frame event of its timing lane (R130, R131); the arbiters run at its close (R150). -/
def captureTask (c : LaneConfig) (line : PinLevels) (i : StreamIdx) (s : State) : State :=
  let st := s.stream i
  match st.state with
  | .armed =>
    runArbiters ((takeSamples c line i (s.setStream i st.beginRun)).post .streamRunning (.stream i)
      (seqDetail st.nextSeq))
  | .running => runArbiters (takeSamples c line i s)
  | .empty | .idle | .waiting | .starved | .draining => s

/-! ## Stopping and draining (sections 7.5 and 7.6) -/

/-- The completion of a drain: the stream goes to IDLE, its reservation is released with the admission test, and
DRAIN_DONE is posted (R141). -/
def finishDrain (i : StreamIdx) (s : State) : State :=
  let next := (s.stream i).nextSeq
  (releaseToIdle i s).post .drainDone (.stream i) (seqDetail next)

/-- A DRAINING stream whose ready list is empty completes its drain (R141). -/
def finishDrainIfEmpty (i : StreamIdx) (s : State) : State :=
  if (s.stream i).state = .draining ∧ (s.stream i).ready = [] then finishDrain i s else s

/-- STREAM_STOP without discard of a RUNNING capture stream: an END frame closes, and the stream enters DRAINING
(R137). -/
def stopRunning (i : StreamIdx) (s : State) : State :=
  let s1 := runArbiters (closeFrame true i s)
  finishDrainIfEmpty i (s1.setStream i { s1.stream i with state := .draining })

/-- Release the frame under construction, counting one that holds a sample (R138 step 1, R142). -/
def Stream.dropConstruction (st : Stream) : Stream :=
  match st.construction with
  | some con =>
    { st with
      construction := none,
      capture :=
        if con.count = 0 then st.capture else { st.capture with partials := bump st.capture.partials } }
  | none => st

/-- STREAM_STOP with discard of a RUNNING capture stream: only frames in transmission stay, each pending where it is
being sent; without one the stream is IDLE (R138). -/
def stopDiscard (i : StreamIdx) (s : State) : State :=
  let st := (s.stream i).dropConstruction
  let kept := (st.ready.filter fun f => !f.inTx.isNone).map fun f => { f with pendingOn := f.inTx }
  let st1 := { st with ready := kept, firstOfRun := false }
  if kept = [] then releaseToIdle i (s.setStream i st1)
  else s.setStream i { st1 with state := .draining }

/-- End a transmission of a stream's frame on a port as an abort by a stop: counted, and the gap follows (R157). -/
def abortByStop (p : Port) (i : StreamIdx) (s : State) : State :=
  let x := s.port p
  if x.tx = .sample i then
    s.setPort p { x with tx := .abortGap, txc := { x.txc with aborted := bump x.txc.aborted } }
  else s

/-- STREAM_STOP of an ARMED capture stream: every ready frame is released, its transmissions aborted, and the stream
goes to IDLE (R139, R157). -/
def stopArmed (i : StreamIdx) (s : State) : State :=
  let s1 := abortByStop .tb i (abortByStop .ta i s)
  releaseToIdle i (s1.setStream i { s1.stream i with ready := [] })

/-! ## The timing lane leaves RUNNING (R84, R142) -/

/-- What a stream does when a lane leaves RUNNING: a RUNNING or STARVED playout stream of that lane is flushed to
ARMED (R84), a RUNNING capture stream of it releases its construction and goes to ARMED (R142). -/
def Stream.loseLane (l : LaneIdx) (st : Stream) : Stream :=
  if st.lane = l then
    match st.direction, st.state with
    | .playout, .running => { st.flushWindow with state := .armed }
    | .playout, .starved => { st.flushWindow with state := .armed }
    | .capture, .running => { st.dropConstruction with firstOfRun := false, state := .armed }
    | _, _ => st
  else st

end Sys2Proof.Machine
end

