-- ==== Sys2Proof/Machine/TrunkPorts.lean ====
section
/-! DEFINITION. Link state and the ends of transmissions (sections 3.3, 8.4 and 8.6): a port going UP or DOWN, the
completion of a sample frame and of a reply, and the end of the gap after an abort. -/

namespace Sys2Proof.Machine

/-- LINK_RISE: the input rises; after the load a DOWN port goes UP and posts TRUNK_UP (R46). While the port is held
the link state does not change (R45). -/
def execLinkRise (p : Port) (s : State) : Result :=
  let x := s.port p
  let s1 := s.setPort p { x with linkPin := true }
  .next (if s.phase = .started ∧ x.linkUp = false then
      (s1.setPort p { x with linkPin := true, linkUp := true }).post .trunkUp (.port p) 0
    else s1)

/-- The reply to an executed DEVICE_RESET: code 0x14 with status OK (R184). -/
def Reply.isDeviceReset (r : Reply) : Bool := r.payload == [0x14, 0x00]

/-- A reply is lost: counted, and REPLY_LOST is posted with its transaction number (R158, R178). -/
def loseReply (p : Port) (txn : Word) (s : State) : State :=
  let x := s.port p
  (s.setPort p { x with txc := { x.txc with repliesLost := bump x.txc.repliesLost } }).post .replyLost (.port p) txn

/-- The transmission in progress on a port going DOWN is aborted; a gap after an abort by a stop only ends (R158
step 1). -/
def PortState.abortOnDown (x : PortState) : PortState :=
  match x.tx with
  | .idle => x
  | .abortGap => { x with tx := .idle }
  | .reply => { x with tx := .idle, txc := { x.txc with aborted := bump x.txc.aborted } }
  | .sample _ => { x with tx := .idle, txc := { x.txc with aborted := bump x.txc.aborted } }

/-- Withdraw a port from a stream's ready frames; a frame with no claim left is released (R154, R158 step 2). -/
def Stream.withdrawPort (p : Port) (st : Stream) : Stream :=
  { st with
    ready := (st.ready.map fun f =>
      { f with pendingOn := f.pendingOn.set p false, inTx := f.inTx.set p false }).filter
        fun f => !f.pendingOn.isNone }

/-- The DRAINING streams whose ready list withdrawing a port empties (R158 step 4). -/
def State.drainedBy (s : State) (p : Port) : List StreamIdx :=
  s.streamsWhere fun st => st.state == .draining && (st.withdrawPort p).ready.isEmpty

/-- A port goes DOWN: TRUNK_DOWN is posted and its transmit side acts (R46, R158). The reset of an aborted or removed
DEVICE_RESET reply takes effect at the same change (R184). -/
def portDown (p : Port) (s : State) : State :=
  let replies := (s.port p).replies
  let drained := s.drainedBy p
  let s1 := (s.setPort p { (s.port p).abortOnDown with linkPin := false, linkUp := false, replies := [] }).post
    .trunkDown (.port p) 0
  let s2 := s1.mapStreams (Stream.withdrawPort p)
  let s3 := replies.foldl (fun t r => loseReply p r.txn t) s2
  let s4 := s3.forStreams drained finishDrain
  if replies.any Reply.isDeviceReset then blockReset .request .loading s4 else runArbiters s4

/-- LINK_FALL: the input falls; after the load an UP port goes DOWN (R46). -/
def execLinkFall (p : Port) (s : State) : Result :=
  let x := s.port p
  .next (if s.phase = .started ∧ x.linkUp then portDown p s else s.setPort p { x with linkPin := false })

/-- Count a completed transmission in a stream's sent counter of a port (R154 step 1). -/
def Stream.countSent (p : Port) (st : Stream) : Stream :=
  { st with
    capture :=
      match p with
      | .ta => { st.capture with sentTa := bump st.capture.sentTa }
      | .tb => { st.capture with sentTb := bump st.capture.sentTb } }

/-- Take a port off the frame that is in transmission on it; the frame is released when no claim is left (R154 steps 2
and 3). -/
def Stream.completeOn (p : Port) (st : Stream) : Stream :=
  { st with
    ready := (st.ready.map fun f =>
      if f.inTx.get p then { f with pendingOn := f.pendingOn.set p false, inTx := f.inTx.set p false } else f).filter
        fun f => !f.pendingOn.isNone }

/-- The completion of a sample frame of stream i on a port (R154). -/
def completeSample (p : Port) (i : StreamIdx) (s : State) : State :=
  let x := s.port p
  let s1 := s.setPort p { x with tx := .idle, txc := { x.txc with samplesSent := bump x.txc.samplesSent } }
  let s2 := s1.setStream i ((s1.stream i).countSent p |>.completeOn p)
  runArbiters (finishDrainIfEmpty i s2)

/-- SAMPLE_FRAME_TX_COMPLETION (R154); without a sample frame in transmission on the port none completes. -/
def execSampleFrameTxCompletion (p : Port) (s : State) : Result :=
  .next (match (s.port p).tx with
    | .sample i => completeSample p i s
    | .idle | .reply | .abortGap => s)

/-- The completion of a reply on a port: it is counted and leaves the head of the queue; the completion of the reply
to a DEVICE_RESET is where its reset takes effect (R155, R184). -/
def completeReply (p : Port) (s : State) : State :=
  let x := s.port p
  let s1 := s.setPort p
    { x with tx := .idle, replies := x.replies.tail, txc := { x.txc with repliesSent := bump x.txc.repliesSent } }
  match x.replies.head? with
  | some r => if r.isDeviceReset then blockReset .request .loading s1 else runArbiters s1
  | none => runArbiters s1

/-- REPLY_TX_COMPLETION (R155); without a reply in transmission on the port none completes. -/
def execReplyTxCompletion (p : Port) (s : State) : Result :=
  .next (match (s.port p).tx with
    | .reply => completeReply p s
    | .idle | .sample _ | .abortGap => s)

/-- ABORT_GAP_END: the transmitter is IDLE and the arbiter runs (R157); without such a gap nothing ends. -/
def execAbortGapEnd (p : Port) (s : State) : Result :=
  let x := s.port p
  .next (if x.tx = .abortGap then runArbiters (s.setPort p { x with tx := .idle }) else s)

end Sys2Proof.Machine
end

