-- ==== Sys2Proof/Machine/Control.lean ====
section
/-! DEFINITION. The Control Agent (chapter 10): when it executes the head of its queue, the reply, and the device-level
requests IDENTIFY, STATUS, TRUNK_CONFIG, COUNTERS and DEVICE_RESET, and the unknown request. -/

namespace Sys2Proof.Machine

/-- The agent executes a request when it is not halted and the arrival port's reply queue has room or the port is DOWN
(R176). -/
def State.canExecute (s : State) (rq : Request) : Bool :=
  !s.control.halted && ((s.port rq.port).replies.length < Config.replyQueue || !(s.port rq.port).linkUp)

/-- The reply to a request (R177). -/
def replyTo (s : State) (rq : Request) (a : Answer) : Reply :=
  { dest := rq.source, source := s.control.nodeId, txn := rq.txn, payload := rq.code :: a.status.code :: a.results }

/-- Hand a reply on: appended to the arrival port's queue, whose arbiter then runs (R177); at a DOWN port it is
discarded (R178), and the reset of a discarded DEVICE_RESET reply takes effect (R184). -/
def deliver (rq : Request) (a : Answer) (s : State) : State :=
  let x := s.port rq.port
  let r := replyTo s rq a
  if x.linkUp then runArbiters (s.setPort rq.port { x with replies := x.replies ++ [r] })
  else
    let s1 := loseReply rq.port rq.txn s
    if r.isDeviceReset then blockReset .request .loading s1 else s1

/-- Take the head off the request queue. -/
def dequeue (s : State) : State := s.setControl { s.control with requests := s.control.requests.tail }

/-- Carry out a framed request; a request that is not framed as its layout asks is MALFORMED and changes nothing
(R173). -/
def carryOut (code : Option RequestCode) (h : List Byte → State → State × Answer) (args : List Byte) (s : State) :
    State × Answer :=
  match code with
  | some c => if c.framed args then h args s else (s, { status := .malformed })
  | none => (s, { status := .malformed })

/-- The execution of the request at the head of the queue, when its code is the given one and the agent can execute it
(R176, R177); otherwise nothing is executed. -/
def runRequest (code : Option RequestCode) (h : List Byte → State → State × Answer) (s : State) : State :=
  match s.control.requests.head? with
  | some rq =>
    if RequestCode.ofByte rq.code = code ∧ s.canExecute rq then
      let r := carryOut code h rq.args (dequeue s)
      deliver rq r.2 r.1
    else s
  | none => s

/-! ## Device requests (section 10.4) -/

/-- IDENTIFY (R180). -/
def identify (_ : List Byte) (s : State) : State × Answer :=
  (s,
    { status := .ok,
      results :=
        be2 Config.vendorCode ++ be2 Config.partCode ++ bytesOf [Config.revision] ++ be2 s.control.nodeId.toNat
          ++ bytesOf [Config.streams] ++ be2 Config.cells
          ++ bytesOf [Config.lanes, Config.slots, Config.discoveryRecords, Config.eventRecords] })

/-- IDENTIFY. -/
def execIdentify (s : State) : Result := .next (runRequest (some .identify) identify s)

/-- The results of STATUS (R181). -/
def statusBytes (s : State) : List Byte :=
  bytesOf [flagCode (s.port .ta).linkUp, flagCode (s.port .tb).linkUp]
    ++ (s.port .ta).statusBytes ++ (s.port .tb).statusBytes
    ++ bytesOf [s.control.ports.code]
    ++ bytesOf (laneIndices.map fun l => (s.lane l).state.code)
    ++ (s.gen .mcg0).statusBytes ++ (s.gen .mcg1).statusBytes
    ++ be2 s.unreserved
    ++ bytesOf [s.events.records.length] ++ be2 s.events.lost.toNat ++ be4 s.events.uptime.toNat
    ++ bytesOf [s.control.promResult.code, s.control.startCause.code, s.waitList.length]
    ++ s.waitList.flatMap fun i => bytesOf [i.val] ++ be2 (s.stream i).reservation

/-- STATUS (R181). -/
def status (_ : List Byte) (s : State) : State × Answer := (s, { status := .ok, results := statusBytes s })

/-- STATUS. -/
def execStatus (s : State) : Result := .next (runRequest (some .status) status s)

/-- A port takes a transmit mode, and its credits are reloaded (R160). -/
def PortState.setMode (x : PortState) (m : TxMode) : PortState := { x with mode := m, credits := {} }

/-- TRUNK_CONFIG (R160, R182). -/
def trunkConfig (a : List Byte) (s : State) : State × Answer :=
  let node := beAt a 0 2
  match nodeIdOk node, controlPortsOfCode (byteAt a 2), txModeOfCode (byteAt a 3), txModeOfCode (byteAt a 4) with
  | true, some c, some ma, some mb =>
    ({ s with
        control := { s.control with nodeId := BitVec.ofNat 16 node, ports := c },
        ports := ⟨s.ports.ta.setMode ma, s.ports.tb.setMode mb⟩ },
      { status := .ok, results := be2 node })
  | _, _, _, _ => (s, { status := .value, results := be2 s.control.nodeId.toNat })

/-- TRUNK_CONFIG. -/
def execTrunkConfig (s : State) : Result := .next (runRequest (some .trunkConfig) trunkConfig s)

/-- COUNTERS of a port (R61, R161, R183). -/
def portCounters (p : Port) (clear : Bool) (s : State) : State × Answer :=
  let x := s.port p
  (if clear then s.setPort p { x with rx := {}, txc := {} } else s,
    { status := .ok, results := wordsOf (x.rx.list ++ x.txc.list) })

/-- COUNTERS of a lane (R112, R183). -/
def laneCounters (l : LaneIdx) (clear : Bool) (s : State) : State × Answer :=
  let x := s.lane l
  (if clear then s.setLane l { x with counters := {} } else s, { status := .ok, results := wordsOf x.counters.list })

/-- COUNTERS (R183); the option byte's meaning is the model's (log entry 28). -/
def counters (a : List Byte) (s : State) : State × Answer :=
  let clear := optionChosen a 2
  match byteAt a 0 with
  | 0 =>
    match portOfCode (byteAt a 1) with
    | some p => portCounters p clear s
    | none => (s, { status := .index })
  | 1 =>
    match finOf 4 (byteAt a 1) with
    | some l => laneCounters l clear s
    | none => (s, { status := .index })
  | _ => (s, { status := .value })

/-- COUNTERS. -/
def execCounters (s : State) : Result := .next (runRequest (some .counters) counters s)

/-- DEVICE_RESET: the halt flag is set and the reply is OK; the reset follows that reply (R184). -/
def deviceReset (_ : List Byte) (s : State) : State × Answer :=
  (s.setControl { s.control with halted := true }, { status := .ok })

/-- DEVICE_RESET. -/
def execDeviceReset (s : State) : Result := .next (runRequest (some .deviceReset) deviceReset s)

/-- UNKNOWN_REQUEST: a request whose code is none of the twenty is MALFORMED and changes nothing (R173). -/
def execUnknownRequest (s : State) : Result :=
  .next (runRequest none (fun _ t => (t, { status := .malformed })) s)

end Sys2Proof.Machine
end

