-- ==== Sys2Proof/Machine/Clocks.lean ====
section
/-! DEFINITION. The media clock generators and the depth servo (chapter 6): the bit clock, counting, and the review. -/

namespace Sys2Proof.Machine

/-- The bit clock of a RUNNING generator in Hz, as a numerator and a denominator:
98.304 MHz × NUM ÷ DEN × (1 + trim × 2^−20) (R116). An OFF generator produces no clock. -/
def Gen.bitClock (g : Gen) : Option (Int × Nat) :=
  if g.isRunning then some (Config.referenceHz * g.num * (1048576 + g.trim), g.den * 1048576) else none

/-- The trim a review asks for, before the limit (R122). H less than D − W is written H + W < D. -/
def Gen.wantedTrim (g : Gen) (held target : Nat) : Int :=
  if target + g.window < held then g.trim + g.step
  else if held + g.window < target then g.trim - g.step
  else g.trim

/-- A trim held within −512 to +512 (R123). -/
def clampTrim (t : Int) : Int := max (-(Config.trimLimit : Int)) (min Config.trimLimit t)

/-- A review of a generator: the trim is stepped and the review count goes to 0; SERVO_LIMIT is posted when the step is
cut (R121, R122, R123). -/
def review (g : GenIdx) (held target : Nat) (s : State) : State :=
  let x := s.gen g
  let wanted := x.wantedTrim held target
  let trim := clampTrim wanted
  let s1 := s.setGen g { x with trim := trim, reviewCount := 0 }
  if wanted = trim then s1 else s1.post .servoLimit (.gen g) (BitVec.ofInt 32 trim)

/-- A review takes place when the review count stands at 1024 and the reference is a playout stream (R120, R121). -/
def reviewIfDue (g : GenIdx) (s : State) : State :=
  match (s.gen g).reference with
  | some r =>
    if Config.reviewPeriod ≤ (s.gen g).reviewCount ∧ (s.stream r).direction = .playout then
      review g (s.stream r).held (s.stream r).depthTarget s
    else s
  | none => s

/-- The servo of a generator at a frame event of a lane, after the playout streams' steps: `before` is the state before
the event. Entry of the reference to RUNNING sets the review count to 0; a counting event raises it, and the 1024th is
a review (R120, R121, R122). DESIGN CHOICE (26), safe: a reference whose entry is redefined as CAPTURE leaves the review
count as it stands, also when the capture stream enters RUNNING. -/
def servoTask (l : LaneIdx) (before : State) (g : GenIdx) (s : State) : State :=
  let x := s.gen g
  match x.reference with
  | none => s
  | some r =>
    let st := before.stream r
    if st.activePlayout && st.lane == l then
      if st.playStep.entered then s.setGen g { x with reviewCount := 0 }
      else if st.state == .running && st.playStep.stream.state == .running
          && (before.lane l).config.role.gen == some g then
        reviewIfDue g (s.setGen g { x with reviewCount := x.reviewCount + 1 })
      else s
    else s

/-- SERVO_REVIEW: the review count of the generator has reached 1024 and the review takes place (R121, R122). A frame
event takes the review it brings about within itself (R121), so the count stands below 1024 after every step; there
no review is due and nothing changes. -/
def execServoReview (g : GenIdx) (s : State) : Result := .next (reviewIfDue g s)

end Sys2Proof.Machine
end

