-- ==== Sys2Proof/Machine/LanePorts.lean ====
section
/-! DEFINITION. Lane ports (chapter 5): the pins, the framing of a slave lane, the frame event, the loading of the
out-slot words, and leaving RUNNING. -/

namespace Sys2Proof.Machine

/-! ## Pins (R93, R94, R97) -/

/-- How a lane pin stands. -/
inductive PinMode where
  | highImpedance
  | input
  | notSampled
  | drivenLow
  | driven
  deriving DecidableEq, Repr

/-- Ln_BCK and Ln_SYNC of a lane (R97). -/
def Lane.clockPins (x : Lane) : PinMode :=
  match x.state, x.config.role with
  | .off, _ => .highImpedance
  | _, .slave => .input
  | .running, _ => .driven
  | _, _ => .highImpedance

/-- Ln_DOUT of a lane (R97). -/
def Lane.doutPin (x : Lane) : PinMode :=
  match x.state, x.config.drives with
  | .off, _ => .highImpedance
  | _, false => .highImpedance
  | .running, true => .driven
  | _, true => .drivenLow

/-- Ln_DIN of a lane (R97). -/
def Lane.dinPin (x : Lane) : PinMode :=
  match x.state, x.config.takes with
  | .off, _ => .notSampled
  | _, false => .notSampled
  | _, true => .input

/-- The bit periods of a frame for which a master drives Ln_SYNC active, from its sync period on (R94). -/
def LaneConfig.syncPeriods (c : LaneConfig) : Nat :=
  match c.syncShape with
  | .pulse => 1
  | .slot => c.slotWidth.bits
  | .half => c.slots / 2 * c.slotWidth.bits

/-- The active level of Ln_SYNC (R92); true is high. -/
def LaneConfig.activeLevel (c : LaneConfig) : Bool := c.polarity == .high

/-- The level of Ln_SYNC on a master lane at bit period t of a frame, t = 0 being the sync period (R93, R94). -/
def LaneConfig.syncLevel (c : LaneConfig) (t : Nat) : Bool :=
  if t < c.syncPeriods then c.activeLevel else !c.activeLevel

/-- A leading edge at a slave lane: Ln_SYNC at its active level at a sampling edge, after a sampling edge at which it was
at the inactive level (R94). -/
def LaneConfig.leadingEdge (c : LaneConfig) (before now : AtEdges Bool) : Bool :=
  c.sampled before != c.activeLevel && c.sampled now == c.activeLevel

/-- The bit of Ln_DOUT in bit period j of a frame's data, j = 0 being the first data bit after the frame event: slot 0
first, most significant bit first, and low beyond the frame's data (R93, R101, R104). -/
def Lane.dataBit (x : Lane) (j : Nat) : Bool :=
  let w := x.config.slotWidth.bits
  if j < x.config.frameLength then (x.outWords.getD (j / w) 0).getLsbD (31 - j % w) else false

/-- Edge k of Ln_BCK, k = 0 being the drive edge that begins a bit period: drive and sampling edges alternate (R93). -/
def LaneConfig.edgeAt (c : LaneConfig) (k : Nat) : BckEdge := if k % 2 = 0 then c.driveEdge else c.sampleEdge

/-- The level of Ln_BCK on a master lane after edge k (R93). -/
def LaneConfig.bckAfter (c : LaneConfig) (k : Nat) : Bool := c.edgeAt k == .rising

/-- The level of Ln_SYNC on a master lane after edge k, counted from the start of a sync period: it changes on drive
edges (R93, R94). -/
def LaneConfig.syncAfter (c : LaneConfig) (k : Nat) : Bool := c.syncLevel (k / 2)

/-- The level of Ln_DOUT after edge k, counted from the start of a frame's data: it changes on drive edges (R93). -/
def Lane.doutAfter (x : Lane) (k : Nat) : Bool := x.dataBit (k / 2)

/-! ## Entering and leaving RUNNING (R98, R100, R101, R107) -/

/-- A zero word for every slot a lane drives. -/
def LaneConfig.zeroSlots (c : LaneConfig) : List Word := if c.drives then List.replicate c.slots 0 else []

/-- A lane enters RUNNING: counted, its first frame carrying zeros (R98, R100, R112). -/
def Lane.enterRunning (x : Lane) (eventDue : Bool) : Lane :=
  { x with
    state := .running, candidate := false, eventDue := eventDue, outWords := x.config.zeroSlots,
    counters := { x.counters with entries := bump x.counters.entries } }

/-- A lane enters RUNNING and posts LANE_RUNNING with its frame length (R113). -/
def enterRunning (l : LaneIdx) (eventDue : Bool) (s : State) : State :=
  (s.setLane l ((s.lane l).enterRunning eventDue)).post .laneRunning (.lane l)
    (BitVec.ofNat 32 (s.lane l).config.frameLength)

/-- A lane leaves RUNNING: the streams timed by it act (R107). -/
def leaveRunning (l : LaneIdx) (s : State) : State := s.mapStreams (Stream.loseLane l)

/-- A slave lane enters LOST: counted and posted with the count that caused it, and its streams act (R101, R107, R112,
R113). -/
def enterLost (l : LaneIdx) (candidate : Bool) (detail : Nat) (s : State) : State :=
  let x := s.lane l
  leaveRunning l
    ((s.setLane l
      { x with
        state := .lost, candidate := candidate, eventDue := false, outWords := [],
        counters := { x.counters with syncLosses := bump x.counters.syncLosses } }).post .laneLost (.lane l)
      (BitVec.ofNat 32 detail))

/-- A sync leading edge at a slave lane, the frame event of an accepted one made due (R100, R101). An edge two frame
lengths or more after the last accepted one finds the count at two frame lengths, and that is the detail. -/
def syncEdge (l : LaneIdx) (spacing : Nat) (s : State) : State :=
  let x := s.lane l
  let n := x.config.frameLength
  match x.state with
  | .off => s
  | .seeking | .lost =>
    if !x.candidate then s.setLane l { x with candidate := true }
    else if spacing = n then enterRunning l true s
    else s
  | .running =>
    if spacing = n then s.setLane l { x with eventDue := true }
    else enterLost l true (min spacing (2 * n)) s

/-! ## The frame event (R103, R104) -/

/-- Whether a lane gives a frame event: RUNNING, and on a slave the sync that follows the frame was found in place
(R99, R101, R103). -/
def Lane.givesEvent (x : Lane) : Bool := x.state == .running && (x.config.role != .slave || x.eventDue)

/-- The out-slot word an entry gives: the word of the stream's channel at this event, 0 for an empty entry or a stream
that gives no words (R71, R104). -/
def State.slotWord (s : State) (l : LaneIdx) (entry : Option OutSlot) : Word :=
  match entry with
  | some e =>
    let st := s.stream e.stream
    if st.activePlayout && st.lane == l then st.playStep.words.getD e.channel.val 0 else 0
  | none => 0

/-- The out-slot words of the frame that begins: one for each slot, none on a lane of direction IN (R104). -/
def State.loadWords (s : State) (l : LaneIdx) : List Word :=
  let x := s.lane l
  if x.config.drives then (x.outTable.toList.take x.config.slots).map (s.slotWord l) else []

/-- The streams that act at a frame event of a lane (R71, R130, R131). -/
def Stream.actsOn (l : LaneIdx) (st : Stream) : Bool :=
  st.lane == l
    && (st.activePlayout || (st.direction == .capture && (st.state == .armed || st.state == .running)))

/-- Streams in the order in which they are taken: those an order names first, then the others as they stand. -/
def arrange (order is : List StreamIdx) : List StreamIdx :=
  (order.filter is.contains).eraseDups ++ is.filter fun i => !order.contains i

/-- One stream acts at a frame event (R71, R130, R131). -/
def frameTask (c : LaneConfig) (line : PinLevels) (i : StreamIdx) (s : State) : State :=
  match (s.stream i).direction with
  | .playout => playTask i s
  | .capture => captureTask c line i s

/-- A frame event of a lane (R103): its counter rises, the out-slot words are loaded from the words the playout streams
give, every stream of the lane acts, and the servos act on what the playout streams' steps leave. -/
def frameEvent (l : LaneIdx) (line : PinLevels) (order late : List StreamIdx) (s : State) : State :=
  let x := s.lane l
  let tasks := arrange order (s.streamsWhere (Stream.actsOn l))
  let isLate := fun i => (s.stream i).direction == .capture && late.contains i
  let s1 := s.setLane l
    { x with
      eventDue := false, outWords := s.loadWords l,
      counters := { x.counters with frameEvents := bump x.counters.frameEvents } }
  let s2 := s1.forStreams (tasks.filter fun i => !isLate i) (frameTask x.config line)
  let s3 := servoTask l s .mcg1 (servoTask l s .mcg0 s2)
  s3.forStreams (tasks.filter isLate) (frameTask x.config line)

/-- The frame event of a lane that gives one, Ln_DIN being sampled on the lane's sampling edge (R93, R103). -/
def giveFrameEvent (l : LaneIdx) (f : FrameData) (s : State) : State :=
  if (s.lane l).givesEvent then frameEvent l ((s.lane l).config.sampled f.din) f.order f.late s else s

/-- FRAME_EVENT (R103); a lane that gives no frame event is not changed. -/
def execFrameEvent (l : LaneIdx) (din : AtEdges PinLevels) (order late : List StreamIdx) (s : State) : Result :=
  .next (giveFrameEvent l ⟨din, order, late⟩ s)

/-! ## The commands of the sync (R94, R100, R101) -/

/-- SYNC_LEADING_EDGE (R94, R100, R101): an edge in place closes a frame, whose frame event falls at this edge with data
delay 0; with data delay 1 the event of the edge before fell one bit period after it, so it is given first where it is
still due. Ln_SYNC of a master is no input (R97), and a change of level that is no leading edge has no effect (R94). -/
def execSyncLeadingEdge (l : LaneIdx) (change : SyncChange) (s : State) : Result :=
  let c := (s.lane l).config
  .next (if c.role = .slave ∧ c.leadingEdge change.before change.now then
      if c.delayOne then syncEdge l change.spacing (giveFrameEvent l change.frame s)
      else giveFrameEvent l change.frame (syncEdge l change.spacing s)
    else s)

/-- SYNC_TIMEOUT: a RUNNING slave lane whose count reaches two frame lengths enters LOST with no candidate (R101); a
frame event that is still due fell long before. -/
def execSyncTimeout (timeout : LaneTimeout) (s : State) : Result :=
  let l := timeout.lane
  let x := s.lane l
  .next (if x.config.role = .slave ∧ x.state = .running then
      enterLost l false (2 * x.config.frameLength) (giveFrameEvent l timeout.frame s)
    else s)

end Sys2Proof.Machine
end

