-- ==== Sys2Proof/Machine/LaneRequests.lean ====
section
/-! DEFINITION. The requests on lanes and generators (chapters 5 and 6): SLOT_ASSIGN, SLOT_QUERY, LANE_CONFIG,
LANE_START, LANE_STOP and CLOCK_CONFIG. -/

namespace Sys2Proof.Machine

/-! ## Out-slot tables (section 5.5) -/

/-- What SLOT_ASSIGN asks for: empty, a stream and a channel, or indices that name none (R109 check 1). -/
inductive SlotRequest where
  | empty
  | entry (e : OutSlot)
  | badIndex
  deriving DecidableEq, Repr

/-- The assignment the arguments ask for; a stream byte of 0xFF asks for empty, and its channel byte is not checked
(R109). -/
def slotRequest (a : List Byte) : SlotRequest :=
  if byteAt a 2 = 0xFF then .empty
  else
    match finOf 64 (byteAt a 2), finOf 16 (byteAt a 3) with
    | some i, some c => .entry ⟨i, c⟩
    | _, _ => .badIndex

/-- The checks of an assignment to a stream against the lane and the entry (R109 check 2). -/
def State.slotAllowed (s : State) (l : LaneIdx) (k : Fin 32) (e : OutSlot) : Bool :=
  let c := (s.lane l).config
  let st := s.stream e.stream
  c.drives && k.val < c.slots && st.state != .empty && st.direction == .playout && st.lane == l
    && e.channel.val < st.channels

/-- Write one out-slot entry; the reply carries the entry it replaces (R110). -/
def writeSlot (l : LaneIdx) (k : Fin 32) (e : Option OutSlot) (s : State) : State × Answer :=
  let x := s.lane l
  (s.setLane l { x with outTable := x.outTable.set k e },
    { status := .ok, results := outSlotBytes (x.outTable.get k) })

/-- SLOT_ASSIGN (R109, R110). -/
def slotAssign (a : List Byte) (s : State) : State × Answer :=
  match finOf 4 (byteAt a 0), finOf 32 (byteAt a 1) with
  | some l, some k =>
    match slotRequest a with
    | .badIndex => (s, { status := .index })
    | .empty => writeSlot l k none s
    | .entry e => if s.slotAllowed l k e then writeSlot l k (some e) s else (s, { status := .value })
  | _, _ => (s, { status := .index })

/-- SLOT_ASSIGN. -/
def execSlotAssign (s : State) : Result := .next (runRequest (some .slotAssign) slotAssign s)

/-- The result of SLOT_QUERY: configuration, state and 32 entries, those at or beyond the slot count empty (R111). -/
def Lane.queryBytes (x : Lane) : List Byte :=
  x.config.bytes ++ bytesOf [x.state.code]
    ++ (x.outTable.toList.mapIdx fun n e => if n < x.config.slots then e else none).flatMap outSlotBytes

/-- SLOT_QUERY (R111). -/
def slotQuery (a : List Byte) (s : State) : State × Answer :=
  match finOf 4 (byteAt a 0) with
  | none => (s, { status := .index })
  | some l => (s, { status := .ok, results := (s.lane l).queryBytes })

/-- SLOT_QUERY. -/
def execSlotQuery (s : State) : Result := .next (runRequest (some .slotQuery) slotQuery s)

/-! ## LANE_CONFIG (section 5.2) -/

/-- The configuration in the arguments, when every field lies in its values and HALF has an even slot count (R92,
R95). -/
def parseLaneConfig (a : List Byte) : Option LaneConfig :=
  let slots := byteAt a 3
  match laneDirectionOfCode (byteAt a 1), roleOfCode (byteAt a 2), widthOfCode (byteAt a 4),
    syncShapeOfCode (byteAt a 5), polarityOfCode (byteAt a 6), delayOfCode (byteAt a 7),
    clockEdgeOfCode (byteAt a 8) with
  | some d, some r, some w, some sh, some pol, some delay, some edge =>
    if 1 ≤ slots ∧ slots ≤ 32 ∧ ¬ (sh = .half ∧ slots % 2 = 1) then
      some
        { direction := d, role := r, slots := slots, slotWidth := w, syncShape := sh, polarity := pol,
          delayOne := delay, clockEdge := edge }
    else none
  | _, _, _, _, _, _, _ => none

/-- A lane in use: not OFF, or the timing lane of a stream that holds a reservation (R95 check 2). -/
def State.laneBusy (s : State) (l : LaneIdx) : Bool :=
  (s.lane l).state != .off || streamIndices.any fun i => (s.stream i).lane == l && (s.stream i).state.reserves

/-- An accepted LANE_CONFIG: the eight fields are written, and the out-slot entries they rule out are emptied (R96). -/
def Lane.configure (x : Lane) (c : LaneConfig) : Lane :=
  { x with
    config := c, outTable := mapVecIdx (fun n e => if c.drives && n < c.slots then e else none) x.outTable }

/-- LANE_CONFIG (R95, R96). -/
def laneConfig (a : List Byte) (s : State) : State × Answer :=
  match finOf 4 (byteAt a 0) with
  | none => (s, { status := .index })
  | some l =>
    if s.laneBusy l then (s, { status := .busy })
    else
      match parseLaneConfig a with
      | none => (s, { status := .value })
      | some c => (s.setLane l ((s.lane l).configure c), { status := .ok })

/-- LANE_CONFIG. -/
def execLaneConfig (s : State) : Result := .next (runRequest (some .laneConfig) laneConfig s)

/-! ## LANE_START and LANE_STOP (section 5.3) -/

/-- An OFF lane is started as its role requires (R98). -/
def startLane (l : LaneIdx) (s : State) : State × Answer :=
  match (s.lane l).config.role.gen with
  | some g =>
    if (s.gen g).isRunning then (enterRunning l false s, { status := .ok }) else (s, { status := .state })
  | none => (s.setLane l { s.lane l with state := .seeking, candidate := false }, { status := .ok })

/-- LANE_START (R98). -/
def laneStart (a : List Byte) (s : State) : State × Answer :=
  match finOf 4 (byteAt a 0) with
  | none => (s, { status := .index })
  | some l => if (s.lane l).state = .off then startLane l s else (s, { status := .state })

/-- LANE_START. -/
def execLaneStart (s : State) : Result := .next (runRequest (some .laneStart) laneStart s)

/-- A lane goes to OFF: nothing is driven, its candidate and its frame in progress are dropped (R102); a lane stopped
from RUNNING leaves RUNNING (R107). -/
def stopLane (l : LaneIdx) (s : State) : State :=
  let x := s.lane l
  let s1 := s.setLane l { x with state := .off, candidate := false, eventDue := false, outWords := [] }
  if x.state = .running then leaveRunning l s1 else s1

/-- LANE_STOP (R102). -/
def laneStop (a : List Byte) (s : State) : State × Answer :=
  match finOf 4 (byteAt a 0) with
  | none => (s, { status := .index })
  | some l => (stopLane l s, { status := .ok })

/-- LANE_STOP. -/
def execLaneStop (s : State) : Result := .next (runRequest (some .laneStop) laneStop s)

/-! ## CLOCK_CONFIG (section 6.2) -/

/-- The reference a code names: a stream, none for 0xFF (inner none), and nothing for other codes (R118 check 1). -/
def referenceOfCode (n : Nat) : Option (Option StreamIdx) :=
  if n = 0xFF then some none else (finOf 64 n).map some

/-- The ranges of the settings (R118 check 2). -/
def clockRangesOk (num den step w : Nat) : Bool :=
  num ≤ Config.ratioLimit && 1 ≤ den && den ≤ Config.ratioLimit && (num == 0 || num * 4 ≤ den)
    && 1 ≤ step && step ≤ 16 && w ≤ 4

/-- Whether a lane whose role names a generator is in a state other than OFF (R118 check 3). -/
def State.genInUse (s : State) (g : GenIdx) : Bool :=
  laneIndices.any fun l => (s.lane l).config.role.gen == some g && (s.lane l).state != .off

/-- An accepted CLOCK_CONFIG (R119). -/
def Gen.configure (x : Gen) (num den : Nat) (reference : Option StreamIdx) (step w : Nat) (resetTrim : Bool) : Gen :=
  { num := num, den := den, trim := if resetTrim then 0 else x.trim, reference := reference, step := step,
    window := w, reviewCount := if reference = x.reference then x.reviewCount else 0 }

/-- CLOCK_CONFIG (R118, R119); that an option byte of 1 resets the trim is the model's (log entry 28). -/
def clockConfig (a : List Byte) (s : State) : State × Answer :=
  match genOfCode (byteAt a 0), referenceOfCode (byteAt a 9) with
  | some g, some reference =>
    let num := beAt a 1 4
    let den := beAt a 5 4
    let step := byteAt a 10
    let w := byteAt a 11
    let x := s.gen g
    if !clockRangesOk num den step w then (s, { status := .value, results := x.settingBytes })
    else if (num ≠ x.num ∨ den ≠ x.den) ∧ s.genInUse g then (s, { status := .busy, results := x.settingBytes })
    else
      let y := x.configure num den reference step w (optionChosen a 12)
      (s.setGen g y, { status := .ok, results := y.settingBytes })
  | _, _ => (s, { status := .index })

/-- CLOCK_CONFIG. -/
def execClockConfig (s : State) : Result := .next (runRequest (some .clockConfig) clockConfig s)

end Sys2Proof.Machine
end

