-- ==== Sys2Proof/Machine/ListRequests.lean ====
section
/-! DEFINITION. The requests on the Discovery List and the Event Queue (chapters 9 and 11): DISCOVERY_LIST,
DISCOVERY_CONFIG, EVENTS_FETCH and EVENT_CONFIG. -/

namespace Sys2Proof.Machine

/-- The results of DISCOVERY_LIST (R169). -/
def Discovery.bytes (d : Discovery) : List Byte :=
  bytesOf [d.aging.code] ++ be4 d.overflow.toNat ++ bytesOf [d.records.length]
    ++ d.records.flatMap DiscoveryRecord.bytes

/-- DISCOVERY_LIST (R169); the option byte's meaning is the model's (log entry 28). -/
def discoveryList (a : List Byte) (s : State) : State × Answer :=
  (if optionChosen a 0 then s.setDiscovery { s.discovery with overflow := 0 } else s,
    { status := .ok, results := s.discovery.bytes })

/-- DISCOVERY_LIST. -/
def execDiscoveryList (s : State) : Result := .next (runRequest (some .discoveryList) discoveryList s)

/-- DISCOVERY_CONFIG: A is set, the interval starts again, and the records are flushed on request (R168);
that an option byte of 1 is flush is the model's (log entry 28). -/
def discoveryConfig (a : List Byte) (s : State) : State × Answer :=
  match agingOfCode (byteAt a 0) with
  | none => (s, { status := .value })
  | some aging =>
    let d := s.discovery.restart s.events.uptime
    if optionChosen a 1 then
      (s.setDiscovery { d with aging := aging, records := [] },
        { status := .ok, results := bytesOf [aging.code, d.records.length] })
    else (s.setDiscovery { d with aging := aging }, { status := .ok, results := bytesOf [aging.code, 0] })

/-- DISCOVERY_CONFIG. -/
def execDiscoveryConfig (s : State) : Result := .next (runRequest (some .discoveryConfig) discoveryConfig s)

/-- The results of EVENTS_FETCH (R196). -/
def fetchBytes (lost : Half) (taken : List EventRecord) : List Byte :=
  be2 lost.toNat ++ bytesOf [taken.length] ++ taken.flatMap EventRecord.bytes

/-- EVENTS_FETCH: up to n records leave the queue, the lost count is reported and zeroed, and EVT# is judged again
(R196). -/
def eventsFetch (a : List Byte) (s : State) : State × Answer :=
  let n := byteAt a 0
  if 1 ≤ n ∧ n ≤ 16 then
    let r := s.events.fetch n
    (s.setEvents { s.events with records := r.2, lost := 0 }.judge,
      { status := .ok, results := fetchBytes s.events.lost r.1 })
  else (s, { status := .value })

/-- EVENTS_FETCH. -/
def execEventsFetch (s : State) : Result := .next (runRequest (some .eventsFetch) eventsFetch s)

/-- The level a level byte sets: 0, 1, 2, or OFF for 0xFF (inner none); nothing for other values (R193). -/
def levelOfCode (n : Nat) : Option (Option Level) :=
  match n with
  | 0 => some (some 0)
  | 1 => some (some 1)
  | 2 => some (some 2)
  | 0xFF => some none
  | _ => none

/-- The level settings in the arguments, one for each of the fifteen kinds 0x02 to 0x10 in code order (R193). -/
def levelsOf (a : List Byte) : Vector (Option Level) 15 :=
  mapVecIdx (fun n _ => (levelOfCode (byteAt a (n + 1))).join) defaultLevels

/-- EVENT_CONFIG (R193). -/
def eventConfig (a : List Byte) (s : State) : State × Answer :=
  match finOf 4 (byteAt a 0) with
  | some threshold =>
    if (a.drop 1).all (fun b => (levelOfCode b.toNat).isSome) then
      (s.setEvents { s.events with levels := levelsOf a, threshold := threshold }.judge, { status := .ok })
    else (s, { status := .value })
  | none => (s, { status := .value })

/-- EVENT_CONFIG. -/
def execEventConfig (s : State) : Result := .next (runRequest (some .eventConfig) eventConfig s)

end Sys2Proof.Machine
end

