-- ==== Sys2Proof/Machine/Reception.lean ====
section
/-! DEFINITION. The trunk receivers (chapter 3): the arrival of a frame, its checks, its sorting by kind, and the
acceptance of requests. -/

namespace Sys2Proof.Machine

/-- Write the receive counters of a port. -/
def State.countRx (s : State) (p : Port) (f : RxCounters → RxCounters) : State :=
  s.setPort p { s.port p with rx := f (s.port p).rx }

/-- The tag lookup: the entry that is not EMPTY and holds a tag; tag 0 matches none (R4, R5, R49). -/
def State.lookup (s : State) (tag : Word) : Option StreamIdx :=
  if tag = 0 then none
  else streamIndices.find? fun i => (s.stream i).state != .empty && (s.stream i).tag == tag

/-- Count a format error of a stream (R52). -/
def Stream.countFormatError (st : Stream) : Stream :=
  { st with playout := { st.playout with formatErrors := bump st.playout.formatErrors } }

/-- A frame that passes the format checks is handed to the Playout Engine (R54). -/
def playoutArrival (i : StreamIdx) (f : PlayFrame) (s : State) : State :=
  let r := (s.stream i).arrive f
  (s.setStream i r.1).postAll (.stream i) r.2

/-- A good SAMPLE frame (R49 to R54). -/
def receiveSample (p : Port) (f : List Byte) (s : State) : State :=
  match s.lookup (frameTag f) with
  | none =>
    let s1 := s.countRx p fun c => { c with unknownTag := bump c.unknownTag }
    if frameTag f = 0 then s1 else discover p f s1
  | some i =>
    let st := s.stream i
    if st.activePlayout then
      match formatCheck st f with
      | some n => playoutArrival i (playFrameOf st f n) s
      | none => s.setStream i st.countFormatError
    else s.countRx p fun c => { c with inactive := bump c.inactive }

/-- Whether the control-port selection allows a port (R56). -/
def ControlPorts.allows : ControlPorts → Port → Bool
  | .ta, .ta => true
  | .tb, .tb => true
  | .either, _ => true
  | .ta, .tb => false
  | .tb, .ta => false

/-- The three conditions under which a good REQUEST is accepted (R56). -/
def State.accepts (s : State) (p : Port) (f : List Byte) : Bool :=
  (frameDest f == s.control.nodeId || frameDest f == Config.broadcastNode)
    && s.control.ports.allows p && !s.control.halted

/-- The request a good REQUEST frame carries (R58, R172). -/
def requestOf (p : Port) (f : List Byte) : Request :=
  { port := p, source := frameSource f, txn := frameTag f, code := (framePayload f).headD 0,
    args := (framePayload f).tail }

/-- A good REQUEST frame: not accepted, placed in the request queue, or dropped at a full one (R56). -/
def receiveRequest (p : Port) (f : List Byte) (s : State) : State :=
  if s.accepts p f then
    if s.control.requests.length < Config.requestQueue then
      (s.countRx p fun c => { c with accepted := bump c.accepted }).setControl
        { s.control with requests := s.control.requests ++ [requestOf p f] }
    else s.countRx p fun c => { c with dropped := bump c.dropped }
  else s.countRx p fun c => { c with notAddressed := bump c.notAddressed }

/-- A good frame is counted and sorted by its kind (R48); a REPLY is not addressed (R57). -/
def receiveGood (p : Port) (f : List Byte) (s : State) : State :=
  let s1 := s.countRx p fun c => { c with good := bump c.good }
  if frameKind f = 0x51 then receiveSample p f s1
  else if frameKind f = 0x52 then receiveRequest p f s1
  else s1.countRx p fun c => { c with notAddressed := bump c.notAddressed }

/-- The arrival of a frame at a port: the whole-frame checks in order, the first that fails counted (R47). -/
def receive (p : Port) (f : List Byte) (s : State) : State :=
  match checkFrame f with
  | .malformed => s.countRx p fun c => { c with malformed := bump c.malformed }
  | .checkError => s.countRx p fun c => { c with checkErrors := bump c.checkErrors }
  | .unknownKind => s.countRx p fun c => { c with unknownKind := bump c.unknownKind }
  | .good => receiveGood p f s

/-- TRUNK_FRAME_ARRIVAL (R40, R47): a frame arrives only at a port that has been UP throughout its reception. -/
def execTrunkFrameArrival (p : Port) (f : List Byte) (upThroughout : Bool) (s : State) : Result :=
  .next (if upThroughout ∧ (s.port p).linkUp then receive p f s else s)

end Sys2Proof.Machine
end

