-- ==== Sys2Proof/Machine/StreamTable.lean ====
section
/-! DEFINITION. The requests on streams (chapters 1 and 2, with the stops of chapters 4 and 7): STREAM_DEFINE,
STREAM_CLEAR, STREAM_START, STREAM_STOP and STREAM_QUERY. -/

namespace Sys2Proof.Machine

/-! ## Out-slots that name a stream (R15, R17) -/

/-- Whether an out-slot entry names a stream. -/
def names (i : StreamIdx) (e : Option OutSlot) : Bool :=
  match e with
  | some x => x.stream == i
  | none => false

/-- Empty the out-slot entries of a lane that name a stream. -/
def Lane.clearStream (i : StreamIdx) (x : Lane) : Lane :=
  { x with outTable := mapVec (fun e => if names i e then none else e) x.outTable }

/-- Empty every out-slot entry of every lane that names a stream (R15, R17). -/
def clearOutSlots (i : StreamIdx) (s : State) : State := s.mapLanes (Lane.clearStream i)

/-- The number of out-slot entries, on any lane, that name a stream (R17). -/
def State.outSlotsOf (s : State) (i : StreamIdx) : Nat :=
  (laneIndices.map fun l => (s.lane l).outTable.toList.countP (names i)).sum

/-! ## STREAM_DEFINE (section 1.4) -/

/-- The definition in the arguments, when every argument lies in its range (R12): the entry it makes, IDLE, with the
fields of the other direction zero, the next sequence 0, the working values at their starting values and the counters
zero (R14). -/
def parseDefinition (a : List Byte) : Option Stream :=
  let tag := BitVec.ofNat 32 (beAt a 2 4)
  let channels := byteAt a 6
  let f := byteAt a 8
  match widthOfCode (byteAt a 7), finOf 4 (byteAt a 9) with
  | some w, some lane =>
    if tag ≠ 0 ∧ 1 ≤ channels ∧ channels ≤ 16 ∧ 1 ≤ f ∧ f ≤ 64 ∧ channels * w.bytes * f ≤ 1024 then
      let base :=
        { Stream.blank with
          state := .idle, tag := tag, channels := channels, width := w, frameSamples := f, lane := lane }
      match byteAt a 1 with
      | 0 =>
        let m := byteAt a 10
        let d := byteAt a 11
        match concealOfCode (byteAt a 12) with
        | some c =>
          if 2 ≤ m ∧ m ≤ 32 ∧ 1 ≤ d ∧ d ≤ m - 1 then
            some
              { base with
                direction := .playout, depthMax := m, depthTarget := d, conceal := c,
                hold := List.replicate channels 0 }
          else none
        | none => none
      | 1 =>
        match egressOfCode (byteAt a 11), (a.drop 12).mapM fun b => channelSlotOfCode b.toNat with
        | some e, some items =>
          if byteAt a 10 ≤ 2 then
            some { base with direction := .capture, level := byteAt a 10, egress := e, channelSlots := items }
          else none
        | _, _ => none
      | _ => none
    else none
  | _, _ => none

/-- A tag held by another entry that is not EMPTY (R13). -/
def State.tagTaken (s : State) (i : StreamIdx) (tag : Word) : Bool :=
  streamIndices.any fun j => j != i && (s.stream j).state != .empty && (s.stream j).tag == tag

/-- Whether a redefinition makes the out-slots that name the entry stale (R15). -/
def Stream.staleAfter (old new : Stream) : Bool :=
  old.state == .idle
    && (old.direction != new.direction || old.lane != new.lane || old.channels != new.channels)

/-- An accepted STREAM_DEFINE (R14, R15, R16). -/
def define (i : StreamIdx) (new : Stream) (s : State) : State :=
  let s1 := if (s.stream i).staleAfter new then clearOutSlots i s else s
  (s1.setStream i new).setDiscovery (s.discovery.remove new.tag)

/-- STREAM_DEFINE: the four checks in order, then the definition (R11). -/
def streamDefine (a : List Byte) (s : State) : State × Answer :=
  match finOf 64 (byteAt a 0) with
  | none => (s, { status := .index })
  | some i =>
    if (s.stream i).state ≠ .empty ∧ (s.stream i).state ≠ .idle then (s, { status := .state })
    else
      match parseDefinition a with
      | none => (s, { status := .value })
      | some new =>
        if s.tagTaken i new.tag then (s, { status := .tagConflict }) else (define i new s, { status := .ok })

/-- STREAM_DEFINE. -/
def execStreamDefine (s : State) : Result := .next (runRequest (some .streamDefine) streamDefine s)

/-! ## STREAM_CLEAR (section 1.5) -/

/-- STREAM_CLEAR (R17). -/
def streamClear (a : List Byte) (s : State) : State × Answer :=
  match finOf 64 (byteAt a 0) with
  | none => (s, { status := .index })
  | some i =>
    match (s.stream i).state with
    | .empty => (s, { status := .ok, results := bytesOf [0] })
    | .idle =>
      ((clearOutSlots i s).setStream i Stream.blank, { status := .ok, results := bytesOf [s.outSlotsOf i] })
    | .waiting | .armed | .running | .starved | .draining => (s, { status := .state })

/-- STREAM_CLEAR. -/
def execStreamClear (s : State) : Result := .next (runRequest (some .streamClear) streamClear s)

/-! ## STREAM_START (section 2.2) -/

/-- The checks of an IDLE entry against its timing lane, in order (R27). -/
def startCheck (st : Stream) (c : LaneConfig) : Option Status :=
  match st.direction with
  | .playout => if c.drives then none else some .state
  | .capture =>
    if !c.takes then some .state
    else if st.channelSlots.any (fun item =>
        match item with
        | some k => c.slots ≤ k.val
        | none => false) then some .value
    else none

/-- The results of a STREAM_START: reservation, unreserved count after, wait-list position (R28). -/
def startBytes (reservation : Nat) (after : State) (position : Nat) : List Byte :=
  be2 reservation ++ be2 after.unreserved ++ bytesOf [position]

/-- The decision against the wait list and the unreserved count (R28). -/
def decideStart (i : StreamIdx) (s : State) : State × Answer :=
  let st := s.stream i
  let r := st.reservation
  if s.waitList = [] ∧ r ≤ s.unreserved then
    let s1 := s.setStream i st.enterArmed
    (s1, { status := .ok, results := startBytes r s1 0xFF })
  else if s.waitList.length < Config.waitList then
    let s1 := (s.setStream i { st with state := .waiting }).setWaitList (s.waitList ++ [i])
    (s1, { status := .queued, results := startBytes r s1 s.waitList.length })
  else (s, { status := .full, results := startBytes r s 0xFF })

/-- STREAM_START (R26, R27, R28). -/
def streamStart (a : List Byte) (s : State) : State × Answer :=
  match finOf 64 (byteAt a 0) with
  | none => (s, { status := .index })
  | some i =>
    let st := s.stream i
    if st.state ≠ .idle then (s, { status := .state })
    else
      match startCheck st (s.lane st.lane).config with
      | some refusal => (s, { status := refusal })
      | none => decideStart i s

/-- STREAM_START. -/
def execStreamStart (s : State) : Result := .next (runRequest (some .streamStart) streamStart s)

/-! ## STREAM_STOP (sections 2.5, 4.6 and 7.5) -/

/-- What a stop does to a stream that can be stopped, none where the answer is STATE (R33, R34, R83, R137 to R140). -/
def stopEffect (st : Stream) (discard : Bool) : Option (StreamIdx → State → State) :=
  match st.direction, st.state with
  | _, .empty => none
  | _, .idle => none
  | _, .waiting => some stopWaiting
  | .playout, .armed => some stopPlayout
  | .playout, .running => some stopPlayout
  | .playout, .starved => some stopPlayout
  | .playout, .draining => none
  | .capture, .armed => some stopArmed
  | .capture, .running => some (if discard then stopDiscard else stopRunning)
  | .capture, .starved => none
  | .capture, .draining => none

/-- STREAM_STOP; the reply carries the state reached (R33, R34, R83, R137 to R140); that an option byte of 1 is
discard is the model's (log entry 28). -/
def streamStop (a : List Byte) (s : State) : State × Answer :=
  match finOf 64 (byteAt a 0) with
  | none => (s, { status := .index })
  | some i =>
    match stopEffect (s.stream i) (optionChosen a 1) with
    | none => (s, { status := .state })
    | some stop =>
      let s1 := stop i s
      (s1, { status := .ok, results := bytesOf [(s1.stream i).state.code] })

/-- STREAM_STOP. -/
def execStreamStop (s : State) : Result := .next (runRequest (some .streamStop) streamStop s)

/-! ## STREAM_QUERY (section 1.6) -/

/-- Zero the counters of an entry (R10, R20). -/
def Stream.zeroCounters (st : Stream) : Stream := { st with playout := {}, capture := {} }

/-- STREAM_QUERY (R18, R20); the option byte's meaning is the model's (log entry 28). -/
def streamQuery (a : List Byte) (s : State) : State × Answer :=
  match finOf 64 (byteAt a 0) with
  | none => (s, { status := .index })
  | some i =>
    (if optionChosen a 1 then s.setStream i (s.stream i).zeroCounters else s,
      { status := .ok, results := (s.stream i).queryBytes })

/-- STREAM_QUERY. -/
def execStreamQuery (s : State) : Result := .next (runRequest (some .streamQuery) streamQuery s)

end Sys2Proof.Machine
end

