-- ==== Sys2Proof/Machine/Dispatch.lean ====
section
/-! DEFINITION. The dispatch of the commands: one arm for each constructor of Instr. -/

namespace Sys2Proof.Machine

def exec (i : Instr) (s : State) : Host.Outcome State Fault Refusal :=
  match i with
  | .powerOn => Sys2Proof.Machine.execPowerOn s
  | .resetPinRecognised => Sys2Proof.Machine.execResetPinRecognised s
  | .resetPinRelease => Sys2Proof.Machine.execResetPinRelease s
  | .promLoadCompletion pdio straps tbFirst => Sys2Proof.Machine.execPromLoadCompletion pdio straps tbFirst s
  | .linkRise port => Sys2Proof.Machine.execLinkRise port s
  | .linkFall port => Sys2Proof.Machine.execLinkFall port s
  | .trunkFrameArrival port frame upThroughout => Sys2Proof.Machine.execTrunkFrameArrival port frame upThroughout s
  | .syncLeadingEdge lane change => Sys2Proof.Machine.execSyncLeadingEdge lane change s
  | .syncTimeout timeout => Sys2Proof.Machine.execSyncTimeout timeout s
  | .frameEvent lane din order late => Sys2Proof.Machine.execFrameEvent lane din order late s
  | .servoReview gen => Sys2Proof.Machine.execServoReview gen s
  | .sampleFrameTxCompletion port => Sys2Proof.Machine.execSampleFrameTxCompletion port s
  | .replyTxCompletion port => Sys2Proof.Machine.execReplyTxCompletion port s
  | .abortGapEnd port => Sys2Proof.Machine.execAbortGapEnd port s
  | .agingSweep => Sys2Proof.Machine.execAgingSweep s
  | .uptimeTick => Sys2Proof.Machine.execUptimeTick s
  | .identify => Sys2Proof.Machine.execIdentify s
  | .status => Sys2Proof.Machine.execStatus s
  | .trunkConfig => Sys2Proof.Machine.execTrunkConfig s
  | .streamDefine => Sys2Proof.Machine.execStreamDefine s
  | .streamClear => Sys2Proof.Machine.execStreamClear s
  | .streamStart => Sys2Proof.Machine.execStreamStart s
  | .streamStop => Sys2Proof.Machine.execStreamStop s
  | .streamQuery => Sys2Proof.Machine.execStreamQuery s
  | .slotAssign => Sys2Proof.Machine.execSlotAssign s
  | .slotQuery => Sys2Proof.Machine.execSlotQuery s
  | .laneConfig => Sys2Proof.Machine.execLaneConfig s
  | .laneStart => Sys2Proof.Machine.execLaneStart s
  | .laneStop => Sys2Proof.Machine.execLaneStop s
  | .clockConfig => Sys2Proof.Machine.execClockConfig s
  | .counters => Sys2Proof.Machine.execCounters s
  | .discoveryList => Sys2Proof.Machine.execDiscoveryList s
  | .discoveryConfig => Sys2Proof.Machine.execDiscoveryConfig s
  | .eventsFetch => Sys2Proof.Machine.execEventsFetch s
  | .eventConfig => Sys2Proof.Machine.execEventConfig s
  | .deviceReset => Sys2Proof.Machine.execDeviceReset s
  | .unknownRequest => Sys2Proof.Machine.execUnknownRequest s

end Sys2Proof.Machine
end

