-- ==== Sys2Proof/Safety.lean ====
section
/-! DEFINITION. What statements about the part are made of: the invariants of its blocks, and what an executed request
leaves. -/

namespace Sys2Proof.Machine

/-! ## Invariants -/

/-- At a port that is UP and has an IDLE transmitter nothing is eligible (R150). -/
abbrev State.settledAt (s : State) (p : Port) : Prop :=
  (s.port p).linkUp = true → (s.port p).tx = .idle →
    (s.port p).replies = [] ∧
      ∀ i : StreamIdx, (s.stream i).direction = .capture →
        ∀ f ∈ (s.stream i).ready, f.pendingOn.get p = true → f.inTx.get p = true

/-- An idle transmitter waits only for work that does not yet exist (R150). -/
abbrev State.settled (s : State) : Prop := s.settledAt .ta ∧ s.settledAt .tb

/-- A port that is DOWN sends nothing, queues nothing and has no claim on any ready frame (R159). -/
abbrev State.downQuietAt (s : State) (p : Port) : Prop :=
  (s.port p).linkUp = false →
    (s.port p).tx = .idle ∧ (s.port p).replies = [] ∧
      ∀ i : StreamIdx, ∀ f ∈ (s.stream i).ready, f.pendingOn.get p = false ∧ f.inTx.get p = false

/-- The transmit side of the part (R149, R150, R159): levels lie within 0 to 2, DOWN ports are quiet, and nothing
eligible is left at an idle port. -/
abbrev State.transmitInv (s : State) : Prop :=
  (∀ i : StreamIdx, (s.stream i).level ≤ 2) ∧ s.downQuietAt .ta ∧ s.downQuietAt .tb ∧ s.settled

/-- The Event Queue (R191, R197): at most 32 records, no two with the same kind and source, and EVT# asserted exactly
while a record at or above the threshold is held. -/
abbrev State.eventInv (s : State) : Prop :=
  s.events.records.length ≤ 32
    ∧ s.events.records.Pairwise (fun a b => ¬ (a.kind = b.kind ∧ a.source = b.source))
    ∧ (s.events.asserted = true ↔ ∃ r ∈ s.events.records, s.events.threshold ≤ r.level)

/-- The control request queue holds at most 4 requests and each port's reply queue at most 2 replies (R156, R175). -/
abbrev State.queueInv (s : State) : Prop :=
  s.control.requests.length ≤ 4 ∧ (s.port .ta).replies.length ≤ 2 ∧ (s.port .tb).replies.length ≤ 2

/-- The pool and the wait list (R23, R28, R29): every stream in WAITING stands on the list exactly once and no other
does, the list holds at most 8, the reservations fit in the pool, and the head does not fit in what is unreserved. -/
abbrev State.admissionInv (s : State) : Prop :=
  s.waitList.length ≤ 8 ∧ s.waitList.Nodup
    ∧ (∀ i : StreamIdx, (s.stream i).state = .waiting ↔ i ∈ s.waitList)
    ∧ s.reservedCells ≤ 1024
    ∧ (s.waitList.head?.all fun h => decide (s.unreserved < (s.stream h).reservation)) = true

/-- Tags (R4, R164): entries that are not EMPTY hold tags other than 0, no two the same; the Discovery List holds at
most 16 records, no two with the same tag, none with tag 0 or with the tag of such an entry. -/
abbrev State.tagInv (s : State) : Prop :=
  (∀ i : StreamIdx, (s.stream i).state ≠ .empty → (s.stream i).tag ≠ 0)
    ∧ (∀ i j : StreamIdx, i ≠ j → (s.stream i).state ≠ .empty → (s.stream j).state ≠ .empty →
        (s.stream i).tag ≠ (s.stream j).tag)
    ∧ s.discovery.records.length ≤ 16
    ∧ s.discovery.records.Pairwise (fun a b => a.tag ≠ b.tag)
    ∧ ∀ r ∈ s.discovery.records,
        r.tag ≠ 0 ∧ ∀ i : StreamIdx, (s.stream i).state ≠ .empty → (s.stream i).tag ≠ r.tag

/-- What an occupied out-slot names (R108). -/
abbrev State.slotOk (s : State) (l : LaneIdx) (k : Fin 32) (e : OutSlot) : Prop :=
  (s.stream e.stream).state ≠ .empty ∧ (s.stream e.stream).direction = .playout ∧ (s.stream e.stream).lane = l
    ∧ e.channel.val < (s.stream e.stream).channels ∧ k.val < (s.lane l).config.slots
    ∧ (s.lane l).config.direction ≠ .inp

/-- Every occupied out-slot names a stream and a channel that it may name (R108). -/
abbrev State.slotInv (s : State) : Prop :=
  ∀ l : LaneIdx, ∀ k : Fin 32, (((s.lane l).outTable.get k).all fun e => decide (s.slotOk l k e)) = true

/-- The ranges of a media clock generator (R115, R118, R123). -/
abbrev Gen.ok (g : Gen) : Prop :=
  g.num ≤ 1048575 ∧ 1 ≤ g.den ∧ g.den ≤ 1048575 ∧ (g.num = 0 ∨ g.num * 4 ≤ g.den) ∧ -512 ≤ g.trim ∧ g.trim ≤ 512
    ∧ 1 ≤ g.step ∧ g.step ≤ 16 ∧ g.window ≤ 4 ∧ g.reviewCount ≤ 1023

/-- Both generators lie in their ranges. -/
abbrev State.genInv (s : State) : Prop := (s.gen .mcg0).ok ∧ (s.gen .mcg1).ok

/-- Lanes and what runs on them (R85, R97, R100, R101, R116, R130): a stream is RUNNING, or a playout stream STARVED, only
while its timing lane is RUNNING; only slaves look for a frame; a RUNNING master lane has a RUNNING generator; a frame
event is due only at a RUNNING slave with data delay 1. -/
abbrev State.laneInv (s : State) : Prop :=
  (∀ i : StreamIdx,
      ((s.stream i).state = .running ∨ ((s.stream i).direction = .playout ∧ (s.stream i).state = .starved)) →
        (s.lane (s.stream i).lane).state = .running)
    ∧ ∀ l : LaneIdx,
        ((s.lane l).state = .seeking ∨ (s.lane l).state = .lost → (s.lane l).config.role = .slave)
          ∧ ((s.lane l).state = .running →
              ((s.lane l).config.role = .master0 → (s.gen .mcg0).num ≠ 0)
                ∧ ((s.lane l).config.role = .master1 → (s.gen .mcg1).num ≠ 0))
          ∧ ((s.lane l).eventDue = true →
              (s.lane l).state = .running ∧ (s.lane l).config.role = .slave ∧ (s.lane l).config.delayOne = true)

/-- The ranges of a definition that STREAM_DEFINE accepts (R3, R12). -/
abbrev Stream.definitionOk (st : Stream) : Prop :=
  st.tag ≠ 0 ∧ 1 ≤ st.channels ∧ st.channels ≤ 16 ∧ 1 ≤ st.frameSamples ∧ st.frameSamples ≤ 64
    ∧ st.channels * st.width.bytes * st.frameSamples ≤ 1024
    ∧ (st.direction = .playout → 2 ≤ st.depthMax ∧ st.depthMax ≤ 32 ∧ 1 ≤ st.depthTarget
        ∧ st.depthTarget ≤ st.depthMax - 1)
    ∧ (st.direction = .capture → st.level ≤ 2)

/-- The fields of an entry by its direction (R1, R2): those of the other direction are zero, and a capture entry has one
channel-slot item for each channel and an egress. -/
abbrev Stream.fieldsOk (st : Stream) : Prop :=
  (st.direction = .playout →
      st.level = 0 ∧ st.egress = ⟨false, false⟩ ∧ st.channelSlots = [] ∧ st.nextSeq = 0
        ∧ st.capture = ⟨0, 0, 0, 0, 0⟩)
    ∧ (st.direction = .capture →
        st.depthMax = 0 ∧ st.depthTarget = 0 ∧ st.conceal = .zero ∧ st.playout = ⟨0, 0, 0, 0, 0, 0, 0, 0, 0⟩
          ∧ st.expected = none ∧ st.window = [] ∧ st.gap = false ∧ st.misplaced = 0 ∧ st.readIndex = 0
          ∧ st.hold = [] ∧ st.channelSlots.length = st.channels ∧ st.egress ≠ ⟨false, false⟩)

/-- What the frames of a capture entry hold (R129, R132, R137): the frame under construction and each ready frame a word
for each sample and channel, a ready frame F samples, or up to F with END set. -/
abbrev Stream.wordsOk (st : Stream) : Prop :=
  (st.construction.all fun con => decide (con.words.length = con.count * st.channels)) = true
    ∧ ∀ f ∈ st.ready,
        f.words.length = f.samples * st.channels ∧ f.samples ≤ st.frameSamples
          ∧ (f.isEnd = false → f.samples = st.frameSamples)

/-- A ready frame is pending on some port, and on every port it is in transmission on (R129, R154). -/
abbrev ReadyFrame.ok (f : ReadyFrame) : Prop :=
  f.pendingOn.isNone = false ∧ (f.inTx.ta = true → f.pendingOn.ta = true) ∧ (f.inTx.tb = true → f.pendingOn.tb = true)

/-- An entry of the Stream Table (R1, R7, R129, R141): an EMPTY entry is zero throughout, any other has a definition in
its ranges; no playout stream drains and no capture stream starves; only a capture stream in ARMED, RUNNING or DRAINING
has ready frames, at most two; only a RUNNING one has a frame under construction, with fewer than F samples, and the first-of-run mark; a DRAINING
one has a ready frame; the fields of the other direction are zero; frames hold a word for each sample and channel. -/
abbrev Stream.ok (st : Stream) : Prop :=
  (st.state = .empty → st = Stream.blank)
    ∧ (st.state ≠ .empty → st.definitionOk)
    ∧ (st.direction = .playout → st.state ≠ .draining)
    ∧ (st.direction = .capture → st.state ≠ .starved)
    ∧ st.ready.length ≤ 2
    ∧ (∀ f ∈ st.ready, f.ok)
    ∧ (st.ready ≠ [] →
        st.direction = .capture ∧ (st.state = .armed ∨ st.state = .running ∨ st.state = .draining))
    ∧ (st.construction.isSome = true → st.direction = .capture ∧ st.state = .running)
    ∧ (st.construction.all fun con => decide (con.count < st.frameSamples)) = true
    ∧ (st.direction = .capture → st.state = .running → st.construction.isSome = true)
    ∧ (st.state = .draining → st.ready ≠ [])
    ∧ (st.firstOfRun = true → st.direction = .capture ∧ st.state = .running)
    ∧ st.fieldsOk ∧ st.wordsOk

/-- The frame in transmission on a port (R129, R147, R153): a port sends a sample frame of a stream exactly when that
stream has a ready frame in transmission on the port, and then just one; a reply being sent stands in the reply
queue. -/
abbrev State.sendingOk (s : State) (p : Port) : Prop :=
  (∀ i : StreamIdx,
      ((s.stream i).ready.countP fun f => f.inTx.get p) = if (s.port p).tx = .sample i then 1 else 0)
    ∧ ((s.port p).tx = .reply → (s.port p).replies ≠ [])

/-- The Stream Table and the transmitters agree. -/
abbrev State.streamInv (s : State) : Prop :=
  (∀ i : StreamIdx, (s.stream i).ok) ∧ s.sendingOk .ta ∧ s.sendingOk .tb

/-- A frame of a reorder window at a position of a window whose position 0 stands for a sequence (R53, R62). -/
abbrev Stream.frameOk (st : Stream) (e : Half) (n : Nat) (f : PlayFrame) : Prop :=
  f.seq = e + BitVec.ofNat 16 n ∧ f.samples ≤ st.frameSamples ∧ (f.isEnd = false → f.samples = st.frameSamples)
    ∧ f.words.length = f.samples * st.channels

/-- A window with E set (R62). -/
abbrev Stream.windowOk (st : Stream) : Prop :=
  st.window.length = st.depthMax
    ∧ (List.range st.depthMax).all (fun n =>
        (st.window.getD n none).all fun f => decide (st.frameOk (st.expected.getD 0) n f)) = true

/-- The relations of the working values of a playout entry (R62, R67, R90). -/
abbrev Stream.playOk (st : Stream) : Prop :=
  st.misplaced ≤ 7 ∧ (st.state ≠ .empty → st.hold.length = st.channels)
    ∧ (st.expected = none → st.window = [] ∧ st.gap = false ∧ st.readIndex = 0)
    ∧ (st.expected.isSome = true → st.activePlayout = true ∧ st.windowOk)
    ∧ (st.state = .armed → st.gap = false ∧ st.readIndex = 0 ∧ (st.expected.isSome = true → st.front.isSome = true))
    ∧ (st.state = .running →
        st.expected.isSome = true
          ∧ (st.gap = true → st.front = none ∧ 1 ≤ st.held ∧ 1 ≤ st.readIndex ∧ st.readIndex < st.frameSamples)
          ∧ (st.gap = false → st.readIndex ≠ 0 →
              (st.front.any fun f => decide (st.readIndex < st.playLength f)) = true))
    ∧ (st.state = .starved → st.expected.isSome = true ∧ st.gap = false ∧ st.readIndex = 0)

/-- Every playout entry keeps the relations of R90. -/
abbrev State.playInv (s : State) : Prop :=
  ∀ i : StreamIdx, (s.stream i).direction = .playout → (s.stream i).playOk

/-! ## Executed requests -/

/-- The request at the head of the queue, with those behind it, is one the Control Agent executes now (R176). -/
abbrev State.executes (s : State) (rq : Request) (rest : List Request) : Prop :=
  s.control.requests = rq :: rest ∧ s.control.halted = false
    ∧ ((s.port rq.port).replies.length < 2 ∨ (s.port rq.port).linkUp = false)

/-- The state with the head taken off the request queue. -/
def State.taken (s : State) (rest : List Request) : State := s.setControl { s.control with requests := rest }

/-- The state with a reply handed on (R177, R178): at an UP port it joins the reply queue with the node identity as its
source, and an IDLE transmitter begins to send it; at a DOWN port it is counted and posted as lost. -/
def State.replied (u : State) (rq : Request) (payload : List Byte) : State :=
  let x := u.port rq.port
  if x.linkUp then
    u.setPort rq.port
      { x with
        replies :=
          x.replies ++ [{ dest := rq.source, source := u.control.nodeId, txn := rq.txn, payload := payload }],
        tx := if x.tx = .idle then .reply else x.tx }
  else
    (u.setPort rq.port { x with txc := { x.txc with repliesLost := bump x.txc.repliesLost } }).post .replyLost
      (.port rq.port) rq.txn

/-- The part right after a reset with a given cause (R186): every block at its reset values, the LINK inputs as they stand,
and the waiting commands kept. -/
def State.afterReset (s : State) (cause : StartCause) (phase : Phase) : State :=
  { State.reset with
    phase := phase,
    ports := ⟨{ State.reset.ports.ta with linkPin := s.ports.ta.linkPin },
      { State.reset.ports.tb with linkPin := s.ports.tb.linkPin }⟩,
    control := { State.reset.control with startCause := cause },
    pending := s.pending }

/-- The argument values of a STREAM_DEFINE that R12 accepts, by their places in the layout of R174. -/
abbrev DefinitionArgsOk (a : List Byte) : Prop :=
  1 ≤ beAt a 2 4 ∧ 1 ≤ byteAt a 6 ∧ byteAt a 6 ≤ 16 ∧ byteAt a 7 ≤ 2 ∧ 1 ≤ byteAt a 8 ∧ byteAt a 8 ≤ 64
    ∧ byteAt a 6 * (byteAt a 7 + 2) * byteAt a 8 ≤ 1024 ∧ byteAt a 9 ≤ 3
    ∧ ((byteAt a 1 = 0 ∧ 2 ≤ byteAt a 10 ∧ byteAt a 10 ≤ 32 ∧ 1 ≤ byteAt a 11 ∧ byteAt a 11 ≤ byteAt a 10 - 1
          ∧ byteAt a 12 ≤ 1)
        ∨ (byteAt a 1 = 1 ∧ byteAt a 10 ≤ 2 ∧ 1 ≤ byteAt a 11 ∧ byteAt a 11 ≤ 3
            ∧ ∀ b ∈ a.drop 12, b.toNat ≤ 31 ∨ b.toNat = 0xFF))

/-- The width a width code of 0, 1 or 2 names (R41). -/
def widthNamed (code : Byte) : Width := if code = 0 then .w16 else if code = 1 then .w24 else .w32

/-- A drain completed for a stream (R141): IDLE, its reservation released with the admission test, DRAIN_DONE posted. -/
def State.drained (s : State) (i : StreamIdx) : State :=
  (admissionTest (s.setStream i { s.stream i with state := .idle })).post .drainDone (.stream i)
    ((s.stream i).nextSeq.setWidth 32)

/-- A port taken off every ready frame of a list, with the frames left that still have a claim (R158 step 2). -/
def withdrawn (p : Port) (ready : List ReadyFrame) : List ReadyFrame :=
  (ready.map fun f => { f with pendingOn := f.pendingOn.set p false, inTx := f.inTx.set p false }).filter fun f =>
    f.pendingOn.ta || f.pendingOn.tb

/-- A frame of a stream that is eligible at a port (R149). -/
abbrev Stream.owes (st : Stream) (p : Port) : Prop :=
  st.direction = .capture ∧ ∃ f ∈ st.ready, f.pendingOn.get p = true ∧ f.inTx.get p = false

/-- A lane gives a frame event (R99, R101, R103): it is RUNNING, and on a slave the sync that follows the frame has been
found in place. -/
abbrev Lane.atEvent (x : Lane) : Prop := x.state = .running ∧ (x.config.role = .slave → x.eventDue = true)

/-- An active playout stream timed by a lane (section 3.5, R71). -/
abbrev Stream.playsOn (st : Stream) (l : LaneIdx) : Prop :=
  st.direction = .playout ∧ (st.state = .armed ∨ st.state = .running ∨ st.state = .starved) ∧ st.lane = l

/-- The word a capture stream takes for one item of its channel-slot list (R93, R105, R131): the levels of Ln_DIN in the
bit periods of the slot, the first of them the most significant bit of the word, with zeros below the slot width. -/
def capturedWord (c : LaneConfig) (line : PinLevels) (item : Option (Fin 32)) : Word :=
  match item with
  | none => 0
  | some k =>
    let first := k.val * c.slotWidth.bits + if c.delayOne = true then 1 else 0
    let level := fun b : Nat => b < c.slotWidth.bits ∧ line.getLsbD (first + b) = true
    if c.direction = .out ∨ c.slots ≤ k.val then 0
    else BitVec.ofNat 32 ((List.range 32).foldl (fun n b => 2 * n + if level b then 1 else 0) 0)

/-! ## Frame events -/

/-- A lane's clock edges (R92, R93): what an input carries at the edge on which it is sampled. -/
def LaneConfig.inputOf {α : Type} (c : LaneConfig) (x : AtEdges α) : α :=
  if c.clockEdge = .driveFalling then x.rising else x.falling

/-- The samples under construction of a capture stream as a frame event finds them: none yet where the event takes it
from ARMED to RUNNING (R130). -/
def Stream.constructionAt (st : Stream) : Construction :=
  if st.state = .armed then ⟨0, []⟩ else st.construction.getD ⟨0, []⟩

/-- A capture stream with the sample group of a frame event taken (R130, R131). -/
def Stream.withGroup (st : Stream) (c : LaneConfig) (line : PinLevels) : Stream :=
  { st with
    state := .running, firstOfRun := st.firstOfRun || decide (st.state = .armed),
    construction :=
      some ⟨st.constructionAt.count + 1, st.constructionAt.words ++ st.channelSlots.map (capturedWord c line)⟩ }

/-- The sample group of a frame event fills the frame under construction (R132). -/
abbrev Stream.fills (st : Stream) : Prop := st.frameSamples ≤ st.constructionAt.count + 1

/-- A capture stream after a frame event at which it acts, with the sequence of a frame that this overruns (R131 to R134):
the frame closed as `closingFrame` builds it and disposed of. -/
def State.captured (s : State) (st : Stream) (c : LaneConfig) (line : PinLevels) : Stream × Option Half :=
  let u := st.withGroup c line
  if st.fills then (u.afterClose false).dispose (closingFrame s u false) else (u, none)

/-- The postings of one stream at a frame event of its lane (R72, R78, R80, R82, R130, R134). -/
def State.streamPosts (s : State) (c : LaneConfig) (line : PinLevels) (i : StreamIdx) :
    List (EventKind × Source × Word) :=
  let st := s.stream i
  match st.direction with
  | .playout => st.playStep.posts.map fun e => (e.1, .stream i, e.2)
  | .capture =>
    ((s.captured st c line).2.map fun v => (.captureOverrun, .stream i, v.setWidth 32)).toList
      ++ if st.state = .armed then [(.streamRunning, .stream i, st.nextSeq.setWidth 32)] else []

/-- The trim that a review of a generator asks for on a number of frames held, before the limit (R122). -/
def Gen.asked (x : Gen) (held target : Nat) : Int :=
  if target + x.window < held then x.trim + x.step
  else if held + x.window < target then x.trim - x.step
  else x.trim

/-- The servo of a generator counts a frame event of a lane, and the count reaches 1024: its reference plays on the lane,
is RUNNING before and after its step, and the lane is a master of the generator (R120, R121). -/
abbrev State.reviewsAt (s : State) (l : LaneIdx) (g : GenIdx) (r : StreamIdx) : Prop :=
  (s.gen g).reference = some r ∧ (s.stream r).playsOn l ∧ (s.stream r).state = .running
    ∧ (s.stream r).playStep.stream.state = .running
    ∧ (s.lane l).config.role = (if g = .mcg0 then .master0 else .master1) ∧ 1024 ≤ (s.gen g).reviewCount + 1

/-- The posting of a generator at a frame event: SERVO_LIMIT when a review at the event is cut (R122, R123). -/
def State.servoPosts (s : State) (l : LaneIdx) (g : GenIdx) : List (EventKind × Source × Word) :=
  match (s.gen g).reference with
  | none => []
  | some r =>
    let wanted := (s.gen g).asked ((s.stream r).playStep.stream.window.countP Option.isSome) (s.stream r).depthTarget
    if s.reviewsAt l g r ∧ 512 < wanted then [(.servoLimit, .gen g, 512)]
    else if s.reviewsAt l g r ∧ wanted < -512 then [(.servoLimit, .gen g, 0xFFFFFE00)]
    else []

/-- The streams that act at a frame event of a lane, before and after the servos, in the order that the operands ask for
(log 7). -/
def State.frameOrder (s : State) (l : LaneIdx) (f : FrameData) : List StreamIdx × List StreamIdx :=
  (arrange f.order (s.streamsWhere (Stream.actsOn l))).partition fun i =>
    !((s.stream i).direction == .capture && f.late.contains i)

/-- The postings of a frame event in their order (log 7, log 20). -/
def State.framePosts (s : State) (l : LaneIdx) (f : FrameData) : List (EventKind × Source × Word) :=
  let c := (s.lane l).config
  let posts := s.streamPosts c (c.inputOf f.din)
  (s.frameOrder l f).1.flatMap posts ++ s.servoPosts l .mcg0 ++ s.servoPosts l .mcg1
    ++ (s.frameOrder l f).2.flatMap posts

/-- The Event Queue after postings in order. -/
def EventQueue.postEach (q : EventQueue) (posts : List (EventKind × Source × Word)) : EventQueue :=
  posts.foldl (fun u e => u.post e.1 e.2.1 e.2.2) q

/-- A stream whose frame closes at a frame event and joins its ready list with a claim on a port (R132, R134). -/
abbrev State.joinsAt (s : State) (p : Port) (i : StreamIdx) : Prop :=
  (s.stream i).direction = .capture ∧ (s.stream i).fills ∧ (s.upPorts (s.stream i).egress).get p = true
    ∧ ((s.stream i).ready.length < 2 ∨ (s.stream i).ready.any (fun v => v.inTx.isNone) = true)

/-- The stream whose frame a port that is UP and IDLE begins to send at a frame event: the first that closes one for it
(R150, R153). -/
def State.grantedAt (s : State) (l : LaneIdx) (f : FrameData) (p : Port) : Option StreamIdx :=
  if (s.port p).linkUp = true ∧ (s.port p).tx = .idle then
    ((s.frameOrder l f).1 ++ (s.frameOrder l f).2).find? fun i => decide (s.joinsAt p i)
  else none

/-- A port after the grant of a sample frame that is the only thing eligible (R151, R152). -/
def PortState.granted (x : PortState) (i : StreamIdx) (level : Nat) : PortState :=
  { x with
    tx := .sample i,
    credits :=
      match x.mode with
      | .strict => x.credits
      | .weighted => if 0 < x.credits.of level then x.credits.spend level else Credits.spend ⟨4, 2, 1⟩ level }

/-- Ready frames with marks of further grants, and nothing else, changed: a port begins to send only what is pending on
it. -/
abbrev Remarked (before after : List ReadyFrame) : Prop :=
  after.length = before.length
    ∧ ∀ (n : Nat) (f g : ReadyFrame), before[n]? = some f → after[n]? = some g →
        g = { f with inTx := g.inTx }
          ∧ ∀ p : Port, (f.inTx.get p = true ∨ f.pendingOn.get p = false) → g.inTx.get p = f.inTx.get p

/-! ## Received frames -/

/-- The check word that a frame carries: its last four bytes, the first of them least significant (R42). -/
abbrev carriedCheckWord (f : List Byte) : Nat :=
  byteAt f (f.length - 4) + byteAt f (f.length - 3) * 0x100 + byteAt f (f.length - 2) * 0x10000
    + byteAt f (f.length - 1) * 0x1000000

/-- A good frame of a kind (R47): right length, right check word, one of the three kinds with a payload it may have. -/
abbrev GoodFrame (f : List Byte) (kind : Nat) : Prop :=
  20 ≤ f.length ∧ f.length ≤ 1044 ∧ beAt f 14 2 = f.length - 20
    ∧ carriedCheckWord f = (checkWord (f.take (f.length - 4))).toNat ∧ byteAt f 0 = kind
    ∧ (kind = 0x51 ∨ (kind = 0x52 ∧ 1 ≤ beAt f 14 2) ∨ (kind = 0x53 ∧ 2 ≤ beAt f 14 2))

/-- Replace the receive counters of a port. -/
def State.withRx (s : State) (p : Port) (c : RxCounters) : State := s.setPort p { s.port p with rx := c }

end Sys2Proof.Machine
end

