-- ==== Sys2Proof/Certificates/Slice0/Obligations.lean ====
section
/-! DEFINITION. The statements for the provers, in the order of OBLIGATIONS.json: the queue of commands, reset and
start-up, the trunk receivers, the lanes, playout, the servo, capture, transmission, the lists, the requests, and the
invariants that every step keeps. -/

section
open Sys2Proof Sys2Proof.Machine

/-! ## The machine -/

/-- A step takes the command at the front of the queue; an empty queue idles (the model's own queue, log 3). -/
def Obligations.StepTakesTheFrontCommand : Prop :=
  (∀ (c : Instr) (rest : List Instr) (s : State), step (s.setPending (c :: rest)) = exec c (s.setPending rest))
    ∧ ∀ s : State, s.pending = [] → step s = .next s

/-- Every command is carried out in every state: none ends in a fault or a refusal, and none touches the queue of waiting
commands. The model's choices: meanings are total, also in states that no run reaches (log 22), a command whose occurrence
cannot come about changes nothing (log 2), and the queue is the model's own (log 3). -/
def Obligations.EveryCommandCompletes : Prop :=
  ∀ (c : Instr) (s : State), ∃ t : State, exec c s = .next t ∧ t.pending = s.pending

/-! ## Reset and start-up -/

/-- The values after reset of every block, where the spec states them (R1, R25, R29, R45, R60, R92, R115, R147, R161,
R164, R175, R186, R191, R192, R197, R198). -/
def Obligations.ResetStateHoldsTheResetValues : Prop :=
  (∀ i : StreamIdx, State.reset.stream i =
      { state := .empty, direction := .playout, tag := 0, channels := 0, width := .w16, frameSamples := 0, lane := 0,
        depthMax := 0, depthTarget := 0, conceal := .zero, level := 0, egress := ⟨false, false⟩, channelSlots := [],
        nextSeq := 0, expected := none, window := [], gap := false, misplaced := 0, readIndex := 0, hold := [],
        construction := none, firstOfRun := false, ready := [], playout := ⟨0, 0, 0, 0, 0, 0, 0, 0, 0⟩,
        capture := ⟨0, 0, 0, 0, 0⟩ })
    ∧ State.reset.waitList = [] ∧ State.reset.unreserved = 1024
    ∧ (∀ l : LaneIdx,
        (State.reset.lane l).config =
            { direction := .both, role := .master0, slots := 8, slotWidth := .w32, syncShape := .pulse,
              polarity := .high, delayOne := true, clockEdge := .driveFalling }
          ∧ (State.reset.lane l).state = .off ∧ (State.reset.lane l).outTable = Vector.replicate 32 none
          ∧ (State.reset.lane l).counters = ⟨0, 0, 0⟩)
    ∧ (∀ g : GenIdx, State.reset.gen g =
        { num := 0, den := 1, trim := 0, reference := none, step := 1, window := 1, reviewCount := 0 })
    ∧ (∀ p : Port,
        (State.reset.port p).linkUp = false ∧ (State.reset.port p).rx = ⟨0, 0, 0, 0, 0, 0, 0, 0, 0⟩
          ∧ (State.reset.port p).tx = .idle ∧ (State.reset.port p).replies = []
          ∧ (State.reset.port p).mode = .strict ∧ (State.reset.port p).credits = ⟨4, 2, 1⟩
          ∧ (State.reset.port p).txc = ⟨0, 0, 0, 0⟩)
    ∧ State.reset.discovery.records = [] ∧ State.reset.discovery.overflow = 0
    ∧ State.reset.control.halted = false ∧ State.reset.control.requests = []
    ∧ State.reset.control.startCause = .power
    ∧ State.reset.events.records = [] ∧ State.reset.events.lost = 0 ∧ State.reset.events.threshold = 2
    ∧ State.reset.events.uptime = 0 ∧ State.reset.events.asserted = false
    ∧ State.reset.events.levels.toList =
        [some 1, some 2, some 0, some 2, some 0, some 0, some 2, some 1, some 1, some 1, some 0, some 2, some 0,
          some 1, some 1]

/-- POWER_ON and RESET_PIN_RECOGNISED take every block to its values after reset with their start cause, whatever the
part was doing; RESET_PIN_RELEASE begins the PROM load after a recognised reset and has no effect otherwise (R186). The
model's choices: the node identity, the selection, A and the PROM result until the load completes (log 11), the LINK inputs
as they stand (log 12), and the load begun in the same step (log 23). -/
def Obligations.ResetsTakeEveryBlockToItsResetValues : Prop :=
  (∀ s : State, exec .powerOn s = .next (s.afterReset .power .loading))
    ∧ (∀ s : State, exec .resetPinRecognised s = .next (s.afterReset .pin .resetHeld))
    ∧ (∀ s : State, s.phase = .resetHeld → exec .resetPinRelease s = .next { s with phase := .loading })
    ∧ ∀ s : State, s.phase ≠ .resetHeld → exec .resetPinRelease s = .next s

/-- The judging of a PROM image and the settings it gives (R187, R188, R189). -/
def Obligations.PromImageIsJudged : Prop :=
  ∀ (image : List Byte) (straps : BitVec 3), image.length = 32 →
    let b := fun n => (image.getD n 0).toNat
    let blank := ∀ n, n < 32 → b n = 0xFF
    let sound :=
      b 0 = 0x55 ∧ b 1 = 0x47 ∧ b 2 = 1 ∧ 0x0001 ≤ b 3 * 256 + b 4 ∧ b 3 * 256 + b 4 ≤ 0xFFFE ∧ b 5 ≤ 2 ∧ b 6 ≤ 4
        ∧ b 7 ≤ 3 ∧ (∀ n, 8 ≤ n → n ≤ 30 → b n = 0) ∧ (image.map BitVec.toNat).sum % 256 = 0
    let defaults : PromSettings := ⟨0x7F00 + straps.setWidth 16, .either, .s2, .strict, .strict⟩
    (blank → judgeLoad image straps = (.absent, defaults))
      ∧ (¬ blank → ¬ sound → judgeLoad image straps = (.bad, defaults))
      ∧ (¬ blank → sound →
          judgeLoad image straps =
            (.loaded,
              { nodeId := BitVec.ofNat 16 (b 3 * 256 + b 4),
                ports := if b 5 = 0 then .ta else if b 5 = 1 then .tb else .either,
                aging :=
                  if b 6 = 0 then .off
                  else if b 6 = 1 then .s1
                  else if b 6 = 2 then .s2
                  else if b 6 = 3 then .s4
                  else .s8,
                modeTa := if b 7 = 1 ∨ b 7 = 3 then .weighted else .strict,
                modeTb := if b 7 = 2 ∨ b 7 = 3 then .weighted else .strict }))

/-- The PROM read and PROM_LOAD_COMPLETION (R187, R189, R190): the read command goes out on PDIO, and the image
is put together from the 256 bits read, most significant bit of each byte first; the settings are applied, DEVICE_STARTED is posted
with start cause × 256 + PROM result, and each port whose LINK is high goes UP and posts TRUNK_UP behind it; the rest of the
part stands. The model's choices: without a load in progress nothing changes (log 2), an operand gives the order of the two
ports (log 8), the bits and the straps are operands (log 17), the bits of the read command and the address go out most
significant first (log 30). -/
def Obligations.PromLoadCompletionStartsThePart : Prop :=
  (promReadBits =
      [false, false, false, false, false, false, true, true] ++ List.replicate 16 false
    ∧ promReadPeriods = promReadBits.length + 256 ∧ ∀ s : State, s.promSelected = true ↔ s.phase = .loading)
    ∧ (∀ pdio : Vector Bool 256, (bytesOfPdio 32 pdio.toList).length = 32 ∧
        ∀ n k, n < 32 → k < 8 →
          ((bytesOfPdio 32 pdio.toList).getD n 0).getMsbD k = pdio.toList.getD (8 * n + k) false)
    ∧ ∀ (pdio : Vector Bool 256) (straps : BitVec 3) (tbFirst : Bool) (s : State),
        (s.phase ≠ .loading → exec (.promLoadCompletion pdio straps tbFirst) s = .next s)
          ∧ (s.phase = .loading →
              let r := judgeLoad (bytesOfPdio 32 pdio.toList) straps
              let up := fun (p : Port) (q : EventQueue) =>
                if (s.port p).linkPin then q.post .trunkUp (.port p) 0 else q
              let started :=
                s.events.post .deviceStarted .none
                  (BitVec.ofNat 32
                    ((match s.control.startCause with
                      | .power => 0
                      | .pin => 1
                      | .request => 2) * 256
                      + match r.1 with
                        | .loaded => 0
                        | .absent => 1
                        | .bad => 2))
              ∃ t : State, exec (.promLoadCompletion pdio straps tbFirst) s = .next t
                ∧ t.phase = .started
                ∧ t.control = { s.control with nodeId := r.2.nodeId, ports := r.2.ports, promResult := r.1 }
                ∧ t.discovery = { s.discovery with aging := r.2.aging }
                ∧ t.port .ta =
                    { s.port .ta with mode := r.2.modeTa, linkUp := (s.port .ta).linkPin || (s.port .ta).linkUp }
                ∧ t.port .tb =
                    { s.port .tb with mode := r.2.modeTb, linkUp := (s.port .tb).linkPin || (s.port .tb).linkUp }
                ∧ t.events = (if tbFirst then up .ta (up .tb started) else up .tb (up .ta started))
                ∧ t.streams = s.streams ∧ t.waitList = s.waitList ∧ t.lanes = s.lanes ∧ t.gens = s.gens
                ∧ t.pending = s.pending)

/-! ## Link state -/

/-- LINK_RISE (R46): after the load a DOWN port goes UP and posts TRUNK_UP with detail 0; otherwise the input alone
rises. -/
def Obligations.LinkRiseTakesADownPortUp : Prop :=
  ∀ (p : Port) (s : State),
    (s.phase = .started → (s.port p).linkUp = false →
      exec (.linkRise p) s =
        .next ((s.setPort p { s.port p with linkPin := true, linkUp := true }).post .trunkUp (.port p) 0))
      ∧ (¬ (s.phase = .started ∧ (s.port p).linkUp = false) →
          exec (.linkRise p) s = .next (s.setPort p { s.port p with linkPin := true }))

/-- LINK_FALL (R46, R158, R184): after the load an UP port goes DOWN and posts TRUNK_DOWN with detail 0, its transmission is
aborted, its claims are withdrawn, its replies are lost one by one, and the drains this empties complete in index
order; the reset of a DEVICE_RESET whose reply is lost takes effect. Otherwise the input alone falls. A frame whose
reception met a DOWN port does not arrive (R40). The model's choices: TRUNK_DOWN stands before the other postings (log 9);
the reply of a DEVICE_RESET is known by its payload (log 24), and the reset leaves the values of logs 11 and 12; an
operand says whether the port was UP throughout a reception (log 16). -/
def Obligations.LinkFallTakesAnUpPortDown : Prop :=
  ∀ (p : Port) (s : State),
    (¬ (s.phase = .started ∧ (s.port p).linkUp = true) →
      exec (.linkFall p) s = .next (s.setPort p { s.port p with linkPin := false }))
      ∧ (s.phase = .started → (s.port p).linkUp = true → s.settled →
          (∀ r ∈ (s.port p).replies, r.payload ≠ [0x14, 0x00]) →
          let x := s.port p
          let s1 :=
            (s.setPort p
              { x with
                linkPin := false, linkUp := false, tx := .idle, replies := [],
                txc := { x.txc with aborted := if x.tx = .idle ∨ x.tx = .abortGap then x.txc.aborted
                                               else bump x.txc.aborted } }).post .trunkDown (.port p) 0
          let s2 := s1.mapStreams fun st => { st with ready := withdrawn p st.ready }
          let s3 := x.replies.foldl
            (fun u r =>
              (u.setPort p
                { u.port p with
                  txc := { (u.port p).txc with repliesLost := bump (u.port p).txc.repliesLost } }).post .replyLost
                (.port p) r.txn) s2
          let ends := (List.finRange 64).filter fun i =>
            decide ((s.stream i).state = .draining ∧ withdrawn p (s.stream i).ready = [])
          exec (.linkFall p) s = .next (ends.foldl State.drained s3))
      ∧ (s.phase = .started → (s.port p).linkUp = true →
          (∃ r ∈ (s.port p).replies, r.payload = [0x14, 0x00]) →
          exec (.linkFall p) s =
            .next ((s.setPort p { s.port p with linkPin := false }).afterReset .request .loading))
      ∧ (∀ f : List Byte, exec (.trunkFrameArrival p f false) s = .next s)
      ∧ ((s.port p).linkUp = false → ∀ f : List Byte, exec (.trunkFrameArrival p f true) s = .next s)

/-! ## Reception -/

/-- The whole-frame checks in order (R47): the first that fails counts in its own counter and nothing else changes. -/
def Obligations.BadFramesAreCountedAndDiscarded : Prop :=
  ∀ (p : Port) (f : List Byte) (s : State), (s.port p).linkUp = true →
    let c := (s.port p).rx
    let badLength := f.length < 20 ∨ 1044 < f.length ∨ beAt f 14 2 ≠ f.length - 20
    let badCheckWord := carriedCheckWord f ≠ (checkWord (f.take (f.length - 4))).toNat
    let badKind := byteAt f 0 ≠ 0x51 ∧ byteAt f 0 ≠ 0x52 ∧ byteAt f 0 ≠ 0x53
    let badPayload := (byteAt f 0 = 0x52 ∧ beAt f 14 2 = 0) ∨ (byteAt f 0 = 0x53 ∧ beAt f 14 2 < 2)
    (badLength → exec (.trunkFrameArrival p f true) s = .next (s.withRx p { c with malformed := bump c.malformed }))
      ∧ (¬ badLength → badCheckWord →
          exec (.trunkFrameArrival p f true) s = .next (s.withRx p { c with checkErrors := bump c.checkErrors }))
      ∧ (¬ badLength → ¬ badCheckWord → badKind →
          exec (.trunkFrameArrival p f true) s = .next (s.withRx p { c with unknownKind := bump c.unknownKind }))
      ∧ (¬ badLength → ¬ badCheckWord → ¬ badKind → badPayload →
          exec (.trunkFrameArrival p f true) s = .next (s.withRx p { c with malformed := bump c.malformed }))

/-- A good SAMPLE frame whose tag matches no entry (R49, R50, R164 to R166): counted, and with a tag other than 0 shown to
the Discovery List, which updates the tag's record, makes a new one at the tail, or counts an overflow. -/
def Obligations.UnknownTagsReachTheDiscoveryList : Prop :=
  ∀ (p : Port) (f : List Byte) (s : State), (s.port p).linkUp = true → GoodFrame f 0x51 →
    let c := (s.port p).rx
    let tag : Word := BitVec.ofNat 32 (beAt f 6 4)
    let u := s.withRx p { c with good := bump c.good, unknownTag := bump c.unknownTag }
    let channels := byteAt f 12
    let code := byteAt f 13
    let samples := if channels = 0 ∨ 2 < code then 0 else beAt f 14 2 / (channels * (code + 2))
    let d := s.discovery
    (tag = 0 → exec (.trunkFrameArrival p f true) s = .next u)
      ∧ (tag ≠ 0 → (∀ i : StreamIdx, (s.stream i).state ≠ .empty → (s.stream i).tag ≠ tag) →
          ((∃ r ∈ d.records, r.tag = tag) →
            exec (.trunkFrameArrival p f true) s =
              .next (u.setDiscovery
                { d with
                  records := d.records.map fun r =>
                    if r.tag = tag then
                      { r with
                        ports := r.ports.set p true, channels := f.getD 12 0, widthCode := f.getD 13 0,
                        samples := samples, count := bump r.count, seen := true }
                    else r }))
            ∧ ((∀ r ∈ d.records, r.tag ≠ tag) → d.records.length < 16 →
                exec (.trunkFrameArrival p f true) s =
                  .next ((u.setDiscovery
                    { d with
                      records := d.records ++
                        [{ tag := tag, ports := PerPort.set ⟨false, false⟩ p true, channels := f.getD 12 0,
                           widthCode := f.getD 13 0, samples := samples, firstSeq := BitVec.ofNat 16 (beAt f 10 2),
                           count := 1, seen := true }] }).post .discoveryNew (.port p) tag))
            ∧ ((∀ r ∈ d.records, r.tag ≠ tag) → 16 ≤ d.records.length →
                exec (.trunkFrameArrival p f true) s =
                  .next ((u.setDiscovery { d with overflow := bump d.overflow }).post .discoveryFull (.port p) tag)))

/-- A good SAMPLE frame whose tag matches an entry (R41, R49, R51 to R54): inactive, refused for its format, or handed to
the Playout Engine with its samples; END is bit 1 of the flags, and the width codes 0, 1 and 2 name 16, 24 and 32 bits. -/
def Obligations.KnownTagsAreJudgedAndHandedOn : Prop :=
  ∀ (p : Port) (f : List Byte) (s : State) (i : StreamIdx), (s.port p).linkUp = true → GoodFrame f 0x51 →
    (s.stream i).state ≠ .empty → (s.stream i).tag = BitVec.ofNat 32 (beAt f 6 4) → (s.stream i).tag ≠ 0 →
    (∀ j : StreamIdx, (s.stream j).state ≠ .empty → (s.stream j).tag = (s.stream i).tag → j = i) →
    let c := (s.port p).rx
    let st := s.stream i
    let active := st.direction = .playout ∧ (st.state = .armed ∨ st.state = .running ∨ st.state = .starved)
    let g := s.withRx p { c with good := bump c.good }
    let code := if st.width = .w16 then 0 else if st.width = .w24 then 1 else 2
    let group := st.channels * (if st.width = .w16 then 2 else if st.width = .w24 then 3 else 4)
    let ends := byteAt f 1 / 2 % 2 = 1
    let n := beAt f 14 2 / group
    let fits :=
      byteAt f 12 = st.channels ∧ byteAt f 13 = code ∧ beAt f 14 2 % group = 0
        ∧ (ends → n ≤ st.frameSamples) ∧ (¬ ends → n = st.frameSamples)
    let handed : PlayFrame :=
      { seq := BitVec.ofNat 16 (beAt f 10 2), isEnd := decide ends, samples := n,
        words := unpackSamples st.width (n * st.channels) ((f.drop 16).take (f.length - 20)) }
    (¬ active →
      exec (.trunkFrameArrival p f true) s =
        .next (s.withRx p { c with good := bump c.good, inactive := bump c.inactive }))
      ∧ (active → ¬ fits →
          exec (.trunkFrameArrival p f true) s =
            .next (g.setStream i
              { st with playout := { st.playout with formatErrors := bump st.playout.formatErrors } }))
      ∧ (active → fits →
          exec (.trunkFrameArrival p f true) s =
            .next ((g.setStream i (st.arrive handed).1).postAll (.stream i) (st.arrive handed).2))

/-- Good REQUEST and REPLY frames (R56, R57, R58): a request is placed at the tail of the request queue when it is
addressed to the part, comes on an allowed port and the agent is not halted; a full queue drops it; a REPLY is never
addressed to the part. -/
def Obligations.RequestsAreAcceptedAndRepliesDiscarded : Prop :=
  ∀ (p : Port) (f : List Byte) (s : State), (s.port p).linkUp = true →
    let c := (s.port p).rx
    let dest : Half := BitVec.ofNat 16 (beAt f 2 2)
    let accepted :=
      (dest = s.control.nodeId ∨ dest = 0xFFFF)
        ∧ (s.control.ports = .either ∨ (s.control.ports = .ta ∧ p = .ta) ∨ (s.control.ports = .tb ∧ p = .tb))
        ∧ s.control.halted = false
    (GoodFrame f 0x53 →
      exec (.trunkFrameArrival p f true) s =
        .next (s.withRx p { c with good := bump c.good, notAddressed := bump c.notAddressed }))
      ∧ (GoodFrame f 0x52 → ¬ accepted →
          exec (.trunkFrameArrival p f true) s =
            .next (s.withRx p { c with good := bump c.good, notAddressed := bump c.notAddressed }))
      ∧ (GoodFrame f 0x52 → accepted → s.control.requests.length < 4 →
          exec (.trunkFrameArrival p f true) s =
            .next ((s.withRx p { c with good := bump c.good, accepted := bump c.accepted }).setControl
              { s.control with
                requests := s.control.requests ++
                  [{ port := p, source := BitVec.ofNat 16 (beAt f 4 2), txn := BitVec.ofNat 32 (beAt f 6 4),
                     code := f.getD 16 0, args := (f.drop 17).take (f.length - 21) }] }))
      ∧ (GoodFrame f 0x52 → accepted → 4 ≤ s.control.requests.length →
          exec (.trunkFrameArrival p f true) s =
            .next (s.withRx p { c with good := bump c.good, dropped := bump c.dropped }))

/-- An arrival at a reorder window (R63 to R68): it opens the window, is a duplicate, is refused in a gap, is stored, or is
misplaced, and the eighth misplaced one in a row resyncs the stream onto itself. -/
def Obligations.ArrivalsArePlacedByTheirDistance : Prop :=
  ∀ (st : Stream) (f : PlayFrame),
    (st.expected = none →
      st.arrive f =
        ({ st with
           expected := some f.seq, window := (List.replicate st.depthMax none).set 0 (some f), misplaced := 0,
           playout := { st.playout with stored := bump st.playout.stored } }, []))
      ∧ ∀ e : Half, st.expected = some e →
          let d := (f.seq - e).toNat
          let counted : PlayoutCounters :=
            if d ≤ 32767 then { st.playout with ahead := bump st.playout.ahead }
            else { st.playout with late := bump st.playout.late }
          (d < st.depthMax → st.window.getD d none ≠ none →
            st.arrive f =
              ({ st with playout := { st.playout with duplicates := bump st.playout.duplicates } }, []))
            ∧ (d < st.depthMax → st.window.getD d none = none → d = 0 → st.gap = true →
                st.arrive f = ({ st with playout := { st.playout with late := bump st.playout.late } }, []))
            ∧ (d < st.depthMax → st.window.getD d none = none → ¬ (d = 0 ∧ st.gap = true) →
                st.arrive f =
                  ({ st with
                     window := st.window.set d (some f), misplaced := 0,
                     playout := { st.playout with stored := bump st.playout.stored } }, []))
            ∧ (st.depthMax ≤ d → st.misplaced + 1 < 8 →
                st.arrive f = ({ st with misplaced := st.misplaced + 1, playout := counted }, []))
            ∧ (st.depthMax ≤ d → 8 ≤ st.misplaced + 1 →
                st.arrive f =
                  ({ st with
                     state := .armed, gap := false, readIndex := 0, misplaced := 0, expected := some f.seq,
                     window := (List.replicate st.depthMax none).set 0 (some f),
                     playout :=
                       { counted with
                         stored := bump counted.stored, resyncs := bump counted.resyncs } },
                    [(.streamResync, f.seq.setWidth 32)]))

/-! ## Lanes -/

/-- SYNC_LEADING_EDGE and SYNC_TIMEOUT (R94, R97, R100, R101, R112, R113): a leading edge is the active level at a sampling
edge of Ln_BCK after the inactive one; a looking slave lane takes a candidate and enters RUNNING at an edge one frame length
behind it; a RUNNING one accepts the next edge in place and enters LOST at any other edge or at two frame lengths; the frame
event of an edge in place falls at the edge with data delay 0 and is a FRAME_EVENT of its own, one bit period later, with
data delay 1; masters and OFF lanes are not changed. The model's choices: that FRAME_EVENT, and that one still due is given
before the next edge or timeout (log 5); the operand for the spacing and the detail of a loss beyond two frame lengths (log
6). What a lane leaving RUNNING does to a stream (R84, R107, R142): only a RUNNING or STARVED playout stream and a RUNNING
capture stream timed by it act, and each goes to ARMED without its frames in the making. -/
def Obligations.SlaveLanesFollowTheirSync : Prop :=
  (∀ (l : LaneIdx) (before now : AtEdges Bool) (n : Nat) (f : FrameData) (s : State),
     let x := s.lane l
     let length := x.config.slots * x.config.slotWidth.bits
     let active := decide (x.config.polarity = .high)
     let leading := x.config.inputOf before ≠ active ∧ x.config.inputOf now = active
     let edge := exec (.syncLeadingEdge l ⟨before, now, n, f⟩)
     let lostBy := fun (candidate : Bool) (detail : Nat) =>
       ((s.setLane l
         { x with
           state := .lost, candidate := candidate, eventDue := false, outWords := [],
           counters := { x.counters with syncLosses := bump x.counters.syncLosses } }).post .laneLost (.lane l)
         (BitVec.ofNat 32 detail)).mapStreams (Stream.loseLane l)
     let entered :=
       (s.setLane l
         { x with
           state := .running, candidate := false, eventDue := true,
           outWords := if x.config.direction = .inp then [] else List.replicate x.config.slots 0,
           counters := { x.counters with entries := bump x.counters.entries } }).post .laneRunning (.lane l)
         (BitVec.ofNat 32 length)
     (x.config.role ≠ .slave ∨ x.state = .off ∨ ¬ leading → edge s = .next s)
       ∧ (x.config.role ≠ .slave ∨ x.state ≠ .running → exec (.syncTimeout ⟨l, f⟩) s = .next s)
       ∧ (x.config.role = .slave → leading → x.state = .seeking ∨ x.state = .lost →
           (x.candidate = false → edge s = .next (s.setLane l { x with candidate := true }))
             ∧ (x.candidate = true → n ≠ length → edge s = .next s)
             ∧ (x.candidate = true → n = length → x.config.delayOne = true → edge s = .next entered)
             ∧ (x.candidate = true → n = length → x.config.delayOne = false →
                 edge s = exec (.frameEvent l f.din f.order f.late) entered))
       ∧ (x.config.role = .slave → x.state = .running → x.eventDue = true → ∀ t : State,
           exec (.frameEvent l f.din f.order f.late) s = .next t →
             exec (.syncTimeout ⟨l, f⟩) s = exec (.syncTimeout ⟨l, f⟩) t
               ∧ (leading → x.config.delayOne = true → edge s = edge t))
       ∧ (x.config.role = .slave → x.state = .running → x.eventDue = false →
           exec (.syncTimeout ⟨l, f⟩) s = .next (lostBy false (2 * length)))
       ∧ (x.config.role = .slave → x.state = .running → leading → x.eventDue = false ∨ x.config.delayOne = false →
           (n = length → x.config.delayOne = true → edge s = .next (s.setLane l { x with eventDue := true }))
             ∧ (n = length → x.config.delayOne = false →
                 edge s = exec (.frameEvent l f.din f.order f.late) (s.setLane l { x with eventDue := true }))
             ∧ (n ≠ length → n ≤ 2 * length → edge s = .next (lostBy true n))
             ∧ (n ≠ length → 2 * length < n → edge s = .next (lostBy true (2 * length)))))
    ∧ (∀ (l : LaneIdx) (st : Stream),
         (st.lane ≠ l → st.loseLane l = st)
           ∧ (st.lane = l → st.direction = .playout → st.state = .running ∨ st.state = .starved →
               st.loseLane l =
                 { st with
                   state := .armed, expected := none, window := [], gap := false, misplaced := 0, readIndex := 0 })
           ∧ (st.lane = l → st.direction = .capture → st.state = .running →
               st.loseLane l =
                 { st with
                   state := .armed, construction := none, firstOfRun := false,
                   capture :=
                     if (st.construction.any fun con => con.count != 0) then
                       { st.capture with partials := bump st.capture.partials }
                     else st.capture })
           ∧ (st.state ≠ .running → ¬ (st.direction = .playout ∧ st.state = .starved) → st.loseLane l = st))

/-- FRAME_EVENT for the lane and its playout streams (R71, R103, R104): the frame events counter rises; one word for each
slot is loaded, from the words the playout streams give at this event; every active playout stream of the lane takes its
step and no other playout stream changes; the postings of the streams' steps (R72, R78, R80, R82), of the capture streams
(R130, R134) and of the servos (R123) reach the Event Queue in order; an IDLE port begins to send the first frame that
closes for it (R150 to R153); the rest of the part outside the capture streams and the servos stands. The model's choices: a lane that
gives no frame event is not changed (log 2), a slave gives one when the sync in place has made it due (log 5), the order of
the streams is an operand (log 7), and so is the order of their postings (log 20). -/
def Obligations.FrameEventPlaysAndLoadsTheSlots : Prop :=
  ∀ (l : LaneIdx) (f : FrameData) (s : State),
    (¬ (s.lane l).atEvent → exec (.frameEvent l f.din f.order f.late) s = .next s)
      ∧ ((s.lane l).atEvent →
          let x := s.lane l
          let word := fun e : Option OutSlot =>
            match e with
            | none => (0 : Word)
            | some o =>
              if (s.stream o.stream).playsOn l then (s.stream o.stream).playStep.words.getD o.channel.val 0 else 0
          ∃ t : State, exec (.frameEvent l f.din f.order f.late) s = .next t
            ∧ t.lane l =
                { x with
                  eventDue := false,
                  counters := { x.counters with frameEvents := bump x.counters.frameEvents },
                  outWords :=
                    if x.config.direction = .inp then [] else (x.outTable.toList.take x.config.slots).map word }
            ∧ (∀ m : LaneIdx, m ≠ l → t.lane m = s.lane m)
            ∧ (∀ i : StreamIdx, (s.stream i).playsOn l → t.stream i = (s.stream i).playStep.stream)
            ∧ (∀ i : StreamIdx, (s.stream i).direction = .playout → ¬ (s.stream i).playsOn l →
                t.stream i = s.stream i)
            ∧ (∀ p : Port, ∃ tx credits, t.port p = { s.port p with tx := tx, credits := credits })
            ∧ (s.transmitInv →
                t.events = s.events.postEach (s.framePosts l f)
                  ∧ ∀ p : Port, t.port p =
                      match s.grantedAt l f p with
                      | some i => (s.port p).granted i (s.stream i).level
                      | none => s.port p)
            ∧ t.phase = s.phase ∧ t.waitList = s.waitList ∧ t.discovery = s.discovery ∧ t.control = s.control
            ∧ t.events.levels = s.events.levels ∧ t.events.threshold = s.events.threshold
            ∧ t.events.uptime = s.events.uptime)

/-- FRAME_EVENT for the capture streams (R130 to R134): an ARMED stream of the lane begins a run and a RUNNING one goes on,
each taking one sample group from the levels of Ln_DIN at the lane's sampling edge (R93, R105); the group that fills the
frame closes it as `closingFrame` builds it, disposed of by `Stream.dispose`, and begins the next; a capture stream in
another state or of another lane takes nothing. Beside that only the marks of frames that a port begins to send change, and
in a part with nothing eligible those are the frame that an IDLE port is granted (R150, R153). The order of the streams is
an operand (log 7), and so are the levels of Ln_DIN (log 18). -/
def Obligations.FrameEventTakesCaptureSamples : Prop :=
  ∀ (l : LaneIdx) (f : FrameData) (s : State) (i : StreamIdx), (s.lane l).atEvent → (s.stream i).direction = .capture →
    let st := s.stream i
    let c := (s.lane l).config
    let din := c.inputOf f.din
    let acts := st.lane = l ∧ (st.state = .armed ∨ st.state = .running)
    let granted := fun p => s.grantedAt l f p = some i
    let mark := fun v : ReadyFrame =>
      { v with
        inTx := ⟨v.inTx.ta || (decide (granted .ta) && v.pendingOn.ta),
          v.inTx.tb || (decide (granted .tb) && v.pendingOn.tb)⟩ }
    ∃ t : State, exec (.frameEvent l f.din f.order f.late) s = .next t
      ∧ (¬ acts → ∃ r, Remarked st.ready r ∧ t.stream i = { st with ready := r })
      ∧ (acts → ¬ st.fills → ∃ r, Remarked st.ready r ∧ t.stream i = { st.withGroup c din with ready := r })
      ∧ (acts → st.fills → ∃ r0 r,
          let u := { st.withGroup c din with ready := r0 }
          let closed := (u.afterClose false).dispose (closingFrame s u false)
          Remarked st.ready r0 ∧ Remarked closed.1.ready r ∧ t.stream i = { closed.1 with ready := r })
      ∧ (s.transmitInv → ¬ acts → t.stream i = st)
      ∧ (s.transmitInv → acts →
          let u := (s.captured st c din).1
          t.stream i = { u with ready := u.ready.map mark })

/-! ## Playout at a frame event -/

/-- An ARMED and a STARVED stream at a frame event (R72, R79, R80): below D frames it waits, with zero words in ARMED and
concealment in STARVED; with D or more it enters RUNNING, from STARVED on the oldest frame held with every position
passed over counted lost, and takes its boundary step at the same event. -/
def Obligations.StreamsPrimeFromDFrames : Prop :=
  ∀ st : Stream,
    let held := st.window.countP Option.isSome
    let n := st.window.findIdx Option.isSome
    let enter := fun u : Stream =>
      ({ u.boundary with
         posts := (.streamRunning, (u.expected.getD 0).setWidth 32) :: u.boundary.posts, entered := true } : PlayStep)
    (st.state = .armed → held < st.depthTarget →
      st.playStep = { stream := st, words := List.replicate st.channels 0, posts := [], entered := false })
      ∧ (st.state = .armed → st.depthTarget ≤ held → st.playStep = enter { st with state := .running })
      ∧ (st.state = .starved → held < st.depthTarget →
          st.playStep =
            { stream := st, words := if st.conceal = .zero then List.replicate st.channels 0 else st.hold,
              posts := [], entered := false })
      ∧ (st.state = .starved → st.depthTarget ≤ held →
          st.playStep =
            enter
              { st with
                state := .running, expected := st.expected.map (· + BitVec.ofNat 16 n),
                window := st.window.drop n ++ List.replicate (min n st.window.length) none, readIndex := 0,
                playout := { st.playout with lost := bumpBy st.playout.lost n } })

/-- A RUNNING stream at a frame event (R73 to R79): the samples of the frame at position E one by one, their words kept as
the hold values, the frame released after its last; a gap of F lane frames of concealment when the frame is missing and
others are held; starvation when none is held. -/
def Obligations.RunningStreamsPlayGapAndStarve : Prop :=
  ∀ st : Stream, st.state = .running →
    let front := st.window.head?.join
    let held := st.window.countP Option.isSome
    let concealed := if st.conceal = .zero then List.replicate st.channels 0 else st.hold
    let shifted := st.window.drop 1 ++ List.replicate (min 1 st.window.length) none
    let i := st.readIndex
    (∀ f : PlayFrame, st.gap = false → front = some f → f.isEnd = false →
      let words := (f.words.drop (i * st.channels)).take st.channels
      (i + 1 < st.frameSamples →
        st.playStep =
          { stream := { st with hold := words, readIndex := i + 1 }, words := words, posts := [], entered := false })
        ∧ (st.frameSamples ≤ i + 1 →
            st.playStep =
              { stream :=
                  { st with
                    hold := words, readIndex := 0, expected := st.expected.map (· + 1), window := shifted },
                words := words, posts := [], entered := false }))
      ∧ ((st.gap = true ∨ (st.readIndex = 0 ∧ front = none ∧ 0 < held)) →
          (i + 1 < st.frameSamples →
            st.playStep =
              { stream := { st with gap := true, readIndex := i + 1 }, words := concealed, posts := [],
                entered := false })
            ∧ (st.frameSamples ≤ i + 1 →
                st.playStep =
                  { stream :=
                      { st with
                        gap := false, readIndex := 0, expected := st.expected.map (· + 1), window := shifted,
                        playout := { st.playout with lost := bump st.playout.lost } },
                    words := concealed, posts := [], entered := false }))
      ∧ (st.gap = false → front = none → held = 0 →
          st.playStep =
            { stream :=
                { st with
                  state := .starved, playout := { st.playout with starvations := bump st.playout.starvations } },
              words := concealed, posts := [(.streamStarved, (st.expected.getD 0).setWidth 32)], entered := false })

/-- An END frame (R81, R82): it plays through its S samples; its completion releases every frame, unsets E, takes the
stream to ARMED, counts the end and posts STREAM_ENDED with its sequence; one with no samples completes at its boundary
with zero words. -/
def Obligations.EndFramesEndTheRun : Prop :=
  ∀ (st : Stream) (f : PlayFrame), st.state = .running → st.gap = false → st.window.head?.join = some f →
    f.isEnd = true →
    let i := st.readIndex
    let words := (f.words.drop (i * st.channels)).take st.channels
    let ended := fun u : Stream =>
      { u with
        state := .armed, expected := none, window := [], gap := false, misplaced := 0, readIndex := 0,
        playout := { u.playout with ends := bump u.playout.ends } }
    (f.samples = 0 → i = 0 →
      st.playStep =
        { stream := ended st, words := List.replicate st.channels 0,
          posts := [(.streamEnded, f.seq.setWidth 32)], entered := false })
      ∧ (0 < f.samples → i + 1 < f.samples →
          st.playStep =
            { stream := { st with hold := words, readIndex := i + 1 }, words := words, posts := [],
              entered := false })
      ∧ (0 < f.samples → f.samples ≤ i + 1 →
          st.playStep =
            { stream := ended { st with hold := words }, words := words,
              posts := [(.streamEnded, f.seq.setWidth 32)], entered := false })

/-! ## The depth servo -/

/-- SERVO_REVIEW (R120 to R123): a review steps the trim by the comparison of the frames held with D ± W, holds it within
±512 with SERVO_LIMIT posted when the step is cut, and sets the review count to 0; below 1024 counting events, or without a
playout reference, nothing changes. The model's choice: a frame event takes its own review, so that no run reaches a count
of 1024 at which this row acts (log 4). -/
def Obligations.ServoReviewsStepTheTrim : Prop :=
  ∀ (g : GenIdx) (s : State),
    let x := s.gen g
    ((x.reviewCount < 1024 ∨ x.reference = none) → exec (.servoReview g) s = .next s)
      ∧ ∀ r : StreamIdx, x.reference = some r →
          let st := s.stream r
          let held := st.window.countP Option.isSome
          let wanted : Int :=
            if st.depthTarget + x.window < held then x.trim + x.step
            else if held + x.window < st.depthTarget then x.trim - x.step
            else x.trim
          (st.direction = .capture → exec (.servoReview g) s = .next s)
            ∧ (1024 ≤ x.reviewCount → st.direction = .playout → -512 ≤ wanted → wanted ≤ 512 →
                exec (.servoReview g) s = .next (s.setGen g { x with trim := wanted, reviewCount := 0 }))
            ∧ (1024 ≤ x.reviewCount → st.direction = .playout → 512 < wanted →
                exec (.servoReview g) s =
                  .next ((s.setGen g { x with trim := 512, reviewCount := 0 }).post .servoLimit (.gen g) 512))
            ∧ (1024 ≤ x.reviewCount → st.direction = .playout → wanted < -512 →
                exec (.servoReview g) s =
                  .next ((s.setGen g { x with trim := -512, reviewCount := 0 }).post .servoLimit (.gen g)
                    0xFFFFFE00))

/-- The servos at a frame event (R120 to R123): entry of the reference to RUNNING sets the review count to 0; an event that
finds and leaves the reference RUNNING on a master lane of the generator raises it, and the 1024th is a review, after which
it stands at 0 and the trim is stepped within ±512; SERVO_LIMIT of the generator is posted once when that step is cut and
not otherwise; at any other event the generator keeps its record. The model's choices: the review is taken within the event
(log 4), and a reference redefined as CAPTURE leaves the count as it stands (log 26). -/
def Obligations.FrameEventsCountTowardsTheReview : Prop :=
  ∀ (l : LaneIdx) (f : FrameData) (s : State) (g : GenIdx), (s.lane l).atEvent →
    let x := s.gen g
    let mine := (g = .mcg0 ∧ (s.lane l).config.role = .master0) ∨ (g = .mcg1 ∧ (s.lane l).config.role = .master1)
    ∃ (t : State) (posts : List (EventKind × Source × Word)), exec (.frameEvent l f.din f.order f.late) s = .next t
      ∧ t.events = s.events.postEach posts
      ∧ (let limits := posts.filter fun e => e.1 == .servoLimit && e.2.1 == .gen g
        (x.reference = none → t.gen g = x ∧ limits = [])
          ∧ ∀ r : StreamIdx, x.reference = some r →
              let st := s.stream r
              let after := st.playStep
              let counts := st.state = .running ∧ after.stream.state = .running ∧ mine
              (¬ st.playsOn l → t.gen g = x ∧ limits = [])
                ∧ (st.playsOn l → after.entered = true → t.gen g = { x with reviewCount := 0 } ∧ limits = [])
                ∧ (st.playsOn l → after.entered = false → ¬ counts → t.gen g = x ∧ limits = [])
                ∧ (st.playsOn l → after.entered = false → counts → x.reviewCount + 1 < 1024 →
                    t.gen g = { x with reviewCount := x.reviewCount + 1 } ∧ limits = [])
                ∧ (st.playsOn l → after.entered = false → counts → 1024 ≤ x.reviewCount + 1 →
                    let held := after.stream.window.countP Option.isSome
                    let wanted : Int :=
                      if st.depthTarget + x.window < held then x.trim + x.step
                      else if held + x.window < st.depthTarget then x.trim - x.step
                      else x.trim
                    (-512 ≤ wanted → wanted ≤ 512 →
                      t.gen g = { x with trim := wanted, reviewCount := 0 } ∧ limits = [])
                      ∧ (512 < wanted →
                          t.gen g = { x with trim := 512, reviewCount := 0 }
                            ∧ limits = [(.servoLimit, .gen g, 512)])
                      ∧ (wanted < -512 →
                          t.gen g = { x with trim := -512, reviewCount := 0 }
                            ∧ limits = [(.servoLimit, .gen g, 0xFFFFFE00)])))

/-! ## Capture -/

/-- The close of a frame (R132 to R134; an END frame closed by a stop, R137, section 7.5): the frame takes the next sequence,
the marks, the node identity and the UP ports of the egress, and the next construction begins unless it is an END frame;
without an UP port it is released at once; it joins a ready list with room; onto a full one it overruns the oldest frame
that is in transmission on neither port, or itself. -/
def Obligations.ClosesDisposeOfTheFrame : Prop :=
  ∀ (isEnd : Bool) (i : StreamIdx) (s : State) (con : Construction), (s.stream i).construction = some con →
    let st := s.stream i
    let f : ReadyFrame :=
      { seq := st.nextSeq, isFirst := st.firstOfRun, isEnd := isEnd, samples := con.count, words := con.words,
        source := s.control.nodeId,
        pendingOn := ⟨st.egress.ta && (s.port .ta).linkUp, st.egress.tb && (s.port .tb).linkUp⟩,
        inTx := ⟨false, false⟩ }
    let sent := f.pendingOn.ta = true ∨ f.pendingOn.tb = true
    let free := fun v : ReadyFrame => v.inTx.ta = false ∧ v.inTx.tb = false
    let closed :=
      { st with
        nextSeq := st.nextSeq + 1, firstOfRun := false, construction := if isEnd then none else some ⟨0, []⟩,
        capture := { st.capture with closed := bump st.capture.closed } }
    let overrun := { closed with capture := { closed.capture with overruns := bump st.capture.overruns } }
    let lost := fun (u : Stream) (seq : Half) =>
      (s.setStream i u).post .captureOverrun (.stream i) (seq.setWidth 32)
    (¬ sent → closeFrame isEnd i s = s.setStream i closed)
      ∧ (sent → st.ready.length < 2 → closeFrame isEnd i s = s.setStream i { closed with ready := st.ready ++ [f] })
      ∧ (∀ a b, sent → st.ready = [a, b] → free a → closeFrame isEnd i s = lost { overrun with ready := [b, f] } a.seq)
      ∧ (∀ a b, sent → st.ready = [a, b] → ¬ free a → free b →
          closeFrame isEnd i s = lost { overrun with ready := [a, f] } b.seq)
      ∧ (∀ a b, sent → st.ready = [a, b] → ¬ free a → ¬ free b → closeFrame isEnd i s = lost overrun f.seq)

/-! ## Transmission -/

/-- One run of a port's arbiter (R149 to R153): nothing at a DOWN or SENDING port; a reply before any sample frame; by
level on a STRICT port; by credits on a WEIGHTED one, reloaded to 4, 2, 1 when no eligible level has any; the lowest
index within the level; the oldest frame the stream owes the port, marked in transmission. The arbiters of both ports run
at an event, in either order (R150, R162). -/
def Obligations.ArbitersGrantByReplyLevelAndCredit : Prop :=
  (∀ s : State,
      runArbiters s = runArbiter .tb (runArbiter .ta s) ∧ runArbiters s = runArbiter .ta (runArbiter .tb s))
  ∧ ∀ (p : Port) (s : State),
    let x := s.port p
    let best := fun (i : StreamIdx) (c : Nat → Nat) =>
      (s.stream i).owes p ∧ (s.stream i).level ≤ 2 ∧ 0 < c (s.stream i).level
        ∧ ∀ j : StreamIdx, (s.stream j).owes p → (s.stream j).level ≤ 2 → 0 < c (s.stream j).level →
            (s.stream j).level < (s.stream i).level ∨ ((s.stream j).level = (s.stream i).level ∧ i.val ≤ j.val)
    let credit := fun (c : Credits) (level : Nat) => if level = 2 then c.l2 else if level = 1 then c.l1 else c.l0
    let spent := fun (c : Credits) (level : Nat) =>
      if level = 2 then { c with l2 := c.l2 - 1 }
      else if level = 1 then { c with l1 := c.l1 - 1 }
      else { c with l0 := c.l0 - 1 }
    let granted := fun (i : StreamIdx) (c : Credits) (t : State) =>
      ∃ before f behind, (s.stream i).ready = before ++ f :: behind
        ∧ (∀ v ∈ before, ¬ (v.pendingOn.get p = true ∧ v.inTx.get p = false))
        ∧ f.pendingOn.get p = true ∧ f.inTx.get p = false
        ∧ t = (s.setStream i
            { s.stream i with ready := before ++ { f with inTx := f.inTx.set p true } :: behind }).setPort p
              { x with tx := .sample i, credits := c }
    (x.linkUp = false ∨ x.tx ≠ .idle → runArbiter p s = s)
      ∧ (x.linkUp = true → x.tx = .idle →
          (x.replies ≠ [] → runArbiter p s = s.setPort p { x with tx := .reply })
            ∧ (x.replies = [] → (∀ i : StreamIdx, ¬ (s.stream i).owes p) → runArbiter p s = s)
            ∧ (x.replies = [] → x.mode = .strict → ∀ i : StreamIdx, best i (fun _ => 1) →
                granted i x.credits (runArbiter p s))
            ∧ (x.replies = [] → x.mode = .weighted → ∀ i : StreamIdx, best i (credit x.credits) →
                granted i (spent x.credits (s.stream i).level) (runArbiter p s))
            ∧ (x.replies = [] → x.mode = .weighted →
                (∀ j : StreamIdx, (s.stream j).owes p → (s.stream j).level ≤ 2 →
                  credit x.credits (s.stream j).level = 0) →
                ∀ i : StreamIdx, best i (credit ⟨4, 2, 1⟩) →
                  granted i (spent ⟨4, 2, 1⟩ (s.stream i).level) (runArbiter p s)))

/-- SAMPLE_FRAME_TX_COMPLETION (R154, R141): the two counters rise, the port is taken off the frame, which is released when
no claim is left, a drain that this empties completes, the transmitter is IDLE and the arbiters run. REPLY_TX_COMPLETION
and ABORT_GAP_END (R155, R157, R184): a sent reply is counted and leaves the head of its queue, and the sent reply of a
DEVICE_RESET is where its reset takes effect; at the end of a gap after an abort the transmitter is IDLE; in each case the
arbiters then run. The model's choices: without such a transmission nothing changes (log 2); the reply of a DEVICE_RESET is
known by its payload (log 24), and the reset leaves the values of logs 11 and 12. -/
def Obligations.CompletionsFreeTheTransmitter : Prop :=
  (∀ (p : Port) (s : State),
     ((∀ i, (s.port p).tx ≠ .sample i) → exec (.sampleFrameTxCompletion p) s = .next s)
       ∧ ∀ i : StreamIdx, (s.port p).tx = .sample i →
           let x := s.port p
           let st := s.stream i
           let left :=
             (st.ready.map fun f =>
               if f.inTx.get p = true then
                 { f with pendingOn := f.pendingOn.set p false, inTx := f.inTx.set p false }
               else f).filter fun f => f.pendingOn.ta || f.pendingOn.tb
           let u :=
             (s.setPort p { x with tx := .idle, txc := { x.txc with samplesSent := bump x.txc.samplesSent } }).setStream
               i
               { st with
                 ready := left,
                 capture :=
                   if p = .ta then { st.capture with sentTa := bump st.capture.sentTa }
                   else { st.capture with sentTb := bump st.capture.sentTb } }
           (st.state = .draining → left = [] →
             exec (.sampleFrameTxCompletion p) s = .next (runArbiters (u.drained i)))
             ∧ (¬ (st.state = .draining ∧ left = []) →
                 exec (.sampleFrameTxCompletion p) s = .next (runArbiters u)))
    ∧ (∀ (p : Port) (s : State),
         let x := s.port p
         (x.tx ≠ .reply → exec (.replyTxCompletion p) s = .next s)
           ∧ (∀ (r : Reply) (rest : List Reply), x.tx = .reply → x.replies = r :: rest → r.payload ≠ [0x14, 0x00] →
               exec (.replyTxCompletion p) s =
                 .next (runArbiters (s.setPort p
                   { x with
                     tx := .idle, replies := rest, txc := { x.txc with repliesSent := bump x.txc.repliesSent } })))
           ∧ (∀ (r : Reply) (rest : List Reply), x.tx = .reply → x.replies = r :: rest → r.payload = [0x14, 0x00] →
               exec (.replyTxCompletion p) s = .next (s.afterReset .request .loading))
           ∧ (x.tx = .abortGap → exec (.abortGapEnd p) s = .next (runArbiters (s.setPort p { x with tx := .idle })))
           ∧ (x.tx ≠ .abortGap → exec (.abortGapEnd p) s = .next s))

/-! ## Timed events, postings, admission -/

/-- AGING_SWEEP, UPTIME_TICK and DISCOVERY_CONFIG (R167, R168, R171, R198): the expiry of the running interval removes the
records whose seen flag is clear, clears the others' and starts the interval again; DISCOVERY_CONFIG sets A and starts the
interval again, with the records flushed on request and their number reported, so that the sweep of the interval it abandons
does not take place, and a code above 4 answers VALUE and changes nothing; a tick adds one to the uptime, which wraps. The
model's choices: an option byte of 1 is flush, of 0 keep (log 28); a sweep comes with the request while the uptime has advanced by less than 2 ms (log 27); without an interval
running nothing changes (log 2); the uptime stands while RESET# is held low (log 21). -/
def Obligations.SweepsAndTicksActOnTheirOwnState : Prop :=
  (∀ s : State,
     let d := s.discovery
     let expires :=
       s.phase = .started ∧ d.aging ≠ .off ∧ ∀ u : Word, d.restarted = some u → 2 ≤ (s.events.uptime - u).toNat
     (expires →
       exec .agingSweep s =
         .next (s.setDiscovery
           { d with
             records := (d.records.filter fun r => r.seen).map fun r => { r with seen := false },
             restarted := none }))
       ∧ (¬ expires → exec .agingSweep s = .next s)
       ∧ (s.phase ≠ .resetHeld →
           exec .uptimeTick s = .next (s.setEvents { s.events with uptime := s.events.uptime + 1 }))
       ∧ (s.phase = .resetHeld → exec .uptimeTick s = .next s))
    ∧ ∀ (s : State) (rq : Request) (rest : List Request) (c o : Byte), s.settled → s.executes rq rest →
        rq.code = 0x11 → rq.args = [c, o] → o.toNat ≤ 1 →
        let d := s.discovery
        (4 < c.toNat → exec .discoveryConfig s = .next ((s.taken rest).replied rq [0x11, 4]))
          ∧ ∀ a : Aging,
              c = (match a with
                | .off => 0
                | .s1 => 1
                | .s2 => 2
                | .s4 => 3
                | .s8 => 4) →
              let kept := { d with aging := a, restarted := some s.events.uptime }
              (o = 0 →
                exec .discoveryConfig s =
                  .next (((s.taken rest).setDiscovery kept).replied rq [0x11, 0x00, c, 0]))
                ∧ (o = 1 →
                    exec .discoveryConfig s =
                      .next (((s.taken rest).setDiscovery { kept with records := [] }).replied rq
                        [0x11, 0x00, c, byteOf d.records.length]))
                ∧ ∀ t : State, exec .discoveryConfig s = .next t → exec .agingSweep t = .next t

/-- A posting (R194, R195, R197): without effect when its kind is OFF, a repeat of the record that stands for it, a new
record while there is room, and onto a full queue the eviction of the youngest record of the lowest level below its own,
or a drop; EVT# follows the records. -/
def Obligations.PostingsFollowTheLevels : Prop :=
  ∀ (q : EventQueue) (kind : EventKind) (source : Source) (detail : Word),
    let same := fun r : EventRecord => r.kind = kind ∧ r.source = source
    let lost := if q.lost = 0xFFFF then q.lost else q.lost + 1
    let held := fun (rs : List EventRecord) => rs.any fun r => decide (q.threshold ≤ r.level)
    (q.levelOf kind = none → q.post kind source detail = q)
      ∧ ∀ level : Level, q.levelOf kind = some level →
          let new : EventRecord :=
            { kind := kind, source := source, level := level, detail := detail, repeats := 1, firstTime := q.uptime }
          ((∃ r ∈ q.records, same r) →
            q.post kind source detail =
              { q with
                records := q.records.map fun r =>
                  if same r then { r with repeats := if r.repeats = 255 then 255 else r.repeats + 1 } else r })
            ∧ ((∀ r ∈ q.records, ¬ same r) → q.records.length < 32 →
                q.post kind source detail =
                  { q with records := q.records ++ [new], asserted := held (q.records ++ [new]) })
            ∧ ((∀ r ∈ q.records, ¬ same r) → 32 ≤ q.records.length → (∀ r ∈ q.records, level ≤ r.level) →
                q.post kind source detail = { q with lost := lost })
            ∧ (∀ (before : List EventRecord) (v : EventRecord) (behind : List EventRecord),
                (∀ r ∈ q.records, ¬ same r) → 32 ≤ q.records.length → q.records = before ++ v :: behind →
                v.level < level → (∀ r ∈ q.records, v.level ≤ r.level) → (∀ r ∈ behind, r.level ≠ v.level) →
                q.post kind source detail =
                  { q with
                    records := before ++ behind ++ [new], lost := lost,
                    asserted := held (before ++ behind ++ [new]) })

/-- The level of a kind (R192): 3 for DEVICE_STARTED, the setting of the others; the codes of R192, R172 and R174 (the aging
codes of R168, the link and the generator state as flags, the type and index of an event source); the bits and bytes of the widths (R43, R44); and multi-byte fields, most significant byte first (R41, R174). -/
def Obligations.KindsHaveTheirLevelsAndCodes : Prop :=
  (∀ q : EventQueue, q.levelOf .deviceStarted = some 3)
    ∧ (∀ q : EventQueue,
        [EventKind.trunkUp, .trunkDown, .laneRunning, .laneLost, .streamAdmitted, .streamRunning, .streamStarved,
          .streamResync, .streamEnded, .captureOverrun, .drainDone, .servoLimit, .discoveryNew, .discoveryFull,
          .replyLost].map q.levelOf = q.levels.toList)
    ∧ [EventKind.deviceStarted, .trunkUp, .trunkDown, .laneRunning, .laneLost, .streamAdmitted, .streamRunning,
        .streamStarved, .streamResync, .streamEnded, .captureOverrun, .drainDone, .servoLimit, .discoveryNew,
        .discoveryFull, .replyLost].map EventKind.code = List.range' 1 16
    ∧ [StreamState.empty, .idle, .waiting, .armed, .running, .starved, .draining].map StreamState.code = List.range 7
    ∧ [Status.ok, .queued, .malformed, .index, .value, .state, .busy, .tagConflict, .full].map Status.code =
        [0, 1, 2, 3, 4, 5, 6, 7, 8]
    ∧ [RequestCode.identify, .status, .trunkConfig, .streamDefine, .streamClear, .streamStart, .streamStop,
        .streamQuery, .slotAssign, .slotQuery, .laneConfig, .laneStart, .laneStop, .clockConfig, .counters,
        .discoveryList, .discoveryConfig, .eventsFetch, .eventConfig, .deviceReset].map some =
        (List.range' 1 20).map (fun n => RequestCode.ofByte (BitVec.ofNat 8 n))
    ∧ (∀ b : Byte, b = 0 ∨ 0x14 < b.toNat → RequestCode.ofByte b = none)
    ∧ ([Direction.playout, .capture].map Direction.code = [0, 1]
      ∧ [Width.w16, .w24, .w32].map Width.code = [0, 1, 2] ∧ [Conceal.zero, .hold].map Conceal.code = [0, 1]
      ∧ [(⟨true, false⟩ : PortSet), ⟨false, true⟩, ⟨true, true⟩].map PortSet.code = [1, 2, 3]
      ∧ [ControlPorts.ta, .tb, .either].map ControlPorts.code = [0, 1, 2]
      ∧ [TxMode.strict, .weighted].map TxMode.code = [0, 1]
      ∧ [LaneState.off, .seeking, .running, .lost].map LaneState.code = [0, 1, 2, 3]
      ∧ [LaneDirection.out, .inp, .both].map LaneDirection.code = [0, 1, 2]
      ∧ [Role.master0, .master1, .slave].map Role.code = [0, 1, 2]
      ∧ [SyncShape.pulse, .slot, .half].map SyncShape.code = [0, 1, 2]
      ∧ [SyncPolarity.high, .low].map SyncPolarity.code = [0, 1]
      ∧ [ClockEdge.driveFalling, .driveRising].map ClockEdge.code = [0, 1]
      ∧ [PromResult.loaded, .absent, .bad].map PromResult.code = [0, 1, 2]
      ∧ [StartCause.power, .pin, .request].map StartCause.code = [0, 1, 2]
      ∧ [Aging.off, .s1, .s2, .s4, .s8].map Aging.code = [0, 1, 2, 3, 4]
      ∧ [Port.ta, .tb].map portCode = [0, 1] ∧ [GenIdx.mcg0, .mcg1].map genCode = [0, 1]
      ∧ [false, true].map flagCode = [0, 1]
      ∧ (∀ k : Fin 32, channelSlotCode (some k) = k.val) ∧ channelSlotCode none = 0xFF)
    ∧ (Source.none.code = (0, 0) ∧ (∀ i : StreamIdx, (Source.stream i).code = (1, i.val))
      ∧ (∀ l : LaneIdx, (Source.lane l).code = (2, l.val))
      ∧ [Source.port .ta, .port .tb].map Source.code = [(3, 0), (3, 1)]
      ∧ [Source.gen .mcg0, .gen .mcg1].map Source.code = [(4, 0), (4, 1)])
    ∧ [Width.w16, .w24, .w32].map Width.bits = [16, 24, 32] ∧ [Width.w16, .w24, .w32].map Width.bytes = [2, 3, 4]
    ∧ (∀ v : Half, be2 v.toNat = [v.extractLsb' 8 8, v.extractLsb' 0 8])
    ∧ (∀ v : Word, be4 v.toNat =
        [v.extractLsb' 24 8, v.extractLsb' 16 8, v.extractLsb' 8 8, v.extractLsb' 0 8])
    ∧ (∀ (bs : List Byte) (i : Nat), i + 2 ≤ bs.length → beAt bs i 2 = byteAt bs i * 0x100 + byteAt bs (i + 1))
    ∧ ∀ (bs : List Byte) (i : Nat), i + 4 ≤ bs.length →
        beAt bs i 4 =
          byteAt bs i * 0x1000000 + byteAt bs (i + 1) * 0x10000 + byteAt bs (i + 2) * 0x100 + byteAt bs (i + 3)

/-- The admission test (R30): nothing on an empty list; a head that fits leaves the list, becomes ARMED with an empty
window and an empty ready list, posts STREAM_ADMITTED with its reservation, and the test goes on with the new head; a
head that does not fit ends it. -/
def Obligations.AdmissionTestAdmitsInOrder : Prop :=
  ∀ s : State,
    (s.waitList = [] → admissionTest s = s)
      ∧ ∀ (h : StreamIdx) (rest : List StreamIdx), s.waitList = h :: rest →
          let st := s.stream h
          (1024 - s.reservedCells < st.reservation → admissionTest s = s)
            ∧ (st.reservation ≤ 1024 - s.reservedCells →
                admissionTest s =
                  admissionTest
                    (((s.setStream h
                      { st with
                        state := .armed, expected := none, window := [], gap := false, misplaced := 0,
                        readIndex := 0, construction := none, firstOfRun := false, ready := [] }).post
                      .streamAdmitted (.stream h) (BitVec.ofNat 32 st.reservation)).setWaitList rest))

/-- The sizes of a reservation (R3, R18, R23): k cells for each frame, M × k for playout, 3 × k for capture, held in ARMED,
RUNNING, STARVED and DRAINING only; the cells a stream holds never exceed its reservation (R24). -/
def Obligations.ReservationsFollowTheDefinition : Prop :=
  (∀ st : Stream,
    (∀ k : Nat, st.cellsPerFrame ≤ k ↔ st.channels * st.frameSamples ≤ 64 * k)
      ∧ (st.direction = .playout → st.reservation = st.depthMax * st.cellsPerFrame)
      ∧ (st.direction = .capture → st.reservation = 3 * st.cellsPerFrame)
      ∧ st.reserved =
          (if st.state = .armed ∨ st.state = .running ∨ st.state = .starved ∨ st.state = .draining then
            st.reservation
          else 0)
      ∧ (st.definitionOk → 1 ≤ st.cellsPerFrame ∧ st.cellsPerFrame ≤ 8))
    ∧ ∀ (s : State) (i : StreamIdx), s.streamInv → s.playInv → (s.stream i).cellsHeld ≤ (s.stream i).reserved

/-! ## Trunk frames as bytes -/

/-- What a port sends (R41, R42, R47, R136, R148, R157, R177). Whatever the header fields and a payload of at most 1024 bytes
that the kind may have, a frame as it is built passes the four whole-frame checks and reads back field by field; the SAMPLE
frame of a ready frame and the REPLY frame of a queued reply are such frames, with the fields of their records; the frame in
transmission on a port is that of the reply at the head of its queue or of the ready frame marked on it, and goes out low
nibble first with the enable high from its first nibble to its last, low in its gap, on an IDLE port and after an abort; the
check word of the nine bytes "123456789" is 0xCBF43926; the last four bytes of a frame are its check word, least significant
byte first. -/
def Obligations.SentFramesPassTheChecks : Prop :=
  checkWord [0x31, 0x32, 0x33, 0x34, 0x35, 0x36, 0x37, 0x38, 0x39] = 0xCBF43926
    ∧ (∀ (kind flags channels code : Nat) (dest source : Half) (tag : Word) (seq : Half) (payload : List Byte),
        (kind = 0x51 ∨ (kind = 0x52 ∧ payload ≠ []) ∨ (kind = 0x53 ∧ 2 ≤ payload.length)) →
        payload.length ≤ 1024 → flags < 256 → channels < 256 → code < 256 →
        let f := buildFrame kind flags dest source tag seq channels code payload
        GoodFrame f kind ∧ f.length = 20 + payload.length ∧ byteAt f 0 = kind ∧ byteAt f 1 = flags
          ∧ frameDest f = dest ∧ frameSource f = source ∧ frameTag f = tag ∧ frameSeq f = seq
          ∧ byteAt f 12 = channels ∧ byteAt f 13 = code ∧ beAt f 14 2 = payload.length
          ∧ (f.drop 16).take (f.length - 20) = payload
          ∧ (let c := checkWord (f.take (16 + payload.length))
             f.drop (16 + payload.length) =
               [c.extractLsb' 0 8, c.extractLsb' 8 8, c.extractLsb' 16 8, c.extractLsb' 24 8]))
    ∧ (∀ (st : Stream) (r : ReadyFrame), st.channels ≤ 16 → r.words.length * st.width.bytes ≤ 1024 →
        let code := if st.width = .w16 then 0 else if st.width = .w24 then 1 else 2
        let f := sampleFrameBytes st r
        GoodFrame f 0x51 ∧ byteAt f 1 = (if r.isFirst then 1 else 0) + (if r.isEnd then 2 else 0)
          ∧ frameDest f = 0 ∧ frameSource f = r.source ∧ frameTag f = st.tag ∧ frameSeq f = r.seq
          ∧ byteAt f 12 = st.channels ∧ byteAt f 13 = code
          ∧ beAt f 14 2 = r.words.length * st.width.bytes
          ∧ (f.drop 16).take (f.length - 20) = packSamples st.width r.words)
    ∧ (∀ r : Reply, 2 ≤ r.payload.length → r.payload.length ≤ 1024 →
        let f := r.bytes
        GoodFrame f 0x53 ∧ byteAt f 1 = 0 ∧ frameDest f = r.dest ∧ frameSource f = r.source ∧ frameTag f = r.txn
          ∧ frameSeq f = 0 ∧ byteAt f 12 = 0 ∧ byteAt f 13 = 0 ∧ beAt f 14 2 = r.payload.length
          ∧ (f.drop 16).take (f.length - 20) = r.payload)
    ∧ ∀ (s : State) (p : Port),
        ((s.port p).tx = .idle ∨ (s.port p).tx = .abortGap → s.frameOnTrunk p = none)
          ∧ (∀ (r : Reply) (rest : List Reply), (s.port p).tx = .reply → (s.port p).replies = r :: rest →
              s.frameOnTrunk p = some r.bytes)
          ∧ (∀ (i : StreamIdx) (before : List ReadyFrame) (f : ReadyFrame) (behind : List ReadyFrame),
              (s.port p).tx = .sample i → (s.stream i).ready = before ++ f :: behind → f.inTx.get p = true →
              (∀ v ∈ before, v.inTx.get p = false) → s.frameOnTrunk p = some (sampleFrameBytes (s.stream i) f))
          ∧ (s.frameOnTrunk p = none → ∀ t, s.txEnable p t = false ∧ s.txNibble p t = none)
          ∧ ∀ f : List Byte, s.frameOnTrunk p = some f →
              txCycles f = 2 * f.length + 24
                ∧ (∀ t, s.txEnable p t = decide (t < 2 * f.length))
                ∧ (∀ t, 2 * f.length ≤ t → s.txNibble p t = none)
                ∧ ∀ k, k < f.length →
                    s.txNibble p (2 * k) = some ((f.getD k 0).setWidth 4)
                      ∧ s.txNibble p (2 * k + 1) = some ((f.getD k 0 >>> 4).setWidth 4)

/-- Samples between payload and sample words (R43, R44): word k of a payload is its k-th group of bytes, most significant
first, left-justified; the payload of sample words is the upper 16, 24 or 32 bits of each, most significant byte first, the
lower bits dropped without rounding; and words whose bits below the width are zero survive being sent and received. -/
def Obligations.SamplesSurviveTheTrunk : Prop :=
  ∀ (w : Width) (n : Nat) (payload : List Byte),
    (payload.length = n * w.bytes →
      ∀ k, k < n →
        (unpackSamples w n payload)[k]? =
          some (BitVec.ofNat 32 (beAt payload (k * w.bytes) w.bytes * 2 ^ (32 - 8 * w.bytes))))
      ∧ (∀ xs : List Word, xs.length = n →
          (packSamples w xs).length = n * w.bytes
            ∧ ∀ k b, k < n → b < w.bytes →
                (packSamples w xs).getD (k * w.bytes + b) 0 = (xs.getD k 0 >>> (24 - 8 * b)).setWidth 8)
      ∧ ∀ xs : List Word, xs.length = n → (∀ x ∈ xs, x &&& BitVec.ofNat 32 (2 ^ (32 - 8 * w.bytes) - 1) = 0) →
          unpackSamples w n (packSamples w xs) = xs

/-! ## Requests -/

/-- When no request is executed (R173, R176, R185): on an empty request queue, while the agent is halted, and while the
reply queue of the head's UP port holds two replies, no request command changes anything; the same when the command is
not the head's (the model's operand-free request rows, log 1). -/
def Obligations.RequestsWaitAtTheHead : Prop :=
  ∀ (s : State) (c : Instr),
    c ∈ [Instr.identify, .status, .trunkConfig, .streamDefine, .streamClear, .streamStart, .streamStop, .streamQuery,
      .slotAssign, .slotQuery, .laneConfig, .laneStart, .laneStop, .clockConfig, .counters, .discoveryList,
      .discoveryConfig, .eventsFetch, .eventConfig, .deviceReset, .unknownRequest] →
    (s.control.requests = [] → exec c s = .next s)
      ∧ (s.control.halted = true → exec c s = .next s)
      ∧ ∀ (rq : Request) (rest : List Request), s.control.requests = rq :: rest →
          ((s.port rq.port).linkUp = true → 2 ≤ (s.port rq.port).replies.length → exec c s = .next s)
            ∧ (c ≠ (([(0x01, Instr.identify), (0x02, .status), (0x03, .trunkConfig), (0x04, .streamDefine),
                (0x05, .streamClear), (0x06, .streamStart), (0x07, .streamStop), (0x08, .streamQuery),
                (0x09, .slotAssign), (0x0A, .slotQuery), (0x0B, .laneConfig), (0x0C, .laneStart), (0x0D, .laneStop),
                (0x0E, .clockConfig), (0x0F, .counters), (0x10, .discoveryList), (0x11, .discoveryConfig),
                (0x12, .eventsFetch), (0x13, .eventConfig), (0x14, .deviceReset)].lookup rq.code).getD
                  .unknownRequest) → exec c s = .next s)

/-- Requests that are not framed as their layouts ask (R173, R174): an unknown code, an argument length other than the
layout's, or an option byte above 1 is answered MALFORMED with the code echoed and no results, and changes nothing
else. -/
def Obligations.MisframedRequestsAreMalformed : Prop :=
  ∀ (s : State) (rq : Request) (rest : List Request), s.settled → s.executes rq rest →
    let n := rq.args.length
    let option := fun (c : Instr) (length at_ : Nat) =>
      (n ≠ length ∨ 1 < byteAt rq.args at_) →
        exec c s = .next ((s.taken rest).replied rq [rq.code, 0x02])
    let plain := fun (c : Instr) (length : Nat) =>
      n ≠ length → exec c s = .next ((s.taken rest).replied rq [rq.code, 0x02])
    (rq.code = 0x00 ∨ 0x14 < rq.code.toNat →
      exec .unknownRequest s = .next ((s.taken rest).replied rq [rq.code, 0x02]))
      ∧ (rq.code = 0x01 → plain .identify 0) ∧ (rq.code = 0x02 → plain .status 0)
      ∧ (rq.code = 0x03 → plain .trunkConfig 5)
      ∧ (rq.code = 0x04 →
          ((byteAt rq.args 1 = 0 ∧ n ≠ 13) ∨ (byteAt rq.args 1 = 1 ∧ (n < 7 ∨ n ≠ 12 + byteAt rq.args 6))
            ∨ (1 < byteAt rq.args 1 ∧ n < 10)) →
          exec .streamDefine s = .next ((s.taken rest).replied rq [rq.code, 0x02]))
      ∧ (rq.code = 0x05 → plain .streamClear 1) ∧ (rq.code = 0x06 → plain .streamStart 1)
      ∧ (rq.code = 0x07 → option .streamStop 2 1) ∧ (rq.code = 0x08 → option .streamQuery 2 1)
      ∧ (rq.code = 0x09 → plain .slotAssign 4) ∧ (rq.code = 0x0A → plain .slotQuery 1)
      ∧ (rq.code = 0x0B → plain .laneConfig 9) ∧ (rq.code = 0x0C → plain .laneStart 1)
      ∧ (rq.code = 0x0D → plain .laneStop 1) ∧ (rq.code = 0x0E → option .clockConfig 13 12)
      ∧ (rq.code = 0x0F → option .counters 3 2) ∧ (rq.code = 0x10 → option .discoveryList 1 0)
      ∧ (rq.code = 0x11 → option .discoveryConfig 2 1) ∧ (rq.code = 0x12 → plain .eventsFetch 1)
      ∧ (rq.code = 0x13 → plain .eventConfig 16) ∧ (rq.code = 0x14 → plain .deviceReset 0)

/-- IDENTIFY and STATUS (R180, R181): vendor, part, revision, the node identity in force and the capacities; and the
snapshot, byte for byte; nothing else changes. -/
def Obligations.IdentifyAndStatusReportThePart : Prop :=
  (∀ (s : State) (rq : Request) (rest : List Request), s.settled → s.executes rq rest → rq.code = 0x01 →
     rq.args = [] →
     exec .identify s =
       .next ((s.taken rest).replied rq
         ([0x01, 0x00, 0x50, 0x52, 0x0B, 0x24, 1] ++ be2 s.control.nodeId.toNat
           ++ [64, 0x04, 0x00, 4, 32, 16, 32])))
    ∧ (∀ (s : State) (rq : Request) (rest : List Request), s.settled → s.executes rq rest → rq.code = 0x02 →
         rq.args = [] →
         let bit := fun b : Bool => if b then 1 else 0
         let transmit := fun x : PortState =>
           [byteOf (match x.mode with
             | .strict => 0
             | .weighted => 1), byteOf x.credits.l2, byteOf x.credits.l1, byteOf x.credits.l0]
         let clock := fun g : Gen =>
           [byteOf (if g.num = 0 then 0 else 1)] ++ be2 (BitVec.ofInt 16 g.trim).toNat ++ be2 g.reviewCount
         let lane := fun l : LaneIdx =>
           byteOf (match (s.lane l).state with
             | .off => 0
             | .seeking => 1
             | .running => 2
             | .lost => 3)
         exec .status s =
           .next ((s.taken rest).replied rq
             ([(0x02 : Byte), 0x00] ++ [byteOf (bit (s.port .ta).linkUp), byteOf (bit (s.port .tb).linkUp)]
               ++ transmit (s.port .ta) ++ transmit (s.port .tb)
               ++ [byteOf (match s.control.ports with
                     | .ta => 0
                     | .tb => 1
                     | .either => 2)]
               ++ [lane 0, lane 1, lane 2, lane 3]
               ++ clock (s.gen .mcg0) ++ clock (s.gen .mcg1)
               ++ be2 (1024 - s.reservedCells)
               ++ [byteOf s.events.records.length] ++ be2 s.events.lost.toNat ++ be4 s.events.uptime.toNat
               ++ [byteOf (match s.control.promResult with
                     | .loaded => 0
                     | .absent => 1
                     | .bad => 2),
                   byteOf (match s.control.startCause with
                     | .power => 0
                     | .pin => 1
                     | .request => 2),
                   byteOf s.waitList.length]
               ++ s.waitList.flatMap fun i => [byteOf i.val] ++ be2 (s.stream i).reservation)))

/-- TRUNK_CONFIG (R160, R182): the identity, the selection and both modes with their credits reloaded, answered with the
new identity; a value outside its range is answered VALUE with the identity in force and changes nothing. -/
def Obligations.TrunkConfigSetsIdentityAndModes : Prop :=
  ∀ (s : State) (rq : Request) (rest : List Request) (n1 n0 c ma mb : Byte), s.settled → s.executes rq rest →
    rq.code = 0x03 → rq.args = [n1, n0, c, ma, mb] →
    let node := n1.toNat * 256 + n0.toNat
    let sound := 1 ≤ node ∧ node ≤ 0xFFFE ∧ c.toNat ≤ 2 ∧ ma.toNat ≤ 1 ∧ mb.toNat ≤ 1
    let mode := fun m : Byte => if m = 0 then TxMode.strict else .weighted
    (sound →
      exec .trunkConfig s =
        .next (State.replied
          { s.taken rest with
            control :=
              { (s.taken rest).control with
                nodeId := BitVec.ofNat 16 node, ports := if c = 0 then .ta else if c = 1 then .tb else .either },
            ports := ⟨{ s.ports.ta with mode := mode ma, credits := ⟨4, 2, 1⟩ },
              { s.ports.tb with mode := mode mb, credits := ⟨4, 2, 1⟩ }⟩ } rq [0x03, 0x00, n1, n0]))
      ∧ (¬ sound →
          exec .trunkConfig s =
            .next ((s.taken rest).replied rq ([0x03, 0x04] ++ be2 s.control.nodeId.toNat)))

/-- STREAM_DEFINE accepted (R12, R14, R15, R16): the entry is IDLE with the definition, zero in the fields of the other
direction, its working values at their starting values and its counters zero; the out-slots that name a redefined entry
are emptied when its direction, lane or channel count changes; the discovery record of the tag goes. -/
def Obligations.StreamDefineWritesTheEntry : Prop :=
  ∀ (s : State) (rq : Request) (rest : List Request) (i : StreamIdx) (tag : Word) (lane : LaneIdx)
      (channels width frameSamples : Byte),
    s.settled → s.executes rq rest → rq.code = 0x04 →
    (s.stream i).state = .empty ∨ (s.stream i).state = .idle →
    (∀ j : StreamIdx, j ≠ i → (s.stream j).state ≠ .empty → (s.stream j).tag ≠ tag) →
    let head := fun direction : Byte =>
      [byteOf i.val, direction] ++ be4 tag.toNat ++ [channels, width, frameSamples, byteOf lane.val]
    let base : Stream :=
      { Stream.blank with
        state := .idle, tag := tag, channels := channels.toNat, width := widthNamed width,
        frameSamples := frameSamples.toNat, lane := lane }
    let become := fun new : Stream =>
      let stale :=
        (s.stream i).state = .idle ∧
          ((s.stream i).direction ≠ new.direction ∨ (s.stream i).lane ≠ lane
            ∨ (s.stream i).channels ≠ channels.toNat)
      let empty := fun e : Option OutSlot => if (e.any fun o => o.stream == i) = true then none else e
      { s.taken rest with
        streams := s.streams.set i new,
        lanes :=
          if stale then mapVec (fun x => { x with outTable := mapVec empty x.outTable }) s.lanes else s.lanes,
        discovery := { s.discovery with records := s.discovery.records.filter fun r => r.tag != tag } }
    (∀ m d c : Byte, rq.args = head 0 ++ [m, d, c] → DefinitionArgsOk rq.args →
      exec .streamDefine s =
        .next (State.replied
          (become
            { base with
              direction := .playout, depthMax := m.toNat, depthTarget := d.toNat,
              conceal := if c = 0 then .zero else .hold, hold := List.replicate channels.toNat 0 })
          rq [0x04, 0x00]))
      ∧ (∀ (level egress : Byte) (items : List Byte), rq.args = head 1 ++ [level, egress] ++ items →
          items.length = channels.toNat → DefinitionArgsOk rq.args →
          exec .streamDefine s =
            .next (State.replied
              (become
                { base with
                  direction := .capture, level := level.toNat, egress := ⟨egress != 2, egress != 1⟩,
                  channelSlots :=
                    items.map fun b => if h : b.toNat < 32 then some ⟨b.toNat, h⟩ else none })
              rq [0x04, 0x00]))

/-- STREAM_DEFINE refused (R11, R12, R13): INDEX, STATE, VALUE and TAG_CONFLICT in this order; nothing else changes. -/
def Obligations.StreamDefineRefusesInOrder : Prop :=
  ∀ (s : State) (rq : Request) (rest : List Request), s.settled → s.executes rq rest → rq.code = 0x04 →
    RequestCode.streamDefine.lengthOk rq.args = true →
    let answered := fun status : Byte => exec .streamDefine s = .next ((s.taken rest).replied rq [0x04, status])
    (63 < byteAt rq.args 0 → answered 3)
      ∧ ∀ i : StreamIdx, byteAt rq.args 0 = i.val →
          let free := (s.stream i).state = .empty ∨ (s.stream i).state = .idle
          (¬ free → answered 5)
            ∧ (free → ¬ DefinitionArgsOk rq.args → answered 4)
            ∧ (free → DefinitionArgsOk rq.args →
                (∃ j : StreamIdx, j ≠ i ∧ (s.stream j).state ≠ .empty ∧
                  (s.stream j).tag = BitVec.ofNat 32 (beAt rq.args 2 4)) → answered 7)

/-- STREAM_CLEAR (R17): an IDLE entry becomes EMPTY, every out-slot that names it is emptied, and the reply carries their
number; an EMPTY entry answers OK with 0; other states answer STATE and a bad index INDEX, without change. -/
def Obligations.StreamClearEmptiesTheEntry : Prop :=
  ∀ (s : State) (rq : Request) (rest : List Request) (b : Byte), s.settled → s.executes rq rest → rq.code = 0x05 →
    rq.args = [b] →
    let named := fun (i : StreamIdx) (e : Option OutSlot) => e.any fun o => o.stream == i
    (63 < b.toNat → exec .streamClear s = .next ((s.taken rest).replied rq [0x05, 3]))
      ∧ ∀ i : StreamIdx, b.toNat = i.val →
          ((s.stream i).state = .empty → exec .streamClear s = .next ((s.taken rest).replied rq [0x05, 0x00, 0]))
            ∧ ((s.stream i).state ≠ .empty → (s.stream i).state ≠ .idle →
                exec .streamClear s = .next ((s.taken rest).replied rq [0x05, 5]))
            ∧ ((s.stream i).state = .idle →
                exec .streamClear s =
                  .next (State.replied
                    { s.taken rest with
                      streams := s.streams.set i Stream.blank,
                      lanes :=
                        mapVec
                          (fun x => { x with outTable := mapVec (fun e => if named i e then none else e) x.outTable })
                          s.lanes } rq
                    [0x05, 0x00, byteOf
                      ((s.lane 0).outTable.toList.countP (named i) + (s.lane 1).outTable.toList.countP (named i)
                        + (s.lane 2).outTable.toList.countP (named i)
                        + (s.lane 3).outTable.toList.countP (named i))]))

/-- STREAM_START (R26, R27, R28): INDEX, STATE, the checks against the timing lane, then admission with OK, the tail of the
wait list with QUEUED, or FULL; the reply carries the reservation, the unreserved count after and the position. -/
def Obligations.StreamStartAdmitsQueuesOrRefuses : Prop :=
  ∀ (s : State) (rq : Request) (rest : List Request) (b : Byte), s.settled → s.executes rq rest → rq.code = 0x06 →
    rq.args = [b] →
    (63 < b.toNat → exec .streamStart s = .next ((s.taken rest).replied rq [0x06, 3]))
      ∧ ∀ i : StreamIdx, b.toNat = i.val →
          let st := s.stream i
          let lane := (s.lane st.lane).config
          let wrongWay :=
            (st.direction = .playout ∧ lane.direction = .inp) ∨ (st.direction = .capture ∧ lane.direction = .out)
          let beyond := st.direction = .capture ∧ ∃ k : Fin 32, some k ∈ st.channelSlots ∧ lane.slots ≤ k.val
          let r := st.reservation
          let free := 1024 - s.reservedCells
          (st.state ≠ .idle → exec .streamStart s = .next ((s.taken rest).replied rq [0x06, 5]))
            ∧ (st.state = .idle → wrongWay → exec .streamStart s = .next ((s.taken rest).replied rq [0x06, 5]))
            ∧ (st.state = .idle → ¬ wrongWay → beyond →
                exec .streamStart s = .next ((s.taken rest).replied rq [0x06, 4]))
            ∧ (st.state = .idle → ¬ wrongWay → ¬ beyond → s.waitList = [] → r ≤ free →
                exec .streamStart s =
                  .next (State.replied
                    ((s.taken rest).setStream i
                      { st with
                        state := .armed, expected := none, window := [], gap := false, misplaced := 0,
                        readIndex := 0, construction := none, firstOfRun := false, ready := [] }) rq
                    ([0x06, 0x00] ++ be2 r ++ be2 (free - r) ++ [0xFF])))
            ∧ (st.state = .idle → ¬ wrongWay → ¬ beyond → ¬ (s.waitList = [] ∧ r ≤ free) → s.waitList.length < 8 →
                exec .streamStart s =
                  .next (State.replied
                    (((s.taken rest).setStream i { st with state := .waiting }).setWaitList (s.waitList ++ [i])) rq
                    ([0x06, 0x01] ++ be2 r ++ be2 free ++ [byteOf s.waitList.length])))
            ∧ (st.state = .idle → ¬ wrongWay → ¬ beyond → 8 ≤ s.waitList.length →
                exec .streamStart s =
                  .next ((s.taken rest).replied rq ([0x06, 0x08] ++ be2 r ++ be2 free ++ [0xFF])))

/-- STREAM_STOP of a stream without a frame of its own on the trunk (R33, R34, R83, R140): INDEX and STATE change nothing; a
WAITING stream leaves the list for IDLE, with the admission test when it was the head; an active playout stream releases
its frames, goes to IDLE and releases its reservation. -/
def Obligations.StreamStopEndsWaitingAndPlayout : Prop :=
  ∀ (s : State) (rq : Request) (rest : List Request) (b o : Byte), s.settled → s.admissionInv → s.executes rq rest →
    rq.code = 0x07 → rq.args = [b, o] → o.toNat ≤ 1 →
    (63 < b.toNat → exec .streamStop s = .next ((s.taken rest).replied rq [0x07, 3]))
      ∧ ∀ i : StreamIdx, b.toNat = i.val →
          let st := s.stream i
          (st.state = .empty ∨ st.state = .idle ∨ st.state = .draining →
            exec .streamStop s = .next ((s.taken rest).replied rq [0x07, 5]))
            ∧ (st.state = .waiting →
                let u :=
                  ((s.taken rest).setStream i { st with state := .idle }).setWaitList (s.waitList.filter (· != i))
                exec .streamStop s =
                  .next ((if s.waitList.head? = some i then admissionTest u else u).replied rq [0x07, 0x00, 1]))
            ∧ (st.direction = .playout → st.state = .armed ∨ st.state = .running ∨ st.state = .starved →
                exec .streamStop s =
                  .next ((admissionTest ((s.taken rest).setStream i
                    { st with
                      state := .idle, expected := none, window := [], gap := false, misplaced := 0,
                      readIndex := 0 })).replied rq [0x07, 0x00, 1]))

/-- STREAM_STOP of an active capture stream (R137, R138, R139, R157): RUNNING without discard closes an END frame and drains,
or is IDLE at once with DRAIN_DONE when nothing is left to send; with discard only frames in transmission stay, each
pending where it is being sent; ARMED releases every ready frame and aborts its transmissions. The model's choices: when the
arbiters run (log 10), that a stop with discard clears the first-of-run mark (log 25), and that an option byte of 1 is
discard (log 28). -/
def Obligations.StreamStopEndsCapture : Prop :=
  ∀ (s : State) (rq : Request) (rest : List Request) (b o : Byte) (i : StreamIdx), s.transmitInv → s.streamInv →
    s.admissionInv → s.executes rq rest → rq.code = 0x07 → rq.args = [b, o] → b.toNat = i.val →
    (s.stream i).direction = .capture →
    let st := s.stream i
    let u := s.taken rest
    let dropped : CaptureCounters :=
      if (st.construction.any fun con => con.count != 0) then
        { st.capture with partials := bump st.capture.partials }
      else st.capture
    let kept := (st.ready.filter fun f => f.inTx.ta || f.inTx.tb).map fun f => { f with pendingOn := f.inTx }
    let cut := fun (p : Port) (v : State) =>
      if (v.port p).tx = .sample i then
        v.setPort p
          { v.port p with
            tx := .abortGap, txc := { (v.port p).txc with aborted := bump (v.port p).txc.aborted } }
      else v
    (st.state = .running → o = 0 →
      let c := runArbiters (closeFrame true i u)
      let d := c.setStream i { c.stream i with state := .draining }
      ((c.stream i).ready ≠ [] → exec .streamStop s = .next (d.replied rq [0x07, 0x00, 6]))
        ∧ ((c.stream i).ready = [] → exec .streamStop s = .next ((d.drained i).replied rq [0x07, 0x00, 1])))
      ∧ (st.state = .running → o = 1 →
          let v := { st with construction := none, firstOfRun := false, capture := dropped, ready := kept }
          (kept ≠ [] →
            exec .streamStop s =
              .next ((u.setStream i { v with state := .draining }).replied rq [0x07, 0x00, 6]))
            ∧ (kept = [] →
                exec .streamStop s =
                  .next ((admissionTest (u.setStream i { v with state := .idle })).replied rq [0x07, 0x00, 1])))
      ∧ (st.state = .armed → o.toNat ≤ 1 →
          exec .streamStop s =
            .next ((admissionTest
              ((cut .tb (cut .ta u)).setStream i { st with state := .idle, ready := [] })).replied rq
              [0x07, 0x00, 1]))

/-- STREAM_QUERY (R18, R20, R174): the whole entry, in the layout of its direction; with the clear option its counters are
zeroed at the same completion; a bad index answers INDEX; nothing else changes. The model's choices: an option byte of 1 is
clear, of 0 keep (log 28), and the gap flag goes out as 1 when set, 0 when clear (log 29). -/
def Obligations.StreamQueryReportsTheEntry : Prop :=
  ∀ (s : State) (rq : Request) (rest : List Request) (b o : Byte), s.settled → s.executes rq rest → rq.code = 0x08 →
    rq.args = [b, o] → o.toNat ≤ 1 →
    (63 < b.toNat → exec .streamQuery s = .next ((s.taken rest).replied rq [0x08, 3]))
      ∧ ∀ i : StreamIdx, b.toNat = i.val →
          let st := s.stream i
          let bit := fun v : Bool => byteOf (if v then 1 else 0)
          let four := fun c : Word => be4 c.toNat
          let p := st.playout
          let c := st.capture
          let u :=
            if o = 1 then
              (s.taken rest).setStream i
                { st with playout := ⟨0, 0, 0, 0, 0, 0, 0, 0, 0⟩, capture := ⟨0, 0, 0, 0, 0⟩ }
            else s.taken rest
          let head := fun direction : Byte =>
            [byteOf st.state.code, direction] ++ four st.tag
              ++ [byteOf st.channels, byteOf st.width.code, byteOf st.frameSamples, byteOf st.lane.val,
                byteOf st.cellsPerFrame] ++ be2 st.reserved
          (st.direction = .playout →
            exec .streamQuery s =
              .next (u.replied rq
                ([0x08, 0x00] ++ head 0
                  ++ [byteOf st.depthMax, byteOf st.depthTarget, bit (st.conceal == .hold), bit st.expected.isSome]
                  ++ be2 (st.expected.getD 0).toNat
                  ++ [byteOf (st.window.countP Option.isSome), bit st.gap]
                  ++ four p.stored ++ four p.duplicates ++ four p.late ++ four p.ahead ++ four p.lost
                  ++ four p.starvations ++ four p.resyncs ++ four p.formatErrors ++ four p.ends)))
            ∧ (st.direction = .capture →
                exec .streamQuery s =
                  .next (u.replied rq
                    ([0x08, 0x00] ++ head 1
                      ++ [byteOf st.level,
                        byteOf ((if st.egress.ta then 1 else 0) + if st.egress.tb then 2 else 0),
                        byteOf st.ready.length]
                      ++ be2 st.nextSeq.toNat
                      ++ four c.closed ++ four c.sentTa ++ four c.sentTb ++ four c.overruns ++ four c.partials
                      ++ st.channelSlots.map fun item =>
                        match item with
                        | some k => byteOf k.val
                        | none => 0xFF)))

/-- SLOT_ASSIGN and SLOT_QUERY (R109, R110, R111): the indices, then the checks of an assignment, then the entry, answered
with the one it replaces; the query reports configuration, state and 32 entries. -/
def Obligations.SlotsAreAssignedAndReported : Prop :=
  ∀ (s : State) (rq : Request) (rest : List Request), s.settled → s.executes rq rest →
    let shown := fun e : Option OutSlot =>
      match e with
      | some o => [byteOf o.stream.val, byteOf o.channel.val]
      | none => [(0xFF : Byte), 0xFF]
    (∀ l k st ch : Byte, rq.code = 0x09 → rq.args = [l, k, st, ch] →
      (3 < l.toNat ∨ 31 < k.toNat ∨ (st ≠ 0xFF ∧ (63 < st.toNat ∨ 15 < ch.toNat)) →
        exec .slotAssign s = .next ((s.taken rest).replied rq [0x09, 3]))
        ∧ ∀ (lane : LaneIdx) (slot : Fin 32), l.toNat = lane.val → k.toNat = slot.val →
            let x := s.lane lane
            let write := fun e : Option OutSlot =>
              exec .slotAssign s =
                .next (((s.taken rest).setLane lane { x with outTable := x.outTable.set slot e }).replied rq
                  ([0x09, 0x00] ++ shown (x.outTable.get slot)))
            (st = 0xFF → write none)
              ∧ ∀ e : OutSlot, st.toNat = e.stream.val → ch.toNat = e.channel.val →
                  (s.slotOk lane slot e → write (some e))
                    ∧ (¬ s.slotOk lane slot e → exec .slotAssign s = .next ((s.taken rest).replied rq [0x09, 4])))
      ∧ (∀ l : Byte, rq.code = 0x0A → rq.args = [l] →
          (3 < l.toNat → exec .slotQuery s = .next ((s.taken rest).replied rq [0x0A, 3]))
            ∧ ∀ lane : LaneIdx, l.toNat = lane.val →
                let x := s.lane lane
                let c := x.config
                exec .slotQuery s =
                  .next ((s.taken rest).replied rq
                    ([0x0A, 0x00]
                      ++ [byteOf c.direction.code, byteOf c.role.code, byteOf c.slots, byteOf c.slotWidth.code,
                        byteOf c.syncShape.code, byteOf c.polarity.code, byteOf (if c.delayOne then 1 else 0),
                        byteOf c.clockEdge.code, byteOf x.state.code]
                      ++ (List.finRange 32).flatMap fun k =>
                        shown (if k.val < c.slots then x.outTable.get k else none))))

/-- LANE_CONFIG (R95, R96): INDEX, BUSY while the lane is not OFF or times a stream that holds a reservation, VALUE for a
field outside its values or HALF with an odd slot count; accepted, all eight fields at once, and the out-slots of an IN
lane or at or beyond the slot count are emptied. -/
def Obligations.LaneConfigWritesAnIdleLane : Prop :=
  ∀ (s : State) (rq : Request) (rest : List Request) (l d r n w sh po dl ed : Byte), s.settled →
    s.executes rq rest → rq.code = 0x0B → rq.args = [l, d, r, n, w, sh, po, dl, ed] →
    let sound :=
      d.toNat ≤ 2 ∧ r.toNat ≤ 2 ∧ 1 ≤ n.toNat ∧ n.toNat ≤ 32 ∧ w.toNat ≤ 2 ∧ sh.toNat ≤ 2 ∧ po.toNat ≤ 1
        ∧ dl.toNat ≤ 1 ∧ ed.toNat ≤ 1 ∧ ¬ (sh = 2 ∧ n.toNat % 2 = 1)
    let answered := fun status : Byte => exec .laneConfig s = .next ((s.taken rest).replied rq [0x0B, status])
    (3 < l.toNat → answered 3)
      ∧ ∀ lane : LaneIdx, l.toNat = lane.val →
          let x := s.lane lane
          let busy :=
            x.state ≠ .off
              ∨ ∃ i : StreamIdx, (s.stream i).lane = lane
                  ∧ ((s.stream i).state = .armed ∨ (s.stream i).state = .running ∨ (s.stream i).state = .starved
                    ∨ (s.stream i).state = .draining)
          (busy → answered 6)
            ∧ (¬ busy → ¬ sound → answered 4)
            ∧ (¬ busy → sound →
                ∃ table : Vector (Option OutSlot) 32,
                  (∀ k : Fin 32, table.get k = if d = 1 ∨ n.toNat ≤ k.val then none else x.outTable.get k)
                    ∧ exec .laneConfig s =
                        .next (((s.taken rest).setLane lane
                          { x with
                            config :=
                              { direction := if d = 0 then .out else if d = 1 then .inp else .both,
                                role := if r = 0 then .master0 else if r = 1 then .master1 else .slave,
                                slots := n.toNat, slotWidth := widthNamed w,
                                syncShape := if sh = 0 then .pulse else if sh = 1 then .slot else .half,
                                polarity := if po = 0 then .high else .low, delayOne := dl == 1,
                                clockEdge := if ed = 0 then .driveFalling else .driveRising },
                            outTable := table }).replied rq [0x0B, 0x00]))

/-- LANE_START and LANE_STOP (R98, R102, R107, R112, R113): an OFF master with a RUNNING generator enters RUNNING with zero
slots, counted and posted, one with an OFF generator answers STATE, a slave enters SEEKING without a candidate, a lane
that is not OFF answers STATE; a stop takes any lane to OFF, and from RUNNING its streams lose it. The model's choice: a stop
within the bit period after an edge, with data delay 1, drops the frame event that is still due, where the third row of R114
can be read otherwise (log 5). -/
def Obligations.LanesStartAndStop : Prop :=
  ∀ (s : State) (rq : Request) (rest : List Request) (b : Byte), s.settled → s.executes rq rest → rq.args = [b] →
    (rq.code = 0x0C →
      (3 < b.toNat → exec .laneStart s = .next ((s.taken rest).replied rq [0x0C, 3]))
        ∧ ∀ l : LaneIdx, b.toNat = l.val →
            let x := s.lane l
            let clock := fun g : GenIdx =>
              (g = .mcg0 ∧ x.config.role = .master0) ∨ (g = .mcg1 ∧ x.config.role = .master1)
            (x.state ≠ .off → exec .laneStart s = .next ((s.taken rest).replied rq [0x0C, 5]))
              ∧ (x.state = .off → x.config.role = .slave →
                  exec .laneStart s =
                    .next (((s.taken rest).setLane l { x with state := .seeking, candidate := false }).replied rq
                      [0x0C, 0x00]))
              ∧ ∀ g : GenIdx, x.state = .off → clock g →
                  ((s.gen g).num = 0 → exec .laneStart s = .next ((s.taken rest).replied rq [0x0C, 5]))
                    ∧ ((s.gen g).num ≠ 0 →
                        exec .laneStart s =
                          .next ((((s.taken rest).setLane l
                            { x with
                              state := .running, candidate := false, eventDue := false,
                              outWords := if x.config.direction = .inp then [] else List.replicate x.config.slots 0,
                              counters := { x.counters with entries := bump x.counters.entries } }).post
                            .laneRunning (.lane l)
                            (BitVec.ofNat 32 (x.config.slots * x.config.slotWidth.bits))).replied rq
                            [0x0C, 0x00])))
      ∧ (rq.code = 0x0D →
          (3 < b.toNat → exec .laneStop s = .next ((s.taken rest).replied rq [0x0D, 3]))
            ∧ ∀ l : LaneIdx, b.toNat = l.val →
                let x := s.lane l
                let u :=
                  (s.taken rest).setLane l
                    { x with state := .off, candidate := false, eventDue := false, outWords := [] }
                (x.state ≠ .running → exec .laneStop s = .next (u.replied rq [0x0D, 0x00]))
                  ∧ (x.state = .running →
                      exec .laneStop s = .next ((u.mapStreams (Stream.loseLane l)).replied rq [0x0D, 0x00])))

/-- CLOCK_CONFIG (R118, R119): INDEX without results; VALUE and BUSY with the settings in force; accepted, the settings, the
trim reset on request, and the review count at 0 when the reference changes. The model's choice: an option byte of 1 is trim
reset, of 0 keep (log 28). -/
def Obligations.ClockConfigSetsAGenerator : Prop :=
  ∀ (s : State) (rq : Request) (rest : List Request) (b ref step w o : Byte) (num den : Word), s.settled →
    s.executes rq rest → rq.code = 0x0E →
    rq.args = [b] ++ be4 num.toNat ++ be4 den.toNat ++ [ref, step, w, o] → o.toNat ≤ 1 →
    let settings := fun g : Gen =>
      be4 g.num ++ be4 g.den
        ++ [byteOf (if g.num = 0 then 0 else 1), byteOf (match g.reference with
              | some i => i.val
              | none => 0xFF), byteOf g.step, byteOf g.window]
        ++ be2 (BitVec.ofInt 16 g.trim).toNat ++ be2 g.reviewCount
    (1 < b.toNat ∨ (63 < ref.toNat ∧ ref ≠ 0xFF) →
      exec .clockConfig s = .next ((s.taken rest).replied rq [0x0E, 3]))
      ∧ ∀ (g : GenIdx) (reference : Option StreamIdx), b = (if g = .mcg0 then 0 else 1) →
          (match reference with
            | some i => ref.toNat = i.val
            | none => ref = 0xFF) →
          let x := s.gen g
          let sound :=
            num.toNat ≤ 1048575 ∧ 1 ≤ den.toNat ∧ den.toNat ≤ 1048575
              ∧ (num.toNat ≠ 0 → num.toNat * 4 ≤ den.toNat) ∧ 1 ≤ step.toNat ∧ step.toNat ≤ 16 ∧ w.toNat ≤ 4
          let busy :=
            (num.toNat ≠ x.num ∨ den.toNat ≠ x.den)
              ∧ ∃ l : LaneIdx, (s.lane l).config.role = (if g = .mcg0 then .master0 else .master1)
                  ∧ (s.lane l).state ≠ .off
          let y : Gen :=
            { num := num.toNat, den := den.toNat, trim := if o = 1 then 0 else x.trim, reference := reference,
              step := step.toNat, window := w.toNat,
              reviewCount := if reference = x.reference then x.reviewCount else 0 }
          (¬ sound → exec .clockConfig s = .next ((s.taken rest).replied rq ([0x0E, 4] ++ settings x)))
            ∧ (sound → busy → exec .clockConfig s = .next ((s.taken rest).replied rq ([0x0E, 6] ++ settings x)))
            ∧ (sound → ¬ busy →
                exec .clockConfig s =
                  .next (((s.taken rest).setGen g y).replied rq ([0x0E, 0x00] ++ settings y)))

/-- COUNTERS (R61, R112, R161, R183): the counters of one port or one lane, zeroed at the same completion with the clear
option; a scope above 1 answers VALUE, an index beyond the scope INDEX; no other counter is read or cleared. The model's
choice: an option byte of 1 is clear, of 0 keep (log 28). -/
def Obligations.CountersReadAndClearOneScope : Prop :=
  ∀ (s : State) (rq : Request) (rest : List Request) (scope index o : Byte), s.settled → s.executes rq rest →
    rq.code = 0x0F → rq.args = [scope, index, o] → o.toNat ≤ 1 →
    let four := fun c : Word => be4 c.toNat
    (1 < scope.toNat → exec .counters s = .next ((s.taken rest).replied rq [0x0F, 4]))
      ∧ (scope = 0 → 1 < index.toNat → exec .counters s = .next ((s.taken rest).replied rq [0x0F, 3]))
      ∧ (scope = 1 → 3 < index.toNat → exec .counters s = .next ((s.taken rest).replied rq [0x0F, 3]))
      ∧ (∀ p : Port, scope = 0 → index = (if p = .ta then 0 else 1) →
          let x := s.port p
          let u :=
            if o = 1 then
              (s.taken rest).setPort p { x with rx := ⟨0, 0, 0, 0, 0, 0, 0, 0, 0⟩, txc := ⟨0, 0, 0, 0⟩ }
            else s.taken rest
          exec .counters s =
            .next (u.replied rq
              ([0x0F, 0x00] ++ four x.rx.good ++ four x.rx.malformed ++ four x.rx.checkErrors
                ++ four x.rx.unknownKind ++ four x.rx.unknownTag ++ four x.rx.inactive ++ four x.rx.accepted
                ++ four x.rx.dropped ++ four x.rx.notAddressed ++ four x.txc.samplesSent ++ four x.txc.repliesSent
                ++ four x.txc.aborted ++ four x.txc.repliesLost)))
      ∧ ∀ l : LaneIdx, scope = 1 → index.toNat = l.val →
          let x := s.lane l
          let u := if o = 1 then (s.taken rest).setLane l { x with counters := ⟨0, 0, 0⟩ } else s.taken rest
          exec .counters s =
            .next (u.replied rq
              ([0x0F, 0x00] ++ four x.counters.frameEvents ++ four x.counters.syncLosses
                ++ four x.counters.entries))

/-- DISCOVERY_LIST (R169): the list as it stands, its overflow count zeroed on request; nothing else changes. The model's
choices: an option byte of 1 is clear, of 0 keep (log 28), and the seen flag goes out as 1 when set, 0 when clear (log 29). -/
def Obligations.DiscoveryListIsReported : Prop :=
  ∀ (s : State) (rq : Request) (rest : List Request) (o : Byte), s.settled → s.executes rq rest → rq.code = 0x10 →
    rq.args = [o] → o.toNat ≤ 1 →
    let d := s.discovery
    let code : Byte :=
      match d.aging with
      | .off => 0
      | .s1 => 1
      | .s2 => 2
      | .s4 => 3
      | .s8 => 4
    exec .discoveryList s =
      .next ((if o = 1 then (s.taken rest).setDiscovery { d with overflow := 0 } else s.taken rest).replied rq
        ([0x10, 0x00, code] ++ be4 d.overflow.toNat ++ [byteOf d.records.length]
          ++ d.records.flatMap fun r =>
            be4 r.tag.toNat
              ++ [byteOf ((if r.ports.ta then 1 else 0) + if r.ports.tb then 2 else 0), r.channels, r.widthCode]
              ++ be2 r.samples ++ be2 r.firstSeq.toNat ++ be4 r.count.toNat
              ++ [byteOf (if r.seen then 1 else 0)]))

/-- EVENTS_FETCH (R196, R197): up to n records in the order of level 3, 2, 1, 0 and oldest first within a level, all of
them when fewer are held; the others keep their order; the lost count is reported and zeroed; EVT# follows what is left. A
count of 0 or above 16 answers VALUE and changes nothing. EVENT_CONFIG (R193, R197): the threshold and the level of each
of the fifteen kinds, with EVT# judged again and the records, the lost count and the uptime as they stand; a threshold
above 3 or another level byte answers VALUE and changes nothing. -/
def Obligations.EventsAreFetchedAndConfigured : Prop :=
  (∀ (s : State) (rq : Request) (rest : List Request) (n : Byte), s.settled → s.executes rq rest → rq.code = 0x12 →
     rq.args = [n] →
     let q := s.events
     let ofLevel := fun level : Level => q.records.filter fun r => r.level = level
     let ordered := ofLevel 3 ++ ofLevel 2 ++ ofLevel 1 ++ ofLevel 0
     (n = 0 ∨ 16 < n.toNat → exec .eventsFetch s = .next ((s.taken rest).replied rq [0x12, 4]))
       ∧ (1 ≤ n.toNat → n.toNat ≤ 16 →
           ∃ left : List EventRecord,
             left.Sublist q.records ∧ (ordered.take n.toNat ++ left).Perm q.records
               ∧ exec .eventsFetch s =
                   .next (((s.taken rest).setEvents
                     { q with
                       records := left, lost := 0,
                       asserted := left.any fun r => decide (q.threshold ≤ r.level) }).replied rq
                     ([0x12, 0x00] ++ be2 q.lost.toNat ++ [byteOf (min n.toNat q.records.length)]
                       ++ (ordered.take n.toNat).flatMap fun r =>
                         [byteOf r.kind.code]
                           ++ (match r.source with
                               | .none => [(0 : Byte), 0]
                               | .stream i => [1, byteOf i.val]
                               | .lane l => [2, byteOf l.val]
                               | .port p => [3, if p = .ta then 0 else 1]
                               | .gen g => [4, if g = .mcg0 then 0 else 1])
                           ++ [byteOf r.level.val] ++ be4 r.detail.toNat ++ [r.repeats] ++ be4 r.firstTime.toNat))))
    ∧ (∀ (s : State) (rq : Request) (rest : List Request) (t : Byte) (bytes : List Byte), s.settled →
         s.executes rq rest → rq.code = 0x13 → rq.args = t :: bytes → bytes.length = 15 →
         let q := s.events
         let sound := t.toNat ≤ 3 ∧ ∀ b ∈ bytes, b.toNat ≤ 2 ∨ b = 0xFF
         (¬ sound → exec .eventConfig s = .next ((s.taken rest).replied rq [0x13, 4]))
           ∧ (sound →
               ∃ (levels : Vector (Option Level) 15) (threshold : Level),
                 threshold.val = t.toNat
                   ∧ (∀ n : Fin 15, (levels.get n).map Fin.val =
                       if bytes.getD n.val 0 = 0xFF then none else some (bytes.getD n.val 0).toNat)
                   ∧ exec .eventConfig s =
                       .next (((s.taken rest).setEvents
                         { q with
                           levels := levels, threshold := threshold,
                           asserted := q.records.any fun r => decide (threshold ≤ r.level) }).replied rq
                         [0x13, 0x00])))

/-- DEVICE_RESET (R184): the agent is halted and the OK reply joins the queue of its UP port, the reset waiting for it; on
a DOWN port the reply is discarded and the reset takes effect at the execution (log 24), with the model's values of logs 11
and 12. -/
def Obligations.DeviceResetHaltsThenResets : Prop :=
  ∀ (s : State) (rq : Request) (rest : List Request), s.settled → s.executes rq rest → rq.code = 0x14 →
    rq.args = [] →
    ((s.port rq.port).linkUp = true →
      exec .deviceReset s =
        .next (((s.taken rest).setControl { (s.taken rest).control with halted := true }).replied rq [0x14, 0x00]))
      ∧ ((s.port rq.port).linkUp = false → exec .deviceReset s = .next (s.afterReset .request .loading))

/-! ## Invariants that every step keeps -/

/-- The Event Queue stays within its 32 records, no two with the same kind and source, and EVT# is asserted exactly while
a record at or above the threshold is held (R191, R197); the request queue stays within 4 requests and each reply queue
within 2 replies (R156, R175). -/
def Obligations.StepsKeepTheQueues : Prop :=
  (∀ s t : State, s.eventInv → step s = .next t → t.eventInv)
    ∧ (∀ s t : State, s.queueInv → step s = .next t → t.queueInv)

/-- Every stream in WAITING stands on the wait list exactly once, the list within 8, the reservations within the 1024 cells,
and a head that fits never waits (R28, section 2.2; R23, R29). -/
def Obligations.StepsKeepTheWaitListAndThePool : Prop :=
  ∀ s t : State, s.admissionInv → step s = .next t → t.admissionInv

/-- No two entries hold the same tag, no two discovery records either, and the Discovery List never names the tag of an
entry (R4, R164); every occupied out-slot names a playout stream and a channel that it may name (R108). -/
def Obligations.StepsKeepTagsAndOutSlots : Prop :=
  (∀ s t : State, s.admissionInv → s.streamInv → s.tagInv → step s = .next t → t.tagInv)
    ∧ (∀ s t : State, s.admissionInv → s.streamInv → s.slotInv → step s = .next t → t.slotInv)

/-- The generators stay in their ranges, the trim within ±512 and the review count within 0 to 1023 (R115, R121, R123). -/
def Obligations.StepsKeepTheGenerators : Prop :=
  ∀ s t : State, s.genInv → step s = .next t → t.genInv

/-- A stream runs only while its timing lane runs, only slaves look for a frame, a RUNNING master has a RUNNING generator, and
a frame event is due only at a RUNNING slave with data delay 1 (R85, R97, R100, R101, R116, R130; the mark is the model's,
log 5). -/
def Obligations.StepsKeepStreamsOnRunningLanes : Prop :=
  ∀ s t : State, s.streamInv → s.laneInv → step s = .next t → t.laneInv

/-- A port that is UP and has an IDLE transmitter holds nothing eligible once any event is finished with, and a DOWN port
has nothing to send (R150, R159). -/
def Obligations.StepsLeaveNothingEligible : Prop :=
  ∀ s t : State, s.transmitInv → step s = .next t → t.transmitInv

/-- The entries keep their shape by direction and state: the fields of the other direction stay zero, a capture entry keeps
one channel-slot item for each channel, the frame under construction and the ready frames keep a word for each sample and
channel; and each port sends exactly the frame that is marked as in transmission on it (R1, R2, R7, R129, R132, R137, R141,
R153). -/
def Obligations.StepsKeepStreamsAndTransmissions : Prop :=
  ∀ s t : State, s.admissionInv → s.streamInv → step s = .next t → t.streamInv

/-- The working values of every playout entry keep the relations of R90. -/
def Obligations.StepsKeepThePlayoutWindows : Prop :=
  ∀ s t : State, s.admissionInv → s.streamInv → s.playInv → step s = .next t → t.playInv

/-- The pins and clocks of a lane (R93, R94, R97, R104, R105, R116): what each pin does by state, role and direction; outputs
change on the drive edge of Ln_BCK and inputs are sampled on the other; Ln_SYNC is active for the length of its shape, and a
leading edge is the active level after the inactive one at sampling edges; the data of a frame is its slots in order, each
the upper bits of its word, most significant first, low beyond the frame's data, and begins data delay after the sync
period; an in-slot word is put together in the same layout from the levels of Ln_DIN in the bit periods of its slot (the
levels come as an operand, log 18), with zeros below the slot width; the bit clock of a generator is
98.304 MHz × NUM ÷ DEN × (1 + trim × 2^−20), and an OFF one has none. -/
def Obligations.LanePinsFollowTheirConfiguration : Prop :=
  (∀ x : Lane,
     (x.state = .off → x.clockPins = .highImpedance ∧ x.doutPin = .highImpedance ∧ x.dinPin = .notSampled)
       ∧ (x.state ≠ .off → x.config.role = .slave → x.clockPins = .input)
       ∧ (x.state = .running → x.config.role ≠ .slave → x.clockPins = .driven)
       ∧ (x.state ≠ .off → x.config.direction = .inp → x.doutPin = .highImpedance ∧ x.dinPin = .input)
       ∧ (x.state = .running → x.config.direction ≠ .inp → x.doutPin = .driven)
       ∧ (x.state = .seeking ∨ x.state = .lost → x.config.direction ≠ .inp → x.doutPin = .drivenLow)
       ∧ (x.state ≠ .off → x.config.direction = .both → x.dinPin = .input)
       ∧ (x.config.direction = .out → x.dinPin = .notSampled))
    ∧ (∀ (c : LaneConfig) (k : Nat),
         c.driveEdge = (if c.clockEdge = .driveFalling then .falling else .rising)
           ∧ c.sampleEdge = (if c.clockEdge = .driveFalling then .rising else .falling)
           ∧ c.edgeAt (2 * k) = c.driveEdge ∧ c.edgeAt (2 * k + 1) = c.sampleEdge
           ∧ (c.bckAfter k = true ↔ c.edgeAt k = .rising)
           ∧ c.syncAfter (2 * k) = c.syncLevel k ∧ c.syncAfter (2 * k + 1) = c.syncAfter (2 * k)
           ∧ (c.syncLevel k = decide (c.polarity = .high) ↔
               k < match c.syncShape with
                 | .pulse => 1
                 | .slot => c.slotWidth.bits
                 | .half => c.slots / 2 * c.slotWidth.bits)
           ∧ c.dataPeriod k = (if c.delayOne = true then k + 1 else k))
    ∧ (∀ (c : LaneConfig) (before now : AtEdges Bool) (words : AtEdges PinLevels),
         c.sampled words = c.inputOf words
           ∧ (c.leadingEdge before now = true ↔
               c.inputOf before ≠ decide (c.polarity = .high) ∧ c.inputOf now = decide (c.polarity = .high)))
    ∧ (∀ (x : Lane) (slot bit k : Nat),
         let w := x.config.slotWidth
         (slot < x.config.slots → bit < w.bits →
           x.dataBit (slot * w.bits + bit) = (slotBits w (x.outWords.getD slot 0)).getLsbD (w.bits - 1 - bit))
           ∧ (x.config.slots * w.bits ≤ k → x.dataBit k = false)
           ∧ x.doutAfter (2 * k) = x.dataBit k ∧ x.doutAfter (2 * k + 1) = x.doutAfter (2 * k))
    ∧ (∀ (w : Width) (word : Word), slotBits w word = word >>> (32 - w.bits))
    ∧ (∀ (c : LaneConfig) (line : PinLevels) (slot : Fin 32) (b : Nat),
         let w := c.slotWidth.bits
         (c.direction ≠ .out → slot.val < c.slots →
           (b < w → (c.inWord line slot).getMsbD b = line.getLsbD (c.dataPeriod (slot.val * w + b)))
             ∧ (w ≤ b → (c.inWord line slot).getMsbD b = false))
           ∧ (c.direction = .out ∨ c.slots ≤ slot.val → c.inWord line slot = 0)
           ∧ c.inWord line slot = capturedWord c line (some slot))
    ∧ ∀ g : Gen,
        (g.num = 0 → g.bitClock = none)
          ∧ (g.num ≠ 0 → g.bitClock = some (98304000 * g.num * (2 ^ 20 + g.trim), g.den * 2 ^ 20))

/-- The state after reset meets every invariant. -/
def Obligations.ResetStateMeetsTheInvariants : Prop :=
  State.reset.eventInv ∧ State.reset.queueInv ∧ State.reset.admissionInv ∧ State.reset.tagInv ∧ State.reset.slotInv
    ∧ State.reset.genInv ∧ State.reset.laneInv ∧ State.reset.transmitInv ∧ State.reset.streamInv
    ∧ State.reset.playInv

end
end

