-- ==== Sys2Proof/Laws/State.lean ====
section
/-! SUPPORT. One lemma for each field of State under each writer, so that no later proof unfolds a record update, and
the lemmas of the readers under the writers of their own part. -/

namespace Sys2Proof.Machine

/-! ## Readers under the writers of their own part -/

@[simp] theorem PerPort.get_set_self {α : Type} (x : PerPort α) (p : Port) (a : α) : (x.set p a).get p = a := by
  cases p <;> rfl

@[simp] theorem PerPort.get_set_ne {α : Type} (x : PerPort α) {p q : Port} (a : α) (h : q ≠ p) :
    (x.set p a).get q = x.get q := by
  cases p <;> cases q <;> first | rfl | exact absurd rfl h

theorem PerPort.get_set {α : Type} (x : PerPort α) (p q : Port) (a : α) :
    (x.set p a).get q = if q = p then a else x.get q := by
  cases p <;> cases q <;> rfl

theorem PerPort.ext_get {α : Type} {x y : PerPort α} (h : ∀ p, x.get p = y.get p) : x = y := by
  cases x; cases y
  exact congr (congrArg _ (h .ta)) (h .tb)

@[simp] theorem PerGen.get_set_self {α : Type} (x : PerGen α) (g : GenIdx) (a : α) : (x.set g a).get g = a := by
  cases g <;> rfl

@[simp] theorem PerGen.get_set_ne {α : Type} (x : PerGen α) {g h : GenIdx} (a : α) (e : h ≠ g) :
    (x.set g a).get h = x.get h := by
  cases g <;> cases h <;> first | rfl | exact absurd rfl e

@[simp] theorem mapVec_get {α β : Type} {n : Nat} (f : α → β) (v : Vector α n) (i : Fin n) :
    (mapVec f v).get i = f (v.get i) := by
  have h : i.val < v.toArray.toList.length := by simp
  show ((v.toArray.toList.map f)[i.val]'(by simp)) = f (v.toArray.toList[i.val])
  simp only [List.getElem_map]

@[simp] theorem mapVecIdx_get {α β : Type} {n : Nat} (f : Nat → α → β) (v : Vector α n) (i : Fin n) :
    (mapVecIdx f v).get i = f i.val (v.get i) := by
  have h : i.val < v.toArray.toList.length := by simp
  show ((v.toArray.toList.mapIdx f)[i.val]'(by simp)) = f i.val (v.toArray.toList[i.val])
  simp only [List.getElem_mapIdx]

theorem Vector_get_set {α : Type} {n : Nat} (v : Vector α n) (i j : Fin n) (x : α) :
    (v.set i x).get j = if j = i then x else v.get j := by
  show (v.set i.val x)[j.val] = if j = i then x else v[j.val]
  rw [Vector.getElem_set]
  by_cases h : j = i
  · simp [h]
  · have h' : ¬ i.val = j.val := fun e => h (Fin.ext e.symm)
    simp [h, h']

@[simp] theorem State.stream_setStream_self (s : State) (i : StreamIdx) (x : Stream) :
    (s.setStream i x).stream i = x := by
  simp [State.stream, State.setStream, Vector_get_set]

@[simp] theorem State.stream_setStream_ne (s : State) {i j : StreamIdx} (x : Stream) (h : j ≠ i) :
    (s.setStream i x).stream j = s.stream j := by
  simp [State.stream, State.setStream, Vector_get_set, h]

theorem State.stream_setStream (s : State) (i j : StreamIdx) (x : Stream) :
    (s.setStream i x).stream j = if j = i then x else s.stream j := by
  simp [State.stream, State.setStream, Vector_get_set]

@[simp] theorem State.lane_setLane_self (s : State) (l : LaneIdx) (x : Lane) : (s.setLane l x).lane l = x := by
  simp [State.lane, State.setLane, Vector_get_set]

@[simp] theorem State.lane_setLane_ne (s : State) {l m : LaneIdx} (x : Lane) (h : m ≠ l) :
    (s.setLane l x).lane m = s.lane m := by
  simp [State.lane, State.setLane, Vector_get_set, h]

theorem State.lane_setLane (s : State) (l m : LaneIdx) (x : Lane) :
    (s.setLane l x).lane m = if m = l then x else s.lane m := by
  simp [State.lane, State.setLane, Vector_get_set]

@[simp] theorem State.gen_setGen_self (s : State) (g : GenIdx) (x : Gen) : (s.setGen g x).gen g = x := by
  simp [State.gen, State.setGen]

@[simp] theorem State.gen_setGen_ne (s : State) {g h : GenIdx} (x : Gen) (e : h ≠ g) :
    (s.setGen g x).gen h = s.gen h := by
  simp [State.gen, State.setGen, e]

@[simp] theorem State.port_setPort_self (s : State) (p : Port) (x : PortState) : (s.setPort p x).port p = x := by
  simp [State.port, State.setPort]

@[simp] theorem State.port_setPort_ne (s : State) {p q : Port} (x : PortState) (h : q ≠ p) :
    (s.setPort p x).port q = s.port q := by
  simp [State.port, State.setPort, h]

theorem State.port_setPort (s : State) (p q : Port) (x : PortState) :
    (s.setPort p x).port q = if q = p then x else s.port q := by
  simp [State.port, State.setPort, PerPort.get_set]

/-- Two states that agree on every part are equal. -/
theorem State.ext_parts {s t : State} (h1 : s.phase = t.phase) (h2 : s.streams = t.streams)
    (h3 : s.waitList = t.waitList) (h4 : s.lanes = t.lanes) (h5 : s.gens = t.gens) (h6 : s.ports = t.ports)
    (h7 : s.discovery = t.discovery) (h8 : s.control = t.control) (h9 : s.events = t.events)
    (h10 : s.pending = t.pending) : s = t := by
  cases s; cases t; simp_all

/-- A vector of entries is settled by its readers. -/
theorem State.streams_ext {s t : State} (h : ∀ i, s.stream i = t.stream i) : s.streams = t.streams := by
  apply Vector.ext
  intro i hi
  exact h ⟨i, hi⟩

/-- The lanes are settled by their readers. -/
theorem State.lanes_ext {s t : State} (h : ∀ l, s.lane l = t.lane l) : s.lanes = t.lanes := by
  apply Vector.ext
  intro i hi
  exact h ⟨i, hi⟩

/-- Of two writes to one place the second stands. -/
@[simp] theorem State.setPort_setPort (s : State) (p : Port) (x y : PortState) :
    (s.setPort p x).setPort p y = s.setPort p y := by
  cases p <;> rfl

@[simp] theorem State.setStream_setStream (s : State) (i : StreamIdx) (x y : Stream) :
    (s.setStream i x).setStream i y = s.setStream i y := by
  simp [State.setStream]

@[simp] theorem State.setLane_setLane (s : State) (l : LaneIdx) (x y : Lane) :
    (s.setLane l x).setLane l y = s.setLane l y := by
  simp [State.setLane]

@[simp] theorem State.setGen_setGen (s : State) (g : GenIdx) (x y : Gen) :
    (s.setGen g x).setGen g y = s.setGen g y := by
  cases g <;> rfl

/-- Writing back what stands changes nothing. -/
@[simp] theorem State.setPort_port (s : State) (p : Port) : s.setPort p (s.port p) = s := by
  cases p <;> rfl

@[simp] theorem State.setStream_stream (s : State) (i : StreamIdx) : s.setStream i (s.stream i) = s := by
  refine State.ext_parts rfl (State.streams_ext fun j => ?_) rfl rfl rfl rfl rfl rfl rfl rfl
  rw [State.stream_setStream]
  split
  · next h => rw [h]
  · rfl

@[simp] theorem State.stream_mapStreams (s : State) (f : Stream → Stream) (j : StreamIdx) :
    (s.mapStreams f).stream j = f (s.stream j) := by
  simp [State.stream, State.mapStreams]

@[simp] theorem State.lane_mapLanes (s : State) (f : Lane → Lane) (m : LaneIdx) :
    (s.mapLanes f).lane m = f (s.lane m) := by
  simp [State.lane, State.mapLanes]

@[simp] theorem State.port_countRx_self (s : State) (p : Port) (f : RxCounters → RxCounters) :
    (s.countRx p f).port p = { s.port p with rx := f (s.port p).rx } := by
  simp [State.countRx]

@[simp] theorem State.port_countRx_ne (s : State) {p q : Port} (f : RxCounters → RxCounters) (h : q ≠ p) :
    (s.countRx p f).port q = s.port q := by
  simp [State.countRx, h]

/-! ## Every field under every writer -/

@[simp] theorem State.setStream_phase (s : State) (i : StreamIdx) (x : Stream) : (s.setStream i x).phase = s.phase := rfl
@[simp] theorem State.setStream_waitList (s : State) (i : StreamIdx) (x : Stream) : (s.setStream i x).waitList = s.waitList := rfl
@[simp] theorem State.setStream_lanes (s : State) (i : StreamIdx) (x : Stream) : (s.setStream i x).lanes = s.lanes := rfl
@[simp] theorem State.setStream_gens (s : State) (i : StreamIdx) (x : Stream) : (s.setStream i x).gens = s.gens := rfl
@[simp] theorem State.setStream_ports (s : State) (i : StreamIdx) (x : Stream) : (s.setStream i x).ports = s.ports := rfl
@[simp] theorem State.setStream_discovery (s : State) (i : StreamIdx) (x : Stream) : (s.setStream i x).discovery = s.discovery := rfl
@[simp] theorem State.setStream_control (s : State) (i : StreamIdx) (x : Stream) : (s.setStream i x).control = s.control := rfl
@[simp] theorem State.setStream_events (s : State) (i : StreamIdx) (x : Stream) : (s.setStream i x).events = s.events := rfl
@[simp] theorem State.setStream_pending (s : State) (i : StreamIdx) (x : Stream) : (s.setStream i x).pending = s.pending := rfl
@[simp] theorem State.lane_setStream (s : State) (i : StreamIdx) (x : Stream) (m : LaneIdx) :
    (s.setStream i x).lane m = s.lane m := rfl
@[simp] theorem State.gen_setStream (s : State) (i : StreamIdx) (x : Stream) (h : GenIdx) :
    (s.setStream i x).gen h = s.gen h := rfl
@[simp] theorem State.port_setStream (s : State) (i : StreamIdx) (x : Stream) (q : Port) :
    (s.setStream i x).port q = s.port q := rfl

@[simp] theorem State.setLane_phase (s : State) (l : LaneIdx) (x : Lane) : (s.setLane l x).phase = s.phase := rfl
@[simp] theorem State.setLane_streams (s : State) (l : LaneIdx) (x : Lane) : (s.setLane l x).streams = s.streams := rfl
@[simp] theorem State.setLane_waitList (s : State) (l : LaneIdx) (x : Lane) : (s.setLane l x).waitList = s.waitList := rfl
@[simp] theorem State.setLane_gens (s : State) (l : LaneIdx) (x : Lane) : (s.setLane l x).gens = s.gens := rfl
@[simp] theorem State.setLane_ports (s : State) (l : LaneIdx) (x : Lane) : (s.setLane l x).ports = s.ports := rfl
@[simp] theorem State.setLane_discovery (s : State) (l : LaneIdx) (x : Lane) : (s.setLane l x).discovery = s.discovery := rfl
@[simp] theorem State.setLane_control (s : State) (l : LaneIdx) (x : Lane) : (s.setLane l x).control = s.control := rfl
@[simp] theorem State.setLane_events (s : State) (l : LaneIdx) (x : Lane) : (s.setLane l x).events = s.events := rfl
@[simp] theorem State.setLane_pending (s : State) (l : LaneIdx) (x : Lane) : (s.setLane l x).pending = s.pending := rfl
@[simp] theorem State.stream_setLane (s : State) (l : LaneIdx) (x : Lane) (j : StreamIdx) :
    (s.setLane l x).stream j = s.stream j := rfl
@[simp] theorem State.gen_setLane (s : State) (l : LaneIdx) (x : Lane) (h : GenIdx) :
    (s.setLane l x).gen h = s.gen h := rfl
@[simp] theorem State.port_setLane (s : State) (l : LaneIdx) (x : Lane) (q : Port) :
    (s.setLane l x).port q = s.port q := rfl

@[simp] theorem State.setGen_phase (s : State) (g : GenIdx) (x : Gen) : (s.setGen g x).phase = s.phase := rfl
@[simp] theorem State.setGen_streams (s : State) (g : GenIdx) (x : Gen) : (s.setGen g x).streams = s.streams := rfl
@[simp] theorem State.setGen_waitList (s : State) (g : GenIdx) (x : Gen) : (s.setGen g x).waitList = s.waitList := rfl
@[simp] theorem State.setGen_lanes (s : State) (g : GenIdx) (x : Gen) : (s.setGen g x).lanes = s.lanes := rfl
@[simp] theorem State.setGen_ports (s : State) (g : GenIdx) (x : Gen) : (s.setGen g x).ports = s.ports := rfl
@[simp] theorem State.setGen_discovery (s : State) (g : GenIdx) (x : Gen) : (s.setGen g x).discovery = s.discovery := rfl
@[simp] theorem State.setGen_control (s : State) (g : GenIdx) (x : Gen) : (s.setGen g x).control = s.control := rfl
@[simp] theorem State.setGen_events (s : State) (g : GenIdx) (x : Gen) : (s.setGen g x).events = s.events := rfl
@[simp] theorem State.setGen_pending (s : State) (g : GenIdx) (x : Gen) : (s.setGen g x).pending = s.pending := rfl
@[simp] theorem State.stream_setGen (s : State) (g : GenIdx) (x : Gen) (j : StreamIdx) :
    (s.setGen g x).stream j = s.stream j := rfl
@[simp] theorem State.lane_setGen (s : State) (g : GenIdx) (x : Gen) (m : LaneIdx) :
    (s.setGen g x).lane m = s.lane m := rfl
@[simp] theorem State.port_setGen (s : State) (g : GenIdx) (x : Gen) (q : Port) :
    (s.setGen g x).port q = s.port q := rfl

@[simp] theorem State.setPort_phase (s : State) (p : Port) (x : PortState) : (s.setPort p x).phase = s.phase := rfl
@[simp] theorem State.setPort_streams (s : State) (p : Port) (x : PortState) : (s.setPort p x).streams = s.streams := rfl
@[simp] theorem State.setPort_waitList (s : State) (p : Port) (x : PortState) : (s.setPort p x).waitList = s.waitList := rfl
@[simp] theorem State.setPort_lanes (s : State) (p : Port) (x : PortState) : (s.setPort p x).lanes = s.lanes := rfl
@[simp] theorem State.setPort_gens (s : State) (p : Port) (x : PortState) : (s.setPort p x).gens = s.gens := rfl
@[simp] theorem State.setPort_discovery (s : State) (p : Port) (x : PortState) : (s.setPort p x).discovery = s.discovery := rfl
@[simp] theorem State.setPort_control (s : State) (p : Port) (x : PortState) : (s.setPort p x).control = s.control := rfl
@[simp] theorem State.setPort_events (s : State) (p : Port) (x : PortState) : (s.setPort p x).events = s.events := rfl
@[simp] theorem State.setPort_pending (s : State) (p : Port) (x : PortState) : (s.setPort p x).pending = s.pending := rfl
@[simp] theorem State.stream_setPort (s : State) (p : Port) (x : PortState) (j : StreamIdx) :
    (s.setPort p x).stream j = s.stream j := rfl
@[simp] theorem State.lane_setPort (s : State) (p : Port) (x : PortState) (m : LaneIdx) :
    (s.setPort p x).lane m = s.lane m := rfl
@[simp] theorem State.gen_setPort (s : State) (p : Port) (x : PortState) (h : GenIdx) :
    (s.setPort p x).gen h = s.gen h := rfl

@[simp] theorem State.setWaitList_phase (s : State) (w : List StreamIdx) : (s.setWaitList w).phase = s.phase := rfl
@[simp] theorem State.setWaitList_streams (s : State) (w : List StreamIdx) : (s.setWaitList w).streams = s.streams := rfl
@[simp] theorem State.setWaitList_waitList (s : State) (w : List StreamIdx) : (s.setWaitList w).waitList = w := rfl
@[simp] theorem State.setWaitList_lanes (s : State) (w : List StreamIdx) : (s.setWaitList w).lanes = s.lanes := rfl
@[simp] theorem State.setWaitList_gens (s : State) (w : List StreamIdx) : (s.setWaitList w).gens = s.gens := rfl
@[simp] theorem State.setWaitList_ports (s : State) (w : List StreamIdx) : (s.setWaitList w).ports = s.ports := rfl
@[simp] theorem State.setWaitList_discovery (s : State) (w : List StreamIdx) : (s.setWaitList w).discovery = s.discovery := rfl
@[simp] theorem State.setWaitList_control (s : State) (w : List StreamIdx) : (s.setWaitList w).control = s.control := rfl
@[simp] theorem State.setWaitList_events (s : State) (w : List StreamIdx) : (s.setWaitList w).events = s.events := rfl
@[simp] theorem State.setWaitList_pending (s : State) (w : List StreamIdx) : (s.setWaitList w).pending = s.pending := rfl
@[simp] theorem State.stream_setWaitList (s : State) (w : List StreamIdx) (j : StreamIdx) :
    (s.setWaitList w).stream j = s.stream j := rfl
@[simp] theorem State.lane_setWaitList (s : State) (w : List StreamIdx) (m : LaneIdx) :
    (s.setWaitList w).lane m = s.lane m := rfl
@[simp] theorem State.gen_setWaitList (s : State) (w : List StreamIdx) (h : GenIdx) :
    (s.setWaitList w).gen h = s.gen h := rfl
@[simp] theorem State.port_setWaitList (s : State) (w : List StreamIdx) (q : Port) :
    (s.setWaitList w).port q = s.port q := rfl

@[simp] theorem State.setDiscovery_phase (s : State) (d : Discovery) : (s.setDiscovery d).phase = s.phase := rfl
@[simp] theorem State.setDiscovery_streams (s : State) (d : Discovery) : (s.setDiscovery d).streams = s.streams := rfl
@[simp] theorem State.setDiscovery_waitList (s : State) (d : Discovery) : (s.setDiscovery d).waitList = s.waitList := rfl
@[simp] theorem State.setDiscovery_lanes (s : State) (d : Discovery) : (s.setDiscovery d).lanes = s.lanes := rfl
@[simp] theorem State.setDiscovery_gens (s : State) (d : Discovery) : (s.setDiscovery d).gens = s.gens := rfl
@[simp] theorem State.setDiscovery_ports (s : State) (d : Discovery) : (s.setDiscovery d).ports = s.ports := rfl
@[simp] theorem State.setDiscovery_discovery (s : State) (d : Discovery) : (s.setDiscovery d).discovery = d := rfl
@[simp] theorem State.setDiscovery_control (s : State) (d : Discovery) : (s.setDiscovery d).control = s.control := rfl
@[simp] theorem State.setDiscovery_events (s : State) (d : Discovery) : (s.setDiscovery d).events = s.events := rfl
@[simp] theorem State.setDiscovery_pending (s : State) (d : Discovery) : (s.setDiscovery d).pending = s.pending := rfl
@[simp] theorem State.stream_setDiscovery (s : State) (d : Discovery) (j : StreamIdx) :
    (s.setDiscovery d).stream j = s.stream j := rfl
@[simp] theorem State.lane_setDiscovery (s : State) (d : Discovery) (m : LaneIdx) :
    (s.setDiscovery d).lane m = s.lane m := rfl
@[simp] theorem State.gen_setDiscovery (s : State) (d : Discovery) (h : GenIdx) :
    (s.setDiscovery d).gen h = s.gen h := rfl
@[simp] theorem State.port_setDiscovery (s : State) (d : Discovery) (q : Port) :
    (s.setDiscovery d).port q = s.port q := rfl

@[simp] theorem State.setControl_phase (s : State) (c : Control) : (s.setControl c).phase = s.phase := rfl
@[simp] theorem State.setControl_streams (s : State) (c : Control) : (s.setControl c).streams = s.streams := rfl
@[simp] theorem State.setControl_waitList (s : State) (c : Control) : (s.setControl c).waitList = s.waitList := rfl
@[simp] theorem State.setControl_lanes (s : State) (c : Control) : (s.setControl c).lanes = s.lanes := rfl
@[simp] theorem State.setControl_gens (s : State) (c : Control) : (s.setControl c).gens = s.gens := rfl
@[simp] theorem State.setControl_ports (s : State) (c : Control) : (s.setControl c).ports = s.ports := rfl
@[simp] theorem State.setControl_discovery (s : State) (c : Control) : (s.setControl c).discovery = s.discovery := rfl
@[simp] theorem State.setControl_control (s : State) (c : Control) : (s.setControl c).control = c := rfl
@[simp] theorem State.setControl_events (s : State) (c : Control) : (s.setControl c).events = s.events := rfl
@[simp] theorem State.setControl_pending (s : State) (c : Control) : (s.setControl c).pending = s.pending := rfl
@[simp] theorem State.stream_setControl (s : State) (c : Control) (j : StreamIdx) :
    (s.setControl c).stream j = s.stream j := rfl
@[simp] theorem State.lane_setControl (s : State) (c : Control) (m : LaneIdx) :
    (s.setControl c).lane m = s.lane m := rfl
@[simp] theorem State.gen_setControl (s : State) (c : Control) (h : GenIdx) :
    (s.setControl c).gen h = s.gen h := rfl
@[simp] theorem State.port_setControl (s : State) (c : Control) (q : Port) :
    (s.setControl c).port q = s.port q := rfl

@[simp] theorem State.setEvents_phase (s : State) (e : EventQueue) : (s.setEvents e).phase = s.phase := rfl
@[simp] theorem State.setEvents_streams (s : State) (e : EventQueue) : (s.setEvents e).streams = s.streams := rfl
@[simp] theorem State.setEvents_waitList (s : State) (e : EventQueue) : (s.setEvents e).waitList = s.waitList := rfl
@[simp] theorem State.setEvents_lanes (s : State) (e : EventQueue) : (s.setEvents e).lanes = s.lanes := rfl
@[simp] theorem State.setEvents_gens (s : State) (e : EventQueue) : (s.setEvents e).gens = s.gens := rfl
@[simp] theorem State.setEvents_ports (s : State) (e : EventQueue) : (s.setEvents e).ports = s.ports := rfl
@[simp] theorem State.setEvents_discovery (s : State) (e : EventQueue) : (s.setEvents e).discovery = s.discovery := rfl
@[simp] theorem State.setEvents_control (s : State) (e : EventQueue) : (s.setEvents e).control = s.control := rfl
@[simp] theorem State.setEvents_events (s : State) (e : EventQueue) : (s.setEvents e).events = e := rfl
@[simp] theorem State.setEvents_pending (s : State) (e : EventQueue) : (s.setEvents e).pending = s.pending := rfl
@[simp] theorem State.stream_setEvents (s : State) (e : EventQueue) (j : StreamIdx) :
    (s.setEvents e).stream j = s.stream j := rfl
@[simp] theorem State.lane_setEvents (s : State) (e : EventQueue) (m : LaneIdx) :
    (s.setEvents e).lane m = s.lane m := rfl
@[simp] theorem State.gen_setEvents (s : State) (e : EventQueue) (h : GenIdx) :
    (s.setEvents e).gen h = s.gen h := rfl
@[simp] theorem State.port_setEvents (s : State) (e : EventQueue) (q : Port) :
    (s.setEvents e).port q = s.port q := rfl

@[simp] theorem State.setPending_phase (s : State) (cs : List Instr) : (s.setPending cs).phase = s.phase := rfl
@[simp] theorem State.setPending_streams (s : State) (cs : List Instr) : (s.setPending cs).streams = s.streams := rfl
@[simp] theorem State.setPending_waitList (s : State) (cs : List Instr) : (s.setPending cs).waitList = s.waitList := rfl
@[simp] theorem State.setPending_lanes (s : State) (cs : List Instr) : (s.setPending cs).lanes = s.lanes := rfl
@[simp] theorem State.setPending_gens (s : State) (cs : List Instr) : (s.setPending cs).gens = s.gens := rfl
@[simp] theorem State.setPending_ports (s : State) (cs : List Instr) : (s.setPending cs).ports = s.ports := rfl
@[simp] theorem State.setPending_discovery (s : State) (cs : List Instr) : (s.setPending cs).discovery = s.discovery := rfl
@[simp] theorem State.setPending_control (s : State) (cs : List Instr) : (s.setPending cs).control = s.control := rfl
@[simp] theorem State.setPending_events (s : State) (cs : List Instr) : (s.setPending cs).events = s.events := rfl
@[simp] theorem State.setPending_pending (s : State) (cs : List Instr) : (s.setPending cs).pending = cs := rfl
@[simp] theorem State.stream_setPending (s : State) (cs : List Instr) (j : StreamIdx) :
    (s.setPending cs).stream j = s.stream j := rfl
@[simp] theorem State.lane_setPending (s : State) (cs : List Instr) (m : LaneIdx) :
    (s.setPending cs).lane m = s.lane m := rfl
@[simp] theorem State.gen_setPending (s : State) (cs : List Instr) (h : GenIdx) :
    (s.setPending cs).gen h = s.gen h := rfl
@[simp] theorem State.port_setPending (s : State) (cs : List Instr) (q : Port) :
    (s.setPending cs).port q = s.port q := rfl

@[simp] theorem State.mapStreams_phase (s : State) (f : Stream → Stream) : (s.mapStreams f).phase = s.phase := rfl
@[simp] theorem State.mapStreams_waitList (s : State) (f : Stream → Stream) : (s.mapStreams f).waitList = s.waitList := rfl
@[simp] theorem State.mapStreams_lanes (s : State) (f : Stream → Stream) : (s.mapStreams f).lanes = s.lanes := rfl
@[simp] theorem State.mapStreams_gens (s : State) (f : Stream → Stream) : (s.mapStreams f).gens = s.gens := rfl
@[simp] theorem State.mapStreams_ports (s : State) (f : Stream → Stream) : (s.mapStreams f).ports = s.ports := rfl
@[simp] theorem State.mapStreams_discovery (s : State) (f : Stream → Stream) : (s.mapStreams f).discovery = s.discovery := rfl
@[simp] theorem State.mapStreams_control (s : State) (f : Stream → Stream) : (s.mapStreams f).control = s.control := rfl
@[simp] theorem State.mapStreams_events (s : State) (f : Stream → Stream) : (s.mapStreams f).events = s.events := rfl
@[simp] theorem State.mapStreams_pending (s : State) (f : Stream → Stream) : (s.mapStreams f).pending = s.pending := rfl
@[simp] theorem State.lane_mapStreams (s : State) (f : Stream → Stream) (m : LaneIdx) :
    (s.mapStreams f).lane m = s.lane m := rfl
@[simp] theorem State.gen_mapStreams (s : State) (f : Stream → Stream) (h : GenIdx) :
    (s.mapStreams f).gen h = s.gen h := rfl
@[simp] theorem State.port_mapStreams (s : State) (f : Stream → Stream) (q : Port) :
    (s.mapStreams f).port q = s.port q := rfl

@[simp] theorem State.mapLanes_phase (s : State) (f : Lane → Lane) : (s.mapLanes f).phase = s.phase := rfl
@[simp] theorem State.mapLanes_streams (s : State) (f : Lane → Lane) : (s.mapLanes f).streams = s.streams := rfl
@[simp] theorem State.mapLanes_waitList (s : State) (f : Lane → Lane) : (s.mapLanes f).waitList = s.waitList := rfl
@[simp] theorem State.mapLanes_gens (s : State) (f : Lane → Lane) : (s.mapLanes f).gens = s.gens := rfl
@[simp] theorem State.mapLanes_ports (s : State) (f : Lane → Lane) : (s.mapLanes f).ports = s.ports := rfl
@[simp] theorem State.mapLanes_discovery (s : State) (f : Lane → Lane) : (s.mapLanes f).discovery = s.discovery := rfl
@[simp] theorem State.mapLanes_control (s : State) (f : Lane → Lane) : (s.mapLanes f).control = s.control := rfl
@[simp] theorem State.mapLanes_events (s : State) (f : Lane → Lane) : (s.mapLanes f).events = s.events := rfl
@[simp] theorem State.mapLanes_pending (s : State) (f : Lane → Lane) : (s.mapLanes f).pending = s.pending := rfl
@[simp] theorem State.stream_mapLanes (s : State) (f : Lane → Lane) (j : StreamIdx) :
    (s.mapLanes f).stream j = s.stream j := rfl
@[simp] theorem State.gen_mapLanes (s : State) (f : Lane → Lane) (h : GenIdx) :
    (s.mapLanes f).gen h = s.gen h := rfl
@[simp] theorem State.port_mapLanes (s : State) (f : Lane → Lane) (q : Port) :
    (s.mapLanes f).port q = s.port q := rfl

@[simp] theorem State.post_phase (s : State) (k : EventKind) (o : Source) (d : Word) : (s.post k o d).phase = s.phase := rfl
@[simp] theorem State.post_streams (s : State) (k : EventKind) (o : Source) (d : Word) : (s.post k o d).streams = s.streams := rfl
@[simp] theorem State.post_waitList (s : State) (k : EventKind) (o : Source) (d : Word) : (s.post k o d).waitList = s.waitList := rfl
@[simp] theorem State.post_lanes (s : State) (k : EventKind) (o : Source) (d : Word) : (s.post k o d).lanes = s.lanes := rfl
@[simp] theorem State.post_gens (s : State) (k : EventKind) (o : Source) (d : Word) : (s.post k o d).gens = s.gens := rfl
@[simp] theorem State.post_ports (s : State) (k : EventKind) (o : Source) (d : Word) : (s.post k o d).ports = s.ports := rfl
@[simp] theorem State.post_discovery (s : State) (k : EventKind) (o : Source) (d : Word) : (s.post k o d).discovery = s.discovery := rfl
@[simp] theorem State.post_control (s : State) (k : EventKind) (o : Source) (d : Word) : (s.post k o d).control = s.control := rfl
@[simp] theorem State.post_events (s : State) (k : EventKind) (o : Source) (d : Word) : (s.post k o d).events = s.events.post k o d := rfl
@[simp] theorem State.post_pending (s : State) (k : EventKind) (o : Source) (d : Word) : (s.post k o d).pending = s.pending := rfl
@[simp] theorem State.stream_post (s : State) (k : EventKind) (o : Source) (d : Word) (j : StreamIdx) :
    (s.post k o d).stream j = s.stream j := rfl
@[simp] theorem State.lane_post (s : State) (k : EventKind) (o : Source) (d : Word) (m : LaneIdx) :
    (s.post k o d).lane m = s.lane m := rfl
@[simp] theorem State.gen_post (s : State) (k : EventKind) (o : Source) (d : Word) (h : GenIdx) :
    (s.post k o d).gen h = s.gen h := rfl
@[simp] theorem State.port_post (s : State) (k : EventKind) (o : Source) (d : Word) (q : Port) :
    (s.post k o d).port q = s.port q := rfl

@[simp] theorem State.countRx_phase (s : State) (p : Port) (f : RxCounters → RxCounters) : (s.countRx p f).phase = s.phase := rfl
@[simp] theorem State.countRx_streams (s : State) (p : Port) (f : RxCounters → RxCounters) : (s.countRx p f).streams = s.streams := rfl
@[simp] theorem State.countRx_waitList (s : State) (p : Port) (f : RxCounters → RxCounters) : (s.countRx p f).waitList = s.waitList := rfl
@[simp] theorem State.countRx_lanes (s : State) (p : Port) (f : RxCounters → RxCounters) : (s.countRx p f).lanes = s.lanes := rfl
@[simp] theorem State.countRx_gens (s : State) (p : Port) (f : RxCounters → RxCounters) : (s.countRx p f).gens = s.gens := rfl
@[simp] theorem State.countRx_discovery (s : State) (p : Port) (f : RxCounters → RxCounters) : (s.countRx p f).discovery = s.discovery := rfl
@[simp] theorem State.countRx_control (s : State) (p : Port) (f : RxCounters → RxCounters) : (s.countRx p f).control = s.control := rfl
@[simp] theorem State.countRx_events (s : State) (p : Port) (f : RxCounters → RxCounters) : (s.countRx p f).events = s.events := rfl
@[simp] theorem State.countRx_pending (s : State) (p : Port) (f : RxCounters → RxCounters) : (s.countRx p f).pending = s.pending := rfl
@[simp] theorem State.stream_countRx (s : State) (p : Port) (f : RxCounters → RxCounters) (j : StreamIdx) :
    (s.countRx p f).stream j = s.stream j := rfl
@[simp] theorem State.lane_countRx (s : State) (p : Port) (f : RxCounters → RxCounters) (m : LaneIdx) :
    (s.countRx p f).lane m = s.lane m := rfl
@[simp] theorem State.gen_countRx (s : State) (p : Port) (f : RxCounters → RxCounters) (h : GenIdx) :
    (s.countRx p f).gen h = s.gen h := rfl

end Sys2Proof.Machine
end

