-- ==== Sys2Proof/Laws/Transmit.lean ====
section
/-! SUPPORT. What running the arbiters can do: nothing at a settled port, and nowhere more than a port's transmitter and
credits and the in-transmission marks of ready frames. -/

namespace Sys2Proof.Machine

/-! ## A settled port -/

theorem State.eligible_of_settledAt {s : State} {p : Port} (h : s.settledAt p) (hu : (s.port p).linkUp = true)
    (hi : (s.port p).tx = .idle) : s.eligible p = [] := by
  have h2 := (h hu hi).2
  unfold State.eligible State.streamsWhere
  rw [List.filter_eq_nil_iff]
  intro i _
  unfold Stream.eligibleAt
  cases hd : (s.stream i).direction with
  | playout => simp
  | capture =>
    simp only [beq_self_eq_true, Bool.true_and, List.any_eq_true, not_exists, not_and]
    intro f hf
    have := h2 i hd f hf
    unfold ReadyFrame.owedOn
    cases h1 : f.pendingOn.get p <;> simp_all

theorem State.choose_of_eligible_nil {s : State} {p : Port} (h : s.eligible p = []) : s.choose p = none := by
  unfold State.choose
  simp only [h]
  cases (s.port p).mode <;>
    simp [State.strictChoice, State.weightedChoice, State.creditChoice, State.firstAt, List.findSome?]

/-- The arbiter of a settled port leaves the state as it stands. -/
theorem runArbiter_of_settledAt {s : State} {p : Port} (h : s.settledAt p) : runArbiter p s = s := by
  unfold runArbiter
  cases hu : (s.port p).linkUp with
  | false => simp [hu]
  | true =>
    by_cases hi : (s.port p).tx = .idle
    · have hr := (h hu hi).1
      simp [hi, hr, State.choose_of_eligible_nil (State.eligible_of_settledAt h hu hi)]
    · simp [hi]

/-- The arbiters of a settled part leave it as it stands. -/
theorem runArbiters_of_settled {s : State} (h : s.settled) : runArbiters s = s := by
  unfold runArbiters
  rw [runArbiter_of_settledAt h.1, runArbiter_of_settledAt h.2]

/-! ## What a run of the arbiters leaves alone -/

@[simp] theorem runArbiter_phase (p : Port) (s : State) : (runArbiter p s).phase = s.phase := by
  unfold runArbiter grantSample; dsimp only; repeat' split <;> try rfl
@[simp] theorem runArbiter_waitList (p : Port) (s : State) : (runArbiter p s).waitList = s.waitList := by
  unfold runArbiter grantSample; dsimp only; repeat' split <;> try rfl
@[simp] theorem runArbiter_lanes (p : Port) (s : State) : (runArbiter p s).lanes = s.lanes := by
  unfold runArbiter grantSample; dsimp only; repeat' split <;> try rfl
@[simp] theorem runArbiter_gens (p : Port) (s : State) : (runArbiter p s).gens = s.gens := by
  unfold runArbiter grantSample; dsimp only; repeat' split <;> try rfl
@[simp] theorem runArbiter_discovery (p : Port) (s : State) : (runArbiter p s).discovery = s.discovery := by
  unfold runArbiter grantSample; dsimp only; repeat' split <;> try rfl
@[simp] theorem runArbiter_control (p : Port) (s : State) : (runArbiter p s).control = s.control := by
  unfold runArbiter grantSample; dsimp only; repeat' split <;> try rfl
@[simp] theorem runArbiter_events (p : Port) (s : State) : (runArbiter p s).events = s.events := by
  unfold runArbiter grantSample; dsimp only; repeat' split <;> try rfl
@[simp] theorem runArbiter_pending (p : Port) (s : State) : (runArbiter p s).pending = s.pending := by
  unfold runArbiter grantSample; dsimp only; repeat' split <;> try rfl
@[simp] theorem runArbiter_lane (p : Port) (s : State) (l : LaneIdx) : (runArbiter p s).lane l = s.lane l := by
  unfold runArbiter grantSample; dsimp only; repeat' split <;> try rfl
@[simp] theorem runArbiter_gen (p : Port) (s : State) (g : GenIdx) : (runArbiter p s).gen g = s.gen g := by
  unfold runArbiter grantSample; dsimp only; repeat' split <;> try rfl

/-- The arbiter of a port changes a stream at most in the in-transmission marks of its ready frames. -/
theorem runArbiter_stream (p : Port) (s : State) (i : StreamIdx) :
    ∃ r, (runArbiter p s).stream i = { s.stream i with ready := r }
      ∧ (r = (s.stream i).ready ∨ r = markGranted p (s.stream i).ready) := by
  unfold runArbiter
  dsimp only
  split
  · split
    · split
      · rename_i j c _
        by_cases h : i = j
        · subst h
          exact ⟨markGranted p (s.stream i).ready, by simp [grantSample], Or.inr rfl⟩
        · exact ⟨(s.stream i).ready, by simp [grantSample, h], Or.inl rfl⟩
      · exact ⟨(s.stream i).ready, rfl, Or.inl rfl⟩
    · exact ⟨(s.stream i).ready, rfl, Or.inl rfl⟩
  · exact ⟨(s.stream i).ready, rfl, Or.inl rfl⟩

/-- The arbiter of a port changes no port but in its transmitter and credits. -/
theorem runArbiter_port (p : Port) (s : State) (q : Port) :
    ∃ t c, (runArbiter p s).port q = { s.port q with tx := t, credits := c } := by
  unfold runArbiter
  dsimp only
  by_cases h : q = p
  · subst h
    split
    · split
      · split
        · rename_i j c _
          exact ⟨.sample j, c, by simp [grantSample]⟩
        · exact ⟨(s.port q).tx, (s.port q).credits, rfl⟩
      · exact ⟨.reply, (s.port q).credits, by simp⟩
    · exact ⟨(s.port q).tx, (s.port q).credits, rfl⟩
  · refine ⟨(s.port q).tx, (s.port q).credits, ?_⟩
    repeat' split
    all_goals simp [grantSample, h]

/-- The other port keeps everything. -/
theorem runArbiter_port_ne {p q : Port} (s : State) (h : q ≠ p) : (runArbiter p s).port q = s.port q := by
  unfold runArbiter
  dsimp only
  repeat' split
  all_goals simp [grantSample, h]

/-- Marking a grant keeps the frames but for the mark. -/
theorem markGranted_length (p : Port) (fs : List ReadyFrame) : (markGranted p fs).length = fs.length := by
  induction fs with
  | nil => rfl
  | cons f fs ih => unfold markGranted; split <;> simp [ih]

@[simp] theorem runArbiters_phase (s : State) : (runArbiters s).phase = s.phase := by simp [runArbiters]
@[simp] theorem runArbiters_waitList (s : State) : (runArbiters s).waitList = s.waitList := by simp [runArbiters]
@[simp] theorem runArbiters_lanes (s : State) : (runArbiters s).lanes = s.lanes := by simp [runArbiters]
@[simp] theorem runArbiters_gens (s : State) : (runArbiters s).gens = s.gens := by simp [runArbiters]
@[simp] theorem runArbiters_discovery (s : State) : (runArbiters s).discovery = s.discovery := by simp [runArbiters]
@[simp] theorem runArbiters_control (s : State) : (runArbiters s).control = s.control := by simp [runArbiters]
@[simp] theorem runArbiters_events (s : State) : (runArbiters s).events = s.events := by simp [runArbiters]
@[simp] theorem runArbiters_pending (s : State) : (runArbiters s).pending = s.pending := by simp [runArbiters]
@[simp] theorem runArbiters_lane (s : State) (l : LaneIdx) : (runArbiters s).lane l = s.lane l := by simp [runArbiters]
@[simp] theorem runArbiters_gen (s : State) (g : GenIdx) : (runArbiters s).gen g = s.gen g := by simp [runArbiters]

/-- The arbiters change a stream at most in the marks of its ready frames. -/
theorem runArbiters_stream (s : State) (i : StreamIdx) :
    ∃ r, (runArbiters s).stream i = { s.stream i with ready := r } ∧ r.length = (s.stream i).ready.length := by
  unfold runArbiters
  obtain ⟨r1, h1, hr1⟩ := runArbiter_stream .ta s i
  obtain ⟨r2, h2, hr2⟩ := runArbiter_stream .tb (runArbiter .ta s) i
  refine ⟨r2, by rw [h2, h1], ?_⟩
  rw [h1] at hr2
  have l1 : r1.length = (s.stream i).ready.length := by rcases hr1 with h | h <;> simp [h, markGranted_length]
  rcases hr2 with h | h <;> simp [h, markGranted_length, l1]

/-- The arbiters change no port but in its transmitter and credits. -/
theorem runArbiters_port (s : State) (q : Port) :
    ∃ t c, (runArbiters s).port q = { s.port q with tx := t, credits := c } := by
  unfold runArbiters
  obtain ⟨t1, c1, h1⟩ := runArbiter_port .ta s q
  obtain ⟨t2, c2, h2⟩ := runArbiter_port .tb (runArbiter .ta s) q
  exact ⟨t2, c2, by rw [h2, h1]⟩

end Sys2Proof.Machine
end

