-- ==== Sys2Proof/Laws/Requests.lean ====
section
/-! SUPPORT. What executing the request at the head of the queue comes to: the carrying out of the request on the state
with the head taken off, and the handing on of its reply. -/

namespace Sys2Proof.Machine

/-! ## Option bytes (log entry 28) -/

theorem optionChosen_eq_true {a : List Byte} {k : Nat} : optionChosen a k = true ↔ byteAt a k = 1 := beq_iff_eq

theorem optionChosen_eq_false {a : List Byte} {k : Nat} : optionChosen a k = false ↔ byteAt a k ≠ 1 := beq_eq_false_iff_ne

/-! ## The head of the queue -/

@[simp] theorem State.taken_phase (s : State) (r : List Request) : (s.taken r).phase = s.phase := rfl
@[simp] theorem State.taken_streams (s : State) (r : List Request) : (s.taken r).streams = s.streams := rfl
@[simp] theorem State.taken_waitList (s : State) (r : List Request) : (s.taken r).waitList = s.waitList := rfl
@[simp] theorem State.taken_lanes (s : State) (r : List Request) : (s.taken r).lanes = s.lanes := rfl
@[simp] theorem State.taken_gens (s : State) (r : List Request) : (s.taken r).gens = s.gens := rfl
@[simp] theorem State.taken_ports (s : State) (r : List Request) : (s.taken r).ports = s.ports := rfl
@[simp] theorem State.taken_discovery (s : State) (r : List Request) : (s.taken r).discovery = s.discovery := rfl
@[simp] theorem State.taken_events (s : State) (r : List Request) : (s.taken r).events = s.events := rfl
@[simp] theorem State.taken_pending (s : State) (r : List Request) : (s.taken r).pending = s.pending := rfl
@[simp] theorem State.taken_nodeId (s : State) (r : List Request) : (s.taken r).control.nodeId = s.control.nodeId := rfl
@[simp] theorem State.taken_requests (s : State) (r : List Request) : (s.taken r).control.requests = r := rfl
@[simp] theorem State.stream_taken (s : State) (r : List Request) (i : StreamIdx) :
    (s.taken r).stream i = s.stream i := rfl
@[simp] theorem State.lane_taken (s : State) (r : List Request) (l : LaneIdx) : (s.taken r).lane l = s.lane l := rfl
@[simp] theorem State.gen_taken (s : State) (r : List Request) (g : GenIdx) : (s.taken r).gen g = s.gen g := rfl
@[simp] theorem State.port_taken (s : State) (r : List Request) (p : Port) : (s.taken r).port p = s.port p := rfl

/-- When the agent executes the head and its code is the command's, the request is carried out and its reply handed
on. -/
theorem runRequest_of_executes {s : State} {rq : Request} {rest : List Request} (h : s.executes rq rest)
    {code : Option RequestCode} (hc : RequestCode.ofByte rq.code = code)
    (handler : List Byte → State → State × Answer) :
    runRequest code handler s =
      deliver rq (carryOut code handler rq.args (s.taken rest)).2 (carryOut code handler rq.args (s.taken rest)).1 := by
  obtain ⟨hq, hh, hr⟩ := h
  have hcan : s.canExecute rq = true := by
    unfold State.canExecute
    rcases hr with h | h
    · simp [hh, Config.replyQueue, h]
    · simp [hh, h]
  have hd : dequeue s = s.taken rest := by simp [dequeue, State.taken, hq]
  unfold runRequest
  simp [hq, hc, hcan, hd]

/-- When the head is not executed nothing changes. -/
theorem runRequest_of_not {s : State} {code : Option RequestCode} (handler : List Byte → State → State × Answer)
    (h : ∀ rq, s.control.requests.head? = some rq → ¬ (RequestCode.ofByte rq.code = code ∧ s.canExecute rq = true)) :
    runRequest code handler s = s := by
  unfold runRequest
  cases hq : s.control.requests.head? with
  | none => rfl
  | some rq => simp only; rw [if_neg (h rq hq)]

/-! ## Handing a reply on -/

theorem State.settledAt_setPort_ne {u : State} {p q : Port} (x : PortState) (hqp : q ≠ p) (h : u.settledAt q) :
    (u.setPort p x).settledAt q := by
  intro hu hi
  rw [State.port_setPort_ne _ _ hqp] at hu hi ⊢
  exact h hu hi

theorem State.settledAt_of_busy {u : State} {p : Port} (h : (u.port p).tx ≠ .idle) : u.settledAt p :=
  fun _ hi => absurd hi h

/-- Appending a reply at an UP port of a settled part. -/
theorem runArbiters_append {u : State} (hs : u.settled) (p : Port) (hu : (u.port p).linkUp = true) (r : Reply) :
    runArbiters (u.setPort p { u.port p with replies := (u.port p).replies ++ [r] }) =
      u.setPort p
        { u.port p with
          replies := (u.port p).replies ++ [r],
          tx := if (u.port p).tx = .idle then .reply else (u.port p).tx } := by
  obtain ⟨ha, hb⟩ := hs
  by_cases hi : (u.port p).tx = .idle
  · cases p
    · unfold runArbiters
      have h1 : runArbiter .ta (u.setPort .ta { u.port .ta with replies := (u.port .ta).replies ++ [r] }) =
          u.setPort .ta { u.port .ta with replies := (u.port .ta).replies ++ [r], tx := .reply } := by
        unfold runArbiter
        simp [hi, hu]
      rw [h1, if_pos hi]
      exact runArbiter_of_settledAt (State.settledAt_setPort_ne _ (by decide) hb)
    · unfold runArbiters
      rw [runArbiter_of_settledAt (State.settledAt_setPort_ne _ (by decide) ha), if_pos hi]
      unfold runArbiter
      simp [hi, hu]
  · rw [if_neg hi]
    have : u.setPort p { u.port p with replies := (u.port p).replies ++ [r] } =
        u.setPort p { u.port p with replies := (u.port p).replies ++ [r], tx := (u.port p).tx } := rfl
    rw [this]
    apply runArbiters_of_settled
    constructor
    · cases p
      · exact State.settledAt_of_busy (by simpa using hi)
      · exact State.settledAt_setPort_ne _ (by decide) ha
    · cases p
      · exact State.settledAt_setPort_ne _ (by decide) hb
      · exact State.settledAt_of_busy (by simpa using hi)

/-- The handing on of a reply in a settled part, when it is not the reply of a DEVICE_RESET to a DOWN port. -/
theorem deliver_of_settled {u : State} (hs : u.settled) (rq : Request) (a : Answer)
    (h : (u.port rq.port).linkUp = true ∨ (rq.code :: a.status.code :: a.results) ≠ [0x14, 0x00]) :
    deliver rq a u = u.replied rq (rq.code :: a.status.code :: a.results) := by
  unfold deliver State.replied
  by_cases hu : (u.port rq.port).linkUp = true
  · simp only [if_pos hu]
    exact runArbiters_append hs rq.port hu _
  · have hr : Reply.isDeviceReset (replyTo u rq a) = false := by
      rcases h with h | h
      · exact absurd h hu
      · simp only [Reply.isDeviceReset, replyTo]
        simpa using h
    simp [hu, hr, loseReply]

/-- The same for a request that is carried out: the form in which executions are stated. -/
theorem runRequest_answers {s : State} {rq : Request} {rest : List Request} (h : s.executes rq rest)
    {code : Option RequestCode} (hc : RequestCode.ofByte rq.code = code)
    (handler : List Byte → State → State × Answer) {u : State} {a : Answer}
    (hcarry : carryOut code handler rq.args (s.taken rest) = (u, a)) (hs : u.settled)
    (hn : (u.port rq.port).linkUp = true ∨ (rq.code :: a.status.code :: a.results) ≠ [0x14, 0x00]) :
    runRequest code handler s = u.replied rq (rq.code :: a.status.code :: a.results) := by
  rw [runRequest_of_executes h hc, hcarry]
  exact deliver_of_settled hs rq a hn

/-- Whether a part is settled depends on its ports and the ready lists of its streams alone. -/
theorem State.settled_congr {s t : State} (hp : t.ports = s.ports)
    (hs : ∀ i, (t.stream i).direction = .capture →
      (t.stream i).ready = [] ∨ ((s.stream i).direction = .capture ∧ (t.stream i).ready = (s.stream i).ready))
    (h : s.settled) : t.settled := by
  have hport : ∀ p, t.port p = s.port p := fun p => by simp [State.port, hp]
  have key : ∀ p, s.settledAt p → t.settledAt p := by
    intro p hs' hu hi
    rw [hport] at hu hi ⊢
    obtain ⟨h1, h2⟩ := hs' hu hi
    refine ⟨h1, fun i hd f hf => ?_⟩
    rcases hs i hd with h0 | ⟨hd', hr⟩
    · simp [h0] at hf
    · exact h2 i hd' f (hr ▸ hf)
  exact ⟨key _ h.1, key _ h.2⟩

theorem State.settled_taken {s : State} (h : s.settled) (rest : List Request) : (s.taken rest).settled := h

end Sys2Proof.Machine
end

