-- ==== Sys2Proof/Laws/CellMemory.lean ====
section
/-! SUPPORT. What the admission test and the completion of a drain can do: which parts they leave, what becomes of a
stream, and that a settled part stays settled. -/

namespace Sys2Proof.Machine

/-! ## The admission test -/

@[simp] theorem admitFrom_phase (w : List StreamIdx) (s : State) : (admitFrom w s).phase = s.phase := by
  fun_induction admitFrom w s <;> simp_all
@[simp] theorem admitFrom_lanes (w : List StreamIdx) (s : State) : (admitFrom w s).lanes = s.lanes := by
  fun_induction admitFrom w s <;> simp_all
@[simp] theorem admitFrom_gens (w : List StreamIdx) (s : State) : (admitFrom w s).gens = s.gens := by
  fun_induction admitFrom w s <;> simp_all
@[simp] theorem admitFrom_ports (w : List StreamIdx) (s : State) : (admitFrom w s).ports = s.ports := by
  fun_induction admitFrom w s <;> simp_all
@[simp] theorem admitFrom_discovery (w : List StreamIdx) (s : State) : (admitFrom w s).discovery = s.discovery := by
  fun_induction admitFrom w s <;> simp_all
@[simp] theorem admitFrom_control (w : List StreamIdx) (s : State) : (admitFrom w s).control = s.control := by
  fun_induction admitFrom w s <;> simp_all
@[simp] theorem admitFrom_pending (w : List StreamIdx) (s : State) : (admitFrom w s).pending = s.pending := by
  fun_induction admitFrom w s <;> simp_all

/-- What the test leaves of the list stands at its end (R30). -/
theorem admitFrom_waitList_suffix (w : List StreamIdx) (s : State) : (admitFrom w s).waitList <:+ w := by
  fun_induction admitFrom w s with
  | case1 s => simp
  | case2 i rest s st h ih => exact ih.trans (List.suffix_cons i rest)
  | case3 i rest s st h => simp

/-- A stream that is not on the list is not touched. -/
theorem admitFrom_stream_of_notMem (w : List StreamIdx) (s : State) {j : StreamIdx} (h : j ∉ w) :
    (admitFrom w s).stream j = s.stream j := by
  fun_induction admitFrom w s with
  | case1 s => simp
  | case2 i rest s st hr ih =>
    rw [ih (fun m => h (List.mem_cons_of_mem _ m))]
    have hne : j ≠ i := fun e => h (e ▸ List.mem_cons_self)
    simp [hne]
  | case3 i rest s st hr => simp

theorem Stream.enterArmed_enterArmed (st : Stream) : st.enterArmed.enterArmed = st.enterArmed := rfl

/-- Every stream is as it was or has entered ARMED (R30). -/
theorem admitFrom_stream (w : List StreamIdx) (s : State) (j : StreamIdx) :
    (admitFrom w s).stream j = s.stream j ∨ (admitFrom w s).stream j = (s.stream j).enterArmed := by
  fun_induction admitFrom w s with
  | case1 s => simp
  | case2 i rest s st hr ih =>
    by_cases e : j = i
    · subst e
      rcases ih with h | h
      · right; rw [h]; simp [st]
      · right; rw [h]; simp [st, Stream.enterArmed_enterArmed]
    · simpa [e] using ih
  | case3 i rest s st hr => simp

@[simp] theorem admissionTest_phase (s : State) : (admissionTest s).phase = s.phase := admitFrom_phase _ s
@[simp] theorem admissionTest_lanes (s : State) : (admissionTest s).lanes = s.lanes := admitFrom_lanes _ s
@[simp] theorem admissionTest_gens (s : State) : (admissionTest s).gens = s.gens := admitFrom_gens _ s
@[simp] theorem admissionTest_ports (s : State) : (admissionTest s).ports = s.ports := admitFrom_ports _ s
@[simp] theorem admissionTest_discovery (s : State) : (admissionTest s).discovery = s.discovery :=
  admitFrom_discovery _ s
@[simp] theorem admissionTest_control (s : State) : (admissionTest s).control = s.control := admitFrom_control _ s
@[simp] theorem admissionTest_pending (s : State) : (admissionTest s).pending = s.pending := admitFrom_pending _ s

/-- Every stream is as it was or has entered ARMED. -/
theorem admissionTest_stream (s : State) (j : StreamIdx) :
    (admissionTest s).stream j = s.stream j ∨ (admissionTest s).stream j = (s.stream j).enterArmed :=
  admitFrom_stream _ s j

/-- An admission leaves a settled part settled: a stream that enters ARMED has no ready frame. -/
theorem settled_admissionTest {s : State} (h : s.settled) : (admissionTest s).settled := by
  refine State.settled_congr (admissionTest_ports s) (fun j hd => ?_) h
  rcases admissionTest_stream s j with e | e
  · right; rw [e] at hd ⊢; exact ⟨hd, rfl⟩
  · left; rw [e]; rfl

/-! ## The end of a drain -/

@[simp] theorem finishDrain_phase (i : StreamIdx) (s : State) : (finishDrain i s).phase = s.phase := by
  simp [finishDrain, releaseToIdle]
@[simp] theorem finishDrain_lanes (i : StreamIdx) (s : State) : (finishDrain i s).lanes = s.lanes := by
  simp [finishDrain, releaseToIdle]
@[simp] theorem finishDrain_gens (i : StreamIdx) (s : State) : (finishDrain i s).gens = s.gens := by
  simp [finishDrain, releaseToIdle]
@[simp] theorem finishDrain_ports (i : StreamIdx) (s : State) : (finishDrain i s).ports = s.ports := by
  simp [finishDrain, releaseToIdle]
@[simp] theorem finishDrain_discovery (i : StreamIdx) (s : State) : (finishDrain i s).discovery = s.discovery := by
  simp [finishDrain, releaseToIdle]
@[simp] theorem finishDrain_control (i : StreamIdx) (s : State) : (finishDrain i s).control = s.control := by
  simp [finishDrain, releaseToIdle]
@[simp] theorem finishDrain_pending (i : StreamIdx) (s : State) : (finishDrain i s).pending = s.pending := by
  simp [finishDrain, releaseToIdle]

/-- The completion of a drain in the form in which it is stated. -/
theorem finishDrain_eq_drained (i : StreamIdx) (s : State) : finishDrain i s = s.drained i := rfl

/-! ## The close of a frame -/

theorem Stream.dispose_direction (st : Stream) (f : ReadyFrame) : (st.dispose f).1.direction = st.direction := by
  unfold Stream.dispose Stream.countOverrun
  repeat' split
  all_goals rfl

/-- A close changes one stream and may post; every other part stands. -/
theorem closeFrame_frame (e : Bool) (i : StreamIdx) (s : State) :
    (closeFrame e i s).phase = s.phase ∧ (closeFrame e i s).waitList = s.waitList
      ∧ (closeFrame e i s).lanes = s.lanes ∧ (closeFrame e i s).gens = s.gens
      ∧ (closeFrame e i s).ports = s.ports ∧ (closeFrame e i s).discovery = s.discovery
      ∧ (closeFrame e i s).control = s.control ∧ (closeFrame e i s).pending = s.pending
      ∧ ∀ j, j ≠ i → (closeFrame e i s).stream j = s.stream j := by
  unfold closeFrame
  dsimp only
  split
  · refine ⟨by simp, by simp, by simp, by simp, by simp, by simp, by simp, by simp, fun j h => by simp [h]⟩
  · refine ⟨by simp, by simp, by simp, by simp, by simp, by simp, by simp, by simp, fun j h => by simp [h]⟩

end Sys2Proof.Machine
end

