-- ==== Sys2Proof/Laws/Events.lean ====
section
/-! SUPPORT. What a posting and a fetch can do to the Event Queue. -/

namespace Sys2Proof.Machine

@[simp] theorem EventQueue.judge_records (q : EventQueue) : q.judge.records = q.records := rfl
@[simp] theorem EventQueue.judge_lost (q : EventQueue) : q.judge.lost = q.lost := rfl
@[simp] theorem EventQueue.judge_levels (q : EventQueue) : q.judge.levels = q.levels := rfl
@[simp] theorem EventQueue.judge_threshold (q : EventQueue) : q.judge.threshold = q.threshold := rfl
@[simp] theorem EventQueue.judge_uptime (q : EventQueue) : q.judge.uptime = q.uptime := rfl
@[simp] theorem EventQueue.judge_asserted (q : EventQueue) : q.judge.asserted = q.due := rfl

/-- A posting leaves the settings and the uptime. -/
theorem EventQueue.post_settings (q : EventQueue) (k : EventKind) (o : Source) (d : Word) :
    (q.post k o d).levels = q.levels ∧ (q.post k o d).threshold = q.threshold ∧ (q.post k o d).uptime = q.uptime := by
  unfold EventQueue.post EventQueue.evict
  repeat' split
  all_goals simp

@[simp] theorem EventQueue.post_levels (q : EventQueue) (k : EventKind) (o : Source) (d : Word) :
    (q.post k o d).levels = q.levels := (q.post_settings k o d).1
@[simp] theorem EventQueue.post_threshold (q : EventQueue) (k : EventKind) (o : Source) (d : Word) :
    (q.post k o d).threshold = q.threshold := (q.post_settings k o d).2.1
@[simp] theorem EventQueue.post_uptime (q : EventQueue) (k : EventKind) (o : Source) (d : Word) :
    (q.post k o d).uptime = q.uptime := (q.post_settings k o d).2.2

/-- Removing the youngest record of a level leaves the others in their order. -/
theorem dropYoungest_sublist (level : Level) (rs : List EventRecord) : (dropYoungest level rs).Sublist rs := by
  unfold dropYoungest
  have := List.Sublist.reverse (List.eraseP_sublist (p := fun r : EventRecord => r.level == level) (l := rs.reverse))
  simpa using this

/-- A level named by `lowestBelow` has a record. -/
theorem EventQueue.exists_of_lowestBelow {q : EventQueue} {level low : Level} (h : q.lowestBelow level = some low) :
    low < level ∧ ∃ r ∈ q.records, r.level = low := by
  have := List.find?_some h
  simpa using this

theorem length_dropYoungest {level : Level} {rs : List EventRecord} (h : ∃ r ∈ rs, r.level = level) :
    (dropYoungest level rs).length + 1 = rs.length := by
  obtain ⟨r, hr, hl⟩ := h
  unfold dropYoungest
  rw [List.length_reverse, List.length_eraseP_of_mem (a := r) (List.mem_reverse.mpr hr) (by simp [hl])]
  have : 0 < rs.length := List.length_pos_of_mem hr
  simp
  omega

/-- A posting keeps the queue within its 32 records (R191). -/
theorem EventQueue.length_post_le (q : EventQueue) (k : EventKind) (o : Source) (d : Word)
    (h : q.records.length ≤ 32) : (q.post k o d).records.length ≤ 32 := by
  unfold EventQueue.post
  split
  · exact h
  · split
    · simpa using h
    · split
      · next hl => simp [Config.eventRecords] at hl ⊢; omega
      · unfold EventQueue.evict
        split
        · next low hlow =>
          have := length_dropYoungest (EventQueue.exists_of_lowestBelow hlow).2
          simp
          omega
        · exact h

/-- Taking up to n records of a level: the taken and the left are the records, each in its order. -/
theorem takeLevel_perm (level : Level) (n : Nat) (rs : List EventRecord) :
    ((takeLevel level n rs).1 ++ (takeLevel level n rs).2).Perm rs := by
  fun_induction takeLevel level n rs with
  | case1 => simp
  | case2 => simp
  | case3 n r rs h rest ih => simpa using ih
  | case4 n r rs h rest ih => exact List.perm_middle.trans (ih.cons r)

theorem takeLevel_left_sublist (level : Level) (n : Nat) (rs : List EventRecord) :
    (takeLevel level n rs).2.Sublist rs := by
  fun_induction takeLevel level n rs with
  | case1 => simp
  | case2 => simp
  | case3 n r rs h rest ih => exact ih.cons r
  | case4 n r rs h rest ih => exact ih.cons_cons r

/-- The records taken of a level are its oldest. -/
theorem takeLevel_taken (level : Level) (n : Nat) (rs : List EventRecord) :
    (takeLevel level n rs).1 = (rs.filter fun r => r.level == level).take n := by
  fun_induction takeLevel level n rs with
  | case1 => simp
  | case2 => simp
  | case3 n r rs h rest ih => simp [h, rest, ih]
  | case4 n r rs h rest ih => simp [h, rest, ih]

end Sys2Proof.Machine
end

