-- ==== Sys2Proof/Laws/FrameEvents.lean ====
section
/-! SUPPORT. What the work of a frame event and of a sync edge can do, in the names in which it is stated: the parts of the
state that it leaves, the inputs a lane samples, and the postings of the streams. -/

namespace Sys2Proof.Machine

/-! ## The aging interval -/

@[simp] theorem Discovery.restart_records (d : Discovery) (u : Word) : (d.restart u).records = d.records := rfl
@[simp] theorem Discovery.restart_overflow (d : Discovery) (u : Word) : (d.restart u).overflow = d.overflow := rfl
@[simp] theorem Discovery.restart_aging (d : Discovery) (u : Word) : (d.restart u).aging = d.aging := rfl
@[simp] theorem Discovery.restart_restarted (d : Discovery) (u : Word) : (d.restart u).restarted = some u := rfl

/-- An expiry is the running interval's own exactly where statements say so. -/
theorem Discovery.justRestarted_eq_false (d : Discovery) (uptime : Word) :
    d.justRestarted uptime = false ↔ ∀ u : Word, d.restarted = some u → 2 ≤ (uptime - u).toNat := by
  unfold Discovery.justRestarted
  cases d.restarted with
  | none => exact ⟨fun _ _ h => (nomatch h), fun _ => rfl⟩
  | some v =>
    constructor
    · intro h u e
      obtain rfl := Option.some.inj e
      exact Nat.le_of_not_lt (of_decide_eq_false h)
    · intro h
      exact decide_eq_false (Nat.not_lt.mpr (h v rfl))

/-! ## Slots on Ln_DIN -/

/-- A further bit is the least significant one. -/
theorem ofBits_append (bits : List Bool) (b : Bool) : ofBits (bits ++ [b]) = ofBits bits * 2 + b.toNat := by
  unfold ofBits
  rw [List.foldl_append, List.foldl_cons, List.foldl_nil]

theorem LaneConfig.slotLevels_length (c : LaneConfig) (line : PinLevels) (slot : Nat) :
    (c.slotLevels line slot).length = c.slotWidth.bits := by
  rw [LaneConfig.slotLevels, List.length_map, List.length_range]

/-- The k-th bit of a slot comes from the bit period of that data bit. -/
theorem LaneConfig.slotLevels_getElem? (c : LaneConfig) (line : PinLevels) (slot k : Nat) (h : k < c.slotWidth.bits) :
    (c.slotLevels line slot)[k]? = some (line.getLsbD (c.dataPeriod (slot * c.slotWidth.bits + k))) := by
  rw [LaneConfig.slotLevels, List.getElem?_map, List.getElem?_range h, Option.map_some]

/-- A lane that takes nothing, and a slot that it does not have, give 0. -/
theorem LaneConfig.inWord_eq_zero (c : LaneConfig) (line : PinLevels) (k : Fin 32)
    (h : c.takes = false ∨ c.slots ≤ k.val) : c.inWord line k = 0 := by
  unfold LaneConfig.inWord
  rw [if_neg]
  intro e
  rw [Bool.and_eq_true, decide_eq_true_eq] at e
  rcases h with h | h
  · rw [h] at e
    exact absurd e.1 Bool.false_ne_true
  · exact absurd e.2 (Nat.not_lt.mpr h)

/-! ## Edges and levels -/

/-- A lane samples its inputs on the edge that is not its drive edge. -/
theorem LaneConfig.sampled_eq_inputOf {α : Type} (c : LaneConfig) (x : AtEdges α) : c.sampled x = c.inputOf x := by
  unfold LaneConfig.sampled LaneConfig.sampleEdge LaneConfig.driveEdge LaneConfig.inputOf
  cases c.clockEdge <;> rfl

theorem LaneConfig.activeLevel_eq (c : LaneConfig) : c.activeLevel = decide (c.polarity = .high) := by
  unfold LaneConfig.activeLevel
  cases c.polarity <;> rfl

/-- A leading edge in terms of the levels sampled. -/
theorem LaneConfig.leadingEdge_eq_true (c : LaneConfig) (before now : AtEdges Bool) :
    c.leadingEdge before now = true ↔ c.sampled before ≠ c.activeLevel ∧ c.sampled now = c.activeLevel := by
  simp [LaneConfig.leadingEdge]

/-- A lane gives a frame event exactly where statements say that it does. -/
theorem Lane.givesEvent_eq_true (x : Lane) : x.givesEvent = true ↔ x.atEvent := by
  unfold Lane.givesEvent Lane.atEvent
  cases x.state <;> cases x.config.role <;> cases x.eventDue <;> decide

theorem giveFrameEvent_of_not_atEvent {s : State} {l : LaneIdx} (h : ¬ (s.lane l).atEvent) (f : FrameData) :
    giveFrameEvent l f s = s := by
  unfold giveFrameEvent
  rw [if_neg (fun e => h ((Lane.givesEvent_eq_true _).mp e))]

theorem giveFrameEvent_of_atEvent {s : State} {l : LaneIdx} (h : (s.lane l).atEvent) (f : FrameData) :
    giveFrameEvent l f s = frameEvent l ((s.lane l).config.inputOf f.din) f.order f.late s := by
  unfold giveFrameEvent
  rw [if_pos ((Lane.givesEvent_eq_true _).mpr h), LaneConfig.sampled_eq_inputOf]

/-- An active playout stream of a lane, as statements say it. -/
theorem Stream.activePlayout_and_lane (st : Stream) (l : LaneIdx) :
    (st.activePlayout && st.lane == l) = true ↔ st.playsOn l := by
  unfold Stream.activePlayout Stream.playsOn
  cases st.direction <;> cases st.state <;> simp

/-! ## Postings -/

@[simp] theorem State.postAll_nil (s : State) (o : Source) : s.postAll o [] = s := rfl

@[simp] theorem State.postAll_cons (s : State) (o : Source) (e : EventKind × Word) (es : List (EventKind × Word)) :
    s.postAll o (e :: es) = (s.post e.1 o e.2).postAll o es := rfl

@[simp] theorem EventQueue.postEach_nil (q : EventQueue) : q.postEach [] = q := rfl

theorem EventQueue.postEach_append (q : EventQueue) (a b : List (EventKind × Source × Word)) :
    q.postEach (a ++ b) = (q.postEach a).postEach b := List.foldl_append

/-- Postings of one source reach the Event Queue in order and nothing else changes. -/
theorem State.postAll_eq (s : State) (o : Source) (es : List (EventKind × Word)) :
    s.postAll o es = s.setEvents (s.events.postEach (es.map fun e => (e.1, o, e.2))) := by
  induction es generalizing s with
  | nil => rfl
  | cons e es ih => rw [State.postAll_cons, ih]; rfl

/-! ## What a frame event leaves -/

/-- The parts of the state that the streams and servos of a frame event never change. -/
abbrev State.EventKeeps (s t : State) : Prop :=
  t.phase = s.phase ∧ t.waitList = s.waitList ∧ t.lanes = s.lanes ∧ t.discovery = s.discovery
    ∧ t.control = s.control ∧ t.pending = s.pending

theorem State.EventKeeps.trans {s t u : State} (h : s.EventKeeps t) (k : t.EventKeeps u) : s.EventKeeps u :=
  ⟨k.1.trans h.1, k.2.1.trans h.2.1, k.2.2.1.trans h.2.2.1, k.2.2.2.1.trans h.2.2.2.1,
    k.2.2.2.2.1.trans h.2.2.2.2.1, k.2.2.2.2.2.trans h.2.2.2.2.2⟩

/-- What holds of each task of a list, transitively, holds of the list. -/
theorem State.forStreams_eventKeeps {f : StreamIdx → State → State} (h : ∀ (i : StreamIdx) (s : State), s.EventKeeps (f i s))
    (is : List StreamIdx) (s : State) : s.EventKeeps (s.forStreams is f) := by
  induction is generalizing s with
  | nil => exact ⟨rfl, rfl, rfl, rfl, rfl, rfl⟩
  | cons i is ih => exact (h i s).trans (ih (f i s))

theorem playTask_eventKeeps (i : StreamIdx) (s : State) : s.EventKeeps (playTask i s) := by
  unfold playTask
  dsimp only
  rw [State.postAll_eq]
  exact ⟨by simp, by simp, by simp, by simp, by simp, by simp⟩

theorem closeFrame_eventKeeps (e : Bool) (i : StreamIdx) (s : State) : s.EventKeeps (closeFrame e i s) := by
  obtain ⟨h1, h2, h3, _, _, h6, h7, h8, _⟩ := closeFrame_frame e i s
  exact ⟨h1, h2, h3, h6, h7, h8⟩

theorem takeSamples_eventKeeps (c : LaneConfig) (line : PinLevels) (i : StreamIdx) (s : State) :
    s.EventKeeps (takeSamples c line i s) := by
  unfold takeSamples
  dsimp only
  split
  · exact State.EventKeeps.trans ⟨by simp, by simp, by simp, by simp, by simp, by simp⟩ (closeFrame_eventKeeps _ i _)
  · exact ⟨by simp, by simp, by simp, by simp, by simp, by simp⟩

theorem captureTask_eventKeeps (c : LaneConfig) (line : PinLevels) (i : StreamIdx) (s : State) :
    s.EventKeeps (captureTask c line i s) := by
  have arbiters (u : State) : u.EventKeeps (runArbiters u) :=
    ⟨by simp, by simp, by simp, by simp, by simp, by simp⟩
  unfold captureTask
  dsimp only
  split
  case h_1 =>
    have begun : s.EventKeeps (s.setStream i (s.stream i).beginRun) :=
      ⟨by simp, by simp, by simp, by simp, by simp, by simp⟩
    have posted (u : State) (d : Word) : u.EventKeeps (u.post .streamRunning (.stream i) d) :=
      ⟨by simp, by simp, by simp, by simp, by simp, by simp⟩
    exact ((begun.trans (takeSamples_eventKeeps c line i _)).trans (posted _ _)).trans (arbiters _)
  case h_2 => exact (takeSamples_eventKeeps c line i s).trans (arbiters _)
  all_goals exact ⟨rfl, rfl, rfl, rfl, rfl, rfl⟩

theorem frameTask_eventKeeps (c : LaneConfig) (line : PinLevels) (i : StreamIdx) (s : State) :
    s.EventKeeps (frameTask c line i s) := by
  unfold frameTask
  split
  · exact playTask_eventKeeps i s
  · exact captureTask_eventKeeps c line i s

theorem review_eventKeeps (g : GenIdx) (held target : Nat) (s : State) : s.EventKeeps (review g held target s) := by
  unfold review
  dsimp only
  split <;> exact ⟨by simp, by simp, by simp, by simp, by simp, by simp⟩

/-- The servo touches its generator and the Event Queue alone. -/
theorem servoTask_eventKeeps (l : LaneIdx) (before : State) (g : GenIdx) (s : State) :
    s.EventKeeps (servoTask l before g s) := by
  have same : s.EventKeeps s := ⟨rfl, rfl, rfl, rfl, rfl, rfl⟩
  have set (x : Gen) : s.EventKeeps (s.setGen g x) := ⟨by simp, by simp, by simp, by simp, by simp, by simp⟩
  unfold servoTask reviewIfDue
  dsimp only
  repeat' split
  all_goals first
    | exact same
    | exact set _
    | exact (set _).trans (review_eventKeeps g _ _ _)

/-- A frame event writes its own lane's record, and beside that only streams, generators, ports and the Event Queue. -/
theorem frameEvent_keeps (l : LaneIdx) (line : PinLevels) (order late : List StreamIdx) (s : State) :
    (s.setLane l
      { s.lane l with
        eventDue := false, outWords := s.loadWords l,
        counters := { (s.lane l).counters with frameEvents := bump (s.lane l).counters.frameEvents } }).EventKeeps
      (frameEvent l line order late s) := by
  unfold frameEvent
  dsimp only
  exact (State.forStreams_eventKeeps (frameTask_eventKeeps _ line) _ _).trans
    ((servoTask_eventKeeps l s .mcg0 _).trans ((servoTask_eventKeeps l s .mcg1 _).trans
      (State.forStreams_eventKeeps (frameTask_eventKeeps _ line) _ _)))

end Sys2Proof.Machine
end

