-- ==== Sys2Proof/WellFormed.lean ====
section
/-! DEFINITION. Which commands describe an occurrence that can come about. The meanings are total and do not read
these checks. -/

namespace Sys2Proof

/-- Two sync leading edges of one lane lie at least two sampling edges apart: the level is inactive between them
(R94). -/
def Instr.spacingOk : Instr → Bool
  | .syncLeadingEdge _ change => 2 ≤ change.spacing
  | _ => true

/-- The order of a frame event names each stream at most once, in each of its two lists. -/
def FrameData.orderOk (f : FrameData) : Bool := decide f.order.Nodup && decide f.late.Nodup

/-- The orders of a command are orders. -/
def Instr.orderOk : Instr → Bool
  | .frameEvent _ din order late => FrameData.orderOk ⟨din, order, late⟩
  | .syncLeadingEdge _ change => change.frame.orderOk
  | .syncTimeout timeout => timeout.frame.orderOk
  | _ => true

/-- A frame that arrives holds at least one byte: it arrives when its last byte is received (R40). -/
def Instr.frameOk : Instr → Bool
  | .trunkFrameArrival _ frame _ => frame.length != 0
  | _ => true

/-- A well-formed command. -/
def Instr.wellFormed (i : Instr) : Bool := i.spacingOk && i.orderOk && i.frameOk

end Sys2Proof
end

