-- ==== Sys2Proof/Tests/Slice0.lean ====
section
/-! SUPPORT. The model's own tests: the well-formedness checks refuse ill-formed commands, one small step for each
command, and concrete states and operands that meet the hypotheses of the statements. -/

namespace Sys2Proof.Tests
open Sys2Proof.Machine

set_option synthInstance.maxSize 2000
set_option synthInstance.maxHeartbeats 400000

/-- A decidable statement that evaluates to true holds. -/
theorem holds {p : Prop} [Decidable p] (h : decide p = true) : p := of_decide_eq_true h

/-! ## Well-formed commands -/

/-- The same level at both edges of Ln_BCK. -/
def steady (v : Bool) : AtEdges Bool := ⟨v, v⟩

/-- The levels of a pin that carries slots of a width in its frame, most significant bit first, after a data delay. -/
def levels (delay width : Nat) (values : List Nat) : PinLevels :=
  let bits := values.flatMap fun v => (List.range width).map fun k => v.testBit (width - 1 - k)
  BitVec.ofNat 1025 (bits.foldr (fun b n => 2 * n + b.toNat) 0 * 2 ^ delay)

/-- A value in each of 8 slots of 32 bits at the rising edges of Ln_BCK, with data delay 1, and high at the falling
edges. -/
def slots (v : Nat) (order late : List StreamIdx) : FrameData :=
  { din := ⟨levels 1 32 (List.replicate 8 v), BitVec.allOnes 1025⟩, order := order, late := late }

/-- Silence on every slot. -/
def silence : FrameData := { din := ⟨0, BitVec.allOnes 1025⟩, order := [], late := [] }

/-- A leading edge at a lane of polarity HIGH: Ln_SYNC goes from low to high. -/
def edge (l : LaneIdx) (spacing : Nat) : Instr :=
  .syncLeadingEdge l { before := steady false, now := steady true, spacing := spacing, frame := silence }

/-- The command FRAME_EVENT with given data. -/
def ends (l : LaneIdx) (f : FrameData) : Instr := .frameEvent l f.din f.order f.late

theorem test_spacing_of_one_is_illFormed :
    (edge 0 1).spacingOk = false ∧ (edge 0 1).wellFormed = false ∧ (edge 0 2).wellFormed = true := by decide +kernel

theorem test_repeated_order_is_illFormed :
    (slots 0 [3, 3] []).orderOk = false ∧ (ends 0 (slots 0 [3, 3] [])).orderOk = false
      ∧ (ends 0 (slots 0 [3, 3] [])).wellFormed = false
      ∧ (ends 0 (slots 0 [] [4, 4])).wellFormed = false
      ∧ (ends 0 (slots 0 [3, 4] [4])).wellFormed = true
      ∧ (Instr.syncTimeout ⟨0, (slots 0 [3, 3] [])⟩).wellFormed = false
      ∧ (Instr.syncTimeout ⟨0, (slots 0 [3] [])⟩).wellFormed = true
      ∧ (Instr.syncLeadingEdge 0 ⟨(steady false), (steady true), 256, (slots 0 [] [4, 4])⟩).wellFormed = false := holds rfl

theorem test_empty_frame_is_illFormed :
    (Instr.trunkFrameArrival .ta [] true).frameOk = false ∧ (Instr.trunkFrameArrival .ta [] true).wellFormed = false
      ∧ (Instr.trunkFrameArrival .ta [0x51] true).wellFormed = true := by decide

/-! ## States to test on -/

/-- A started part with both ports UP. -/
def started : State :=
  { State.reset with
    phase := .started, control := { State.reset.control with nodeId := 0x0102 },
    ports := ⟨{ PortState.blank true with linkUp := true }, { PortState.blank true with linkUp := true }⟩ }

/-- A playout definition: one 16-bit channel, F = 2, M = 2, D = 1, on lane 0. -/
def small : Stream :=
  { Stream.blank with
    state := .idle, tag := 7, channels := 1, frameSamples := 2, depthMax := 2, depthTarget := 1, hold := [0] }

/-- A playout definition with a reservation of 256 cells. -/
def large : Stream :=
  { Stream.blank with
    state := .idle, channels := 8, frameSamples := 64, depthMax := 32, depthTarget := 1,
    hold := List.replicate 8 0 }

/-- A capture definition: one 16-bit channel from slot 0 of lane 1, F = 2, level 2, egress both ports. -/
def taker : Stream :=
  { Stream.blank with
    state := .idle, direction := .capture, channels := 1, frameSamples := 2, lane := 1, level := 2,
    egress := ⟨true, true⟩, channelSlots := [some 0] }

/-- A frame with sequence q and the given samples. -/
def played (q : Half) (words : List Word) (isEnd : Bool) : PlayFrame :=
  { seq := q, isEnd := isEnd, samples := words.length, words := words }

/-- A ready frame with sequence q, pending and in transmission as given. -/
def readied (q : Half) (pendingOn inTx : PortSet) : ReadyFrame :=
  { seq := q, isFirst := false, isEnd := false, samples := 2, words := [0x10000, 0x20000], source := 0x0102,
    pendingOn := pendingOn, inTx := inTx }

/-- A part at work: stream 0 ARMED (256 cells), 1 RUNNING, 2 capture RUNNING and being sent on TA, 3 capture ARMED,
4 IDLE and named by out-slot 0, 5 WAITING (256 cells), 6 DRAINING, 7 STARVED (256 cells), 8 an IDLE capture, 9 ARMED
(256 cells); lane 0 a RUNNING master, lane 1 a RUNNING slave, lane 2 OFF, lane 3 a slave looking for a frame. -/
def atWork : State :=
  let s0 := (started.setStream 0 { large with state := .armed, tag := 100 }).setStream 1
    { small with
      state := .running, expected := some 10, window := [some (played 10 [0x10000, 0x20000] false), none] }
  let s1 := (s0.setStream 2
    { taker with
      state := .running, tag := 102, nextSeq := 5, construction := some ⟨1, [0x30000]⟩,
      ready := [readied 4 ⟨true, false⟩ ⟨true, false⟩] }).setStream 3
    { taker with state := .armed, tag := 103, lane := 2 }
  let s2 := (s1.setStream 4 { small with tag := 104 }).setStream 5 { large with state := .waiting, tag := 105 }
  let s3 := (s2.setStream 6
    { taker with
      state := .draining, tag := 106, nextSeq := 9, ready := [readied 8 ⟨false, true⟩ ⟨false, true⟩] }).setStream 7
    { large with state := .starved, tag := 107, expected := some 3, window := List.replicate 32 none }
  let s4 := (s3.setStream 8 { taker with tag := 108, channelSlots := [some 7] }).setStream 9
    { large with state := .armed, tag := 109 }
  let s5 := (s4.setWaitList [5]).setLane 0
    { Lane.blank with state := .running, outTable := Lane.blank.outTable.set 0 (some ⟨4, 0⟩), outWords := [0] }
  let s6 := (s5.setLane 1
    { Lane.blank with
      state := .running, config := { LaneConfig.default with role := .slave }, eventDue := true }).setLane 3
    { Lane.blank with state := .seeking, config := { LaneConfig.default with role := .slave }, candidate := true }
  let s7 := s6.setGen .mcg0
    { num := 1, den := 8, trim := 3, reference := some 1, step := 2, window := 1, reviewCount := 1023 }
  (s7.setPort .ta { s7.port .ta with tx := .sample 2 }).setPort .tb { s7.port .tb with tx := .sample 6 }

theorem atWork_settled : atWork.settled := holds rfl

/-- The part at work meets every invariant, so the invariant statements have instances that are not the reset state. -/
theorem witness_invariants :
    atWork.eventInv ∧ atWork.queueInv ∧ atWork.admissionInv ∧ atWork.tagInv ∧ atWork.slotInv ∧ atWork.genInv
      ∧ atWork.laneInv ∧ atWork.transmitInv ∧ atWork.streamInv ∧ atWork.playInv := by
  exact ⟨holds rfl, holds rfl, holds rfl, holds rfl, holds rfl, holds rfl, holds rfl, holds rfl, holds rfl, holds rfl⟩

/-! ## Helpers -/

/-- A request that came on TA from node 7 with transaction number 99. -/
def request (code : Byte) (args : List Byte) : Request :=
  { port := .ta, source := 7, txn := 99, code := code, args := args }

/-- The same with the request at the head of the queue. -/
def asked (s : State) (code : Byte) (args : List Byte) : State :=
  s.setControl { s.control with requests := [request code args] }

/-- The state after a command. -/
def after (c : Instr) (s : State) : State :=
  match exec c s with
  | .next t => t
  | .fault _ => s
  | .refused _ => s

/-- The payload of the last reply in the reply queue of TA after a command. -/
def answer (c : Instr) (s : State) : List Byte :=
  match ((after c s).port .ta).replies.getLast? with
  | some r => r.payload
  | none => []

/-- The kinds and details of the events held after a command. -/
def posted (c : Instr) (s : State) : List (EventKind × Source × Word) :=
  (after c s).events.records.map fun r => (r.kind, r.source, r.detail)

theorem atWork_replies : (atWork.port .ta).replies.length < 2 := holds rfl

/-- A request at the head of the queue of the part at work is one that executes now. -/
theorem asked_executes (code : Byte) (args : List Byte) :
    (asked atWork code args).executes (request code args) [] :=
  ⟨rfl, rfl, Or.inl atWork_replies⟩

theorem asked_settled (code : Byte) (args : List Byte) : (asked atWork code args).settled := atWork_settled

theorem asked_admissionInv (code : Byte) (args : List Byte) : (asked atWork code args).admissionInv :=
  witness_invariants.2.2.1

theorem asked_transmitInv (code : Byte) (args : List Byte) : (asked atWork code args).transmitInv :=
  witness_invariants.2.2.2.2.2.2.2.1

theorem asked_streamInv (code : Byte) (args : List Byte) : (asked atWork code args).streamInv :=
  witness_invariants.2.2.2.2.2.2.2.2.1

/-! ## One step for each command -/

theorem test_idle_queue : step atWork = .next atWork := rfl

theorem test_power_on : after .powerOn atWork = { State.reset with
    ports := ⟨PortState.blank true, PortState.blank true⟩ } := holds rfl

theorem test_reset_pin :
    (after .resetPinRecognised atWork).phase = .resetHeld
      ∧ (after .resetPinRecognised atWork).control.startCause = .pin
      ∧ (after .resetPinRelease (after .resetPinRecognised atWork)).phase = .loading := holds rfl

/-- An image for node 0x1234, selection TB, A = 8 s, TA WEIGHTED, with its sum byte (R188). -/
def image : List Byte :=
  [0x55, 0x47, 0x01, 0x12, 0x34, 0x01, 0x04, 0x01, 0, 0, 0, 0, 0, 0, 0, 0, 0, 0, 0, 0, 0, 0, 0, 0, 0, 0, 0, 0, 0, 0,
    0, 0x17]

theorem test_prom_loaded :
    judgeLoad image 5 = (.loaded, ⟨0x1234, .tb, .s8, .weighted, .strict⟩) := holds rfl

/-- The bits of 0x55 and 0x80 in the order in which PDIO carries them, and a whole load of them. -/
theorem test_prom_bits :
    byteOfPdio [false, true, false, true, false, true, false, true] = 0x55
      ∧ byteOfPdio [true, false, false, false, false, false, false, false] = 0x80
      ∧ bytesOfPdio 32 (image.flatMap pdioBits) = image
      ∧ promReadBits.map Bool.toNat = [0, 0, 0, 0, 0, 0, 1, 1] ++ List.replicate 16 0 := holds rfl

theorem test_load_completion :
    let bits : Vector Bool 256 := Vector.ofFn fun n => (image.flatMap pdioBits).getD n.val false
    (after (.promLoadCompletion bits 0 false) State.reset).control.nodeId = 0x1234
      ∧ (after (.promLoadCompletion bits 0 false) State.reset).discovery.aging = .s8 := by decide +kernel

theorem test_prom_absent_and_bad :
    judgeLoad (List.replicate 32 0xFF) 3 = (.absent, ⟨0x7F03, .either, .s2, .strict, .strict⟩)
      ∧ judgeLoad (List.replicate 32 0x00) 3 = (.bad, ⟨0x7F03, .either, .s2, .strict, .strict⟩)
      ∧ judgeLoad ((image.take 31) ++ [0x18]) 0 = (.bad, ⟨0x7F00, .either, .s2, .strict, .strict⟩) :=
  holds rfl

theorem test_load_completion_after_a_request :
    posted (.promLoadCompletion (Vector.replicate 256 true) 3 false) (atWork.afterReset .request .loading) =
      [(.deviceStarted, .none, 513), (.trunkUp, .port .ta, 0), (.trunkUp, .port .tb, 0)] := holds rfl

theorem test_link_rise :
    ((after (.linkRise .ta) State.reset).port .ta).linkUp = false
      ∧ ((after (.linkRise .ta) { State.reset with phase := .started }).port .ta).linkUp = true := holds rfl

theorem test_link_fall :
    ((after (.linkFall .tb) atWork).port .tb).linkUp = false
      ∧ ((after (.linkFall .tb) atWork).port .tb).txc.aborted = 1
      ∧ ((after (.linkFall .tb) atWork).stream 6).state = .idle
      ∧ posted (.linkFall .tb) atWork = [(.trunkDown, .port .tb, 0), (.drainDone, .stream 6, 9)] := holds rfl

/-- A SAMPLE frame from node 5. -/
def sampleFrame (flags : Nat) (tag : Word) (seq : Half) (channels code : Nat) (payload : List Byte) : List Byte :=
  buildFrame 0x51 flags 0xFFFF 5 tag seq channels code payload

/-- A REQUEST frame from node 7 to everyone. -/
def requestFrame (payload : List Byte) : List Byte := buildFrame 0x52 0 0xFFFF 7 99 0 0 0 payload

/-- The unpacking example of section 3.2. -/
theorem test_unpacking :
    unpackSamples .w24 4 [0x12, 0x34, 0x56, 0xFF, 0xEE, 0xDD, 0x00, 0x00, 0x01, 0x80, 0x00, 0x00] =
      [0x12345600, 0xFFEEDD00, 0x00000100, 0x80000000] := holds rfl

theorem test_frame_arrival :
    ((after (.trunkFrameArrival .ta (sampleFrame 0 7 11 1 0 [1, 2, 3, 4]) true) atWork).stream 1).window =
        [some (played 10 [0x10000, 0x20000] false), some (played 11 [0x01020000, 0x03040000] false)]
      ∧ (after (.trunkFrameArrival .tb (requestFrame [0x01]) true) atWork).control.requests =
          [{ port := .tb, source := 7, txn := 99, code := 0x01, args := [] }] := by decide +kernel

theorem test_slave_finds_its_frame :
    ((after (edge 3 256) atWork).lane 3).state = .running
      ∧ posted (edge 3 256) atWork = [(.laneRunning, .lane 3, 256)]
      ∧ posted (edge 1 248) atWork = [(.laneLost, .lane 1, 248)] := holds rfl

/-- A leading edge is judged by the lane's polarity at its sampling edges: at lane 3 (HIGH, sampled on rising edges) a fall,
a level that stays, and a rise at the falling edges only are none; with polarity LOW a fall is one, and with DRIVE-RISING
a rise at the falling edges is one. -/
theorem test_leading_edges :
    let high : LaneConfig := { LaneConfig.default with role := .slave }
    let other : LaneConfig := { high with polarity := .low, clockEdge := .driveRising }
    let late : AtEdges Bool := ⟨false, true⟩
    after (.syncLeadingEdge 3 ⟨(steady true), (steady false), 256, silence⟩) atWork = atWork
      ∧ after (.syncLeadingEdge 3 ⟨(steady true), (steady true), 256, silence⟩) atWork = atWork
      ∧ after (.syncLeadingEdge 3 ⟨(steady false), late, 256, silence⟩) atWork = atWork
      ∧ high.leadingEdge (steady false) ⟨true, false⟩ = true ∧ other.leadingEdge (steady true) (steady false) = true
      ∧ other.leadingEdge (steady true) ⟨true, false⟩ = true ∧ other.leadingEdge (steady true) late = false := holds rfl

/-- The part at work with lane 1 at a data delay, its frame event still due or taken. -/
def slaveAt (delayOne due : Bool) : State :=
  atWork.setLane 1
    { atWork.lane 1 with
      config := { LaneConfig.default with role := .slave, delayOne := delayOne }, eventDue := due }

/-- With data delay 0 the frame event of an edge in place falls at the edge; with data delay 1 the edge makes it due, and one
still due is given before the next edge. -/
theorem test_frame_event_of_an_edge_in_place :
    let none := after (edge 1 256) (slaveAt false false)
    let one := after (edge 1 256) (slaveAt true false)
    let again := after (edge 1 256) (slaveAt true true)
    (none.lane 1).counters.frameEvents = 1 ∧ (none.lane 1).eventDue = false ∧ (none.stream 2).nextSeq = 6
      ∧ (one.lane 1).counters.frameEvents = 0 ∧ (one.lane 1).eventDue = true ∧ (one.stream 2).nextSeq = 5
      ∧ (again.lane 1).counters.frameEvents = 1 ∧ (again.lane 1).eventDue = true ∧ (again.stream 2).nextSeq = 6 :=
  holds rfl

/-- A stop after an entry to RUNNING: with data delay 0 the first frame event has been given (R114). -/
theorem test_entry_to_running_gives_its_first_frame_event :
    let s := (slaveAt false false).setLane 1
      { (slaveAt false false).lane 1 with state := .lost, candidate := true }
    ((after (edge 1 256) s).lane 1).counters = ⟨1, 0, 1⟩
      ∧ ((after .laneStop (asked (after (edge 1 256) s) 0x0D [1])).lane 1).counters = ⟨1, 0, 1⟩ := holds rfl

theorem test_sync_timeout :
    let s := slaveAt true false
    posted (.syncTimeout ⟨1, silence⟩) s = [(.laneLost, .lane 1, 512)]
      ∧ ((after (.syncTimeout ⟨1, silence⟩) s).stream 2).state = .armed
      ∧ ((after (.syncTimeout ⟨1, silence⟩) s).stream 2).capture.partials = 1
      ∧ ((after (.syncTimeout ⟨1, silence⟩) atWork).lane 1).counters = ⟨1, 1, 0⟩
      ∧ ((after (.syncTimeout ⟨1, silence⟩) atWork).stream 2).nextSeq = 6 := holds rfl

/-- The frame of the small master lane worked in chapter 5: the data bits of its slots 0 and 2, and its sync. -/
theorem test_frame_of_a_small_master_lane :
    let x : Lane :=
      { Lane.blank with
        state := .running, outWords := [0x12345600, 0, 0xFFEEDD00, 0],
        config := { LaneConfig.default with direction := .out, slots := 4, slotWidth := .w16 } }
    let driven := fun slot : Nat =>
      (List.range 16).foldl (fun n k => n * 2 + (x.dataBit (slot * 16 + k)).toNat) 0
    (List.range 4).map driven = [0x1234, 0, 0xFFEE, 0] ∧ x.config.dataPeriod 0 = 1 ∧ x.config.dataPeriod 63 = 64
      ∧ x.config.syncLevel 0 = true ∧ x.config.syncLevel 1 = false := by decide +kernel

/-- The frame event of the master lane: stream 1 plays sample 0, the review falls due and steps nothing (H = 1, D = 1,
W = 1), stream 7 stays STARVED. -/
theorem test_frame_event_of_a_master_lane :
    ((after (ends 0 silence) atWork).stream 1).hold = [0x10000]
      ∧ (after (ends 0 silence) atWork).gen .mcg0 =
          { num := 1, den := 8, trim := 3, reference := some 1, step := 2, window := 1, reviewCount := 0 }
      ∧ ((after (ends 0 silence) atWork).lane 0).counters.frameEvents = 1 := holds rfl

/-- The frame event of the slave lane: capture stream 2 fills and closes its frame with sequence 5, from the bits on the
rising edges of Ln_BCK. -/
theorem test_frame_event_of_a_slave_lane :
    let t := after (ends 1 (slots 0xC0000001 [] [])) atWork
    (t.stream 2).ready.map (fun f => (f.seq, f.words)) = [(4, [0x10000, 0x20000]), (5, [0x30000, 0xC0000001])]
      ∧ (t.stream 2).nextSeq = 6 ∧ (t.lane 1).eventDue = false := by decide +kernel

/-- The in-slot words of the examples of R105, at either data delay, and the slots in their order. -/
theorem test_in_slot_words :
    let narrow : LaneConfig := { LaneConfig.default with slotWidth := .w16, delayOne := false }
    let middle : LaneConfig := { LaneConfig.default with slotWidth := .w24 }
    let line := levels 0 16 [1, 0xC000, 2]
    narrow.inWord line 1 = 0xC0000000 ∧ narrow.inWord line 0 = 0x00010000 ∧ narrow.inWord line 2 = 0x00020000
      ∧ narrow.inWord (BitVec.allOnes 1025) 8 = 0
      ∧ middle.inWord (levels 1 24 [0, 0, 0, 0, 0, 0, 0, 0x7FFFFF]) 7 = 0x7FFFFF00
      ∧ ({ middle with direction := .out } : LaneConfig).inWord (BitVec.allOnes 1025) 7 = 0 := by decide +kernel

theorem test_servo_review :
    let s := atWork.setGen .mcg0 { atWork.gen .mcg0 with reviewCount := 1024, window := 0, trim := 511 }
    let t := s.setStream 1 { s.stream 1 with window := [some (played 10 [1, 2] false), some (played 11 [1, 2] false)] }
    after (.servoReview .mcg0) atWork = atWork ∧ ((after (.servoReview .mcg0) s).gen .mcg0).trim = 511
      ∧ ((after (.servoReview .mcg0) t).gen .mcg0).trim = 512
      ∧ posted (.servoReview .mcg0) t = [(.servoLimit, .gen .mcg0, 512)] := holds rfl

theorem test_sample_completion :
    ((after (.sampleFrameTxCompletion .ta) atWork).stream 2).ready = []
      ∧ ((after (.sampleFrameTxCompletion .ta) atWork).stream 2).capture.sentTa = 1
      ∧ ((after (.sampleFrameTxCompletion .tb) atWork).stream 6).state = .idle
      ∧ posted (.sampleFrameTxCompletion .tb) atWork = [(.drainDone, .stream 6, 9)] := holds rfl

/-- Stations whose TA transmitter sends the first of two replies, and rests after an abort. -/
def replying : State :=
  atWork.setPort .ta
    { atWork.port .ta with
      tx := .reply,
      replies := [{ dest := 7, source := 0x0102, txn := 1, payload := [0x01, 0x00] },
        { dest := 7, source := 0x0102, txn := 2, payload := [0x14, 0x00] }] }

theorem test_reply_completion :
    ((after (.replyTxCompletion .ta) replying).port .ta).replies.length = 1
      ∧ ((after (.replyTxCompletion .ta) replying).port .ta).tx = .reply
      ∧ ((after (.replyTxCompletion .ta) replying).port .ta).txc.repliesSent = 1
      ∧ (after (.replyTxCompletion .ta) (after (.replyTxCompletion .ta) replying)).phase = .loading := holds rfl

theorem test_abort_gap_end :
    ((after (.abortGapEnd .ta) (atWork.setPort .ta { atWork.port .ta with tx := .abortGap })).port .ta).tx = .idle :=
  holds rfl

/-- A discovery record of tag 0x500. -/
def seenOnce : DiscoveryRecord :=
  { tag := 0x500, ports := ⟨true, false⟩, channels := 2, widthCode := 1, samples := 4, firstSeq := 9, count := 1,
    seen := true }

theorem test_aging_sweep :
    let s := atWork.setDiscovery
      { atWork.discovery with records := [seenOnce, { seenOnce with tag := 1, seen := false }] }
    (after .agingSweep s).discovery.records = [{ seenOnce with seen := false }] := holds rfl

/-- The sweep that comes with a DISCOVERY_CONFIG taken before it does not take place (R171). -/
theorem test_abandoned_interval :
    let s := after .discoveryConfig (asked (atWork.setDiscovery { atWork.discovery with records := [seenOnce] }) 0x11 [4, 0])
    let later := after .uptimeTick (after .uptimeTick s)
    after .agingSweep s = s ∧ (after .agingSweep later).discovery.records = [{ seenOnce with seen := false }]
      ∧ (after .agingSweep later).discovery.restarted = none := holds rfl

theorem test_uptime_tick :
    (after .uptimeTick (atWork.setEvents { atWork.events with uptime := 0xFFFFFFFF })).events.uptime = 0 :=
  holds rfl

theorem test_identify :
    answer .identify (asked atWork 0x01 []) =
      [0x01, 0x00, 0x50, 0x52, 0x0B, 0x24, 0x01, 0x01, 0x02, 64, 0x04, 0x00, 4, 32, 16, 32] := holds rfl

theorem test_status :
    answer .status (asked atWork 0x02 []) =
      [0x02, 0x00, 1, 1, 0, 4, 2, 1, 0, 4, 2, 1, 2, 2, 2, 0, 1, 1, 0, 3, 3, 0xFF, 0, 0, 0, 0, 0, 0, 0xF5, 0, 0, 0, 0, 0,
        0, 0, 1, 0, 1, 5, 0x01, 0x00] := holds rfl

theorem test_trunk_config :
    answer .trunkConfig (asked atWork 0x03 [0xFF, 0xFE, 2, 1, 1]) = [0x03, 0x00, 0xFF, 0xFE]
      ∧ answer .trunkConfig (asked atWork 0x03 [0xFF, 0xFF, 2, 1, 1]) = [0x03, 0x04, 0x01, 0x02] := holds rfl

theorem test_stream_define :
    let s := asked atWork 0x04 ([4, 0] ++ be4 104 ++ [2, 1, 4, 0, 32, 31, 1])
    answer .streamDefine s = [0x04, 0x00] ∧ ((after .streamDefine s).stream 4).hold = [0, 0]
      ∧ ((after .streamDefine s).lane 0).outTable.get 0 = none := holds rfl

theorem test_stream_clear :
    answer .streamClear (asked atWork 0x05 [4]) = [0x05, 0x00, 1]
      ∧ (after .streamClear (asked atWork 0x05 [4])).stream 4 = Stream.blank := holds rfl

theorem test_stream_start :
    answer .streamStart (asked atWork 0x06 [4]) = [0x06, 0x01, 0, 2, 0, 0xF5, 1]
      ∧ (after .streamStart (asked atWork 0x06 [4])).waitList = [5, 4] := holds rfl

theorem test_stream_stop :
    answer .streamStop (asked atWork 0x07 [0, 0]) = [0x07, 0x00, 1]
      ∧ posted .streamStop (asked atWork 0x07 [0, 0]) = [(.streamAdmitted, .stream 5, 256)]
      ∧ ((after .streamStop (asked atWork 0x07 [2, 0])).stream 2).state = .draining := holds rfl

theorem test_stream_query :
    answer .streamQuery (asked atWork 0x08 [3, 0]) =
      [0x08, 0x00, 3, 1, 0, 0, 0, 103, 1, 0, 2, 2, 1, 0, 3, 2, 3, 0, 0, 0] ++ List.replicate 20 0 ++ [0] :=
  holds rfl

theorem test_slot_assign :
    answer .slotAssign (asked atWork 0x09 [0, 0, 1, 0]) = [0x09, 0x00, 4, 0]
      ∧ ((after .slotAssign (asked atWork 0x09 [0, 0, 1, 0])).lane 0).outTable.get 0 = some ⟨1, 0⟩ := holds rfl

theorem test_slot_query :
    answer .slotQuery (asked atWork 0x0A [0]) =
      [0x0A, 0x00, 2, 0, 8, 2, 0, 0, 1, 0, 2, 4, 0] ++ List.replicate 62 0xFF := holds rfl

theorem test_lane_config :
    ((after .laneConfig (asked atWork 0x0B [3, 0, 1, 4, 0, 2, 1, 0, 1])).lane 3).config =
        ((atWork.lane 3).config)
      ∧ answer .laneConfig (asked atWork 0x0B [2, 0, 1, 4, 0, 2, 1, 0, 1]) = [0x0B, 0x06] := holds rfl

theorem test_lane_start_and_stop :
    answer .laneStart (asked atWork 0x0C [2]) = [0x0C, 0x00]
      ∧ posted .laneStart (asked atWork 0x0C [2]) = [(.laneRunning, .lane 2, 256)]
      ∧ answer .laneStop (asked atWork 0x0D [0]) = [0x0D, 0x00]
      ∧ ((after .laneStop (asked atWork 0x0D [0])).stream 1).state = .armed := holds rfl

theorem test_clock_config :
    answer .clockConfig (asked atWork 0x0E ([0] ++ be4 1 ++ be4 8 ++ [1, 16, 4, 1])) =
        [0x0E, 0x00, 0, 0, 0, 1, 0, 0, 0, 8, 1, 1, 16, 4, 0, 0, 3, 0xFF]
      ∧ (answer .clockConfig (asked atWork 0x0E ([0] ++ be4 1 ++ be4 9 ++ [1, 16, 4, 1]))).take 2 = [0x0E, 0x06] :=
  holds rfl

theorem test_counters :
    answer .counters (asked atWork 0x0F [1, 0, 1]) = [0x0F, 0x00] ++ List.replicate 12 0
      ∧ (answer .counters (asked atWork 0x0F [0, 0, 0])).length = 54 := holds rfl

theorem test_discovery_requests :
    let s := atWork.setDiscovery { atWork.discovery with records := [seenOnce], overflow := 2 }
    answer .discoveryList (asked s 0x10 [1]) =
        [0x10, 0x00, 2, 0, 0, 0, 2, 1, 0, 0, 5, 0, 1, 2, 1, 0, 4, 0, 9, 0, 0, 0, 1, 1]
      ∧ answer .discoveryConfig (asked s 0x11 [4, 1]) = [0x11, 0x00, 4, 1] := holds rfl

/-- Two records at different levels. -/
def eventful : State := (atWork.post .trunkUp (.port .ta) 0).post .laneLost (.lane 1) 248

theorem test_events_fetch :
    answer .eventsFetch (asked eventful 0x12 [1]) =
        [0x12, 0x00, 0, 0, 1, 5, 2, 1, 2, 0, 0, 0, 248, 1, 0, 0, 0, 0]
      ∧ eventful.events.asserted = true
      ∧ (after .eventsFetch (asked eventful 0x12 [1])).events.asserted = false := holds rfl

theorem test_event_config :
    answer .eventConfig (asked eventful 0x13 (1 :: List.replicate 15 0xFF)) = [0x13, 0x00]
      ∧ answer .eventConfig (asked eventful 0x13 (1 :: List.replicate 15 3)) = [0x13, 0x04] := holds rfl

theorem test_device_reset :
    answer .deviceReset (asked atWork 0x14 []) = [0x14, 0x00]
      ∧ (after .deviceReset (asked atWork 0x14 [])).control.halted = true := holds rfl

theorem test_unknown_request :
    answer .unknownRequest (asked atWork 0x15 [1, 2]) = [0x15, 0x02]
      ∧ answer .unknownRequest (asked atWork 0x00 []) = [0x00, 0x02] := holds rfl

end Sys2Proof.Tests
end

