-- ==== Sys2Proof/Tests/Witnesses.lean ====
section
/-! SUPPORT. For each statement with hypotheses, concrete states and operands that meet them, clause by clause, at
boundary values. -/

namespace Sys2Proof.Tests
open Sys2Proof.Machine

set_option synthInstance.maxSize 2000
set_option synthInstance.maxHeartbeats 400000

/-! ## Reset, start-up, links -/

theorem witness_ResetsTakeEveryBlockToItsResetValues :
    (after .resetPinRecognised atWork).phase = .resetHeld ∧ atWork.phase ≠ .resetHeld := holds rfl

/-- Blank, neither blank nor sound, and sound with the highest node identity, control-port code 2, aging code 4, modes
3. -/
theorem witness_PromImageIsJudged :
    (List.replicate 32 (0xFF : Byte)).length = 32
      ∧ ((List.replicate 32 (0xFF : Byte)).all fun b => decide (b.toNat = 0xFF)) = true
      ∧ judgeLoad ([0x55, 0x47, 0x01, 0xFF, 0xFE, 2, 4, 3] ++ List.replicate 23 0 ++ [0x5D]) 0 =
          (.loaded, ⟨0xFFFE, .either, .s8, .weighted, .weighted⟩)
      ∧ (judgeLoad ([0x55, 0x47, 0x01, 0xFF, 0xFF, 2, 4, 3] ++ List.replicate 23 0 ++ [0x5C]) 0).1 = .bad :=
  holds rfl

theorem witness_PromLoadCompletionStartsThePart :
    atWork.phase ≠ .loading ∧ State.reset.phase = .loading ∧ (bytesOfPdio 32 (List.replicate 256 true)).length = 32
      ∧ ((bytesOfPdio 32 (List.replicate 255 false ++ [true])).getD 31 0).getMsbD 7 = true := holds rfl

/-- A part with TB DOWN and its input low. -/
def oneSided : State := after (.linkFall .tb) atWork

theorem witness_LinkRiseTakesADownPortUp :
    oneSided.phase = .started ∧ (oneSided.port .tb).linkUp = false
      ∧ ¬ (oneSided.phase = .started ∧ (oneSided.port .ta).linkUp = false) := holds rfl

theorem witness_LinkFallTakesAnUpPortDown :
    ¬ (oneSided.phase = .started ∧ (oneSided.port .tb).linkUp = true)
      ∧ (atWork.phase = .started ∧ (atWork.port .tb).linkUp = true ∧ atWork.settled
          ∧ ∀ r ∈ (atWork.port .tb).replies, r.payload ≠ [0x14, 0x00])
      ∧ (replying.phase = .started ∧ (replying.port .ta).linkUp = true
          ∧ ∃ r ∈ (replying.port .ta).replies, r.payload = [0x14, 0x00])
      ∧ (oneSided.port .tb).linkUp = false := holds rfl

/-! ## Reception -/

/-- Frames that fail each check first: too short, a kind that is none, an empty REQUEST, a REPLY of one byte. -/
theorem witness_BadFramesAreCountedAndDiscarded :
    (oneSided.port .ta).linkUp = true
      ∧ (List.replicate 19 (0 : Byte)).length < 20
      ∧ (let f := (sampleFrame 0 1 1 1 0 [1, 2]).take 21 ++ [0]
         20 ≤ f.length ∧ beAt f 14 2 = f.length - 20
           ∧ carriedCheckWord f ≠ (checkWord (f.take (f.length - 4))).toNat)
      ∧ (let f := buildFrame 0x54 0 1 2 3 4 5 6 []
         f.length = 20 ∧ beAt f 14 2 = f.length - 20 ∧ carriedCheckWord f = (checkWord (f.take (f.length - 4))).toNat
           ∧ byteAt f 0 ≠ 0x51 ∧ byteAt f 0 ≠ 0x52 ∧ byteAt f 0 ≠ 0x53)
      ∧ (let f := buildFrame 0x52 0 1 2 3 4 5 6 []
         carriedCheckWord f = (checkWord (f.take (f.length - 4))).toNat ∧ byteAt f 0 = 0x52 ∧ beAt f 14 2 = 0)
      ∧ (let f := buildFrame 0x53 0 1 2 3 4 5 6 [1]
         carriedCheckWord f = (checkWord (f.take (f.length - 4))).toNat ∧ byteAt f 0 = 0x53 ∧ beAt f 14 2 < 2) :=
  by decide +kernel

/-- A full Discovery List. -/
def crowded : State :=
  atWork.setDiscovery
    { atWork.discovery with
      records := (List.range 16).map fun n => { seenOnce with tag := BitVec.ofNat 32 (0x500 + n) } }

theorem witness_UnknownTagsReachTheDiscoveryList :
    (atWork.port .ta).linkUp = true ∧ GoodFrame (sampleFrame 0 0 1 1 0 []) 0x51
      ∧ GoodFrame (sampleFrame 0 0x50F 1 1 0 [1, 2]) 0x51
      ∧ (∀ i : StreamIdx, (crowded.stream i).state ≠ .empty → (crowded.stream i).tag ≠ 0x50F)
      ∧ (∃ r ∈ crowded.discovery.records, r.tag = 0x50F)
      ∧ (∀ r ∈ atWork.discovery.records, r.tag ≠ 0x50F) ∧ atWork.discovery.records.length < 16
      ∧ (∀ r ∈ crowded.discovery.records, r.tag ≠ 0x510) ∧ 16 ≤ crowded.discovery.records.length := by decide +kernel

/-- Stream 4 is IDLE; for stream 1 (F = 2) a frame of one sample fits with END alone. -/
theorem witness_KnownTagsAreJudgedAndHandedOn :
    GoodFrame (sampleFrame 0 104 1 1 0 []) 0x51 ∧ GoodFrame (sampleFrame 2 7 11 1 0 [1, 2]) 0x51
      ∧ byteAt (sampleFrame 2 7 11 1 0 [1, 2]) 1 / 2 % 2 = 1 ∧ byteAt (sampleFrame 0 7 11 1 0 [1, 2]) 1 / 2 % 2 ≠ 1
      ∧ (atWork.stream 4).state = .idle ∧ (atWork.stream 4).tag = 104
      ∧ (atWork.stream 1).direction = .playout ∧ (atWork.stream 1).state = .running ∧ (atWork.stream 1).tag = 7
      ∧ (∀ j : StreamIdx, (atWork.stream j).state ≠ .empty → (atWork.stream j).tag = 7 → j = 1)
      ∧ (∀ j : StreamIdx, (atWork.stream j).state ≠ .empty → (atWork.stream j).tag = 104 → j = 4) :=
  by decide +kernel

theorem witness_RequestsAreAcceptedAndRepliesDiscarded :
    (atWork.port .ta).linkUp = true ∧ GoodFrame (buildFrame 0x53 0 0x0102 7 1 0 0 0 [1, 0]) 0x53
      ∧ GoodFrame (requestFrame [1]) 0x52 ∧ frameDest (requestFrame [1]) = 0xFFFF
      ∧ atWork.control.ports = .either ∧ atWork.control.halted = false ∧ atWork.control.requests.length < 4
      ∧ (after .deviceReset (asked atWork 0x14 [])).control.halted = true := by decide +kernel

/-- A window with E = 65535, M = 2: d = 0 held, d = 1 free, d = 2 beyond; a gap with position E empty. -/
theorem witness_ArrivalsArePlacedByTheirDistance :
    let st := { small with state := .running, expected := some 0xFFFF, window := [some (played 0xFFFF [1, 2] false), none] }
    small.expected = none ∧ st.window.getD (0xFFFF - 0xFFFF : Half).toNat none ≠ none
      ∧ ((0 - 0xFFFF : Half).toNat = 1 ∧ st.window.getD 1 none = none)
      ∧ st.depthMax ≤ (1 - 0xFFFF : Half).toNat
      ∧ ({ st with window := [none, none], gap := true } : Stream).window.getD 0 none = none
      ∧ (0x7FFE - 0xFFFF : Half).toNat = 32767 ∧ (0x7FFF - 0xFFFF : Half).toNat = 32768
      ∧ ({ st with misplaced := 6 } : Stream).misplaced + 1 < 8 ∧ 8 ≤ ({ st with misplaced := 7 } : Stream).misplaced + 1 :=
  holds rfl

/-! ## Lanes -/

/-- Lane 3 looks for its frame, with a candidate and without one; lane 1 runs, with data delay 1 or 0 and its frame event due
or taken; the rise of Ln_SYNC is a leading edge of both, and its fall is none. -/
theorem witness_SlaveLanesFollowTheirSync :
    let leading := fun (x : Lane) (before now : Bool) =>
      x.config.inputOf (steady before) ≠ decide (x.config.polarity = .high)
        ∧ x.config.inputOf (steady now) = decide (x.config.polarity = .high)
    (atWork.lane 0).config.role ≠ .slave ∧ (atWork.lane 2).state = .off
      ∧ leading (atWork.lane 3) false true ∧ leading (atWork.lane 1) false true ∧ ¬ leading (atWork.lane 3) true false
      ∧ ((atWork.lane 3).config.role = .slave ∧ (atWork.lane 3).state = .seeking ∧ (atWork.lane 3).candidate = true)
      ∧ ((after .laneStart (asked (after .laneStop (asked atWork 0x0D [3])) 0x0C [3])).lane 3).candidate = false
      ∧ (atWork.lane 3).config.slots * (atWork.lane 3).config.slotWidth.bits = 256
      ∧ (atWork.lane 3).config.delayOne = true
      ∧ ((atWork.lane 1).config.role = .slave ∧ (atWork.lane 1).state = .running ∧ (atWork.lane 1).eventDue = true
          ∧ (atWork.lane 1).config.delayOne = true)
      ∧ (let x := (slaveAt true false).lane 1
         x.state = .running ∧ x.eventDue = false ∧ x.config.delayOne = true)
      ∧ (let x := (slaveAt false false).lane 1
         x.state = .running ∧ x.eventDue = false ∧ x.config.delayOne = false)
      ∧ ((atWork.stream 1).lane = 0 ∧ (atWork.stream 1).direction = .playout ∧ (atWork.stream 1).state = .running)
      ∧ ((atWork.stream 2).lane = 1 ∧ (atWork.stream 2).direction = .capture ∧ (atWork.stream 2).state = .running)
      ∧ ((atWork.stream 4).state ≠ .running ∧ (atWork.stream 4).state ≠ .starved) := holds rfl

/-- The part at work once TA has sent its frame: TA is UP and IDLE, and the frame that stream 2 closes at the next event of
lane 1 is granted there. -/
def between : State := after (.sampleFrameTxCompletion .ta) atWork

/-- The part at work with stream 2 holding two frames, the older one sent on TA. -/
def laden : State :=
  atWork.setStream 2
    { atWork.stream 2 with
      ready := [readied 3 ⟨true, false⟩ ⟨true, false⟩, readied 4 ⟨true, true⟩ ⟨false, false⟩] }

/-- Events that nothing is granted at, that a port is granted a frame at, and that a frame overruns at. -/
theorem witness_FrameEventPlaysAndLoadsTheSlots :
    ¬ (atWork.lane 2).atEvent ∧ (atWork.lane 0).atEvent ∧ (atWork.lane 1).atEvent
      ∧ (atWork.stream 1).playsOn 0 ∧ (atWork.stream 0).playsOn 0 ∧ (atWork.stream 7).playsOn 0
      ∧ ¬ (atWork.stream 4).playsOn 0 ∧ atWork.transmitInv ∧ between.transmitInv ∧ (between.lane 1).atEvent
      ∧ between.grantedAt 1 silence .ta = some 2 ∧ between.grantedAt 1 silence .tb = none
      ∧ ((after (ends 1 silence) between).port .ta).tx = .sample 2 ∧ laden.transmitInv
      ∧ laden.framePosts 1 silence = [(.captureOverrun, .stream 2, 4)]
      ∧ posted (ends 1 silence) laden = [(.captureOverrun, .stream 2, 4)] := holds rfl

/-- Stream 2 (F = 2) fills its frame at count 1 + 1; an ARMED stream begins at 0 + 1; stream 8 takes nothing. -/
theorem witness_FrameEventTakesCaptureSamples :
    let begins := atWork.setStream 2 { taker with state := .armed, tag := 102 }
    (atWork.lane 1).atEvent ∧ (atWork.stream 2).direction = .capture ∧ (atWork.stream 2).lane = 1
      ∧ (atWork.stream 2).state = .running ∧ (atWork.stream 2).fills ∧ atWork.transmitInv ∧ between.transmitInv
      ∧ (begins.stream 2).state = .armed ∧ ¬ (begins.stream 2).fills ∧ (begins.lane 1).atEvent
      ∧ (atWork.stream 8).direction = .capture ∧ (atWork.stream 8).state = .idle
      ∧ ((after (ends 1 silence) between).stream 2).ready.map (fun v => (v.seq, v.inTx)) =
          [(5, ⟨true, false⟩)] := holds rfl

/-! ## Playout -/

theorem witness_StreamsPrimeFromDFrames :
    (atWork.stream 0).state = .armed ∧ (atWork.stream 0).window.countP Option.isSome < (atWork.stream 0).depthTarget
      ∧ (atWork.stream 7).state = .starved
      ∧ (atWork.stream 7).window.countP Option.isSome < (atWork.stream 7).depthTarget
      ∧ (atWork.stream 1).depthTarget ≤ (atWork.stream 1).window.countP Option.isSome := holds rfl

theorem witness_RunningStreamsPlayGapAndStarve :
    let st := atWork.stream 1
    st.state = .running ∧ st.gap = false ∧ st.window.head?.join = some (played 10 [0x10000, 0x20000] false)
      ∧ st.readIndex + 1 < st.frameSamples ∧ st.frameSamples ≤ ({ st with readIndex := 1 } : Stream).readIndex + 1
      ∧ ({ st with window := [none, some (played 11 [1, 2] false)] } : Stream).window.countP Option.isSome = 1
      ∧ ({ st with window := [none, none] } : Stream).window.countP Option.isSome = 0 := holds rfl

theorem witness_EndFramesEndTheRun :
    (played 10 [] true).samples = 0 ∧ (played 10 [1] true).samples = 1 ∧ (played 10 [1, 2] true).samples = 2
      ∧ ({ atWork.stream 1 with window := [some (played 10 [] true), none] } : Stream).window.head?.join =
          some (played 10 [] true) := holds rfl

/-! ## The depth servo -/

theorem witness_ServoReviewsStepTheTrim :
    (atWork.gen .mcg0).reviewCount < 1024 ∧ (atWork.gen .mcg0).reference = some 1
      ∧ (atWork.stream 1).direction = .playout ∧ (atWork.gen .mcg1).reference = none
      ∧ 1024 ≤ ((atWork.setGen .mcg0 { atWork.gen .mcg0 with reviewCount := 1024 }).gen .mcg0).reviewCount :=
  holds rfl

/-- Stream 1 with a window, a read index and the trim of its generator, one event before the review, W = 0. -/
def reviewed (window : List (Option PlayFrame)) (i : Nat) (trim : Int) : State :=
  (atWork.setStream 1 { atWork.stream 1 with window := window, readIndex := i }).setGen .mcg0
    { atWork.gen .mcg0 with trim := trim, window := 0 }

/-- A review within the limits, and one cut at each of them: H = 2 and H = 0 with D = 1. -/
theorem witness_FrameEventsCountTowardsTheReview :
    let first := some (played 10 [0x10000, 0x20000] false)
    let second := some (played 11 [0x10000, 0x20000] false)
    (atWork.lane 0).atEvent ∧ (atWork.lane 0).config.role = .master0 ∧ (atWork.stream 1).playsOn 0
      ∧ (atWork.stream 1).playStep.entered = false ∧ (atWork.stream 1).playStep.stream.state = .running
      ∧ 1024 ≤ (atWork.gen .mcg0).reviewCount + 1 ∧ (atWork.gen .mcg1).reference = none
      ∧ ({ atWork.stream 1 with state := .armed } : Stream).playStep.entered = true
      ∧ posted (ends 0 silence) (reviewed [first, second] 0 510) = []
      ∧ posted (ends 0 silence) (reviewed [first, second] 0 511) = [(.servoLimit, .gen .mcg0, 512)]
      ∧ posted (ends 0 silence) (reviewed [first, none] 1 (-511)) = [(.servoLimit, .gen .mcg0, 0xFFFFFE00)]
      ∧ posted (ends 0 silence) (reviewed [first, none] 1 (-510)) = [] := holds rfl

/-! ## Capture and transmission -/

/-- Stream 2 closes with room on its list, or without an UP port; of two held frames the oldest that is not being sent gives
way, and the frame itself when both are. -/
theorem witness_ClosesDisposeOfTheFrame :
    let onto := fun ready : List ReadyFrame =>
      (closeFrame false 2 (atWork.setStream 2 { atWork.stream 2 with ready := ready })).events.records.map
        fun r => (r.kind, r.detail)
    let older := readied 3 ⟨true, false⟩ ⟨true, false⟩
    (atWork.stream 2).construction = some ⟨1, [0x30000]⟩ ∧ (atWork.stream 2).egress = ⟨true, true⟩
      ∧ (atWork.port .ta).linkUp = true ∧ (atWork.stream 2).ready.length < 2
      ∧ (oneSided.port .tb).linkUp = false
      ∧ ((closeFrame true 2 (oneSided.setStream 2
          { oneSided.stream 2 with egress := ⟨false, true⟩, ready := [] })).stream 2).ready = []
      ∧ onto [readied 3 ⟨true, true⟩ ⟨false, false⟩, readied 4 ⟨true, true⟩ ⟨true, false⟩] = [(.captureOverrun, 3)]
      ∧ onto [older, readied 4 ⟨true, true⟩ ⟨false, false⟩] = [(.captureOverrun, 4)]
      ∧ onto [older, readied 4 ⟨false, true⟩ ⟨false, true⟩] = [(.captureOverrun, 5)] := holds rfl

/-- Streams 2 and 3 owe TA a frame, at levels 2 and 1; TA is IDLE. -/
def owing (mode : TxMode) (credits : Credits) : State :=
  let s := started.setStream 2
    { taker with state := .running, tag := 1, ready := [readied 4 ⟨true, false⟩ ⟨false, false⟩] }
  let t := s.setStream 3
    { taker with state := .running, tag := 2, level := 1, ready := [readied 8 ⟨true, false⟩ ⟨false, false⟩] }
  t.setPort .ta { t.port .ta with mode := mode, credits := credits }

theorem witness_ArbitersGrantByReplyLevelAndCredit :
    (oneSided.port .tb).linkUp = false ∧ (atWork.port .ta).tx ≠ .idle
      ∧ ((owing .strict {}).port .ta).tx = .idle ∧ ((owing .strict {}).port .ta).replies = []
      ∧ ((owing .strict {}).stream 2).owes .ta ∧ ((owing .strict {}).stream 3).owes .ta
      ∧ ((runArbiter .ta (owing .strict {})).port .ta).tx = .sample 2
      ∧ ((runArbiter .ta (owing .weighted ⟨0, 1, 1⟩)).port .ta).tx = .sample 3
      ∧ ((runArbiter .ta (owing .weighted ⟨0, 0, 1⟩)).port .ta).tx = .sample 2
      ∧ ((runArbiter .ta (owing .weighted ⟨0, 0, 1⟩)).port .ta).credits = ⟨3, 2, 1⟩ := holds rfl

theorem witness_CompletionsFreeTheTransmitter :
    (atWork.port .ta).tx = .sample 2 ∧ (atWork.port .tb).tx = .sample 6 ∧ (atWork.stream 6).state = .draining
      ∧ (replying.port .ta).tx = .reply
      ∧ (replying.port .ta).replies.map (fun r => r.payload) = [[0x01, 0x00], [0x14, 0x00]]
      ∧ ((atWork.setPort .ta { atWork.port .ta with tx := .abortGap }).port .ta).tx = .abortGap := holds rfl

theorem witness_SweepsAndTicksActOnTheirOwnState :
    atWork.phase = .started ∧ atWork.discovery.aging ≠ .off ∧ atWork.discovery.restarted = none
      ∧ State.reset.phase ≠ .started ∧ (after .resetPinRecognised atWork).phase = .resetHeld
      ∧ (asked crowded 0x11 [4, 1]).settled ∧ (asked crowded 0x11 [4, 1]).executes (request 0x11 [4, 1]) []
      ∧ answer .discoveryConfig (asked crowded 0x11 [4, 1]) = [0x11, 0x00, 4, 16]
      ∧ answer .discoveryConfig (asked crowded 0x11 [0, 0]) = [0x11, 0x00, 0, 0]
      ∧ answer .discoveryConfig (asked crowded 0x11 [5, 1]) = [0x11, 0x04] := holds rfl

/-! ## Events -/

/-- The queue of the worked example of chapter 11: 31 records, none at the threshold. -/
def burst : EventQueue :=
  let record := fun (kind : EventKind) (source : Source) (level : Level) =>
    ({ kind := kind, source := source, level := level, detail := 0, repeats := 1, firstTime := 0 } : EventRecord)
  { EventQueue.blank with
    records := [record .trunkUp (.port .ta) 1, record .trunkUp (.port .tb) 1, record .laneRunning (.lane 0) 0] ++
      (List.finRange 28).map fun n => record .streamRunning (.stream (n.castLE (by decide))) 0 }

/-- Postings 1 to 4 of that example: room, a merge, a drop, an eviction that asserts EVT#. -/
theorem witness_PostingsFollowTheLevels :
    let q1 := burst.post .streamRunning (.stream 28) 0
    let q2 := q1.post .streamRunning (.stream 5) 0
    let q3 := q2.post .streamRunning (.stream 29) 0
    let q4 := q3.post .streamStarved (.stream 3) 0
    burst.records.length = 31 ∧ q1.records.length = 32 ∧ (q2.records.map fun r => r.repeats).getD 8 0 = 2
      ∧ q3.lost = 1 ∧ q4.lost = 2 ∧ q3.asserted = false ∧ q4.asserted = true
      ∧ (q4.records.getLast?.map fun r => r.kind) = some .streamStarved
      ∧ ({ burst with levels := Vector.replicate 15 none } : EventQueue).levelOf .trunkUp = none := by decide +kernel

/-! ## Admission and definitions -/

/-- Fields of two and of four bytes that end with the bytes they are read from; request codes at both ends of no request. -/
theorem witness_KindsHaveTheirLevelsAndCodes :
    (let bs : List Byte := [0x12, 0x34, 0x56, 0x78]
     2 + 2 ≤ bs.length ∧ beAt bs 2 2 = 0x5678 ∧ 0 + 4 ≤ bs.length ∧ beAt bs 0 4 = 0x12345678)
      ∧ RequestCode.ofByte 0 = none ∧ 0x14 < (0x15 : Byte).toNat ∧ RequestCode.ofByte 0x15 = none := by decide +kernel

/-- A head that does not fit, a head that fits exactly, and an empty list. -/
theorem witness_AdmissionTestAdmitsInOrder :
    atWork.waitList = [5] ∧ 1024 - atWork.reservedCells < (atWork.stream 5).reservation
      ∧ State.reset.waitList = []
      ∧ (let s := atWork.setStream 0 { atWork.stream 0 with state := .idle }
         (s.stream 5).reservation ≤ 1024 - s.reservedCells) := holds rfl

theorem witness_ReservationsFollowTheDefinition :
    ((atWork.stream 0).definitionOk ∧ (atWork.stream 2).definitionOk ∧ (atWork.stream 0).cellsPerFrame = 8
        ∧ (atWork.stream 2).cellsPerFrame = 1 ∧ (atWork.stream 0).reservation = 256
        ∧ (atWork.stream 2).reservation = 3)
      ∧ atWork.streamInv ∧ atWork.playInv ∧ (atWork.stream 1).cellsHeld = 1 ∧ (atWork.stream 2).cellsHeld = 2 :=
  ⟨holds rfl, witness_invariants.2.2.2.2.2.2.2.2.1, witness_invariants.2.2.2.2.2.2.2.2.2, holds rfl, holds rfl⟩

theorem witness_SentFramesPassTheChecks :
    GoodFrame (buildFrame 0x51 255 0 0 0 0 255 255 []) 0x51 ∧ GoodFrame (buildFrame 0x52 0 0 0 0 0 0 0 [0]) 0x52
      ∧ GoodFrame (buildFrame 0x53 0 0 0 0 0 0 0 [0, 0]) 0x53 := by decide +kernel

/-- TA sends the ready frame of stream 2, or a reply; its enable is high to the last nibble and low in the gap. -/
theorem witness_SentFramesPassTheChecks_on_a_port :
    let f := readied 4 ⟨true, false⟩ ⟨true, false⟩
    (atWork.stream 2).channels ≤ 16 ∧ f.words.length * (atWork.stream 2).width.bytes ≤ 1024
      ∧ (atWork.port .ta).tx = .sample 2 ∧ (atWork.stream 2).ready = [f] ∧ f.inTx.get .ta = true
      ∧ (replying.port .ta).tx = .reply
      ∧ ((replying.port .ta).replies.head?.map fun r => r.payload.length) = some 2
      ∧ (between.port .ta).tx = .idle ∧ (atWork.frameOnTrunk .ta).map List.length = some 24
      ∧ atWork.txNibble .ta 0 = some 1 ∧ atWork.txNibble .ta 1 = some 5
      ∧ atWork.txEnable .ta 47 = true ∧ atWork.txEnable .ta 48 = false := by decide +kernel

theorem witness_SamplesSurviveTheTrunk :
    [(0x12 : Byte), 0x34, 0x56].length = 1 * Width.w24.bytes ∧ packSamples .w24 [0x123456FF] = [0x12, 0x34, 0x56]
      ∧ (0xFFEEDD00 : Word) &&& BitVec.ofNat 32 (2 ^ (32 - 8 * Width.w24.bytes) - 1) = 0 := holds rfl

/-- The part at work with a command waiting: the step whose invariants are kept. -/
theorem witness_StepsKeep : ∃ t : State, step (atWork.setPending [.uptimeTick]) = .next t := ⟨_, rfl⟩

/-! ## Requests -/

theorem witness_RequestsWaitAtTheHead :
    atWork.control.requests = [] ∧ (after .deviceReset (asked atWork 0x14 [])).control.halted = true
      ∧ 2 ≤ ((asked replying 0x01 []).port .ta).replies.length ∧ ((asked replying 0x01 []).port .ta).linkUp = true :=
  holds rfl

/-- A request of every code executes, with the operands below: misframed lengths and option bytes. -/
theorem witness_MisframedRequestsAreMalformed :
    (asked atWork 0x15 []).settled ∧ (asked atWork 0x15 []).executes (request 0x15 []) []
      ∧ answer .identify (asked atWork 0x01 [0]) = [0x01, 0x02]
      ∧ answer .streamDefine (asked atWork 0x04 [4]) = [0x04, 0x02]
      ∧ answer .streamStop (asked atWork 0x07 [4, 2]) = [0x07, 0x02]
      ∧ answer .deviceReset (asked atWork 0x14 [0]) = [0x14, 0x02] :=
  ⟨asked_settled _ _, asked_executes _ _, holds rfl⟩

theorem witness_IdentifyAndStatusReportThePart :
    (asked atWork 0x01 []).settled ∧ (asked atWork 0x01 []).executes (request 0x01 []) []
      ∧ (asked atWork 0x02 []).executes (request 0x02 []) [] :=
  ⟨asked_settled _ _, asked_executes _ _, asked_executes _ _⟩

theorem witness_TrunkConfigSetsIdentityAndModes :
    (asked atWork 0x03 [0xFF, 0xFE, 2, 1, 1]).settled
      ∧ (asked atWork 0x03 [0xFF, 0xFE, 2, 1, 1]).executes (request 0x03 [0xFF, 0xFE, 2, 1, 1]) []
      ∧ (asked atWork 0x03 [0, 0, 0, 0, 0]).executes (request 0x03 [0, 0, 0, 0, 0]) [] :=
  ⟨asked_settled _ _, asked_executes _ _, asked_executes _ _⟩

/-- Definitions at the limits: M = 32, D = 31; 16 channels of 32 bits with F = 16 (1024 bytes); slot 31 and NONE. -/
theorem witness_StreamDefineWritesTheEntry :
    let a := [4, 0] ++ be4 104 ++ [16, 2, 16, 3, 32, 31, 1]
    let c := [63, 1] ++ be4 1 ++ [2, 0, 64, 0, 2, 3, 31, 0xFF]
    (asked atWork 0x04 a).settled ∧ (asked atWork 0x04 a).executes (request 0x04 a) []
      ∧ (asked atWork 0x04 c).executes (request 0x04 c) [] ∧ DefinitionArgsOk a ∧ DefinitionArgsOk c
      ∧ (atWork.stream 4).state = .idle ∧ (atWork.stream 63).state = .empty
      ∧ (∀ j : StreamIdx, j ≠ 4 → (atWork.stream j).state ≠ .empty → (atWork.stream j).tag ≠ 104)
      ∧ (∀ j : StreamIdx, j ≠ 63 → (atWork.stream j).state ≠ .empty → (atWork.stream j).tag ≠ 1) :=
  ⟨asked_settled _ _, asked_executes _ _, asked_executes _ _, by decide +kernel⟩

theorem witness_StreamDefineRefusesInOrder :
    let a := fun (i : Byte) (tag : Nat) (m : Byte) => [i, 0] ++ be4 tag ++ [1, 0, 1, 0, m, 1, 0]
    (asked atWork 0x04 (a 64 1 2)).settled ∧ (asked atWork 0x04 (a 64 1 2)).executes (request 0x04 (a 64 1 2)) []
      ∧ RequestCode.streamDefine.lengthOk (a 64 1 2) = true ∧ byteAt (a 0 1 2) 0 = 0
      ∧ (atWork.stream 0).state = .armed ∧ ¬ DefinitionArgsOk (a 4 1 33) ∧ DefinitionArgsOk (a 4 7 32)
      ∧ (atWork.stream 1).tag = 7 :=
  ⟨asked_settled _ _, asked_executes _ _, holds rfl⟩

theorem witness_StreamClearEmptiesTheEntry :
    (asked atWork 0x05 [63]).settled ∧ (asked atWork 0x05 [64]).executes (request 0x05 [64]) []
      ∧ (asked atWork 0x05 [63]).executes (request 0x05 [63]) [] ∧ (atWork.stream 63).state = .empty
      ∧ (atWork.stream 5).state = .waiting ∧ (atWork.stream 4).state = .idle :=
  ⟨asked_settled _ _, asked_executes _ _, asked_executes _ _, holds rfl⟩

/-- The wait list empty with room; the wait list full. -/
def calm : State := (atWork.setStream 5 { atWork.stream 5 with state := .idle }).setWaitList []
def full : State := atWork.setWaitList (List.replicate 8 5)

theorem witness_StreamStartAdmitsQueuesOrRefuses :
    (asked calm 0x06 [4]).settled ∧ (asked calm 0x06 [4]).executes (request 0x06 [4]) []
      ∧ (asked full 0x06 [4]).settled ∧ (asked full 0x06 [4]).executes (request 0x06 [4]) []
      ∧ answer .streamStart (asked calm 0x06 [4]) = [0x06, 0x00, 0, 2, 0, 0xF3, 0xFF]
      ∧ answer .streamStart (asked calm 0x06 [5]) = [0x06, 0x01, 1, 0, 0, 0xF5, 0]
      ∧ answer .streamStart (asked full 0x06 [4]) = [0x06, 0x08, 0, 2, 0, 0xF5, 0xFF]
      ∧ answer .streamStart (asked (calm.setLane 0 { calm.lane 0 with config := { LaneConfig.default with direction := .inp } })
          0x06 [4]) = [0x06, 0x05]
      ∧ answer .streamStart (asked (calm.setLane 1 { calm.lane 1 with config := { LaneConfig.default with slots := 7 } })
          0x06 [8]) = [0x06, 0x04] := holds rfl

theorem witness_StreamStopEndsWaitingAndPlayout :
    (asked atWork 0x07 [5, 1]).settled ∧ (asked atWork 0x07 [5, 1]).admissionInv
      ∧ (asked atWork 0x07 [5, 1]).executes (request 0x07 [5, 1]) []
      ∧ (atWork.stream 4).state = .idle ∧ (atWork.stream 5).state = .waiting
      ∧ (atWork.stream 7).direction = .playout ∧ (atWork.stream 7).state = .starved :=
  ⟨asked_settled _ _, asked_admissionInv _ _, asked_executes _ _, holds rfl⟩

/-- With discard stream 2 keeps the frame being sent; stream 3 is ARMED; without a construction or frames left the stop
is complete at once. -/
theorem witness_StreamStopEndsCapture :
    (asked atWork 0x07 [2, 1]).transmitInv ∧ (asked atWork 0x07 [2, 1]).streamInv
      ∧ (asked atWork 0x07 [2, 1]).admissionInv ∧ (asked atWork 0x07 [2, 1]).executes (request 0x07 [2, 1]) []
      ∧ answer .streamStop (asked atWork 0x07 [2, 0]) = [0x07, 0x00, 6]
      ∧ answer .streamStop (asked atWork 0x07 [2, 1]) = [0x07, 0x00, 6]
      ∧ answer .streamStop (asked atWork 0x07 [3, 0]) = [0x07, 0x00, 1]
      ∧ ((after (.sampleFrameTxCompletion .ta) atWork).stream 2).ready = []
      ∧ answer .streamStop (asked (after (.sampleFrameTxCompletion .ta) atWork) 0x07 [2, 1]) = [0x07, 0x00, 1] :=
  ⟨asked_transmitInv _ _, asked_streamInv _ _, asked_admissionInv _ _, asked_executes _ _, holds rfl⟩

/-- A RUNNING stream whose one port is DOWN, asked to stop without discard: its END frame is released at the close. -/
def unheard : State :=
  let s := started.setStream 2
    { taker with state := .running, tag := 1, egress := ⟨false, true⟩, construction := some ⟨1, [0x30000]⟩ }
  asked (s.setPort .tb { s.port .tb with linkUp := false }) 0x07 [2, 0]

theorem witness_StreamStopEndsCapture_at_once :
    unheard.transmitInv ∧ unheard.streamInv ∧ unheard.admissionInv ∧ unheard.executes (request 0x07 [2, 0]) []
      ∧ answer .streamStop unheard = [0x07, 0x00, 1] ∧ ((after .streamStop unheard).stream 2).capture.closed = 1 :=
  ⟨holds rfl, holds rfl, holds rfl, holds rfl, holds rfl, holds rfl⟩

theorem witness_StreamQueryReportsTheEntry :
    (asked atWork 0x08 [63, 1]).settled ∧ (asked atWork 0x08 [63, 1]).executes (request 0x08 [63, 1]) []
      ∧ (atWork.stream 63).direction = .playout ∧ (atWork.stream 3).direction = .capture :=
  ⟨asked_settled _ _, asked_executes _ _, holds rfl⟩

theorem witness_SlotsAreAssignedAndReported :
    (asked atWork 0x09 [3, 31, 63, 15]).settled
      ∧ (asked atWork 0x09 [3, 31, 63, 15]).executes (request 0x09 [3, 31, 63, 15]) []
      ∧ (asked atWork 0x0A [3]).executes (request 0x0A [3]) []
      ∧ atWork.slotOk 0 7 ⟨1, 0⟩ ∧ ¬ atWork.slotOk 0 8 ⟨1, 0⟩ ∧ ¬ atWork.slotOk 0 7 ⟨1, 1⟩ :=
  ⟨asked_settled _ _, asked_executes _ _, asked_executes _ _, holds rfl⟩

/-- A part with lane 2 OFF and timing no stream that holds cells. -/
def laneFree : State := atWork.setStream 3 { atWork.stream 3 with state := .idle }

theorem witness_LaneConfigWritesAnIdleLane :
    (asked laneFree 0x0B [2, 2, 2, 32, 2, 2, 1, 1, 1]).settled
      ∧ (asked laneFree 0x0B [2, 2, 2, 32, 2, 2, 1, 1, 1]).executes (request 0x0B [2, 2, 2, 32, 2, 2, 1, 1, 1]) []
      ∧ (atWork.lane 0).state ≠ .off ∧ (atWork.stream 3).lane = 2 ∧ (atWork.stream 3).state = .armed
      ∧ answer .laneConfig (asked laneFree 0x0B [2, 2, 2, 32, 2, 2, 1, 1, 1]) = [0x0B, 0x00]
      ∧ answer .laneConfig (asked laneFree 0x0B [2, 2, 2, 31, 2, 2, 1, 1, 1]) = [0x0B, 0x04] := holds rfl

/-- Lane 2 as a slave, and as a master whose generator is OFF. -/
def laneTwo (role : Role) : State :=
  atWork.setLane 2 { atWork.lane 2 with config := { LaneConfig.default with role := role } }

theorem witness_LanesStartAndStop :
    (asked atWork 0x0C [2]).settled ∧ (asked atWork 0x0C [2]).executes (request 0x0C [2]) []
      ∧ (asked atWork 0x0D [0]).executes (request 0x0D [0]) []
      ∧ (atWork.lane 2).state = .off ∧ (atWork.lane 2).config.role = .master0 ∧ (atWork.gen .mcg0).num ≠ 0
      ∧ (atWork.gen .mcg1).num = 0 ∧ (atWork.lane 0).state = .running
      ∧ answer .laneStart (asked (laneTwo .master1) 0x0C [2]) = [0x0C, 0x05]
      ∧ ((after .laneStart (asked (laneTwo .slave) 0x0C [2])).lane 2).state = .seeking :=
  ⟨asked_settled _ _, asked_executes _ _, asked_executes _ _, holds rfl⟩

/-- NUM × 4 = DEN at the ends of their ranges; DEN 0 is refused; another ratio is refused while lane 0 runs. -/
theorem witness_ClockConfigSetsAGenerator :
    let a := [1] ++ be4 262143 ++ be4 1048575 ++ [63, 16, 4, 0]
    (asked atWork 0x0E a).settled ∧ (asked atWork 0x0E a).executes (request 0x0E a) []
      ∧ (answer .clockConfig (asked atWork 0x0E a)).take 2 = [0x0E, 0x00]
      ∧ (answer .clockConfig (asked atWork 0x0E ([1] ++ be4 0 ++ be4 0 ++ [0xFF, 1, 0, 0]))).take 2 = [0x0E, 0x04]
      ∧ (answer .clockConfig (asked atWork 0x0E ([0] ++ be4 0 ++ be4 1 ++ [0xFF, 1, 0, 0]))).take 2 = [0x0E, 0x06]
      ∧ answer .clockConfig (asked atWork 0x0E ([0] ++ be4 0 ++ be4 1 ++ [64, 1, 0, 0])) = [0x0E, 0x03] :=
  ⟨asked_settled _ _, asked_executes _ _, holds rfl⟩

theorem witness_CountersReadAndClearOneScope :
    (asked atWork 0x0F [0, 1, 1]).settled ∧ (asked atWork 0x0F [0, 1, 1]).executes (request 0x0F [0, 1, 1]) []
      ∧ answer .counters (asked atWork 0x0F [0, 2, 0]) = [0x0F, 0x03]
      ∧ answer .counters (asked atWork 0x0F [1, 4, 0]) = [0x0F, 0x03]
      ∧ answer .counters (asked atWork 0x0F [2, 0, 0]) = [0x0F, 0x04] :=
  ⟨asked_settled _ _, asked_executes _ _, holds rfl⟩

theorem witness_DiscoveryListIsReported :
    (asked crowded 0x10 [1]).settled ∧ (asked crowded 0x10 [1]).executes (request 0x10 [1]) []
      ∧ (answer .discoveryList (asked crowded 0x10 [1])).take 8 = [0x10, 0x00, 2, 0, 0, 0, 0, 16]
      ∧ answer .discoveryList (asked atWork 0x10 [0]) = [0x10, 0x00, 2, 0, 0, 0, 0, 0] := holds rfl

theorem witness_EventsAreFetchedAndConfigured :
    (asked eventful 0x12 [16]).settled ∧ (asked eventful 0x12 [16]).executes (request 0x12 [16]) []
      ∧ answer .eventsFetch (asked eventful 0x12 [0]) = [0x12, 0x04]
      ∧ answer .eventsFetch (asked eventful 0x12 [17]) = [0x12, 0x04]
      ∧ (answer .eventsFetch (asked eventful 0x12 [16])).length = 31
      ∧ answer .eventConfig (asked eventful 0x13 (3 :: List.replicate 15 2)) = [0x13, 0x00]
      ∧ answer .eventConfig (asked eventful 0x13 (4 :: List.replicate 15 2)) = [0x13, 0x04] := holds rfl

theorem witness_DeviceResetHaltsThenResets :
    (asked atWork 0x14 []).settled ∧ (asked atWork 0x14 []).executes (request 0x14 []) []
      ∧ ((asked atWork 0x14 []).port .ta).linkUp = true
      ∧ (let s := asked (after (.linkFall .ta) atWork) 0x14 []
         s.settled ∧ s.executes (request 0x14 []) [] ∧ (s.port .ta).linkUp = false) :=
  ⟨asked_settled _ _, asked_executes _ _, holds rfl⟩

/-! ## Pins -/

/-- A lane of 4 slots of 16 bits whose sync is HALF, polarity LOW, DRIVE-RISING, data delay 0. -/
def pinned : Lane :=
  { Lane.blank with
    state := .running,
    config :=
      { direction := .out, role := .master0, slots := 4, slotWidth := .w16, syncShape := .half, polarity := .low,
        delayOne := false, clockEdge := .driveRising },
    outWords := [0x80000000, 0, 0, 0x0001FFFF] }

/-- The first and the last data bit, the bit beyond them, and the last active and the first inactive level of Ln_SYNC, for
that lane and for a lane as reset leaves it. -/
theorem witness_LanePinsFollowTheirConfiguration :
    let slotShape : LaneConfig := { pinned.config with syncShape := .slot }
    pinned.state = .running ∧ pinned.dataBit 0 = true ∧ pinned.dataBit 63 = true ∧ pinned.dataBit 62 = false
      ∧ pinned.dataBit 64 = false
      ∧ pinned.config.syncLevel 31 = false ∧ pinned.config.syncLevel 32 = true ∧ slotShape.syncLevel 15 = false
      ∧ slotShape.syncLevel 16 = true ∧ LaneConfig.default.syncLevel 0 = true ∧ LaneConfig.default.syncLevel 1 = false
      ∧ pinned.config.bckAfter 0 = true ∧ pinned.config.bckAfter 1 = false ∧ LaneConfig.default.bckAfter 0 = false
      ∧ (let line := levels 1 32 [0, 0, 0, 0, 0, 0, 0, 0x80000001]
         (LaneConfig.default.inWord line 7).getMsbD 0 = true ∧ (LaneConfig.default.inWord line 7).getMsbD 31 = true
           ∧ LaneConfig.default.inWord line 6 = 0 ∧ pinned.config.inWord line 0 = 0)
      ∧ pinned.config.dataPeriod 63 = 63 ∧ LaneConfig.default.dataPeriod 255 = 256
      ∧ (atWork.lane 3).doutPin = .drivenLow ∧ (atWork.lane 1).clockPins = .input ∧ pinned.dinPin = .notSampled
      ∧ (atWork.gen .mcg1).bitClock = none ∧ (atWork.gen .mcg0).num ≠ 0 := by decide +kernel

end Sys2Proof.Tests
end

