-- ==== Sys2Proof/Proofs/StreamClear.lean ====
section
/-! STREAM_CLEAR (section 1.5, R17): what the handler answers in each state of the entry, that the part stays settled, and
the obligation assembled from these. -/

namespace Sys2Proof.Machine

/-! ## Indices in an argument byte -/

theorem finOf_val {k n : Nat} {i : Fin k} (h : n = i.val) : finOf k n = some i := by
  subst h
  exact dif_pos i.isLt

theorem finOf_eq_none {k n : Nat} (h : k ≤ n) : finOf k n = none := dif_neg (Nat.not_lt.mpr h)

@[simp] theorem byteAt_cons_zero (b : Byte) (a : List Byte) : byteAt (b :: a) 0 = b.toNat := rfl

/-! ## Carrying out a framed request -/

theorem carryOut_of_framed {c : RequestCode} {args : List Byte} (h : c.framed args = true)
    (handler : List Byte → State → State × Answer) (s : State) : carryOut (some c) handler args s = handler args s :=
  if_pos h

/-! ## Out-slots that name a stream (R17) -/

theorem names_eq_any (i : StreamIdx) : names i = fun e => e.any fun o => o.stream == i := by
  funext e
  cases e <;> rfl

theorem State.outSlotsOf_eq (s : State) (i : StreamIdx) :
    s.outSlotsOf i =
      (s.lane 0).outTable.toList.countP (names i) + (s.lane 1).outTable.toList.countP (names i)
        + (s.lane 2).outTable.toList.countP (names i) + (s.lane 3).outTable.toList.countP (names i) := by
  simp [State.outSlotsOf, laneIndices, List.finRange_succ, Nat.add_assoc]

/-! ## The handler, by the state of the entry -/

theorem streamClear_of_badIndex {b : Byte} (h : 63 < b.toNat) (s : State) :
    streamClear [b] s = (s, { status := .index }) := by
  simp [streamClear, finOf_eq_none h]

theorem streamClear_of_empty {b : Byte} {i : StreamIdx} (hb : b.toNat = i.val) {s : State}
    (h : (s.stream i).state = .empty) : streamClear [b] s = (s, { status := .ok, results := bytesOf [0] }) := by
  simp [streamClear, finOf_val hb, h]

theorem streamClear_of_idle {b : Byte} {i : StreamIdx} (hb : b.toNat = i.val) {s : State}
    (h : (s.stream i).state = .idle) :
    streamClear [b] s =
      ((clearOutSlots i s).setStream i Stream.blank, { status := .ok, results := bytesOf [s.outSlotsOf i] }) := by
  simp [streamClear, finOf_val hb, h]

theorem streamClear_of_inUse {b : Byte} {i : StreamIdx} (hb : b.toNat = i.val) {s : State}
    (he : (s.stream i).state ≠ .empty) (hi : (s.stream i).state ≠ .idle) :
    streamClear [b] s = (s, { status := .state }) := by
  cases h : (s.stream i).state with
  | empty => exact absurd h he
  | idle => exact absurd h hi
  | waiting | armed | running | starved | draining => simp [streamClear, finOf_val hb, h]

/-- A cleared entry has no ready frame, and the out-slots are no concern of the arbiters: the part stays settled. -/
theorem settled_setStream_blank_clearOutSlots {s : State} (h : s.settled) (i : StreamIdx) :
    ((clearOutSlots i s).setStream i Stream.blank).settled := by
  refine State.settled_congr (s := s) rfl (fun j hd => ?_) h
  by_cases hj : j = i
  · subst hj
    exact .inl (by rw [State.stream_setStream_self]; rfl)
  · rw [State.stream_setStream_ne _ _ hj] at hd ⊢
    exact .inr ⟨hd, rfl⟩

/-! ## The command -/

theorem exec_streamClear (s : State) :
    exec .streamClear s = .next (runRequest (some .streamClear) streamClear s) := rfl

/-- STREAM_CLEAR with its one argument byte replies what the handler answers on the state with the head taken off. -/
theorem exec_streamClear_replied {s u : State} {rq : Request} {rest : List Request} {b : Byte} {a : Answer}
    (hx : s.executes rq rest) (hcode : rq.code = 0x05) (hargs : rq.args = [b])
    (hclear : streamClear [b] (s.taken rest) = (u, a)) (hu : u.settled) :
    exec .streamClear s = .next (u.replied rq (0x05 :: a.status.code :: a.results)) := by
  have hframed : RequestCode.streamClear.framed rq.args = true := by rw [hargs]; rfl
  have hcarry : carryOut (some .streamClear) streamClear rq.args (s.taken rest) = (u, a) := by
    rw [carryOut_of_framed hframed, hargs, hclear]
  have hrun := runRequest_answers hx (by rw [hcode]; rfl) streamClear hcarry hu (.inr (by simp [hcode]))
  rw [exec_streamClear, hrun, hcode]

/-- Settles O38, by the cases of the handler: a bad index, and an entry that is EMPTY, in use, or IDLE. -/
theorem streamClearEmptiesTheEntry : Obligations.StreamClearEmptiesTheEntry := by
  intro s rq rest b hs hx hcode hargs named
  have htaken : (s.taken rest).settled := State.settled_taken hs rest
  refine ⟨fun hb => ?badIndex, fun i hb => ⟨fun he => ?empty, fun he hi => ?inUse, fun hi => ?idle⟩⟩
  case badIndex => exact exec_streamClear_replied hx hcode hargs (streamClear_of_badIndex hb _) htaken
  case empty => exact exec_streamClear_replied hx hcode hargs (streamClear_of_empty hb he) htaken
  case inUse => exact exec_streamClear_replied hx hcode hargs (streamClear_of_inUse hb he hi) htaken
  case idle =>
    have hreply := exec_streamClear_replied hx hcode hargs (streamClear_of_idle hb hi)
      (settled_setStream_blank_clearOutSlots htaken i)
    have hnamed : named i = names i := (names_eq_any i).symm
    rw [State.outSlotsOf_eq] at hreply
    rw [hnamed]
    exact hreply

end Sys2Proof.Machine
end

