-- ==== Sys2Proof/Proofs/FrameChecks.lean ====
section
/-! The whole-frame checks (section 3.4, R47): what each check says of the bytes of a frame, what the arrival of a frame
does at the first check that fails, and the obligation assembled from these. -/

namespace Sys2Proof.Machine

/-! ## The check word a frame carries (R42) -/

/-- Four bytes in a row, read from the last to the first: the byte at the lowest index is the least significant. -/
theorem ofBe_reverse_drop {f : List Byte} {k : Nat} (h : f.length = k + 4) :
    ofBe (f.drop k).reverse =
      byteAt f k + byteAt f (k + 1) * 0x100 + byteAt f (k + 2) * 0x10000 + byteAt f (k + 3) * 0x1000000 := by
  have hdrop : f.drop k = [f.getD k 0, f.getD (k + 1) 0, f.getD (k + 2) 0, f.getD (k + 3) 0] := by
    rw [List.drop_eq_getElem_cons (show k < f.length by omega),
      List.drop_eq_getElem_cons (show k + 1 < f.length by omega),
      List.drop_eq_getElem_cons (show k + 1 + 1 < f.length by omega),
      List.drop_eq_getElem_cons (show k + 1 + 1 + 1 < f.length by omega), List.drop_of_length_le (by omega)]
    simp [h]
  simp only [hdrop, ofBe, byteAt, List.reverse_cons, List.reverse_nil, List.nil_append, List.cons_append,
    List.foldl_cons, List.foldl_nil]
  omega

theorem frameCheckWord_toNat {f : List Byte} (h : 4 ≤ f.length) : (frameCheckWord f).toNat = carriedCheckWord f := by
  obtain ⟨k, hk⟩ := Nat.exists_eq_add_of_le' h
  have hbyte (i : Nat) : byteAt f i < 256 := BitVec.isLt _
  have hcarried : carriedCheckWord f =
      byteAt f k + byteAt f (k + 1) * 0x100 + byteAt f (k + 2) * 0x10000 + byteAt f (k + 3) * 0x1000000 := by
    simp [carriedCheckWord, hk]
  rw [frameCheckWord, show f.length - 4 = k by omega, ofBe_reverse_drop hk, hcarried, BitVec.toNat_ofNat]
  have := hbyte k; have := hbyte (k + 1); have := hbyte (k + 2); have := hbyte (k + 3)
  omega

/-! ## Each check, in the bytes of the frame -/

theorem lengthOk_iff (f : List Byte) :
    lengthOk f = true ↔ ¬ (f.length < 20 ∨ 1044 < f.length ∨ beAt f 14 2 ≠ f.length - 20) := by
  simp only [lengthOk, framePayloadLength, Bool.and_eq_true, decide_eq_true_eq, beq_iff_eq]
  omega

theorem checkWordOk_iff {f : List Byte} (h : 4 ≤ f.length) :
    checkWordOk f = true ↔ carriedCheckWord f = (checkWord (f.take (f.length - 4))).toNat := by
  rw [← frameCheckWord_toNat h, checkWordOk, beq_iff_eq, BitVec.toNat_inj]

theorem kindOk_iff (f : List Byte) :
    kindOk f = true ↔ ¬ (byteAt f 0 ≠ 0x51 ∧ byteAt f 0 ≠ 0x52 ∧ byteAt f 0 ≠ 0x53) := by
  simp only [kindOk, frameKind, Bool.or_eq_true, beq_iff_eq]
  omega

theorem payloadOk_iff (f : List Byte) :
    payloadOk f = true ↔ ¬ ((byteAt f 0 = 0x52 ∧ beAt f 14 2 = 0) ∨ (byteAt f 0 = 0x53 ∧ beAt f 14 2 < 2)) := by
  simp only [payloadOk, Bool.and_eq_true, Bool.not_eq_true', ← Bool.not_eq_true, beq_iff_eq, decide_eq_true_eq, not_or]
  exact Iff.rfl

/-! ## The first check that fails -/

theorem checkFrame_of_badLength {f : List Byte} (hl : ¬ lengthOk f = true) : checkFrame f = .malformed := by
  simp [checkFrame, hl]

theorem checkFrame_of_badCheckWord {f : List Byte} (hl : lengthOk f = true) (hc : ¬ checkWordOk f = true) :
    checkFrame f = .checkError := by
  simp [checkFrame, hl, hc]

theorem checkFrame_of_badKind {f : List Byte} (hl : lengthOk f = true) (hc : checkWordOk f = true)
    (hk : ¬ kindOk f = true) : checkFrame f = .unknownKind := by
  simp [checkFrame, hl, hc, hk]

theorem checkFrame_of_badPayload {f : List Byte} (hl : lengthOk f = true) (hc : checkWordOk f = true)
    (hk : kindOk f = true) (hp : ¬ payloadOk f = true) : checkFrame f = .malformed := by
  simp [checkFrame, hl, hc, hk, hp]

/-! ## The arrival of a frame at an UP port -/

theorem exec_trunkFrameArrival_of_up {p : Port} {s : State} (hup : (s.port p).linkUp = true) (f : List Byte) :
    exec (.trunkFrameArrival p f true) s = .next (receive p f s) := by
  show execTrunkFrameArrival p f true s = _
  simp [execTrunkFrameArrival, hup]

theorem receive_of_malformed {f : List Byte} (h : checkFrame f = .malformed) (p : Port) (s : State) :
    receive p f s = s.withRx p { (s.port p).rx with malformed := bump (s.port p).rx.malformed } := by
  rw [receive, h]; rfl

theorem receive_of_checkError {f : List Byte} (h : checkFrame f = .checkError) (p : Port) (s : State) :
    receive p f s = s.withRx p { (s.port p).rx with checkErrors := bump (s.port p).rx.checkErrors } := by
  rw [receive, h]; rfl

theorem receive_of_unknownKind {f : List Byte} (h : checkFrame f = .unknownKind) (p : Port) (s : State) :
    receive p f s = s.withRx p { (s.port p).rx with unknownKind := bump (s.port p).rx.unknownKind } := by
  rw [receive, h]; rfl

/-- Settles O9, by the check that is the first to fail: the length, the check word, the kind, the payload for the kind.
A frame of the right length has the four bytes of a check word, so check 2 reads the word the statement speaks of. -/
theorem badFramesAreCountedAndDiscarded : Obligations.BadFramesAreCountedAndDiscarded := by
  intro p f s hup c badLength badCheckWord badKind badPayload
  have hcheckWord (hl : ¬ badLength) : checkWordOk f = true ↔ ¬ badCheckWord :=
    (checkWordOk_iff (by omega)).trans Classical.not_not.symm
  rw [exec_trunkFrameArrival_of_up hup]
  refine ⟨fun hl => ?length, fun hl hc => ?checkWord, fun hl hc hk => ?kind, fun hl hc hk hp => ?payload⟩
  case length =>
    have hfail : ¬ lengthOk f = true := fun h => (lengthOk_iff f).mp h hl
    rw [receive_of_malformed (checkFrame_of_badLength hfail)]
  case checkWord =>
    have hfail : ¬ checkWordOk f = true := fun h => (hcheckWord hl).mp h hc
    rw [receive_of_checkError (checkFrame_of_badCheckWord ((lengthOk_iff f).mpr hl) hfail)]
  case kind =>
    have hfail : ¬ kindOk f = true := fun h => (kindOk_iff f).mp h hk
    rw [receive_of_unknownKind
      (checkFrame_of_badKind ((lengthOk_iff f).mpr hl) ((hcheckWord hl).mpr hc) hfail)]
  case payload =>
    have hfail : ¬ payloadOk f = true := fun h => (payloadOk_iff f).mp h hp
    rw [receive_of_malformed
      (checkFrame_of_badPayload ((lengthOk_iff f).mpr hl) ((hcheckWord hl).mpr hc) ((kindOk_iff f).mpr hk) hfail)]

end Sys2Proof.Machine
end

