-- ==== Sys2Proof/Proofs/Arrivals.lean ====
section
/-! An arrival at a reorder window (section 4.2, R63 to R68): what each branch of `Stream.arrive` does, and the obligation
assembled from these. -/

namespace Sys2Proof.Machine

theorem Stream.arrive_of_unset {st : Stream} (hE : st.expected = none) (f : PlayFrame) :
    st.arrive f = (st.openWindow f, []) := by
  simp [Stream.arrive, hE]

section
variable {st : Stream} {e : Half} {f : PlayFrame}

/-! ## Inside the window (R66) -/

theorem Stream.arrive_of_held (hE : st.expected = some e) (hd : (f.seq - e).toNat < st.depthMax)
    (hheld : st.window.getD (f.seq - e).toNat none ≠ none) :
    st.arrive f = ({ st with playout := { st.playout with duplicates := bump st.playout.duplicates } }, []) := by
  have hsome := Option.isSome_iff_ne_none.mpr hheld
  simp only [Stream.arrive, hE, if_pos hd, if_pos hsome]

theorem Stream.arrive_of_concealed (hE : st.expected = some e) (hd : (f.seq - e).toNat < st.depthMax)
    (hfree : st.window.getD (f.seq - e).toNat none = none) (hgap : (f.seq - e).toNat = 0 ∧ st.gap = true) :
    st.arrive f = ({ st with playout := { st.playout with late := bump st.playout.late } }, []) := by
  have hsome := Option.not_isSome_iff_eq_none.mpr hfree
  simp only [Stream.arrive, hE, if_pos hd, if_neg hsome, if_pos hgap]

theorem Stream.arrive_of_free (hE : st.expected = some e) (hd : (f.seq - e).toNat < st.depthMax)
    (hfree : st.window.getD (f.seq - e).toNat none = none) (hgap : ¬ ((f.seq - e).toNat = 0 ∧ st.gap = true)) :
    st.arrive f = (st.storeAt (f.seq - e).toNat f, []) := by
  have hsome := Option.not_isSome_iff_eq_none.mpr hfree
  simp only [Stream.arrive, hE, if_pos hd, if_neg hsome, if_neg hgap]

/-! ## Outside the window (R67, R68) -/

theorem Stream.arrive_of_misplaced (hE : st.expected = some e) (hd : st.depthMax ≤ (f.seq - e).toNat)
    (hrun : st.misplaced + 1 < Config.misplacedLimit) :
    st.arrive f = (st.countMisplaced (f.seq - e).toNat, []) := by
  have hcount : ¬ Config.misplacedLimit ≤ (st.countMisplaced (f.seq - e).toNat).misplaced := Nat.not_le.mpr hrun
  simp only [Stream.arrive, hE, if_neg (Nat.not_lt.mpr hd), if_neg hcount]

theorem Stream.arrive_of_misplacedLimit (hE : st.expected = some e) (hd : st.depthMax ≤ (f.seq - e).toNat)
    (hrun : Config.misplacedLimit ≤ st.misplaced + 1) :
    st.arrive f = ((st.countMisplaced (f.seq - e).toNat).resync f, [(.streamResync, seqDetail f.seq)]) := by
  have hcount : Config.misplacedLimit ≤ (st.countMisplaced (f.seq - e).toNat).misplaced := hrun
  simp only [Stream.arrive, hE, if_neg (Nat.not_lt.mpr hd), if_pos hcount]

end

/-- Settles O13, by the branches of an arrival: E unset (R65), the position held, concealed or free (R66), and the frame
outside the window, below the eighth in a row and at it (R67, R68). -/
theorem arrivalsArePlacedByTheirDistance : Obligations.ArrivalsArePlacedByTheirDistance := by
  intro st f
  refine ⟨fun hE => ?unset, fun e hE => ?set⟩
  case unset => exact Stream.arrive_of_unset hE f
  case set =>
    refine ⟨fun hd hheld => ?duplicate, fun hd hfree h0 hgap => ?concealed, fun hd hfree hgap => ?stored,
      fun hd hrun => ?misplaced, fun hd hrun => ?resync⟩
    case duplicate => exact Stream.arrive_of_held hE hd hheld
    case concealed => exact Stream.arrive_of_concealed hE hd hfree ⟨h0, hgap⟩
    case stored => exact Stream.arrive_of_free hE hd hfree hgap
    case misplaced => exact Stream.arrive_of_misplaced hE hd hrun
    case resync => exact Stream.arrive_of_misplacedLimit hE hd hrun

end Sys2Proof.Machine
end

