-- ==== Sys2Proof/Proofs/OutSlots.lean ====
section
/-! SLOT_ASSIGN and SLOT_QUERY (section 5.5, R109 to R111): what an assignment asks for, what the handlers answer at each
check, the 32 entries that a query reports, and the obligation assembled from these. -/

namespace Sys2Proof.Machine

/-! ## What an assignment asks for (R109) -/

@[simp] theorem byteAt_cons_succ (b : Byte) (a : List Byte) (n : Nat) : byteAt (b :: a) (n + 1) = byteAt a n := rfl

section
variable {l k st ch : Byte}

theorem slotRequest_of_empty (hst : st = 0xFF) : slotRequest [l, k, st, ch] = .empty := by
  subst hst
  rfl

theorem slotRequest_of_badIndex (hst : st ≠ 0xFF) (h : 63 < st.toNat ∨ 15 < ch.toNat) :
    slotRequest [l, k, st, ch] = .badIndex := by
  have hnot : ¬ st.toNat = 0xFF := fun h => hst (BitVec.eq_of_toNat_eq h)
  rcases h with h | h
  · simp [slotRequest, hnot, finOf_eq_none (k := 64) h]
  · cases hi : finOf 64 st.toNat <;> simp [slotRequest, hnot, hi, finOf_eq_none (k := 16) h]

/-- A stream byte that names a stream is not the choice "empty". -/
theorem slotRequest_of_entry {e : OutSlot} (hst : st.toNat = e.stream.val) (hch : ch.toNat = e.channel.val) :
    slotRequest [l, k, st, ch] = .entry e := by
  have hnot : ¬ st.toNat = 0xFF := by omega
  simp only [slotRequest, byteAt_cons_succ, byteAt_cons_zero, if_neg hnot, finOf_val hst, finOf_val hch]

end

/-- Check 2 of an assignment is the law of R108 for the entry. -/
theorem State.slotAllowed_iff (s : State) (l : LaneIdx) (k : Fin 32) (e : OutSlot) :
    s.slotAllowed l k e = true ↔ s.slotOk l k e := by
  simp only [State.slotAllowed, LaneConfig.drives, Bool.and_eq_true, bne_iff_ne, beq_iff_eq, decide_eq_true_eq]
  constructor
  · rintro ⟨⟨⟨⟨⟨hdrives, hslot⟩, hstate⟩, hdirection⟩, hlane⟩, hchannel⟩
    exact ⟨hstate, hdirection, hlane, hchannel, hslot, hdrives⟩
  · rintro ⟨hstate, hdirection, hlane, hchannel, hslot, hdrives⟩
    exact ⟨⟨⟨⟨⟨hdrives, hslot⟩, hstate⟩, hdirection⟩, hlane⟩, hchannel⟩

/-! ## The handler of SLOT_ASSIGN, at each check -/

section
variable {l k st ch : Byte} {lane : LaneIdx} {slot : Fin 32}

theorem slotAssign_of_badPlace (h : 3 < l.toNat ∨ 31 < k.toNat) (s : State) :
    slotAssign [l, k, st, ch] s = (s, { status := .index }) := by
  rcases h with h | h
  · simp [slotAssign, finOf_eq_none (k := 4) h]
  · cases hl : finOf 4 l.toNat <;> simp [slotAssign, hl, finOf_eq_none (k := 32) h]

theorem slotAssign_of_badEntry (h : slotRequest [l, k, st, ch] = .badIndex) (s : State) :
    slotAssign [l, k, st, ch] s = (s, { status := .index }) := by
  cases hl : finOf 4 l.toNat with
  | none => simp [slotAssign, hl]
  | some lane => cases hk : finOf 32 k.toNat <;> simp [slotAssign, hl, hk, h]

theorem slotAssign_of_badIndex (h : 3 < l.toNat ∨ 31 < k.toNat ∨ (st ≠ 0xFF ∧ (63 < st.toNat ∨ 15 < ch.toNat)))
    (s : State) : slotAssign [l, k, st, ch] s = (s, { status := .index }) := by
  obtain hl | hk | ⟨hst, hentry⟩ := h
  · exact slotAssign_of_badPlace (.inl hl) s
  · exact slotAssign_of_badPlace (.inr hk) s
  · exact slotAssign_of_badEntry (slotRequest_of_badIndex hst hentry) s

theorem slotAssign_of_empty (hl : l.toNat = lane.val) (hk : k.toNat = slot.val) (hst : st = 0xFF) (s : State) :
    slotAssign [l, k, st, ch] s = writeSlot lane slot none s := by
  simp [slotAssign, finOf_val hl, finOf_val hk, slotRequest_of_empty hst]

variable {e : OutSlot}

theorem slotAssign_of_slotOk (hl : l.toNat = lane.val) (hk : k.toNat = slot.val) (hst : st.toNat = e.stream.val)
    (hch : ch.toNat = e.channel.val) {s : State} (hok : s.slotOk lane slot e) :
    slotAssign [l, k, st, ch] s = writeSlot lane slot (some e) s := by
  simp [slotAssign, finOf_val hl, finOf_val hk, slotRequest_of_entry hst hch, (s.slotAllowed_iff lane slot e).mpr hok]

theorem slotAssign_of_not_slotOk (hl : l.toNat = lane.val) (hk : k.toNat = slot.val) (hst : st.toNat = e.stream.val)
    (hch : ch.toNat = e.channel.val) {s : State} (hok : ¬ s.slotOk lane slot e) :
    slotAssign [l, k, st, ch] s = (s, { status := .value }) := by
  have hno : ¬ s.slotAllowed lane slot e = true := mt (s.slotAllowed_iff lane slot e).mp hok
  simp [slotAssign, finOf_val hl, finOf_val hk, slotRequest_of_entry hst hch, hno]

end

/-! ## The handler of SLOT_QUERY -/

theorem slotQuery_of_badIndex {l : Byte} (h : 3 < l.toNat) (s : State) :
    slotQuery [l] s = (s, { status := .index }) := by
  simp [slotQuery, finOf_eq_none (k := 4) h]

theorem slotQuery_of_lane {l : Byte} {lane : LaneIdx} (hl : l.toNat = lane.val) (s : State) :
    slotQuery [l] s = (s, { status := .ok, results := (s.lane lane).queryBytes }) := by
  simp [slotQuery, finOf_val hl]

/-- The elements of a vector with their positions, as a list over its indices. -/
theorem mapIdx_toList_eq_map_finRange {α β : Type} {n : Nat} (v : Vector α n) (f : Nat → α → β) :
    v.toList.mapIdx f = (List.finRange n).map fun i => f i.val (v.get i) := by
  refine List.ext_getElem (by simp) fun i h₁ h₂ => ?_
  simp [Vector.get]

/-- The entries of R111, slot by slot: those at or beyond the slot count are reported empty. -/
theorem Lane.queryBytes_eq (x : Lane) :
    x.queryBytes =
      x.config.bytes ++ bytesOf [x.state.code]
        ++ (List.finRange 32).flatMap fun k =>
          outSlotBytes (if k.val < x.config.slots then x.outTable.get k else none) := by
  rw [Lane.queryBytes, mapIdx_toList_eq_map_finRange, List.flatMap_map]

/-! ## The commands -/

/-- A part stays settled when only a lane is written: no lane concerns the arbiters. -/
theorem State.settled_setLane {s : State} (h : s.settled) (l : LaneIdx) (x : Lane) : (s.setLane l x).settled := h

/-- A framed request that is not a DEVICE_RESET replies what its handler answers on the state with the head taken off. -/
theorem runRequest_replied {s u : State} {rq : Request} {rest : List Request} {c : RequestCode} {a : Answer}
    {handler : List Byte → State → State × Answer} (hx : s.executes rq rest) (hc : RequestCode.ofByte rq.code = some c)
    (hreset : rq.code ≠ 0x14) (hframed : c.framed rq.args = true) (hhandler : handler rq.args (s.taken rest) = (u, a))
    (hu : u.settled) : runRequest (some c) handler s = u.replied rq (rq.code :: a.status.code :: a.results) :=
  runRequest_answers hx hc handler ((carryOut_of_framed hframed handler _).trans hhandler) hu
    (.inr fun h => hreset (List.head_eq_of_cons_eq h))

theorem exec_slotAssign_replied {s u : State} {rq : Request} {rest : List Request} {l k st ch : Byte} {a : Answer}
    (hx : s.executes rq rest) (hcode : rq.code = 0x09) (hargs : rq.args = [l, k, st, ch])
    (hassign : slotAssign [l, k, st, ch] (s.taken rest) = (u, a)) (hu : u.settled) :
    exec .slotAssign s = .next (u.replied rq (0x09 :: a.status.code :: a.results)) := by
  have hrun := runRequest_replied (c := .slotAssign) hx (by rw [hcode]; rfl) (by simp [hcode]) (by rw [hargs]; rfl)
    (hargs ▸ hassign) hu
  rw [hcode] at hrun
  exact congrArg Host.Outcome.next hrun

/-- An assignment that is accepted writes the entry and replies the one it replaces (R110). -/
theorem exec_slotAssign_writes {s : State} {rq : Request} {rest : List Request} {l k st ch : Byte} {lane : LaneIdx}
    {slot : Fin 32} {e : Option OutSlot} (hs : s.settled) (hx : s.executes rq rest) (hcode : rq.code = 0x09)
    (hargs : rq.args = [l, k, st, ch])
    (hassign : slotAssign [l, k, st, ch] (s.taken rest) = writeSlot lane slot e (s.taken rest)) :
    exec .slotAssign s =
      .next (((s.taken rest).setLane lane
          { s.lane lane with outTable := (s.lane lane).outTable.set slot e }).replied rq
        (0x09 :: 0x00 :: outSlotBytes ((s.lane lane).outTable.get slot))) :=
  exec_slotAssign_replied hx hcode hargs hassign (State.settled_setLane (State.settled_taken hs rest) _ _)

theorem exec_slotQuery_replied {s u : State} {rq : Request} {rest : List Request} {l : Byte} {a : Answer}
    (hx : s.executes rq rest) (hcode : rq.code = 0x0A) (hargs : rq.args = [l])
    (hquery : slotQuery [l] (s.taken rest) = (u, a)) (hu : u.settled) :
    exec .slotQuery s = .next (u.replied rq (0x0A :: a.status.code :: a.results)) := by
  have hrun := runRequest_replied (c := .slotQuery) hx (by rw [hcode]; rfl) (by simp [hcode]) (by rw [hargs]; rfl)
    (hargs ▸ hquery) hu
  rw [hcode] at hrun
  exact congrArg Host.Outcome.next hrun

/-- Settles O43, by the cases of the two handlers: of an assignment a bad index, "empty", and an entry that R108 allows or
does not; of a query a bad index and a lane. -/
theorem slotsAreAssignedAndReported : Obligations.SlotsAreAssignedAndReported := by
  intro s rq rest hs hx shown
  have htaken : (s.taken rest).settled := State.settled_taken hs rest
  have hshown : shown = outSlotBytes := by
    funext e
    cases e <;> rfl
  rw [hshown]
  refine ⟨fun l k st ch hcode hargs => ⟨fun hbad => ?badAssign, fun lane slot hl hk => ⟨fun hst => ?empty,
    fun e hst hch => ⟨fun hok => ?allowed, fun hok => ?notAllowed⟩⟩⟩,
    fun l hcode hargs => ⟨fun hbad => ?badQuery, fun lane hl => ?report⟩⟩
  case badAssign => exact exec_slotAssign_replied hx hcode hargs (slotAssign_of_badIndex hbad _) htaken
  case empty => exact exec_slotAssign_writes hs hx hcode hargs (slotAssign_of_empty hl hk hst _)
  case allowed => exact exec_slotAssign_writes hs hx hcode hargs (slotAssign_of_slotOk hl hk hst hch hok)
  case notAllowed => exact exec_slotAssign_replied hx hcode hargs (slotAssign_of_not_slotOk hl hk hst hch hok) htaken
  case badQuery => exact exec_slotQuery_replied hx hcode hargs (slotQuery_of_badIndex hbad _) htaken
  case report =>
    have hreply := exec_slotQuery_replied hx hcode hargs (slotQuery_of_lane hl _) htaken
    rw [Lane.queryBytes_eq] at hreply
    exact hreply

end Sys2Proof.Machine
end

