-- ==== Sys2Proof/Proofs/Arbiters.lean ====
section
/-! A run of an arbiter (sections 8.2, 8.3 and 8.8, R149 to R153, R162): what is eligible at a port, whom a choice falls
on, what a grant marks, why the runs of the two ports commute, and the obligation assembled from these. -/

namespace Sys2Proof.Machine

/-! ## What is eligible at a port (R149) -/

theorem ReadyFrame.owedOn_iff (p : Port) (f : ReadyFrame) :
    f.owedOn p = true ↔ f.pendingOn.get p = true ∧ f.inTx.get p = false := by
  simp [ReadyFrame.owedOn]

theorem Stream.eligibleAt_iff (p : Port) (st : Stream) : st.eligibleAt p = true ↔ st.owes p := by
  simp only [Stream.eligibleAt, Bool.and_eq_true, beq_iff_eq, List.any_eq_true, ReadyFrame.owedOn_iff]

theorem State.mem_eligible {s : State} {p : Port} {i : StreamIdx} : i ∈ s.eligible p ↔ (s.stream i).owes p := by
  simp [State.eligible, State.streamsWhere, streamIndices, Stream.eligibleAt_iff]

theorem State.eligible_eq_nil {s : State} {p : Port} (h : ∀ i, ¬ (s.stream i).owes p) : s.eligible p = [] :=
  List.eq_nil_iff_forall_not_mem.mpr fun i hi => h i (State.mem_eligible.mp hi)

theorem State.eligible_sorted (s : State) (p : Port) : (s.eligible p).Pairwise (· < ·) := by
  unfold State.eligible State.streamsWhere
  exact (List.pairwise_lt_finRange 64).filter _

/-! ## The lowest index within a level (R153) -/

/-- In an ascending list the first element that meets a condition is the least that meets it. -/
theorem find?_eq_some_of_sorted {n : Nat} {is : List (Fin n)} (hsorted : is.Pairwise (· < ·)) {f : Fin n → Bool}
    {i : Fin n} (hi : i ∈ is) (hf : f i = true) (hleast : ∀ j ∈ is, f j = true → i ≤ j) : is.find? f = some i := by
  obtain ⟨before, behind, rfl⟩ := List.append_of_mem hi
  refine List.find?_eq_some_iff_append.mpr ⟨hf, before, behind, rfl, fun j hj => ?_⟩
  have hlt : j < i := (List.pairwise_append.mp hsorted).2.2 j hj i List.mem_cons_self
  have hno : ¬ f j = true := fun h => absurd hlt (Fin.not_lt.mpr (hleast j (List.mem_append_left _ hj) h))
  simpa using hno

theorem State.firstAt_eq_some {s : State} {p : Port} {i : StreamIdx} (hi : (s.stream i).owes p)
    (hleast : ∀ j : StreamIdx, (s.stream j).owes p → (s.stream j).level = (s.stream i).level → i ≤ j) :
    s.firstAt (s.eligible p) (s.stream i).level = some i :=
  find?_eq_some_of_sorted (s.eligible_sorted p) (State.mem_eligible.mpr hi) (beq_self_eq_true _)
    fun j hj hlevel => hleast j (State.mem_eligible.mp hj) (beq_iff_eq.mp hlevel)

theorem State.firstAt_eq_none {s : State} {p : Port} {level : Nat}
    (h : ∀ j : StreamIdx, (s.stream j).owes p → (s.stream j).level ≠ level) :
    s.firstAt (s.eligible p) level = none := by
  refine List.find?_eq_none.mpr fun j hj hlevel => ?_
  exact h j (State.mem_eligible.mp hj) (beq_iff_eq.mp hlevel)

/-! ## The choice among the levels (R151, R152) -/

/-- What a level is offered in an arbitration: its first stream when the level has credit. -/
def State.offer (s : State) (is : List StreamIdx) (credit : Nat → Nat) (level : Nat) : Option StreamIdx :=
  if 0 < credit level then s.firstAt is level else none

theorem State.creditChoice_eq (s : State) (is : List StreamIdx) (c : Credits) :
    s.creditChoice is c = [2, 1, 0].findSome? (s.offer is c.of) := rfl

/-- STRICT mode is the choice by credit in which every level always has one. -/
theorem State.strictChoice_eq (s : State) (is : List StreamIdx) :
    s.strictChoice is = [2, 1, 0].findSome? (s.offer is fun _ => 1) := rfl

/-- A stream that is eligible at a port, at the highest level with credit and first within it (R151 to R153). -/
def State.leads (s : State) (p : Port) (credit : Nat → Nat) (i : StreamIdx) : Prop :=
  (s.stream i).owes p ∧ (s.stream i).level ≤ 2 ∧ 0 < credit (s.stream i).level
    ∧ ∀ j : StreamIdx, (s.stream j).owes p → (s.stream j).level ≤ 2 → 0 < credit (s.stream j).level →
        (s.stream j).level < (s.stream i).level ∨ ((s.stream j).level = (s.stream i).level ∧ i.val ≤ j.val)

theorem State.offer_of_leads {s : State} {p : Port} {credit : Nat → Nat} {i : StreamIdx} (h : s.leads p credit i) :
    s.offer (s.eligible p) credit (s.stream i).level = some i := by
  obtain ⟨howes, hlevel, hcredit, hbest⟩ := h
  rw [State.offer, if_pos hcredit]
  refine State.firstAt_eq_some howes fun j hj hsame => ?_
  obtain hlower | ⟨-, hfirst⟩ := hbest j hj (hsame ▸ hlevel) (hsame ▸ hcredit)
  · exact absurd hsame (Nat.ne_of_lt hlower)
  · exact hfirst

/-- A level is offered nothing when it has no credit or no eligible stream. -/
theorem State.offer_eq_none {s : State} {p : Port} {credit : Nat → Nat} {level : Nat}
    (h : 0 < credit level → ∀ j : StreamIdx, (s.stream j).owes p → (s.stream j).level ≠ level) :
    s.offer (s.eligible p) credit level = none := by
  unfold State.offer
  split
  case isTrue hcredit => exact State.firstAt_eq_none (h hcredit)
  case isFalse => rfl

/-- Above the level of the stream that leads nothing is offered. -/
theorem State.offer_above_leads {s : State} {p : Port} {credit : Nat → Nat} {i : StreamIdx} (h : s.leads p credit i)
    {level : Nat} (hle : level ≤ 2) (habove : (s.stream i).level < level) :
    s.offer (s.eligible p) credit level = none := by
  obtain ⟨-, -, -, hbest⟩ := h
  refine State.offer_eq_none fun hcredit j hj hlevel => ?_
  subst hlevel
  have := hbest j hj hle hcredit
  omega

theorem State.findSome?_offer_of_leads {s : State} {p : Port} {credit : Nat → Nat} {i : StreamIdx}
    (h : s.leads p credit i) : [2, 1, 0].findSome? (s.offer (s.eligible p) credit) = some i := by
  have hself := State.offer_of_leads h
  have habove := fun level => State.offer_above_leads h (level := level)
  obtain ⟨-, hlevel, -, -⟩ := h
  obtain h2 | h1 | h0 : (s.stream i).level = 2 ∨ (s.stream i).level = 1 ∨ (s.stream i).level = 0 := by omega
  · simp [h2 ▸ hself]
  · simp [habove 2, h1, h1 ▸ hself]
  · simp [habove 2, habove 1, h0, h0 ▸ hself]

/-- Without credit at any level that has an eligible frame no choice is made, and the credits are reloaded (R152). -/
theorem State.creditChoice_eq_none {s : State} {p : Port} {c : Credits}
    (h : ∀ j : StreamIdx, (s.stream j).owes p → (s.stream j).level ≤ 2 → c.of (s.stream j).level = 0) :
    s.creditChoice (s.eligible p) c = none := by
  rw [State.creditChoice_eq, List.findSome?_eq_none_iff]
  intro level hmem
  have hle : level ≤ 2 := by simp at hmem; omega
  refine State.offer_eq_none fun hcredit j hj hlevel => ?_
  subst hlevel
  exact absurd (h j hj hle) (Nat.ne_of_gt hcredit)

theorem State.choose_of_strict {s : State} {p : Port} {i : StreamIdx} (hmode : (s.port p).mode = .strict)
    (h : s.leads p (fun _ => 1) i) : s.choose p = some (i, (s.port p).credits) := by
  simp [State.choose, hmode, State.strictChoice_eq, State.findSome?_offer_of_leads h]

theorem State.choose_of_credit {s : State} {p : Port} {i : StreamIdx} (hmode : (s.port p).mode = .weighted)
    (h : s.leads p (s.port p).credits.of i) :
    s.choose p = some (i, (s.port p).credits.spend (s.stream i).level) := by
  simp [State.choose, hmode, State.weightedChoice, State.creditChoice_eq, State.findSome?_offer_of_leads h]

theorem State.choose_of_reload {s : State} {p : Port} {i : StreamIdx} (hmode : (s.port p).mode = .weighted)
    (hspent : ∀ j : StreamIdx, (s.stream j).owes p → (s.stream j).level ≤ 2 →
      (s.port p).credits.of (s.stream j).level = 0)
    (h : s.leads p (Credits.of {}) i) : s.choose p = some (i, Credits.spend {} (s.stream i).level) := by
  have hnone := State.creditChoice_eq_none hspent
  have hsome : s.creditChoice (s.eligible p) {} = some i := State.findSome?_offer_of_leads h
  simp [State.choose, hmode, State.weightedChoice, hnone, hsome]

/-! ## The credits by level -/

theorem Credits.of_eq (c : Credits) :
    c.of = fun level => if level = 2 then c.l2 else if level = 1 then c.l1 else c.l0 := by
  funext level
  match level with
  | 0 | 1 | 2 => rfl
  | n + 3 => simp [Credits.of]

theorem Credits.spend_eq (c : Credits) (level : Nat) :
    c.spend level =
      if level = 2 then { c with l2 := c.l2 - 1 }
      else if level = 1 then { c with l1 := c.l1 - 1 }
      else { c with l0 := c.l0 - 1 } := by
  match level with
  | 0 | 1 | 2 => rfl
  | n + 3 => simp [Credits.spend]

/-! ## The frame a grant marks (R149, R153) -/

theorem markGranted_of_owed {p : Port} {f : ReadyFrame} (h : f.owedOn p = true) (fs : List ReadyFrame) :
    markGranted p (f :: fs) = { f with inTx := f.inTx.set p true } :: fs := by
  simp [markGranted, h]

theorem markGranted_of_not_owed {p : Port} {f : ReadyFrame} (h : ¬ f.owedOn p = true) (fs : List ReadyFrame) :
    markGranted p (f :: fs) = f :: markGranted p fs := by
  simp [markGranted, h]

theorem markGranted_append {p : Port} {before : List ReadyFrame} (h : ∀ v ∈ before, ¬ v.owedOn p = true)
    (fs : List ReadyFrame) : markGranted p (before ++ fs) = before ++ markGranted p fs := by
  induction before with
  | nil => rfl
  | cons v before ih =>
    obtain ⟨hv, hbefore⟩ := List.forall_mem_cons.mp h
    rw [List.cons_append, markGranted_of_not_owed hv, ih hbefore, List.cons_append]

/-- A grant to a stream that owes the port a frame marks the oldest such frame. -/
theorem grantSample_of_owes {s : State} {p : Port} {i : StreamIdx} (h : (s.stream i).owes p) (c : Credits) :
    ∃ before f behind, (s.stream i).ready = before ++ f :: behind
      ∧ (∀ v ∈ before, ¬ (v.pendingOn.get p = true ∧ v.inTx.get p = false))
      ∧ f.pendingOn.get p = true ∧ f.inTx.get p = false
      ∧ grantSample p i c s = (s.setStream i
          { s.stream i with ready := before ++ { f with inTx := f.inTx.set p true } :: behind }).setPort p
            { s.port p with tx := .sample i, credits := c } := by
  obtain ⟨-, v, hv, howed⟩ := h
  have hsome : ((s.stream i).ready.find? (ReadyFrame.owedOn p)).isSome = true :=
    List.find?_isSome.mpr ⟨v, hv, (ReadyFrame.owedOn_iff p v).mpr howed⟩
  obtain ⟨f, hf⟩ := Option.isSome_iff_exists.mp hsome
  obtain ⟨hfowed, before, behind, hready, hbefore⟩ := List.find?_eq_some_iff_append.mp hf
  have hskip : ∀ w ∈ before, ¬ w.owedOn p = true := fun w hw => by simpa using hbefore w hw
  obtain ⟨hpending, hfree⟩ := (ReadyFrame.owedOn_iff p f).mp hfowed
  refine ⟨before, f, behind, hready, fun w hw howes => hskip w hw ((ReadyFrame.owedOn_iff p w).mpr howes),
    hpending, hfree, ?_⟩
  rw [grantSample, hready, markGranted_append hskip, markGranted_of_owed hfowed]

/-! ## One run of an arbiter (R150, R151) -/

section
variable {s : State} {p : Port}

theorem runArbiter_of_not_free (h : (s.port p).linkUp = false ∨ (s.port p).tx ≠ .idle) : runArbiter p s = s := by
  refine runArbiter_of_settledAt fun hup hidle => ?_
  obtain hdown | hbusy := h
  · exact absurd hup (by simp [hdown])
  · exact absurd hidle hbusy

theorem runArbiter_of_reply (hup : (s.port p).linkUp = true) (hidle : (s.port p).tx = .idle)
    (hreplies : (s.port p).replies ≠ []) : runArbiter p s = s.setPort p { s.port p with tx := .reply } := by
  simp [runArbiter, hup, hidle, hreplies]

theorem runArbiter_of_nothing_owed (hreplies : (s.port p).replies = []) (hnone : ∀ i, ¬ (s.stream i).owes p) :
    runArbiter p s = s := by
  refine runArbiter_of_settledAt fun _ _ => ⟨hreplies, fun i hcapture f hf => ?_⟩
  exact fun hpending => by simpa using fun hfree => hnone i ⟨hcapture, f, hf, hpending, hfree⟩

theorem runArbiter_of_choose {i : StreamIdx} {c : Credits} (hup : (s.port p).linkUp = true)
    (hidle : (s.port p).tx = .idle) (hreplies : (s.port p).replies = []) (hchoose : s.choose p = some (i, c)) :
    runArbiter p s = grantSample p i c s := by
  simp [runArbiter, hup, hidle, hreplies, hchoose]

end

/-! ## The runs of the two ports do not order against one another (R162) -/

/-- What a run of a port's arbiter gives the port: its transmitter's frame and the credits after the grant, or nothing. -/
def State.award (s : State) (p : Port) : Option (Transmitter × Credits) :=
  if (s.port p).linkUp && (s.port p).tx == .idle then
    if (s.port p).replies.isEmpty then (s.choose p).map fun (i, c) => (.sample i, c)
    else some (.reply, (s.port p).credits)
  else none

/-- Mark the frame that a port's transmitter takes from its stream. -/
def State.markFor (s : State) (p : Port) : Transmitter → State
  | .sample i => s.setStream i { s.stream i with ready := markGranted p (s.stream i).ready }
  | _ => s

/-- Carry out an award. -/
def State.carryAward (s : State) (p : Port) : Option (Transmitter × Credits) → State
  | some (t, c) => (s.markFor p t).setPort p { s.port p with tx := t, credits := c }
  | none => s

theorem runArbiter_eq_carryAward (p : Port) (s : State) : runArbiter p s = s.carryAward p (s.award p) := by
  unfold runArbiter State.award
  dsimp only
  split
  · split
    · cases s.choose p <;> rfl
    · rfl
  · rfl

@[simp] theorem State.port_markFor (s : State) (p q : Port) (t : Transmitter) : (s.markFor p t).port q = s.port q := by
  cases t <;> rfl

theorem State.markFor_setPort (s : State) (p q : Port) (x : PortState) (t : Transmitter) :
    (s.setPort p x).markFor q t = (s.markFor q t).setPort p x := by
  cases t <;> rfl

theorem State.setStream_comm (s : State) {i j : StreamIdx} (hij : j ≠ i) (x y : Stream) :
    (s.setStream i x).setStream j y = (s.setStream j y).setStream i x := by
  have hval : i.val ≠ j.val := fun h => hij (Fin.ext h.symm)
  simp only [State.setStream, Vector.set_comm x y hval]

theorem runArbiter_level (p : Port) (s : State) (i : StreamIdx) :
    ((runArbiter p s).stream i).level = (s.stream i).level := by
  obtain ⟨r, hstream, -⟩ := runArbiter_stream p s i
  rw [hstream]

theorem runArbiter_firstAt (p : Port) (s : State) (is : List StreamIdx) :
    (runArbiter p s).firstAt is = s.firstAt is := by
  funext level
  simp only [State.firstAt, runArbiter_level]

section
variable {p q : Port} (hne : q ≠ p)
include hne

/-! ### What one port is awarded does not depend on the grant of the other -/

/-- A mark for one port leaves what a frame owes the other. -/
theorem ReadyFrame.owedOn_mark (f : ReadyFrame) :
    ({ f with inTx := f.inTx.set p true } : ReadyFrame).owedOn q = f.owedOn q := by
  simp [ReadyFrame.owedOn, hne]

theorem markGranted_any_owedOn (fs : List ReadyFrame) :
    (markGranted p fs).any (ReadyFrame.owedOn q) = fs.any (ReadyFrame.owedOn q) := by
  induction fs with
  | nil => rfl
  | cons f fs ih =>
    by_cases hf : f.owedOn p = true
    · simp [markGranted_of_owed hf, ReadyFrame.owedOn_mark hne]
    · simp [markGranted_of_not_owed hf, ih]

theorem runArbiter_eligible (s : State) : (runArbiter p s).eligible q = s.eligible q := by
  unfold State.eligible State.streamsWhere
  refine List.filter_congr fun i _ => ?_
  obtain ⟨r, hstream, rfl | rfl⟩ := runArbiter_stream p s i
  · rw [hstream]
  · simp [hstream, Stream.eligibleAt, markGranted_any_owedOn hne]

theorem runArbiter_choose (s : State) : (runArbiter p s).choose q = s.choose q := by
  simp only [State.choose, State.strictChoice, State.weightedChoice, State.creditChoice, runArbiter_firstAt,
    runArbiter_eligible hne, runArbiter_level, runArbiter_port_ne s hne]

theorem runArbiter_award (s : State) : (runArbiter p s).award q = s.award q := by
  simp only [State.award, runArbiter_choose hne, runArbiter_port_ne s hne]

/-! ### The grants of the two ports commute -/

theorem PerPort.set_comm {α : Type} (x : PerPort α) (a b : α) : (x.set p a).set q b = (x.set q b).set p a := by
  match p, q, hne with
  | .ta, .tb, _ | .tb, .ta, _ => rfl

theorem State.setPort_comm (s : State) (x y : PortState) :
    (s.setPort p x).setPort q y = (s.setPort q y).setPort p x := by
  simp only [State.setPort, PerPort.set_comm hne]

theorem markGranted_comm (fs : List ReadyFrame) :
    markGranted q (markGranted p fs) = markGranted p (markGranted q fs) := by
  induction fs with
  | nil => rfl
  | cons f fs ih =>
    have hq := ReadyFrame.owedOn_mark hne f
    have hp := ReadyFrame.owedOn_mark hne.symm f
    by_cases howedP : f.owedOn p = true
    · by_cases howedQ : f.owedOn q = true
      · simp [markGranted, howedP, howedQ, hp, hq, PerPort.set_comm hne]
      · simp [markGranted, howedP, howedQ, hq]
    · by_cases howedQ : f.owedOn q = true
      · simp [markGranted, howedP, howedQ, hp]
      · simp [markGranted, howedP, howedQ, ih]

theorem State.markFor_comm (s : State) (t u : Transmitter) :
    (s.markFor p t).markFor q u = (s.markFor q u).markFor p t := by
  match t, u with
  | .idle, _ | .reply, _ | .abortGap, _ => rfl
  | .sample _, .idle | .sample _, .reply | .sample _, .abortGap => rfl
  | .sample i, .sample j =>
    by_cases hij : j = i
    · subst hij
      simp [State.markFor, markGranted_comm hne]
    · simp [State.markFor, hij, Ne.symm hij, State.setStream_comm s hij]

theorem State.carryAward_comm (s : State) (a b : Option (Transmitter × Credits)) :
    (s.carryAward p a).carryAward q b = (s.carryAward q b).carryAward p a := by
  match a, b with
  | none, _ | some _, none => rfl
  | some (t, c), some (u, d) =>
    simp only [State.carryAward, State.markFor_setPort, State.port_markFor, State.port_setPort_ne _ _ hne,
      State.port_setPort_ne _ _ hne.symm]
    rw [State.markFor_comm hne, State.setPort_comm hne]

theorem runArbiter_comm (s : State) : runArbiter q (runArbiter p s) = runArbiter p (runArbiter q s) :=
  calc runArbiter q (runArbiter p s)
    _ = (s.carryAward p (s.award p)).carryAward q (s.award q) := by
      rw [runArbiter_eq_carryAward q, runArbiter_award hne, runArbiter_eq_carryAward p]
    _ = (s.carryAward q (s.award q)).carryAward p (s.award p) := State.carryAward_comm hne s _ _
    _ = runArbiter p (runArbiter q s) := by
      rw [runArbiter_eq_carryAward p (runArbiter q s), runArbiter_award hne.symm, runArbiter_eq_carryAward q]

end

/-- Settles O23: the runs of the two ports commute since neither changes what the other is awarded and their grants write
apart; one run by whether the port is free, has a reply, has nothing owed, or chooses by level, by credit or after the
reload. -/
theorem arbitersGrantByReplyLevelAndCredit : Obligations.ArbitersGrantByReplyLevelAndCredit := by
  refine ⟨fun s => ⟨rfl, runArbiter_comm (p := .ta) (q := .tb) (by decide) s⟩, ?_⟩
  intro p s x best credit spent granted
  have hgranted {i : StreamIdx} {c : Credits} (hup : x.linkUp = true) (hidle : x.tx = .idle)
      (hreplies : x.replies = []) (howes : (s.stream i).owes p) (hchoose : s.choose p = some (i, c)) :
      granted i c (runArbiter p s) := by
    rw [runArbiter_of_choose hup hidle hreplies hchoose]
    exact grantSample_of_owes howes c
  have hcredit (c : Credits) : credit c = c.of := (Credits.of_eq c).symm
  have hspent (c : Credits) (level : Nat) : spent c level = c.spend level := (Credits.spend_eq c level).symm
  simp only [hcredit, hspent]
  refine ⟨runArbiter_of_not_free, fun hup hidle => ⟨runArbiter_of_reply hup hidle, runArbiter_of_nothing_owed,
    fun hreplies hmode i hbest => ?strict, fun hreplies hmode i hbest => ?weighted,
    fun hreplies hmode hnone i hbest => ?reloaded⟩⟩
  case strict => exact hgranted hup hidle hreplies hbest.1 (State.choose_of_strict hmode hbest)
  case weighted => exact hgranted hup hidle hreplies hbest.1 (State.choose_of_credit hmode hbest)
  case reloaded => exact hgranted hup hidle hreplies hbest.1 (State.choose_of_reload hmode hnone hbest)

end Sys2Proof.Machine
end

