-- ==== Sys2Proof/Proofs/UnknownTags.lean ====
section
/-! A good SAMPLE frame whose tag matches no entry (sections 3.5 and 9.1, R49, R50, R164 to R166): how a good frame passes
the checks, what the tag lookup finds, the samples counted for a record, the three outcomes at the Discovery List, and the
obligation assembled from these. -/

namespace Sys2Proof.Machine

/-! ## A good frame passes the checks (R47, R48) -/

theorem checkFrame_of_goodFrame {f : List Byte} {kind : Nat} (h : GoodFrame f kind) : checkFrame f = .good := by
  obtain ⟨hmin, hmax, hpayload, hword, hkind, hforKind⟩ := h
  have hl : lengthOk f = true := (lengthOk_iff f).mpr (by omega)
  have hc : checkWordOk f = true := (checkWordOk_iff (by omega)).mpr hword
  have hk : kindOk f = true := (kindOk_iff f).mpr (by omega)
  have hp : payloadOk f = true := (payloadOk_iff f).mpr (by omega)
  simp [checkFrame, hl, hc, hk, hp]

theorem frameKind_of_goodFrame {f : List Byte} {kind : Nat} (h : GoodFrame f kind) : frameKind f = kind := by
  obtain ⟨_, _, _, _, hkind, _⟩ := h
  exact hkind

theorem exec_trunkFrameArrival_of_goodFrame {p : Port} {s : State} (hup : (s.port p).linkUp = true) {f : List Byte}
    {kind : Nat} (h : GoodFrame f kind) : exec (.trunkFrameArrival p f true) s = .next (receiveGood p f s) := by
  rw [exec_trunkFrameArrival_of_up hup, receive, checkFrame_of_goodFrame h]

theorem receiveGood_of_sample {f : List Byte} (h : GoodFrame f 0x51) (p : Port) (s : State) :
    receiveGood p f s = receiveSample p f (s.countRx p fun c => { c with good := bump c.good }) :=
  if_pos (frameKind_of_goodFrame h)

/-! ## The tag lookup (R49) -/

theorem State.lookup_zero (s : State) : s.lookup 0 = none := if_pos rfl

theorem State.lookup_of_unmatched {s : State} {tag : Word}
    (h : ∀ i : StreamIdx, (s.stream i).state ≠ .empty → (s.stream i).tag ≠ tag) : s.lookup tag = none := by
  unfold State.lookup
  split
  · rfl
  · refine List.find?_eq_none.mpr fun i _ hfound => ?_
    obtain ⟨hused, htag⟩ := Bool.and_eq_true_iff.mp hfound
    exact h i (bne_iff_ne.mp hused) (beq_iff_eq.mp htag)

@[simp] theorem State.lookup_countRx (s : State) (p : Port) (g : RxCounters → RxCounters) (tag : Word) :
    (s.countRx p g).lookup tag = s.lookup tag := rfl

/-! ## A SAMPLE frame whose tag matches no entry (R50) -/

/-- Two counts at one port are one write of its counters. -/
theorem State.countRx_countRx (s : State) (p : Port) (g h : RxCounters → RxCounters) :
    (s.countRx p g).countRx p h = s.withRx p (h (g (s.port p).rx)) := by
  simp [State.countRx, State.withRx]

theorem receiveSample_of_lookup_none {f : List Byte} {s : State} (h : s.lookup (frameTag f) = none) (p : Port) :
    receiveSample p f s =
      let counted := s.countRx p fun c => { c with unknownTag := bump c.unknownTag }
      if frameTag f = 0 then counted else discover p f counted := by
  rw [receiveSample, h]

theorem exec_trunkFrameArrival_of_lookup_none {p : Port} {f : List Byte} {s : State} (hup : (s.port p).linkUp = true)
    (hgood : GoodFrame f 0x51) (h : s.lookup (frameTag f) = none) :
    exec (.trunkFrameArrival p f true) s =
      let c := (s.port p).rx
      let counted := s.withRx p { c with good := bump c.good, unknownTag := bump c.unknownTag }
      .next (if frameTag f = 0 then counted else discover p f counted) := by
  rw [exec_trunkFrameArrival_of_goodFrame hup hgood, receiveGood_of_sample hgood,
    receiveSample_of_lookup_none (by rw [State.lookup_countRx, h]), State.countRx_countRx]

/-! ## The samples a receiver counts (R43, R50) -/

theorem widthOfCode_of_le {c : Nat} (h : c ≤ 2) : ∃ w : Width, widthOfCode c = some w ∧ w.bytes = c + 2 := by
  match c, h with
  | 0, _ => exact ⟨.w16, rfl, rfl⟩
  | 1, _ => exact ⟨.w24, rfl, rfl⟩
  | 2, _ => exact ⟨.w32, rfl, rfl⟩

theorem widthOfCode_eq_none {c : Nat} (h : 2 < c) : widthOfCode c = none := by
  match c, h with
  | _ + 3, _ => rfl

theorem frameChannels_eq_zero_iff (f : List Byte) : frameChannels f = 0 ↔ byteAt f 12 = 0 := BitVec.toNat_inj.symm

theorem observedSamples_eq (f : List Byte) :
    observedSamples f =
      if byteAt f 12 = 0 ∨ 2 < byteAt f 13 then 0 else beAt f 14 2 / (byteAt f 12 * (byteAt f 13 + 2)) := by
  have hcode : (frameWidthCode f).toNat = byteAt f 13 := rfl
  unfold observedSamples
  rw [hcode]
  by_cases hwidth : 2 < byteAt f 13
  · simp [widthOfCode_eq_none hwidth, hwidth]
  · obtain ⟨w, hw, hbytes⟩ := widthOfCode_of_le (Nat.not_lt.mp hwidth)
    simp only [hw, hbytes, frameChannels_eq_zero_iff, hwidth, or_false]
    rfl

/-! ## One arrival at the Discovery List (R165, R166) -/

section
variable {f : List Byte} {s : State}

theorem discover_of_known (h : ∃ r ∈ s.discovery.records, r.tag = frameTag f) (p : Port) :
    discover p f s =
      s.setDiscovery
        { s.discovery with
          records := s.discovery.records.map fun r => if r.tag = frameTag f then r.update p f else r } := by
  have hany : s.discovery.records.any (·.tag == frameTag f) = true := by simpa using h
  simp only [discover, if_pos hany, beq_iff_eq]

theorem discover_of_new (h : ∀ r ∈ s.discovery.records, r.tag ≠ frameTag f) (hroom : s.discovery.records.length < 16)
    (p : Port) :
    discover p f s =
      (s.setDiscovery { s.discovery with records := s.discovery.records ++ [DiscoveryRecord.fresh p f] }).post
        .discoveryNew (.port p) (frameTag f) := by
  have hany : ¬ s.discovery.records.any (·.tag == frameTag f) = true := by simpa using h
  simp only [discover, if_neg hany, if_pos hroom]

theorem discover_of_full (h : ∀ r ∈ s.discovery.records, r.tag ≠ frameTag f) (hfull : 16 ≤ s.discovery.records.length)
    (p : Port) :
    discover p f s =
      (s.setDiscovery { s.discovery with overflow := bump s.discovery.overflow }).post
        .discoveryFull (.port p) (frameTag f) := by
  have hany : ¬ s.discovery.records.any (·.tag == frameTag f) = true := by simpa using h
  simp only [discover, if_neg hany, if_neg (Nat.not_lt.mpr hfull)]

end

/-- Settles O10: a tag of 0 is counted and no more; any other that no entry holds reaches the Discovery List, by whether a
record has it and whether there is room for one. The counts leave the list as it was, and the samples of a record are those
the receiver observed. -/
theorem unknownTagsReachTheDiscoveryList : Obligations.UnknownTagsReachTheDiscoveryList := by
  intro p f s hup hgood c tag u channels code samples d
  have hsamples : samples = observedSamples f := (observedSamples_eq f).symm
  rw [hsamples]
  refine ⟨fun h0 => ?tagZero, fun h0 hunmatched => ?_⟩
  case tagZero =>
    have hnone : s.lookup (frameTag f) = none := (congrArg s.lookup h0).trans s.lookup_zero
    rw [exec_trunkFrameArrival_of_lookup_none hup hgood hnone]
    exact congrArg Host.Outcome.next (if_pos h0)
  have harrival : exec (.trunkFrameArrival p f true) s = .next (discover p f u) := by
    rw [exec_trunkFrameArrival_of_lookup_none hup hgood (State.lookup_of_unmatched hunmatched)]
    exact congrArg Host.Outcome.next (if_neg h0)
  rw [harrival]
  refine ⟨fun hknown => ?updated, fun hnew hroom => ?made, fun hnew hfull => ?missed⟩
  case updated => exact congrArg Host.Outcome.next (discover_of_known (s := u) hknown p)
  case made => exact congrArg Host.Outcome.next (discover_of_new (s := u) hnew hroom p)
  case missed => exact congrArg Host.Outcome.next (discover_of_full (s := u) hnew hfull p)

end Sys2Proof.Machine
end

