-- ==== Sys2Proof/Proofs/PromImage.lean ====
section
/-! The judging of a PROM image (section 10.6, R187 to R189): the blank image and the checks in the bytes of the image,
the codes of the settings, the judgement by whether every check holds, and the obligation assembled from these. -/

namespace Sys2Proof.Machine

/-! ## The bytes of an image -/

theorem byteAt_of_lt {bs : List Byte} {n : Nat} (h : n < bs.length) : byteAt bs n = bs[n].toNat := by
  rw [byteAt, List.getD_eq_getElem?_getD, List.getElem?_eq_getElem h, Option.getD_some]

theorem all_beq_iff_byteAt (bs : List Byte) (c : Byte) :
    bs.all (· == c) = true ↔ ∀ n < bs.length, byteAt bs n = c.toNat := by
  simp only [List.all_eq_true, beq_iff_eq, List.forall_mem_iff_forall_getElem]
  refine forall₂_congr fun n hn => ?_
  rw [byteAt_of_lt hn, BitVec.toNat_inj]

theorem byteAt_take_drop (bs : List Byte) (i : Nat) {n k : Nat} (h : n < k) :
    byteAt ((bs.drop i).take k) n = byteAt bs (i + n) := by
  simp only [byteAt, List.getD_eq_getElem?_getD, List.getElem?_take_of_lt h, List.getElem?_drop]

/-- A field of two bytes, most significant first. -/
theorem beAt_two {bs : List Byte} {i : Nat} (h : i + 2 ≤ bs.length) :
    beAt bs i 2 = byteAt bs i * 256 + byteAt bs (i + 1) := by
  have hfst : i < bs.length := by omega
  have hsnd : i + 1 < bs.length := by omega
  have hbytes : (bs.drop i).take 2 = [bs[i], bs[i + 1]] := by
    rw [List.drop_eq_getElem_cons hfst, List.drop_eq_getElem_cons hsnd]
    rfl
  rw [byteAt_of_lt hfst, byteAt_of_lt hsnd, beAt, hbytes]
  simp only [ofBe, List.foldl_cons, List.foldl_nil, Nat.zero_mul, Nat.zero_add]

section
variable {image : List Byte} (hlen : image.length = 32)
include hlen

theorem blank_iff : image.all (· == 0xFF) = true ↔ ∀ n, n < 32 → byteAt image n = 0xFF := by
  rw [all_beq_iff_byteAt, hlen]
  rfl

/-- The reserved bytes 8 to 30. -/
theorem reserved_iff :
    ((image.drop 8).take 23).all (· == 0) = true ↔ ∀ n, 8 ≤ n → n ≤ 30 → byteAt image n = 0 := by
  have hfield : ((image.drop 8).take 23).length = 23 := by simp [hlen]
  rw [all_beq_iff_byteAt, hfield]
  constructor
  · intro h n hlow hhigh
    obtain ⟨k, rfl⟩ := Nat.exists_eq_add_of_le hlow
    have hk : k < 23 := by omega
    rw [← byteAt_take_drop image 8 hk]
    exact h k hk
  · intro h k hk
    rw [byteAt_take_drop image 8 hk]
    exact h (8 + k) (by omega) (by omega)

end

/-! ## The codes of the settings (R168, R174, R175) -/

theorem nodeIdOk_iff (n : Nat) : nodeIdOk n = true ↔ 1 ≤ n ∧ n ≤ 0xFFFE := by
  simp only [nodeIdOk, Bool.and_eq_true, decide_eq_true_eq]

theorem controlPortsOfCode_of_le {n : Nat} (h : n ≤ 2) :
    controlPortsOfCode n = some (if n = 0 then .ta else if n = 1 then .tb else .either) := by
  match n, h with
  | 0, _ | 1, _ | 2, _ => rfl

theorem controlPortsOfCode_eq_none {n : Nat} (h : 2 < n) : controlPortsOfCode n = none := by
  match n, h with
  | _ + 3, _ => rfl

theorem agingOfCode_of_le {n : Nat} (h : n ≤ 4) :
    agingOfCode n =
      some (if n = 0 then .off else if n = 1 then .s1 else if n = 2 then .s2 else if n = 3 then .s4 else .s8) := by
  match n, h with
  | 0, _ | 1, _ | 2, _ | 3, _ | 4, _ => rfl

theorem agingOfCode_eq_none {n : Nat} (h : 4 < n) : agingOfCode n = none := by
  match n, h with
  | _ + 5, _ => rfl

/-! ## Every check of an image (R188), and the settings of one that passes (R189) -/

/-- Every check of the layout of R188 holds. -/
def SoundImage (image : List Byte) : Prop :=
  byteAt image 0 = 0x55 ∧ byteAt image 1 = 0x47 ∧ byteAt image 2 = 1
    ∧ 0x0001 ≤ byteAt image 3 * 256 + byteAt image 4 ∧ byteAt image 3 * 256 + byteAt image 4 ≤ 0xFFFE
    ∧ byteAt image 5 ≤ 2 ∧ byteAt image 6 ≤ 4 ∧ byteAt image 7 ≤ 3
    ∧ (∀ n, 8 ≤ n → n ≤ 30 → byteAt image n = 0) ∧ (image.map BitVec.toNat).sum % 256 = 0

/-- The settings of a sound image: byte 7 is 1 or 3 when TA is WEIGHTED, and 2 or 3 when TB is. -/
def imageSettings (image : List Byte) : PromSettings where
  nodeId := BitVec.ofNat 16 (byteAt image 3 * 256 + byteAt image 4)
  ports := if byteAt image 5 = 0 then .ta else if byteAt image 5 = 1 then .tb else .either
  aging :=
    if byteAt image 6 = 0 then .off
    else if byteAt image 6 = 1 then .s1
    else if byteAt image 6 = 2 then .s2
    else if byteAt image 6 = 3 then .s4
    else .s8
  modeTa := if byteAt image 7 = 1 ∨ byteAt image 7 = 3 then .weighted else .strict
  modeTb := if byteAt image 7 = 2 ∨ byteAt image 7 = 3 then .weighted else .strict

section
variable {image : List Byte} (hlen : image.length = 32)
include hlen

theorem judgeImage_of_sound (h : SoundImage image) : judgeImage image = some (imageSettings image) := by
  obtain ⟨h0, h1, h2, hmin, hmax, hports, haging, hmodes, hreserved, hsum⟩ := h
  have hnode : beAt image 3 2 = byteAt image 3 * 256 + byteAt image 4 := beAt_two (by omega)
  have hta : byteAt image 7 % 2 = 1 ↔ byteAt image 7 = 1 ∨ byteAt image 7 = 3 := by omega
  have htb : byteAt image 7 / 2 = 1 ↔ byteAt image 7 = 2 ∨ byteAt image 7 = 3 := by omega
  have hid := (nodeIdOk_iff _).mpr ⟨hmin, hmax⟩
  simp only [judgeImage, hnode]
  rw [if_pos ⟨h0, h1, h2, hid, hmodes, (reserved_iff hlen).mpr hreserved, hsum⟩, controlPortsOfCode_of_le hports,
    agingOfCode_of_le haging]
  simp only [hta, htb, imageSettings]

/-- The two codes are looked up last: an image that passes the other checks fails by one of them. -/
theorem judgeImage_of_not_sound (h : ¬ SoundImage image) : judgeImage image = none := by
  have hnode : beAt image 3 2 = byteAt image 3 * 256 + byteAt image 4 := beAt_two (by omega)
  unfold judgeImage
  dsimp only
  split
  next hchecks =>
    obtain ⟨h0, h1, h2, hid, hmodes, hreserved, hsum⟩ := hchecks
    rw [nodeIdOk_iff, hnode] at hid
    have hcodes : ¬ (byteAt image 5 ≤ 2 ∧ byteAt image 6 ≤ 4) := fun ⟨hports, haging⟩ =>
      h ⟨h0, h1, h2, hid.1, hid.2, hports, haging, hmodes, (reserved_iff hlen).mp hreserved, hsum⟩
    rcases Classical.not_and_iff_not_or_not.mp hcodes with hports | haging
    · rw [controlPortsOfCode_eq_none (Nat.lt_of_not_le hports)]
    · rw [agingOfCode_eq_none (Nat.lt_of_not_le haging)]
      cases controlPortsOfCode (byteAt image 5) <;> rfl
  next => rfl

/-! ## The result of a load (R187, R188) -/

theorem judgeLoad_of_blank (h : ∀ n, n < 32 → byteAt image n = 0xFF) (straps : BitVec 3) :
    judgeLoad image straps = (.absent, promDefaults straps) :=
  if_pos ((blank_iff hlen).mpr h)

theorem judgeLoad_of_sound (hblank : ¬ ∀ n, n < 32 → byteAt image n = 0xFF) (hsound : SoundImage image)
    (straps : BitVec 3) : judgeLoad image straps = (.loaded, imageSettings image) := by
  rw [judgeLoad, if_neg (mt (blank_iff hlen).mp hblank), judgeImage_of_sound hlen hsound]

theorem judgeLoad_of_not_sound (hblank : ¬ ∀ n, n < 32 → byteAt image n = 0xFF) (hsound : ¬ SoundImage image)
    (straps : BitVec 3) : judgeLoad image straps = (.bad, promDefaults straps) := by
  rw [judgeLoad, if_neg (mt (blank_iff hlen).mp hblank), judgeImage_of_not_sound hlen hsound]

end

/-- Settles O5: blank, failing a check, and passing them all are the three branches of the judgement. -/
theorem promImageIsJudged : Obligations.PromImageIsJudged := by
  intro image straps hlen b blank sound defaults
  refine ⟨fun hblank => ?absent, fun hblank hsound => ?bad, fun hblank hsound => ?loaded⟩
  case absent => exact judgeLoad_of_blank hlen hblank straps
  case bad => exact judgeLoad_of_not_sound hlen hblank hsound straps
  case loaded => exact judgeLoad_of_sound hlen hblank hsound straps

end Sys2Proof.Machine
end

