-- ==== Sys2Proof/Proofs/IdentifyStatus.lean ====
section
/-! IDENTIFY and STATUS (section 10.4, R180, R181): the bytes of each field of a result in the layout of R174, that
taking the request off its queue shows in none of them, and the obligation assembled from these. -/

namespace Sys2Proof.Machine

/-! ## The bytes of the fields (R174) -/

@[simp] theorem bytesOf_nil : bytesOf [] = [] := rfl

@[simp] theorem bytesOf_cons (n : Nat) (ns : List Nat) : bytesOf (n :: ns) = byteOf n :: bytesOf ns := rfl

/-- The generator state is 0 for OFF, which is a NUM of 0, and 1 for RUNNING. -/
theorem flagCode_isRunning (g : Gen) : flagCode g.isRunning = if g.num = 0 then 0 else 1 := by
  by_cases h : g.num = 0 <;> simp [flagCode, Gen.isRunning, h]

theorem Gen.statusBytes_eq (g : Gen) :
    g.statusBytes =
      [byteOf (if g.num = 0 then 0 else 1)] ++ be2 (BitVec.ofInt 16 g.trim).toNat ++ be2 g.reviewCount := by
  rw [Gen.statusBytes, flagCode_isRunning]
  rfl

theorem bytesOf_map_laneIndices (f : LaneIdx → Nat) :
    bytesOf (laneIndices.map f) = [byteOf (f 0), byteOf (f 1), byteOf (f 2), byteOf (f 3)] := by
  simp [laneIndices, List.finRange_succ]

theorem identify_results (args : List Byte) (s : State) :
    (identify args s).2.results =
      [0x50, 0x52, 0x0B, 0x24, 1] ++ be2 s.control.nodeId.toNat ++ [64, 0x04, 0x00, 4, 32, 16, 32] := rfl

/-! ## The handlers, with the head taken off the queue -/

/-- The snapshot has no field for the request queue. -/
theorem statusBytes_taken (s : State) (rest : List Request) : statusBytes (s.taken rest) = statusBytes s := rfl

theorem exec_identify_replied {s : State} {rq : Request} {rest : List Request} (hs : s.settled)
    (hx : s.executes rq rest) (hcode : rq.code = 0x01) (hargs : rq.args = []) :
    exec .identify s =
      .next ((s.taken rest).replied rq (0x01 :: 0x00 :: (identify [] s).2.results)) := by
  have hrun := runRequest_replied (c := .identify) (handler := identify) hx (by rw [hcode]; rfl) (by simp [hcode])
    (by rw [hargs]; rfl) rfl (State.settled_taken hs rest)
  rw [hcode] at hrun
  exact congrArg Host.Outcome.next hrun

theorem exec_status_replied {s : State} {rq : Request} {rest : List Request} (hs : s.settled)
    (hx : s.executes rq rest) (hcode : rq.code = 0x02) (hargs : rq.args = []) :
    exec .status s = .next ((s.taken rest).replied rq (0x02 :: 0x00 :: statusBytes s)) := by
  have hrun := runRequest_replied (c := .status) (handler := status) hx (by rw [hcode]; rfl) (by simp [hcode])
    (by rw [hargs]; rfl) rfl (State.settled_taken hs rest)
  rw [hcode, statusBytes_taken] at hrun
  exact congrArg Host.Outcome.next hrun

/-- Settles O34: each handler leaves the part as it is and answers OK, so the reply is its result; IDENTIFY's is the
bytes of the capacities and codes, and STATUS's is compared with the snapshot of R181 field by field. -/
theorem identifyAndStatusReportThePart : Obligations.IdentifyAndStatusReportThePart := by
  refine ⟨fun s rq rest hs hx hcode hargs => ?identify, ?status⟩
  case identify =>
    rw [exec_identify_replied hs hx hcode hargs, identify_results]
    rfl
  case status =>
    intro s rq rest hs hx hcode hargs bit transmit clock lane
    have htransmit (x : PortState) : transmit x = x.statusBytes := by
      simp only [transmit, PortState.statusBytes]
      cases x.mode <;> rfl
    have hclock (g : Gen) : clock g = g.statusBytes := g.statusBytes_eq.symm
    have hlane (l : LaneIdx) : lane l = byteOf (s.lane l).state.code := by
      simp only [lane]
      cases (s.lane l).state <;> rfl
    rw [exec_status_replied hs hx hcode hargs]
    congr 2
    simp only [htransmit, hclock, hlane, ← bytesOf_map_laneIndices fun l => (s.lane l).state.code]
    simp only [statusBytes, List.append_assoc, List.cons_append, List.nil_append]
    rfl

end Sys2Proof.Machine
end

