-- ==== Sys2Proof/Proofs/Postings.lean ====
section
/-! A posting (sections 11.3 and 11.5, R194, R195, R197): the record that stands for a kind and a source, the level and the
record that an eviction takes, what each branch of `EventQueue.post` does, and the obligation assembled from these. -/

namespace Sys2Proof.Machine

/-! ## The record that stands for a posting (R194) -/

theorem EventRecord.isOf_iff (k : EventKind) (o : Source) (r : EventRecord) :
    r.isOf k o = true ↔ r.kind = k ∧ r.source = o := by
  simp only [EventRecord.isOf, Bool.and_eq_true, beq_iff_eq]

theorem any_isOf_iff (k : EventKind) (o : Source) (rs : List EventRecord) :
    rs.any (EventRecord.isOf k o) = true ↔ ∃ r ∈ rs, r.kind = k ∧ r.source = o := by
  simp only [List.any_eq_true, EventRecord.isOf_iff]

theorem not_any_isOf {k : EventKind} {o : Source} {rs : List EventRecord} (h : ∀ r ∈ rs, ¬ (r.kind = k ∧ r.source = o)) :
    ¬ rs.any (EventRecord.isOf k o) = true := by
  rw [any_isOf_iff]
  exact fun ⟨r, hr, hsame⟩ => h r hr hsame

/-- A repeat count of 255 stays 255. -/
theorem bumpRepeats_eq (c : Byte) : bumpRepeats c = if c = 255 then 255 else c + 1 :=
  ite_congr rfl id fun _ => rfl

/-! ## The record that is evicted (R195) -/

theorem EventQueue.lowestBelow_eq_none {q : EventQueue} {level : Level} (h : ∀ r ∈ q.records, level ≤ r.level) :
    q.lowestBelow level = none := by
  refine Option.eq_none_iff_forall_ne_some.mpr fun low hlow => ?_
  obtain ⟨hlt, r, hr, hrl⟩ := EventQueue.exists_of_lowestBelow hlow
  subst hrl
  exact Fin.not_le.mpr hlt (h r hr)

/-- The search reaches the level of a lowest record, which lies below another level and so is 0, 1 or 2; the levels before
it have no record. -/
theorem EventQueue.lowestBelow_eq_some {q : EventQueue} {v : EventRecord} {level : Level} (hv : v ∈ q.records)
    (hlt : v.level < level) (hlow : ∀ r ∈ q.records, v.level ≤ r.level) : q.lowestBelow level = some v.level := by
  have hfound : (decide (v.level < level) && q.records.any fun r => r.level == v.level) = true := by
    simpa [hlt] using ⟨v, hv, rfl⟩
  have hbefore (l : Level) (hl : l < v.level) :
      (decide (l < level) && q.records.any fun r => r.level == l) = false := by
    simp only [Bool.and_eq_false_iff, List.any_eq_false, beq_iff_eq]
    exact .inr fun r hr hrl => Fin.not_le.mpr hl (hrl ▸ hlow r hr)
  unfold EventQueue.lowestBelow
  generalize v.level = low at *
  match low with
  | 0 => simp only [List.find?_cons, hfound]
  | 1 => simp only [List.find?_cons, hbefore 0 (by decide), hfound]
  | 2 => simp only [List.find?_cons, hbefore 0 (by decide), hbefore 1 (by decide), hfound]
  | 3 => exact absurd (Fin.le_last level) (Fin.not_le.mpr hlt)

theorem dropYoungest_append_cons {before behind : List EventRecord} {v : EventRecord}
    (h : ∀ r ∈ behind, r.level ≠ v.level) : dropYoungest v.level (before ++ v :: behind) = before ++ behind := by
  have hskip : ∀ r ∈ behind.reverse, ¬ (r.level == v.level) = true := by simpa using h
  simp [dropYoungest, List.eraseP_append_right _ hskip]

/-! ## A posting, by its branches -/

section
variable {q : EventQueue} {k : EventKind} {o : Source} {level : Level}

theorem EventQueue.post_of_off (h : q.levelOf k = none) (d : Word) : q.post k o d = q := by
  simp [EventQueue.post, h]

theorem EventQueue.post_of_repeat (hl : q.levelOf k = some level) (h : ∃ r ∈ q.records, r.kind = k ∧ r.source = o)
    (d : Word) :
    q.post k o d =
      { q with
        records := q.records.map fun r =>
          if r.kind = k ∧ r.source = o then { r with repeats := if r.repeats = 255 then 255 else r.repeats + 1 }
          else r } := by
  simp only [EventQueue.post, hl, if_pos ((any_isOf_iff k o _).mpr h), EventRecord.isOf_iff, bumpRepeats_eq]

theorem EventQueue.post_of_room (hl : q.levelOf k = some level) (h : ∀ r ∈ q.records, ¬ (r.kind = k ∧ r.source = o))
    (hroom : q.records.length < 32) (d : Word) :
    q.post k o d = { q with records := q.records ++ [q.fresh k o level d] }.judge := by
  simp only [EventQueue.post, hl, if_neg (not_any_isOf h)]
  exact if_pos hroom

theorem EventQueue.post_of_full (hl : q.levelOf k = some level) (h : ∀ r ∈ q.records, ¬ (r.kind = k ∧ r.source = o))
    (hfull : 32 ≤ q.records.length) (d : Word) : q.post k o d = q.evict (q.fresh k o level d) := by
  simp only [EventQueue.post, hl, if_neg (not_any_isOf h)]
  exact if_neg (Nat.not_lt.mpr hfull)

theorem EventQueue.evict_of_none_below {r : EventRecord} (h : ∀ x ∈ q.records, r.level ≤ x.level) :
    q.evict r = { q with lost := bumpLost q.lost } := by
  simp only [EventQueue.evict, EventQueue.lowestBelow_eq_none h]

theorem EventQueue.evict_of_lowest {r v : EventRecord} {before behind : List EventRecord}
    (hq : q.records = before ++ v :: behind) (hlt : v.level < r.level) (hlow : ∀ x ∈ q.records, v.level ≤ x.level)
    (hyoungest : ∀ x ∈ behind, x.level ≠ v.level) :
    q.evict r = { q with records := before ++ behind ++ [r], lost := bumpLost q.lost }.judge := by
  have hv : v ∈ q.records := by simp [hq]
  simp only [EventQueue.evict, EventQueue.lowestBelow_eq_some hv hlt hlow]
  rw [hq, dropYoungest_append_cons hyoungest]

end

/-- Settles O26, by the branches of a posting: a kind that is OFF, a record that stands for it, room, and a full queue
without or with a record of a lower level. -/
theorem postingsFollowTheLevels : Obligations.PostingsFollowTheLevels := by
  intro q kind source detail same lost held
  refine ⟨fun hoff => ?off, fun level hlevel => ⟨fun hsame => ?repeated, fun hnone hroom => ?room,
    fun hnone hfull hlow => ?dropped, fun before v behind hnone hfull hq hlt hlow hyoungest => ?evicted⟩⟩
  case off => exact EventQueue.post_of_off hoff detail
  case repeated => exact EventQueue.post_of_repeat hlevel hsame detail
  case room => exact EventQueue.post_of_room hlevel hnone hroom detail
  case dropped =>
    rw [EventQueue.post_of_full hlevel hnone hfull]
    exact EventQueue.evict_of_none_below hlow
  case evicted =>
    rw [EventQueue.post_of_full hlevel hnone hfull]
    exact EventQueue.evict_of_lowest hq hlt hlow hyoungest

end Sys2Proof.Machine
end

