-- ==== Sys2Proof/Proofs/EventRequests.lean ====
section
/-! EVENTS_FETCH and EVENT_CONFIG (sections 11.2, 11.4 and 11.5, R193, R196, R197): which records a fetch takes and leaves, the
bytes of a record, the level bytes, what the handlers answer, and the obligation assembled from these. -/

namespace Sys2Proof.Machine

/-! ## The records a fetch takes and leaves (R196) -/

/-- Taking records of one level leaves those of every other level. -/
theorem takeLevel_left_filter_of_ne {level other : Level} (h : other ≠ level) (n : Nat) (rs : List EventRecord) :
    ((takeLevel level n rs).2.filter fun r => r.level == other) = rs.filter fun r => r.level == other := by
  fun_induction takeLevel level n rs with
  | case1 => rfl
  | case2 => rfl
  | case3 n r rs hr rest ih =>
    have hne : r.level ≠ other := fun he => h (he ▸ beq_iff_eq.mp hr)
    simpa [hne] using ih
  | case4 n r rs hr rest ih => simp only [List.filter_cons, rest, ih]

theorem takeByLevel_left_sublist (levels : List Level) (n : Nat) (rs : List EventRecord) :
    (takeByLevel levels n rs).2.Sublist rs := by
  induction levels generalizing n rs with
  | nil => exact List.Sublist.refl rs
  | cons level levels ih => exact (ih _ _).trans (takeLevel_left_sublist level n rs)

theorem takeByLevel_perm (levels : List Level) (n : Nat) (rs : List EventRecord) :
    ((takeByLevel levels n rs).1 ++ (takeByLevel levels n rs).2).Perm rs := by
  induction levels generalizing n rs with
  | nil => exact List.Perm.refl rs
  | cons level levels ih =>
    simp only [takeByLevel, List.append_assoc]
    exact ((ih _ _).append_left _).trans (takeLevel_perm level n rs)

/-- The records taken are the first of the levels in their order, the oldest first within a level. -/
theorem takeByLevel_taken {levels : List Level} (h : levels.Nodup) (n : Nat) (rs : List EventRecord) :
    (takeByLevel levels n rs).1 = (levels.flatMap fun level => rs.filter fun r => r.level == level).take n := by
  induction levels generalizing n rs with
  | nil => simp [takeByLevel]
  | cons level levels ih =>
    obtain ⟨hlevel, hrest⟩ := List.nodup_cons.mp h
    have hothers : (levels.flatMap fun l => (takeLevel level n rs).2.filter fun r => r.level == l) =
        levels.flatMap fun l => rs.filter fun r => r.level == l := by
      rw [List.flatMap_def, List.flatMap_def, List.map_congr_left fun l hl =>
        takeLevel_left_filter_of_ne (ne_of_mem_of_not_mem hl hlevel) n rs]
    have hleft (k : Nat) : n - min n k = n - k := by omega
    simp only [takeByLevel, ih hrest, hothers, takeLevel_taken, List.flatMap_cons, List.take_append,
      List.length_take, hleft]

/-- The records by falling level, and by age within a level (R196). -/
def byLevelAndAge (rs : List EventRecord) : List EventRecord :=
  (rs.filter fun r => r.level = 3) ++ (rs.filter fun r => r.level = 2) ++ (rs.filter fun r => r.level = 1)
    ++ rs.filter fun r => r.level = 0

theorem EventQueue.fetch_taken (q : EventQueue) (n : Nat) : (q.fetch n).1 = (byLevelAndAge q.records).take n := by
  have hlevel (r : EventRecord) (level : Level) : (r.level == level) = decide (r.level = level) := rfl
  rw [EventQueue.fetch, takeByLevel_taken (by decide)]
  simp only [byLevelAndAge, hlevel, List.flatMap_cons, List.flatMap_nil, List.append_nil, List.append_assoc]

theorem EventQueue.fetch_perm (q : EventQueue) (n : Nat) :
    ((byLevelAndAge q.records).take n ++ (q.fetch n).2).Perm q.records := by
  rw [← q.fetch_taken]
  exact takeByLevel_perm _ _ _

theorem EventQueue.fetch_left_sublist (q : EventQueue) (n : Nat) : (q.fetch n).2.Sublist q.records :=
  takeByLevel_left_sublist _ _ _

/-- Every record has one of the four levels. -/
theorem length_byLevelAndAge (rs : List EventRecord) : (byLevelAndAge rs).length = rs.length := by
  have hlevels : ∀ level : Level, level = 0 ∨ level = 1 ∨ level = 2 ∨ level = 3 := by decide
  induction rs with
  | nil => rfl
  | cons r rs ih =>
    simp only [byLevelAndAge, List.length_append] at ih ⊢
    rcases hlevels r.level with h | h | h | h <;> simp [h] <;> omega

/-! ## The bytes of a record (R174) -/

theorem EventRecord.bytes_eq (r : EventRecord) :
    r.bytes =
      [byteOf r.kind.code] ++ bytesOf [r.source.code.1, r.source.code.2] ++ [byteOf r.level.val] ++ be4 r.detail.toNat
        ++ [r.repeats] ++ be4 r.firstTime.toNat := by
  simp [EventRecord.bytes, byteOf]

/-! ## The level bytes (R193) -/

theorem levelOfCode_of_le {n : Nat} (h : n ≤ 2) : levelOfCode n = some (some ⟨n, by omega⟩) := by
  match n, h with
  | 0, _ | 1, _ | 2, _ => rfl

theorem levelOfCode_eq_none {n : Nat} (h : 2 < n) (hoff : n ≠ 0xFF) : levelOfCode n = none := by
  unfold levelOfCode
  split
  case h_5 => rfl
  all_goals omega

theorem isSome_levelOfCode_iff (n : Nat) : (levelOfCode n).isSome = true ↔ n ≤ 2 ∨ n = 0xFF := by
  constructor
  · intro hsome
    refine Decidable.byContradiction fun hn => ?_
    rw [levelOfCode_eq_none (by omega) (by omega)] at hsome
    exact absurd hsome (by decide)
  · rintro (h | rfl)
    · rw [levelOfCode_of_le h]
      rfl
    · rfl

theorem levelBytesOk_iff (bytes : List Byte) :
    (bytes.all fun b => (levelOfCode b.toNat).isSome) = true ↔ ∀ b ∈ bytes, b.toNat ≤ 2 ∨ b = 0xFF := by
  simp only [List.all_eq_true, isSome_levelOfCode_iff, ← BitVec.toNat_inj]
  rfl

theorem map_val_levelOfCode {b : Byte} (h : b.toNat ≤ 2 ∨ b = 0xFF) :
    (levelOfCode b.toNat).join.map Fin.val = if b = 0xFF then none else some b.toNat := by
  rcases h with h | h
  · have hne : b ≠ 0xFF := fun he => absurd h (by simp [he])
    rw [levelOfCode_of_le h, if_neg hne]
    rfl
  · subst h
    rfl

theorem levelsOf_get (t : Byte) (bytes : List Byte) (n : Fin 15) :
    (levelsOf (t :: bytes)).get n = (levelOfCode (bytes.getD n.val 0).toNat).join := by
  rw [levelsOf, mapVecIdx_get]
  rfl

/-! ## The handlers -/

theorem eventsFetch_of_badCount {n : Byte} (h : n = 0 ∨ 16 < n.toNat) (s : State) :
    eventsFetch [n] s = (s, { status := .value }) := by
  have hcount : ¬ (1 ≤ n.toNat ∧ n.toNat ≤ 16) := by
    rcases h with rfl | h
    · decide
    · omega
  exact if_neg hcount

theorem eventsFetch_of_count {n : Byte} (h1 : 1 ≤ n.toNat) (h16 : n.toNat ≤ 16) (s : State) :
    eventsFetch [n] s =
      (s.setEvents { s.events with records := (s.events.fetch n.toNat).2, lost := 0 }.judge,
        { status := .ok, results := fetchBytes s.events.lost (s.events.fetch n.toNat).1 }) :=
  if_pos ⟨h1, h16⟩

theorem eventConfig_of_not_sound {t : Byte} {bytes : List Byte}
    (h : ¬ (t.toNat ≤ 3 ∧ ∀ b ∈ bytes, b.toNat ≤ 2 ∨ b = 0xFF)) (s : State) :
    eventConfig (t :: bytes) s = (s, { status := .value }) := by
  by_cases ht : t.toNat ≤ 3
  · have hbytes : ¬ (bytes.all fun b => (levelOfCode b.toNat).isSome) = true :=
      fun hall => h ⟨ht, (levelBytesOk_iff bytes).mp hall⟩
    simp [eventConfig, finOf_val (i := (⟨t.toNat, by omega⟩ : Level)) rfl, hbytes]
  · simp [eventConfig, finOf_eq_none (k := 4) (Nat.lt_of_not_le ht)]

theorem eventConfig_of_sound {t : Byte} {bytes : List Byte} {threshold : Level} (ht : t.toNat = threshold.val)
    (hbytes : ∀ b ∈ bytes, b.toNat ≤ 2 ∨ b = 0xFF) (s : State) :
    eventConfig (t :: bytes) s =
      (s.setEvents { s.events with levels := levelsOf (t :: bytes), threshold := threshold }.judge,
        { status := .ok }) := by
  simp only [eventConfig, byteAt_cons_zero, finOf_val ht]
  exact if_pos ((levelBytesOk_iff bytes).mpr hbytes)

/-! ## The commands -/

/-- A part stays settled when only the Event Queue is written: no event concerns the arbiters. -/
theorem State.settled_setEvents {s : State} (h : s.settled) (e : EventQueue) : (s.setEvents e).settled := h

theorem exec_eventsFetch_replied {s u : State} {rq : Request} {rest : List Request} {n : Byte} {a : Answer}
    (hx : s.executes rq rest) (hcode : rq.code = 0x12) (hargs : rq.args = [n])
    (hfetch : eventsFetch [n] (s.taken rest) = (u, a)) (hu : u.settled) :
    exec .eventsFetch s = .next (u.replied rq (0x12 :: a.status.code :: a.results)) := by
  have hrun := runRequest_replied (c := .eventsFetch) hx (by rw [hcode]; rfl) (by simp [hcode]) (by rw [hargs]; rfl)
    (hargs ▸ hfetch) hu
  rw [hcode] at hrun
  exact congrArg Host.Outcome.next hrun

/-- An EVENTS_FETCH of 1 to 16 records, for any spelling of the bytes of a record. -/
theorem exec_eventsFetch_of_count {s : State} {rq : Request} {rest : List Request} {n : Byte}
    {shown : EventRecord → List Byte} (hshown : ∀ r, r.bytes = shown r) (hs : s.settled) (hx : s.executes rq rest)
    (hcode : rq.code = 0x12) (hargs : rq.args = [n]) (h1 : 1 ≤ n.toNat) (h16 : n.toNat ≤ 16) :
    exec .eventsFetch s =
      .next (((s.taken rest).setEvents
          { s.events with records := (s.events.fetch n.toNat).2, lost := 0 }.judge).replied rq
        ([0x12, 0x00] ++ be2 s.events.lost.toNat ++ [byteOf (min n.toNat s.events.records.length)]
          ++ ((byLevelAndAge s.events.records).take n.toNat).flatMap shown)) := by
  obtain rfl : EventRecord.bytes = shown := funext hshown
  have hlength : ((byLevelAndAge s.events.records).take n.toNat).length = min n.toNat s.events.records.length := by
    rw [List.length_take, length_byLevelAndAge]
  have hreply := exec_eventsFetch_replied hx hcode hargs (eventsFetch_of_count h1 h16 _)
    (State.settled_setEvents (State.settled_taken hs rest) _)
  rw [hreply, State.taken_events, s.events.fetch_taken, fetchBytes, hlength]
  simp only [Status.code, bytesOf_cons, bytesOf_nil, List.cons_append, List.nil_append, List.append_assoc]

theorem exec_eventConfig_replied {s u : State} {rq : Request} {rest : List Request} {t : Byte} {bytes : List Byte}
    {a : Answer} (hx : s.executes rq rest) (hcode : rq.code = 0x13) (hargs : rq.args = t :: bytes)
    (hlength : bytes.length = 15) (hconfig : eventConfig (t :: bytes) (s.taken rest) = (u, a)) (hu : u.settled) :
    exec .eventConfig s = .next (u.replied rq (0x13 :: a.status.code :: a.results)) := by
  have hframed : RequestCode.eventConfig.framed rq.args = true := by
    simp [RequestCode.framed, RequestCode.lengthOk, RequestCode.optionAt, hargs, hlength]
  have hrun := runRequest_replied (c := .eventConfig) hx (by rw [hcode]; rfl) (by simp [hcode]) hframed
    (hargs ▸ hconfig) hu
  rw [hcode] at hrun
  exact congrArg Host.Outcome.next hrun

/-- Settles O49, by the cases of the two handlers: of a fetch a bad count and a count of 1 to 16, whose records left are
those of the model's fetch; of a configuration arguments that are not sound and sound ones. -/
theorem eventsAreFetchedAndConfigured : Obligations.EventsAreFetchedAndConfigured := by
  refine ⟨fun s rq rest n hs hx hcode hargs => ⟨fun hn => ?badCount, fun h1 h16 => ?fetch⟩,
    fun s rq rest t bytes hs hx hcode hargs hlength => ⟨fun hbad => ?notSound, fun ⟨ht, hbytes⟩ => ?configure⟩⟩
  case badCount =>
    exact exec_eventsFetch_replied hx hcode hargs (eventsFetch_of_badCount hn _) (State.settled_taken hs rest)
  case fetch =>
    refine ⟨(s.events.fetch n.toNat).2, s.events.fetch_left_sublist _, s.events.fetch_perm _,
      exec_eventsFetch_of_count (fun r => ?recordBytes) hs hx hcode hargs h1 h16⟩
    case recordBytes =>
      rw [r.bytes_eq]
      cases r.source with
      | none | stream | lane => rfl
      | port p => cases p <;> rfl
      | gen g => cases g <;> rfl
  case notSound =>
    exact exec_eventConfig_replied hx hcode hargs hlength (eventConfig_of_not_sound hbad _) (State.settled_taken hs rest)
  case configure =>
    obtain ⟨threshold, hthreshold⟩ : ∃ threshold : Level, t.toNat = threshold.val :=
      ⟨⟨t.toNat, Nat.lt_succ_of_le ht⟩, rfl⟩
    have hreply := exec_eventConfig_replied hx hcode hargs hlength
      (eventConfig_of_sound hthreshold hbytes (s.taken rest)) (State.settled_setEvents (State.settled_taken hs rest) _)
    refine ⟨levelsOf (t :: bytes), threshold, hthreshold.symm, fun n => ?level, hreply⟩
    case level =>
      have hn : n.val < bytes.length := Nat.lt_of_lt_of_eq n.isLt hlength.symm
      have hmem : bytes.getD n.val 0 ∈ bytes := by
        rw [List.getD_eq_getElem?_getD, List.getElem?_eq_getElem hn, Option.getD_some]
        exact List.getElem_mem hn
      rw [levelsOf_get]
      exact map_val_levelOfCode (hbytes _ hmem)

end Sys2Proof.Machine
end

