-- ==== Sys2Proof/Proofs/Frames.lean ====
section
/-! What the operations over streams and ports leave alone, said once: they write the working values of streams, the
transmitters and counters of ports and the wait list and post events; the definitions of the streams, the links and reply
queues and everything else stand. -/

namespace Sys2Proof.Machine

/-! ## The definition of a stream -/

/-- The fields of an entry that STREAM_DEFINE alone writes (R1, R14), on an otherwise blank entry. -/
def Stream.definition (st : Stream) : Stream :=
  { Stream.blank with
    direction := st.direction, tag := st.tag, channels := st.channels, width := st.width,
    frameSamples := st.frameSamples, lane := st.lane, depthMax := st.depthMax, depthTarget := st.depthTarget,
    conceal := st.conceal, level := st.level, egress := st.egress, channelSlots := st.channelSlots }

theorem Stream.completeEnd_definition (st : Stream) : st.completeEnd.definition = st.definition := rfl

theorem Stream.giveSample_definition (st : Stream) (f : PlayFrame) (i : Nat) :
    (st.giveSample f i).stream.definition = st.definition := by
  unfold Stream.giveSample
  dsimp only
  repeat' split
  all_goals rfl

theorem Stream.gapStep_definition (st : Stream) : st.gapStep.stream.definition = st.definition := by
  unfold Stream.gapStep
  dsimp only
  split <;> rfl

theorem Stream.boundary_definition (st : Stream) : st.boundary.stream.definition = st.definition := by
  unfold Stream.boundary
  repeat' split
  · rfl
  · exact st.giveSample_definition _ 0
  · exact st.gapStep_definition
  · rfl

theorem Stream.enterRunning_definition (st : Stream) : st.enterRunning.stream.definition = st.definition :=
  Stream.boundary_definition { st with state := .running }

theorem Stream.playStep_definition (st : Stream) : st.playStep.stream.definition = st.definition := by
  unfold Stream.playStep
  repeat' split
  any_goals rfl
  · exact st.enterRunning_definition
  · exact st.gapStep_definition
  · exact st.boundary_definition
  · exact st.giveSample_definition _ _
  · exact st.boundary_definition
  · exact st.skipToOldest.enterRunning_definition

theorem Stream.arrive_definition (st : Stream) (f : PlayFrame) : (st.arrive f).1.definition = st.definition := by
  unfold Stream.arrive
  dsimp only
  repeat' split
  all_goals rfl

theorem Stream.dispose_definition (st : Stream) (f : ReadyFrame) : (st.dispose f).1.definition = st.definition := by
  unfold Stream.dispose
  repeat' split
  all_goals rfl

theorem Stream.dropConstruction_definition (st : Stream) : st.dropConstruction.definition = st.definition := by
  unfold Stream.dropConstruction
  split <;> rfl

theorem Stream.loseLane_definition (l : LaneIdx) (st : Stream) : (st.loseLane l).definition = st.definition := by
  unfold Stream.loseLane
  repeat' split
  any_goals rfl
  exact st.dropConstruction_definition

/-! ## The relation -/

/-- Only the working values of streams, the transmitters, modes and counters of ports and the wait list differ, and the
Event Queue by postings. -/
structure State.Beside (s t : State) : Prop where
  phase : t.phase = s.phase
  lanes : t.lanes = s.lanes
  gens : t.gens = s.gens
  discovery : t.discovery = s.discovery
  control : t.control = s.control
  pending : t.pending = s.pending
  definitions : ∀ i, (t.stream i).definition = (s.stream i).definition
  links : ∀ p, (t.port p).linkUp = (s.port p).linkUp
  replies : ∀ p, (t.port p).replies = (s.port p).replies
  events : ∃ posts, t.events = s.events.postEach posts

namespace State.Beside

variable {s t u : State}

theorem refl (s : State) : s.Beside s := ⟨rfl, rfl, rfl, rfl, rfl, rfl, fun _ => rfl, fun _ => rfl, fun _ => rfl, [], rfl⟩

theorem trans (h : s.Beside t) (k : t.Beside u) : s.Beside u := by
  obtain ⟨first, hfirst⟩ := h.events
  obtain ⟨second, hsecond⟩ := k.events
  exact ⟨k.phase.trans h.phase, k.lanes.trans h.lanes, k.gens.trans h.gens, k.discovery.trans h.discovery,
    k.control.trans h.control, k.pending.trans h.pending, fun i => (k.definitions i).trans (h.definitions i),
    fun p => (k.links p).trans (h.links p), fun p => (k.replies p).trans (h.replies p), first ++ second,
    by rw [hsecond, hfirst, EventQueue.postEach_append]⟩

theorem lane (h : s.Beside t) (l : LaneIdx) : t.lane l = s.lane l := congrArg (·.get l) h.lanes

theorem gen (h : s.Beside t) (g : GenIdx) : t.gen g = s.gen g := congrArg (·.get g) h.gens

theorem setStream (h : s.Beside t) (i : StreamIdx) {x : Stream} (hx : x.definition = (t.stream i).definition) :
    s.Beside (t.setStream i x) := by
  refine h.trans ⟨rfl, rfl, rfl, rfl, rfl, rfl, fun j => ?_, fun _ => rfl, fun _ => rfl, [], rfl⟩
  rw [State.stream_setStream]
  split
  · next e => rw [e, hx]
  · rfl

theorem mapStreams (h : s.Beside t) {f : Stream → Stream} (hf : ∀ st, (f st).definition = st.definition) :
    s.Beside (t.mapStreams f) :=
  h.trans ⟨rfl, rfl, rfl, rfl, rfl, rfl, fun j => by rw [State.stream_mapStreams, hf], fun _ => rfl, fun _ => rfl, [],
    rfl⟩

theorem setPort (h : s.Beside t) (p : Port) {x : PortState}
    (hx : x.linkUp = (t.port p).linkUp ∧ x.replies = (t.port p).replies) : s.Beside (t.setPort p x) := by
  obtain ⟨hlink, hreplies⟩ := hx
  refine h.trans ⟨rfl, rfl, rfl, rfl, rfl, rfl, fun _ => rfl, fun q => ?_, fun q => ?_, [], rfl⟩
  all_goals
    rw [State.port_setPort]
    split
    · next e => simp only [e, hlink, hreplies]
    · rfl

theorem setWaitList (h : s.Beside t) (w : List StreamIdx) : s.Beside (t.setWaitList w) :=
  h.trans ⟨rfl, rfl, rfl, rfl, rfl, rfl, fun _ => rfl, fun _ => rfl, fun _ => rfl, [], rfl⟩

theorem post (h : s.Beside t) (k : EventKind) (o : Source) (d : Word) : s.Beside (t.post k o d) :=
  h.trans ⟨rfl, rfl, rfl, rfl, rfl, rfl, fun _ => rfl, fun _ => rfl, fun _ => rfl, [(k, o, d)], rfl⟩

theorem postAll (h : s.Beside t) (o : Source) (es : List (EventKind × Word)) : s.Beside (t.postAll o es) := by
  rw [State.postAll_eq]
  exact h.trans ⟨rfl, rfl, rfl, rfl, rfl, rfl, fun _ => rfl, fun _ => rfl, fun _ => rfl, _, rfl⟩

end State.Beside

open State.Beside (refl)

/-! ## Walks -/

/-- What each task of a walk leaves, the walk leaves. -/
theorem forStreams_beside {f : StreamIdx → State → State} (h : ∀ (i : StreamIdx) (s : State), s.Beside (f i s))
    (is : List StreamIdx) (s : State) : s.Beside (s.forStreams is f) := by
  induction is generalizing s with
  | nil => exact refl s
  | cons i is ih => exact (h i s).trans (ih (f i s))

/-! ## The arbiters -/

theorem runArbiter_beside (p : Port) (s : State) : s.Beside (runArbiter p s) :=
  ⟨by simp, by simp, by simp, by simp, by simp, by simp, fun i => by
    obtain ⟨r, hr, -⟩ := runArbiter_stream p s i
    rw [hr]
    rfl, fun q => by
    obtain ⟨x, c, hq⟩ := runArbiter_port p s q
    rw [hq], fun q => by
    obtain ⟨x, c, hq⟩ := runArbiter_port p s q
    rw [hq], [], by simp⟩

theorem runArbiters_beside (s : State) : s.Beside (runArbiters s) :=
  (runArbiter_beside .ta s).trans (runArbiter_beside .tb _)

/-! ## Admission and the ends of streams -/

theorem admitFrom_beside (w : List StreamIdx) (s : State) : s.Beside (admitFrom w s) := by
  fun_induction admitFrom w s with
  | case1 s => exact (refl s).setWaitList _
  | case2 i rest s st fits ih => exact (((refl s).setStream i (x := st.enterArmed) rfl).post _ _ _).trans ih
  | case3 i rest s st no => exact (refl s).setWaitList _

theorem admissionTest_beside (s : State) : s.Beside (admissionTest s) := admitFrom_beside _ s

theorem releaseToIdle_beside (i : StreamIdx) (s : State) : s.Beside (releaseToIdle i s) :=
  ((refl s).setStream i (by rfl)).trans (admissionTest_beside _)

theorem stopWaiting_beside (i : StreamIdx) (s : State) : s.Beside (stopWaiting i s) := by
  have left := ((refl s).setStream i (x := { s.stream i with state := .idle }) rfl).setWaitList (s.waitList.filter (· != i))
  unfold stopWaiting
  dsimp only
  split
  · exact left.trans (admissionTest_beside _)
  · exact left

theorem stopPlayout_beside (i : StreamIdx) (s : State) : s.Beside (stopPlayout i s) :=
  ((refl s).setStream i (by rfl)).trans (releaseToIdle_beside i _)

theorem finishDrain_beside (i : StreamIdx) (s : State) : s.Beside (finishDrain i s) :=
  (releaseToIdle_beside i s).post _ _ _

theorem finishDrainIfEmpty_beside (i : StreamIdx) (s : State) : s.Beside (finishDrainIfEmpty i s) := by
  unfold finishDrainIfEmpty
  split
  · exact finishDrain_beside i s
  · exact refl s

/-! ## Playout and capture -/

theorem playoutArrival_beside (i : StreamIdx) (f : PlayFrame) (s : State) : s.Beside (playoutArrival i f s) :=
  ((refl s).setStream i (Stream.arrive_definition _ f)).postAll _ _

theorem playTask_beside (i : StreamIdx) (s : State) : s.Beside (playTask i s) :=
  ((refl s).setStream i (Stream.playStep_definition _)).postAll _ _

theorem closeFrame_beside (isEnd : Bool) (i : StreamIdx) (s : State) : s.Beside (closeFrame isEnd i s) := by
  have closed := (refl s).setStream i
    (Stream.dispose_definition ((s.stream i).afterClose isEnd) (closingFrame s (s.stream i) isEnd))
  unfold closeFrame
  dsimp only
  split
  · exact closed.post _ _ _
  · exact closed

theorem takeSamples_beside (c : LaneConfig) (line : PinLevels) (i : StreamIdx) (s : State) :
    s.Beside (takeSamples c line i s) := by
  unfold takeSamples
  dsimp only
  split
  · exact ((refl s).setStream i (by rfl)).trans (closeFrame_beside false i _)
  · exact (refl s).setStream i rfl

theorem captureTask_beside (c : LaneConfig) (line : PinLevels) (i : StreamIdx) (s : State) :
    s.Beside (captureTask c line i s) := by
  unfold captureTask
  dsimp only
  split
  case h_1 =>
    exact ((((refl s).setStream i (by rfl)).trans (takeSamples_beside c line i _)).post _ _ _).trans (runArbiters_beside _)
  case h_2 => exact (takeSamples_beside c line i s).trans (runArbiters_beside _)
  all_goals exact refl s

theorem frameTask_beside (c : LaneConfig) (line : PinLevels) (i : StreamIdx) (s : State) :
    s.Beside (frameTask c line i s) := by
  unfold frameTask
  split
  · exact playTask_beside i s
  · exact captureTask_beside c line i s

theorem leaveRunning_beside (l : LaneIdx) (s : State) : s.Beside (leaveRunning l s) :=
  (refl s).mapStreams (Stream.loseLane_definition l)

/-! ## Stops -/

theorem stopRunning_beside (i : StreamIdx) (s : State) : s.Beside (stopRunning i s) :=
  (((closeFrame_beside true i s).trans (runArbiters_beside _)).setStream i (by rfl)).trans (finishDrainIfEmpty_beside i _)

theorem stopDiscard_beside (i : StreamIdx) (s : State) : s.Beside (stopDiscard i s) := by
  unfold stopDiscard
  dsimp only
  split
  · exact ((refl s).setStream i (by exact (s.stream i).dropConstruction_definition)).trans (releaseToIdle_beside i _)
  · exact (refl s).setStream i (s.stream i).dropConstruction_definition

theorem abortByStop_beside (p : Port) (i : StreamIdx) (s : State) : s.Beside (abortByStop p i s) := by
  unfold abortByStop
  dsimp only
  split
  · exact (refl s).setPort p (by exact ⟨rfl, rfl⟩)
  · exact refl s

theorem stopArmed_beside (i : StreamIdx) (s : State) : s.Beside (stopArmed i s) :=
  (((abortByStop_beside .ta i s).trans (abortByStop_beside .tb i _)).setStream i (by rfl)).trans (releaseToIdle_beside i _)

/-- Every stop leaves all but streams, ports, the wait list and the postings. -/
theorem stopEffect_beside {st : Stream} {discard : Bool} {stop : StreamIdx → State → State}
    (h : stopEffect st discard = some stop) (i : StreamIdx) (s : State) : s.Beside (stop i s) := by
  unfold stopEffect at h
  split at h
  all_goals cases h
  case h_3 => exact stopWaiting_beside i s
  case h_4 | h_5 | h_6 => exact stopPlayout_beside i s
  case h_8 => exact stopArmed_beside i s
  case h_9 =>
    split
    · exact stopDiscard_beside i s
    · exact stopRunning_beside i s

/-! ## Transmissions -/

theorem loseReply_beside (p : Port) (txn : Word) (s : State) : s.Beside (loseReply p txn s) :=
  ((refl s).setPort p (by exact ⟨rfl, rfl⟩)).post _ _ _

theorem foldl_loseReply_beside (p : Port) (rs : List Reply) (s : State) :
    s.Beside (rs.foldl (fun t r => loseReply p r.txn t) s) := by
  induction rs generalizing s with
  | nil => exact refl s
  | cons r rs ih => exact (loseReply_beside p r.txn s).trans (ih _)

theorem completeSample_beside (p : Port) (i : StreamIdx) (s : State) : s.Beside (completeSample p i s) :=
  ((((refl s).setPort p (by exact ⟨rfl, rfl⟩)).setStream i (by rfl)).trans (finishDrainIfEmpty_beside i _)).trans
    (runArbiters_beside _)

end Sys2Proof.Machine
end

