-- ==== Sys2Proof/Proofs/Acts.lean ====
section
/-! What a command is made of, said once: the acts on streams and transmitters (`Work`), those of a request's handler
(`RequestAct`) and those of the other commands (`Act`), each with the guard under which a command takes it; and the 37
commands as sequences of acts (`exec_acts`). What every act keeps, every step keeps. -/

namespace Sys2Proof.Machine

open State.Beside (refl)

/-! ## The acts -/

/-- An act that writes working values of streams, transmitters and counters of ports and the wait list, or posts. -/
inductive Work : State → State → Prop
  | post {s : State} (k : EventKind) (o : Source) (d : Word) : Work s (s.post k o d)
  /-- The books of a port: its LINK input, receive and transmit counters, mode and credits. -/
  | books {s : State} (p : Port) {x : PortState} (hlink : x.linkUp = (s.port p).linkUp) (htx : x.tx = (s.port p).tx)
      (hreplies : x.replies = (s.port p).replies) : Work s (s.setPort p x)
  | zeroCounters {s : State} (i : StreamIdx) : Work s (s.setStream i (s.stream i).zeroCounters)
  /-- STREAM_START of a stream that fits. -/
  | start {s : State} {i : StreamIdx} (hidle : (s.stream i).state = .idle) (hempty : s.waitList = [])
      (hfits : (s.stream i).reservation ≤ s.unreserved) : Work s (s.setStream i (s.stream i).enterArmed)
  /-- STREAM_START of a stream that waits. -/
  | queue {s : State} {i : StreamIdx} (hidle : (s.stream i).state = .idle)
      (hwaits : ¬ (s.waitList = [] ∧ (s.stream i).reservation ≤ s.unreserved)) (hroom : s.waitList.length < 8) :
      Work s ((s.setStream i { s.stream i with state := .waiting }).setWaitList (s.waitList ++ [i]))
  | stopWaiting {s : State} {i : StreamIdx} (hwaiting : (s.stream i).state = .waiting) : Work s (stopWaiting i s)
  | stopPlayout {s : State} {i : StreamIdx} (hactive : (s.stream i).activePlayout = true) : Work s (stopPlayout i s)
  | stopArmed {s : State} {i : StreamIdx} (hcapture : (s.stream i).direction = .capture)
      (harmed : (s.stream i).state = .armed) : Work s (stopArmed i s)
  | stopDiscard {s : State} {i : StreamIdx} (hcapture : (s.stream i).direction = .capture)
      (hrunning : (s.stream i).state = .running) : Work s (stopDiscard i s)
  | stopRunning {s : State} {i : StreamIdx} (hcapture : (s.stream i).direction = .capture)
      (hrunning : (s.stream i).state = .running) : Work s (stopRunning i s)
  /-- The arrival of a frame that passes the format checks. -/
  | arrive {s : State} {i : StreamIdx} {f : List Byte} {n : Nat} (hactive : (s.stream i).activePlayout = true)
      (hcheck : formatCheck (s.stream i) f = some n) : Work s (playoutArrival i (playFrameOf (s.stream i) f n) s)
  | formatError {s : State} {i : StreamIdx} (hactive : (s.stream i).activePlayout = true) :
      Work s (s.setStream i (s.stream i).countFormatError)
  /-- A playout stream at a frame event of its lane. -/
  | play {s : State} {i : StreamIdx} (hplayout : (s.stream i).direction = .playout)
      (hlane : (s.lane (s.stream i).lane).state = .running) : Work s (playTask i s)
  /-- A capture stream at a frame event of its lane. -/
  | capture {s : State} {i : StreamIdx} (c : LaneConfig) (line : PinLevels)
      (hcapture : (s.stream i).direction = .capture) (hlane : (s.lane (s.stream i).lane).state = .running) :
      Work s (captureTask c line i s)
  | sampleSent {s : State} {p : Port} {i : StreamIdx} (hsending : (s.port p).tx = .sample i) :
      Work s (completeSample p i s)
  | gapEnd {s : State} {p : Port} (hgap : (s.port p).tx = .abortGap) :
      Work s (runArbiters (s.setPort p { s.port p with tx := .idle }))

/-- An act of a request's handler. -/
inductive RequestAct : State → State → Prop
  | work {s t : State} (h : Work s t) : RequestAct s t
  | define {s : State} {i : StreamIdx} {new : Stream} {args : List Byte}
      (hframed : RequestCode.streamDefine.framed args = true)
      (hfree : (s.stream i).state = .empty ∨ (s.stream i).state = .idle) (hnew : parseDefinition args = some new)
      (htag : s.tagTaken i new.tag = false) : RequestAct s (define i new s)
  | clear {s : State} {i : StreamIdx} (hidle : (s.stream i).state = .idle) :
      RequestAct s ((clearOutSlots i s).setStream i Stream.blank)
  | control {s : State} {c : Control} (hrequests : c.requests = s.control.requests) : RequestAct s (s.setControl c)
  | laneCounters {s : State} (l : LaneIdx) : RequestAct s (s.setLane l { s.lane l with counters := {} })
  | slot {s : State} {l : LaneIdx} {k : Fin 32} {e : Option OutSlot} (hslot : ∀ x ∈ e, s.slotOk l k x) :
      RequestAct s (s.setLane l { s.lane l with outTable := (s.lane l).outTable.set k e })
  | configure {s : State} {l : LaneIdx} (c : LaneConfig) (hfree : s.laneBusy l = false) :
      RequestAct s (s.setLane l ((s.lane l).configure c))
  | startMaster {s : State} {l : LaneIdx} {g : GenIdx} (hoff : (s.lane l).state = .off)
      (hrole : (s.lane l).config.role.gen = some g) (hclock : (s.gen g).isRunning = true) :
      RequestAct s (enterRunning l false s)
  | startSlave {s : State} {l : LaneIdx} (hoff : (s.lane l).state = .off)
      (hrole : (s.lane l).config.role.gen = none) :
      RequestAct s (s.setLane l { s.lane l with state := .seeking, candidate := false })
  | stopLane {s : State} (l : LaneIdx) : RequestAct s (stopLane l s)
  | clock {s : State} {g : GenIdx} {num den step w : Nat} (reference : Option StreamIdx) (resetTrim : Bool)
      (hranges : clockRangesOk num den step w = true) (hfree : num = (s.gen g).num ∨ s.genInUse g = false) :
      RequestAct s (s.setGen g ((s.gen g).configure num den reference step w resetTrim))
  /-- A write of the Discovery List that brings no new tag. -/
  | discovery {s : State} {d : Discovery} (hrecords : (d.records.map (·.tag)).Sublist (s.discovery.records.map (·.tag))) :
      RequestAct s (s.setDiscovery d)
  | fetch {s : State} (n : Nat) :
      RequestAct s (s.setEvents { s.events with records := (s.events.fetch n).2, lost := 0 }.judge)
  | levels {s : State} (levels : Vector (Option Level) 15) (threshold : Level) :
      RequestAct s (s.setEvents { s.events with levels := levels, threshold := threshold }.judge)

/-- An act of a command. -/
inductive Act : State → State → Prop
  | request {s t : State} (h : RequestAct s t) : Act s t
  | reset {s : State} (cause : StartCause) (phase : Phase) : Act s (blockReset cause phase s)
  | release {s : State} : Act s { s with phase := .loading }
  | tick {s : State} : Act s (s.setEvents { s.events with uptime := s.events.uptime + 1 })
  | load {s : State} (r : PromResult × PromSettings) : Act s (applyLoad r s)
  | linkUp {s : State} (p : Port) :
      Act s ((s.setPort p { s.port p with linkPin := true, linkUp := true }).post .trunkUp (.port p) 0)
  /-- A port going DOWN, where no DEVICE_RESET reply is lost. -/
  | linkDown {s : State} {p : Port} (hup : (s.port p).linkUp = true)
      (hreset : (s.port p).replies.any Reply.isDeviceReset = false) : Act s (portDown p s)
  | accept {s : State} (rq : Request) (hroom : s.control.requests.length < 4) :
      Act s (s.setControl { s.control with requests := s.control.requests ++ [rq] })
  | dequeue {s : State} : Act s (dequeue s)
  | discover {s : State} {p : Port} {f : List Byte} (htag : frameTag f ≠ 0) (hlookup : s.lookup (frameTag f) = none) :
      Act s (discover p f s)
  | candidate {s : State} {l : LaneIdx} : Act s (s.setLane l { s.lane l with candidate := true })
  | due {s : State} {l : LaneIdx} (hslave : (s.lane l).config.role = .slave) (hrunning : (s.lane l).state = .running)
      (hdelay : (s.lane l).config.delayOne = true) : Act s (s.setLane l { s.lane l with eventDue := true })
  | run {s : State} {l : LaneIdx} {due : Bool} (hslave : (s.lane l).config.role = .slave)
      (hdelay : due = true → (s.lane l).config.delayOne = true) : Act s (enterRunning l due s)
  /-- A frame event begins: the lane counts it and loads its out-slot words. -/
  | frame {s : State} {l : LaneIdx} (words : List Word) (hrunning : (s.lane l).state = .running) :
      Act s (s.setLane l
        { s.lane l with
          eventDue := false, outWords := words,
          counters := { (s.lane l).counters with frameEvents := bump (s.lane l).counters.frameEvents } })
  | lost {s : State} {l : LaneIdx} (candidate : Bool) (detail : Nat) (hslave : (s.lane l).config.role = .slave) :
      Act s (enterLost l candidate detail s)
  | servo {s before : State} (l : LaneIdx) (g : GenIdx)
      (hdefinitions : ∀ i, (s.stream i).definition = (before.stream i).definition) : Act s (servoTask l before g s)
  | review {s : State} (g : GenIdx) : Act s (reviewIfDue g s)
  /-- The completion of a reply that is not the reply of a DEVICE_RESET. -/
  | replySent {s : State} {p : Port} (hsending : (s.port p).tx = .reply) :
      Act s (runArbiters (s.setPort p
        { s.port p with
          tx := .idle, replies := (s.port p).replies.tail,
          txc := { (s.port p).txc with repliesSent := bump (s.port p).txc.repliesSent } }))
  | reply {s : State} {p : Port} (r : Reply) (hup : (s.port p).linkUp = true)
      (hroom : (s.port p).replies.length < 2) :
      Act s (runArbiters (s.setPort p { s.port p with replies := (s.port p).replies ++ [r] }))

/-! ## Sequences of acts -/

/-- A sequence of acts of a kind. -/
inductive Sequence {α : Type} (R : α → α → Prop) : α → α → Prop
  | nil {s : α} : Sequence R s s
  | snoc {s t u : α} (acts : Sequence R s t) (act : R t u) : Sequence R s u

namespace Sequence

variable {α : Type} {R : α → α → Prop} {s t u : α}

theorem one (h : R s t) : Sequence R s t := nil.snoc h

theorem append (h : Sequence R s t) (k : Sequence R t u) : Sequence R s u := by
  induction k with
  | nil => exact h
  | snoc _ act ih => exact ih.snoc act

theorem weaken {R' : α → α → Prop} (hR : ∀ {s t}, R s t → R' s t) (h : Sequence R s t) : Sequence R' s t := by
  induction h with
  | nil => exact nil
  | snoc _ act ih => exact ih.snoc (hR act)

/-- What each act keeps, a sequence keeps. -/
theorem keeps {I : α → Prop} (hI : ∀ {s t}, R s t → I s → I t) (h : Sequence R s t) : I s → I t := by
  induction h with
  | nil => exact id
  | snoc _ act ih => exact fun hs => hI act (ih hs)

end Sequence

/-- A handler's sequence of acts. -/
abbrev RequestActs := Sequence RequestAct

/-- A command's sequence of acts. -/
abbrev Acts := Sequence Act

section
variable {s t u : State}

theorem Sequence.work (h : RequestActs s t) (act : Work t u) : RequestActs s u := h.snoc (.work act)

theorem Sequence.request (h : Acts s t) (act : RequestAct t u) : Acts s u := h.snoc (.request act)

theorem Sequence.byWork (h : Acts s t) (act : Work t u) : Acts s u := h.snoc (.request (.work act))

end

/-! ## Work leaves the rest of the part -/

theorem gapEnd_beside (p : Port) (s : State) : s.Beside (runArbiters (s.setPort p { s.port p with tx := .idle })) :=
  ((refl s).setPort p (by exact ⟨rfl, rfl⟩)).trans (runArbiters_beside _)

theorem Work.beside {s t : State} (h : Work s t) : s.Beside t := by
  cases h with
  | post k o d => exact (refl s).post k o d
  | books p hlink _ hreplies => exact (refl s).setPort p ⟨hlink, hreplies⟩
  | zeroCounters i => exact (refl s).setStream i rfl
  | start => exact (refl s).setStream _ rfl
  | queue => exact ((refl s).setStream _ (by rfl)).setWaitList _
  | stopWaiting => exact stopWaiting_beside _ s
  | stopPlayout => exact stopPlayout_beside _ s
  | stopArmed => exact stopArmed_beside _ s
  | stopDiscard => exact stopDiscard_beside _ s
  | stopRunning => exact stopRunning_beside _ s
  | arrive => exact playoutArrival_beside _ _ s
  | formatError => exact (refl s).setStream _ rfl
  | play => exact playTask_beside _ s
  | capture c line => exact captureTask_beside c line _ s
  | sampleSent => exact completeSample_beside _ _ s
  | gapEnd => exact gapEnd_beside _ s

theorem RequestAct.replies {s t : State} (h : RequestAct s t) (p : Port) :
    (t.port p).replies = (s.port p).replies ∧ (t.port p).linkUp = (s.port p).linkUp := by
  cases h with
  | work h => exact ⟨h.beside.replies p, h.beside.links p⟩
  | define =>
    unfold Machine.define
    dsimp only
    split <;> exact ⟨rfl, rfl⟩
  | stopLane l =>
    unfold Machine.stopLane
    dsimp only
    split <;> exact ⟨rfl, rfl⟩
  | clear | control | laneCounters | slot | configure | startMaster | startSlave | clock | discovery | fetch | levels =>
    exact ⟨rfl, rfl⟩

theorem RequestActs.replies {s t : State} (h : RequestActs s t) (p : Port) :
    (t.port p).replies = (s.port p).replies ∧ (t.port p).linkUp = (s.port p).linkUp :=
  h.keeps (I := fun u => (u.port p).replies = (s.port p).replies ∧ (u.port p).linkUp = (s.port p).linkUp)
    (fun act h => ⟨(act.replies p).1.trans h.1, (act.replies p).2.trans h.2⟩) ⟨rfl, rfl⟩

/-! ## The handlers of the requests -/

section
variable (a : List Byte) (s : State)

theorem trunkConfig_acts : RequestActs s (trunkConfig a s).1 := by
  unfold trunkConfig
  dsimp only
  split
  · next c ma mb _ _ _ _ =>
    have modes := (Sequence.nil (s := s)).work (.books .ta (x := s.ports.ta.setMode ma) rfl rfl rfl) |>.work
      (.books .tb (x := s.ports.tb.setMode mb) rfl rfl rfl)
    exact modes.snoc (.control (c := { s.control with nodeId := BitVec.ofNat 16 (beAt a 0 2), ports := c }) rfl)
  · exact .nil

theorem counters_acts : RequestActs s (counters a s).1 := by
  unfold counters portCounters laneCounters
  dsimp only
  repeat' split
  any_goals exact .nil
  · exact .one (.work (.books _ rfl rfl rfl))
  · exact .one (.laneCounters _)

theorem streamDefine_acts (hframed : RequestCode.streamDefine.framed a = true) : RequestActs s (streamDefine a s).1 := by
  unfold streamDefine
  split
  · exact .nil
  next i _ =>
    split
    · exact .nil
    next hfree =>
      split
      · exact .nil
      next new hnew =>
        split
        · exact .nil
        next htag =>
          refine .one (.define hframed ?_ hnew (Bool.eq_false_iff.mpr htag))
          exact (Decidable.em _).imp_right fun h => Decidable.byContradiction fun h' => hfree ⟨h, h'⟩

theorem streamClear_acts : RequestActs s (streamClear a s).1 := by
  unfold streamClear
  split
  · exact .nil
  · split
    case h_2 hidle => exact .one (.clear hidle)
    all_goals exact .nil

theorem decideStart_acts {i : StreamIdx} (hidle : (s.stream i).state = .idle) : RequestActs s (decideStart i s).1 := by
  unfold decideStart
  dsimp only
  split
  next hfits => exact .one (.work (.start hidle hfits.1 hfits.2))
  next hwaits =>
    split
    next hroom => exact .one (.work (.queue hidle hwaits hroom))
    next => exact .nil

theorem streamStart_acts : RequestActs s (streamStart a s).1 := by
  unfold streamStart
  dsimp only
  repeat' split
  any_goals exact .nil
  next hidle _ _ => exact decideStart_acts s (Decidable.byContradiction hidle)

/-- Each stop comes with the direction and state for which `stopEffect` gives it. -/
theorem stopEffect_acts {i : StreamIdx} {discard : Bool} {stop : StreamIdx → State → State}
    (h : stopEffect (s.stream i) discard = some stop) : RequestActs s (stop i s) := by
  have active (hd : (s.stream i).direction = .playout)
      (hs : (s.stream i).state = .armed ∨ (s.stream i).state = .running ∨ (s.stream i).state = .starved) :
      (s.stream i).activePlayout = true := by
    unfold Stream.activePlayout
    rcases hs with hs | hs | hs <;> rw [hd, hs] <;> rfl
  unfold stopEffect at h
  split at h
  all_goals cases h
  case h_3 _ _ hs => exact .one (.work (.stopWaiting hs))
  case h_4 _ _ hd hs => exact .one (.work (.stopPlayout (active hd (.inl hs))))
  case h_5 _ _ hd hs => exact .one (.work (.stopPlayout (active hd (.inr (.inl hs)))))
  case h_6 _ _ hd hs => exact .one (.work (.stopPlayout (active hd (.inr (.inr hs)))))
  case h_8 _ _ hd hs => exact .one (.work (.stopArmed hd hs))
  case h_9 _ _ hd hs =>
    split
    · exact .one (.work (.stopDiscard hd hs))
    · exact .one (.work (.stopRunning hd hs))

theorem streamStop_acts : RequestActs s (streamStop a s).1 := by
  unfold streamStop
  dsimp only
  repeat' split
  any_goals exact .nil
  next hstop => exact stopEffect_acts s hstop

theorem streamQuery_acts : RequestActs s (streamQuery a s).1 := by
  unfold streamQuery
  repeat' split
  any_goals exact .nil
  exact .one (.work (.zeroCounters _))

theorem slotAssign_acts : RequestActs s (slotAssign a s).1 := by
  unfold slotAssign writeSlot
  dsimp only
  repeat' split
  any_goals exact .nil
  · exact .one (.slot fun x hx => (nomatch hx))
  next hallowed =>
    refine .one (.slot fun x hx => ?_)
    cases hx
    exact (State.slotAllowed_iff _ _ _ _).mp hallowed

theorem slotQuery_acts : RequestActs s (slotQuery a s).1 := by
  unfold slotQuery
  split <;> exact .nil

theorem laneConfig_acts : RequestActs s (laneConfig a s).1 := by
  unfold laneConfig
  repeat' split
  any_goals exact .nil
  next hfree _ _ _ => exact .one (.configure _ (Bool.eq_false_iff.mpr hfree))

theorem laneStart_acts : RequestActs s (laneStart a s).1 := by
  unfold laneStart startLane
  repeat' split
  any_goals exact .nil
  next hoff _ _ hrole hclock => exact .one (.startMaster hoff hrole hclock)
  next hoff _ hrole => exact .one (.startSlave hoff hrole)

theorem laneStop_acts : RequestActs s (laneStop a s).1 := by
  unfold laneStop
  split
  · exact .nil
  · exact .one (.stopLane _)

theorem clockConfig_acts : RequestActs s (clockConfig a s).1 := by
  unfold clockConfig
  dsimp only
  split
  next g reference _ _ =>
    split
    · exact .nil
    next hranges =>
      split
      · exact .nil
      next hbusy =>
        refine .one (.clock reference _ (by simpa using hranges) ?_)
        by_cases hnum : beAt a 1 4 = (s.gen g).num
        · exact .inl hnum
        · exact .inr (Bool.eq_false_iff.mpr fun hused => hbusy ⟨.inl hnum, hused⟩)
  next => exact .nil

theorem discoveryList_acts : RequestActs s (discoveryList a s).1 := by
  unfold discoveryList
  dsimp only
  split
  · exact .one (.discovery (List.Sublist.refl _))
  · exact .nil

theorem discoveryConfig_acts : RequestActs s (discoveryConfig a s).1 := by
  unfold discoveryConfig
  dsimp only
  repeat' split
  · exact .nil
  · exact .one (.discovery (List.nil_sublist _))
  · exact .one (.discovery (List.Sublist.refl _))

theorem eventsFetch_acts : RequestActs s (eventsFetch a s).1 := by
  unfold eventsFetch
  dsimp only
  split
  · exact .one (.fetch _)
  · exact .nil

theorem eventConfig_acts : RequestActs s (eventConfig a s).1 := by
  unfold eventConfig
  split
  next =>
    split
    · exact .one (.levels _ _)
    · exact .nil
  next => exact .nil

theorem deviceReset_acts : RequestActs s (deviceReset a s).1 := .one (.control rfl)

end

/-! ## The execution of a request -/

theorem State.canExecute_iff (s : State) (rq : Request) :
    s.canExecute rq = true ↔
      s.control.halted = false ∧ ((s.port rq.port).replies.length < 2 ∨ (s.port rq.port).linkUp = false) := by
  simp only [State.canExecute, Config.replyQueue, Bool.and_eq_true, Bool.or_eq_true, Bool.not_eq_true',
    decide_eq_true_eq]

theorem loseReply_acts (p : Port) (txn : Word) (s : State) : Acts s (loseReply p txn s) :=
  (Sequence.nil.byWork (.books p (by rfl) (by rfl) (by rfl))).byWork (.post .replyLost (.port p) txn)

theorem deliver_acts (rq : Request) (a : Answer) {s : State}
    (hroom : (s.port rq.port).replies.length < 2 ∨ (s.port rq.port).linkUp = false) : Acts s (deliver rq a s) := by
  unfold deliver
  dsimp only
  split
  next hup => exact .one (.reply _ hup (hroom.resolve_right (by simp [hup])))
  next =>
    split
    · exact (loseReply_acts _ _ s).snoc (.reset .request .loading)
    · exact loseReply_acts _ _ s

/-- A request is taken off the queue, carried out by acts of its handler, and its reply handed on: the room that R176 asks
for is there still, since no handler reaches a link or a reply queue. -/
theorem runRequest_acts {code : Option RequestCode} {handler : List Byte → State → State × Answer}
    (hhandler : ∀ (a : List Byte) (s : State), (∀ c ∈ code, c.framed a = true) → RequestActs s (handler a s).1)
    (s : State) : Acts s (runRequest code handler s) := by
  unfold runRequest
  dsimp only
  split
  next rq _ =>
    split
    next hexecutes =>
      have hroom := ((State.canExecute_iff s rq).mp hexecutes.2).2
      have taken : Acts s (dequeue s) := .one .dequeue
      unfold carryOut
      repeat' split
      · next c hframed =>
        have carried := hhandler rq.args (dequeue s) fun c' hc' => by cases hc'; exact hframed
        have hkept := carried.replies rq.port
        refine (taken.append (carried.weaken .request)).append (deliver_acts rq _ ?_)
        rw [hkept.1, hkept.2]
        exact hroom
      · exact taken.append (deliver_acts rq _ hroom)
      · exact taken.append (deliver_acts rq _ hroom)
    next => exact .nil
  next => exact .nil

end Sys2Proof.Machine
end

