-- ==== Sys2Proof/Proofs/CommandActs.lean ====
section
/-! Each of the 37 commands as a sequence of acts (`exec_acts`), and what follows from that alone: what every act keeps,
every step keeps (`step_keeps`). -/

namespace Sys2Proof.Machine

open State.Beside (refl)

/-! ## A reset takes the LINK inputs and the waiting commands and nothing else from the part -/

theorem blockReset_congr {s t : State} (hpins : ∀ p, (t.port p).linkPin = (s.port p).linkPin)
    (hpending : t.pending = s.pending) (cause : StartCause) (phase : Phase) :
    blockReset cause phase t = blockReset cause phase s := by
  unfold blockReset
  rw [hpins, hpins, hpending]

theorem forStreams_finishDrain_ports (is : List StreamIdx) (s : State) : (s.forStreams is finishDrain).ports = s.ports := by
  induction is generalizing s with
  | nil => rfl
  | cons i is ih => exact (ih _).trans (finishDrain_ports i s)

theorem foldl_loseReply_linkPin (p q : Port) (rs : List Reply) (s : State) :
    ((rs.foldl (fun t r => loseReply p r.txn t) s).port q).linkPin = (s.port q).linkPin := by
  induction rs generalizing s with
  | nil => rfl
  | cons r rs ih =>
    refine (ih _).trans ?_
    unfold loseReply
    rw [State.port_post, State.port_setPort]
    split
    · next e => rw [e]
    · rfl

/-- A port going DOWN with the reply of a DEVICE_RESET resets the part, its own input low. -/
theorem portDown_of_reset {p : Port} {s : State} (h : (s.port p).replies.any Reply.isDeviceReset = true) :
    portDown p s = blockReset .request .loading (s.setPort p { s.port p with linkPin := false }) := by
  unfold portDown
  simp only [h, if_true]
  refine blockReset_congr (fun q => ?_) ?_ _ _
  · rw [show ∀ t : State, ∀ is, (t.forStreams is finishDrain).port q = t.port q from fun t is =>
      congrArg (·.get q) (forStreams_finishDrain_ports is t), foldl_loseReply_linkPin, State.port_mapStreams,
      State.port_post, State.port_setPort, State.port_setPort]
    split <;> rfl
  · rw [(forStreams_beside finishDrain_beside _ _).pending, (foldl_loseReply_beside p _ _).pending]
    rfl

/-! ## Start-up and links -/

theorem takeUpLink_acts (p : Port) (s : State) : Acts s (takeUpLink p s) := by
  unfold takeUpLink
  dsimp only
  split
  next hpin =>
    have input : s.setPort p { s.port p with linkUp := true } =
        s.setPort p { s.port p with linkPin := true, linkUp := true } := by rw [← hpin]
    rw [input]
    exact .one (.linkUp p)
  next => exact .nil

theorem completeLoad_acts (image : List Byte) (straps : BitVec 3) (tbFirst : Bool) (s : State) :
    Acts s (completeLoad image straps tbFirst s) := by
  have started (d : Word) : Acts s ((applyLoad (judgeLoad image straps) s).post .deviceStarted .none d) :=
    (Sequence.one (.load _)).byWork (.post _ _ d)
  unfold completeLoad takeUpLinks
  dsimp only
  split
  · exact ((started _).append (takeUpLink_acts .tb _)).append (takeUpLink_acts .ta _)
  · exact ((started _).append (takeUpLink_acts .ta _)).append (takeUpLink_acts .tb _)

theorem portDown_acts {p : Port} {s : State} (hup : (s.port p).linkUp = true) : Acts s (portDown p s) := by
  cases hreset : (s.port p).replies.any Reply.isDeviceReset with
  | true =>
    rw [portDown_of_reset hreset]
    exact (Sequence.nil.byWork (.books p (by rfl) (by rfl) (by rfl))).snoc (.reset _ _)
  | false => exact .one (.linkDown hup hreset)

theorem completeReply_acts {p : Port} {s : State} (hsending : (s.port p).tx = .reply) : Acts s (completeReply p s) := by
  have pins (x : PortState) (hx : x.linkPin = (s.port p).linkPin) (q : Port) :
      ((s.setPort p x).port q).linkPin = (s.port q).linkPin := by
    rw [State.port_setPort]
    split
    · next e => rw [e, hx]
    · rfl
  unfold completeReply
  dsimp only
  split
  next =>
    split
    · rw [blockReset_congr (s := s) (t := s.setPort p _) (pins _ (by rfl)) rfl]
      exact .one (.reset _ _)
    · exact .one (.replySent hsending)
  next => exact .one (.replySent hsending)

/-! ## Lanes -/

theorem mem_of_mem_arrange {order is : List StreamIdx} {i : StreamIdx} (h : i ∈ arrange order is) : i ∈ is := by
  unfold arrange at h
  rcases List.mem_append.mp h with h | h
  · have := (List.mem_filter.mp (List.mem_eraseDups.mp h)).2
    exact List.contains_iff_mem.mp this
  · exact (List.mem_filter.mp h).1

theorem lane_of_mem_streamsWhere_actsOn {s : State} {l : LaneIdx} {i : StreamIdx}
    (h : i ∈ s.streamsWhere (Stream.actsOn l)) : (s.stream i).lane = l := by
  have := (List.mem_filter.mp h).2
  unfold Stream.actsOn at this
  exact eq_of_beq ((Bool.and_eq_true _ _).mp this).1

/-- The streams of a RUNNING lane act one after the other: no act touches the lane or changes which lane times a stream. -/
theorem forStreams_frameTask_acts {l : LaneIdx} {base : State} (c : LaneConfig) (line : PinLevels) (is : List StreamIdx)
    (his : ∀ i ∈ is, (base.stream i).lane = l) (s : State) (hrunning : (s.lane l).state = .running)
    (hdefinitions : ∀ i, (s.stream i).definition = (base.stream i).definition) :
    Acts s (s.forStreams is (frameTask c line)) := by
  induction is generalizing s with
  | nil => exact .nil
  | cons i is ih =>
    have hlane : (s.lane (s.stream i).lane).state = .running := by
      rw [show (s.stream i).lane = l from
        (congrArg Stream.lane (hdefinitions i)).trans (his i List.mem_cons_self)]
      exact hrunning
    have first : Acts s (frameTask c line i s) := by
      unfold frameTask
      split
      next hd => exact Sequence.nil.byWork (.play hd hlane)
      next hd => exact Sequence.nil.byWork (.capture c line hd hlane)
    have beside := frameTask_beside c line i s
    refine first.append (ih (fun j hj => his j (List.mem_cons_of_mem _ hj)) (frameTask c line i s) ?_ fun j => ?_)
    · rw [beside.lane]
      exact hrunning
    · exact (beside.definitions j).trans (hdefinitions j)

theorem servoTask_lane (l : LaneIdx) (before : State) (g : GenIdx) (s : State) (m : LaneIdx) :
    (servoTask l before g s).lane m = s.lane m := by
  obtain ⟨-, -, hlanes, -, -, -⟩ := servoTask_eventKeeps l before g s
  exact congrArg (·.get m) hlanes

theorem servoTask_stream (l : LaneIdx) (before : State) (g : GenIdx) (s : State) (i : StreamIdx) :
    (servoTask l before g s).stream i = s.stream i := by
  unfold servoTask reviewIfDue review
  dsimp only
  repeat' split
  all_goals rfl

/-- A frame event, from any state from which acts lead to its beginning. -/
theorem frameEvent_acts {l : LaneIdx} {s u : State} (line : PinLevels) (order late : List StreamIdx)
    (hrunning : (s.lane l).state = .running)
    (hbegin : Acts u (s.setLane l
      { s.lane l with
        eventDue := false, outWords := s.loadWords l,
        counters := { (s.lane l).counters with frameEvents := bump (s.lane l).counters.frameEvents } })) :
    Acts u (frameEvent l line order late s) := by
  have lanes {is : List StreamIdx} (h : ∀ i ∈ is, i ∈ arrange order (s.streamsWhere (Stream.actsOn l))) :
      ∀ i ∈ is, (s.stream i).lane = l :=
    fun i hi => lane_of_mem_streamsWhere_actsOn (mem_of_mem_arrange (h i hi))
  have early := forStreams_beside (frameTask_beside (s.lane l).config line)
  refine ((((hbegin.append (forStreams_frameTask_acts (base := s) _ line _ (lanes fun i hi => ?_) _ ?_ fun i => ?_)).snoc
    (.servo l .mcg0 fun i => ?_)).snoc (.servo l .mcg1 fun i => ?_)).append
    (forStreams_frameTask_acts (base := s) _ line _ (lanes fun i hi => ?_) _ ?_ fun i => ?_))
  · exact (List.mem_filter.mp hi).1
  · rw [State.lane_setLane_self]
    exact hrunning
  · rfl
  · exact (early _ _).definitions i
  · rw [servoTask_stream]
    exact (early _ _).definitions i
  · exact (List.mem_filter.mp hi).1
  · rw [servoTask_lane, servoTask_lane, (early _ _).lane, State.lane_setLane_self]
    exact hrunning
  · rw [servoTask_stream, servoTask_stream]
    exact (early _ _).definitions i

theorem giveFrameEvent_acts (l : LaneIdx) (f : FrameData) (s : State) : Acts s (giveFrameEvent l f s) := by
  unfold giveFrameEvent
  split
  next hgives =>
    have hrunning := ((Lane.givesEvent_eq_true _).mp hgives).1
    exact frameEvent_acts _ _ _ hrunning (.one (.frame _ hrunning))
  next => exact .nil

/-- A frame event leaves the configuration of its lane. -/
theorem giveFrameEvent_config (l : LaneIdx) (f : FrameData) (s : State) :
    ((giveFrameEvent l f s).lane l).config = (s.lane l).config := by
  unfold giveFrameEvent
  split
  · obtain ⟨-, -, hlanes, -, -, -⟩ := frameEvent_keeps l ((s.lane l).config.sampled f.din) f.order f.late s
    rw [State.lane, hlanes]
    show ((s.setLane l _).lane l).config = _
    rw [State.lane_setLane_self]
  · rfl

/-- A leading edge with data delay 1, whose frame event falls later. -/
theorem syncEdge_acts {l : LaneIdx} {s : State} (spacing : Nat) (hslave : (s.lane l).config.role = .slave)
    (hdelay : (s.lane l).config.delayOne = true) : Acts s (syncEdge l spacing s) := by
  have looking : Acts s
      (if !(s.lane l).candidate then s.setLane l { s.lane l with candidate := true }
        else if spacing = (s.lane l).config.frameLength then enterRunning l true s else s) := by
    repeat' split
    · exact .one .candidate
    · exact .one (.run hslave fun _ => hdelay)
    · exact .nil
  unfold syncEdge
  dsimp only
  split
  next => exact .nil
  next => exact looking
  next => exact looking
  next hrunning =>
    split
    · exact .one (.due hslave hrunning hdelay)
    · exact .one (.lost true _ hslave)

/-- Of two writes of a lane the second stands, with the posting of LANE_RUNNING between them. -/
theorem setLane_enterRunning (l : LaneIdx) (due : Bool) (s : State) (x : Lane) :
    (enterRunning l due s).setLane l x =
      (s.setLane l x).post .laneRunning (.lane l) (BitVec.ofNat 32 (s.lane l).config.frameLength) := by
  show State.setLane (State.post (s.setLane l _) _ _ _) l x = _
  simp [State.post, State.setEvents, State.setLane]

/-- A leading edge with data delay 0, whose frame event falls at the edge: the mark of a due event is set and cleared
within the step, so no act leaves it standing. -/
theorem giveFrameEvent_syncEdge_acts {l : LaneIdx} {s : State} (spacing : Nat) (f : FrameData)
    (hslave : (s.lane l).config.role = .slave) : Acts s (giveFrameEvent l f (syncEdge l spacing s)) := by
  have after {t : State} (h : Acts s t) : Acts s (giveFrameEvent l f t) := h.append (giveFrameEvent_acts l f t)
  have entered : Acts s (giveFrameEvent l f (enterRunning l true s)) := by
    have gives : ((enterRunning l true s).lane l).givesEvent = true := by
      simp [enterRunning, Lane.enterRunning, Lane.givesEvent]
    have hrunning : ((enterRunning l false s).lane l).state = .running := by simp [enterRunning, Lane.enterRunning]
    have begun : Acts s _ := (Sequence.one (.run (due := false) hslave (by simp))).snoc
      (.frame ((enterRunning l true s).loadWords l) hrunning)
    rw [giveFrameEvent, if_pos gives]
    refine frameEvent_acts _ _ _ (by simp [enterRunning, Lane.enterRunning]) ?_
    rw [setLane_enterRunning] at begun ⊢
    simpa [enterRunning, Lane.enterRunning] using begun
  have looking : Acts s (giveFrameEvent l f
      (if !(s.lane l).candidate then s.setLane l { s.lane l with candidate := true }
        else if spacing = (s.lane l).config.frameLength then enterRunning l true s else s)) := by
    repeat' split
    · exact after (.one .candidate)
    · exact entered
    · exact after .nil
  unfold syncEdge
  dsimp only
  split
  next => exact after .nil
  next => exact looking
  next => exact looking
  next hrunning =>
    split
    · have gives : ((s.setLane l { s.lane l with eventDue := true }).lane l).givesEvent = true := by
        simp [Lane.givesEvent, hrunning]
      rw [giveFrameEvent, if_pos gives]
      refine frameEvent_acts _ _ _ (by simpa using hrunning) ?_
      rw [State.setLane_setLane, State.lane_setLane_self]
      exact .one (.frame _ hrunning)
    · exact after (.one (.lost true _ hslave))

/-! ## Reception -/

theorem countRx_work (p : Port) (f : RxCounters → RxCounters) (s : State) : Work s (s.countRx p f) := .books p rfl rfl rfl

theorem receiveSample_acts (p : Port) (f : List Byte) (s : State) : Acts s (receiveSample p f s) := by
  have counted (g : RxCounters → RxCounters) : Acts s (s.countRx p g) := Sequence.nil.byWork (countRx_work p g s)
  unfold receiveSample
  dsimp only
  split
  next hlookup =>
    split
    · exact counted _
    next htag => exact (counted _).snoc (.discover htag hlookup)
  next =>
    split
    next hactive =>
      split
      next hcheck => exact Sequence.nil.byWork (.arrive hactive hcheck)
      next => exact Sequence.nil.byWork (.formatError hactive)
    next => exact counted _

theorem receiveRequest_acts (p : Port) (f : List Byte) (s : State) : Acts s (receiveRequest p f s) := by
  have counted (g : RxCounters → RxCounters) : Acts s (s.countRx p g) := Sequence.nil.byWork (countRx_work p g s)
  unfold receiveRequest
  repeat' split
  next hroom => exact (counted _).snoc (.accept _ hroom)
  all_goals exact counted _

theorem receive_acts (p : Port) (f : List Byte) (s : State) : Acts s (receive p f s) := by
  have counted (g : RxCounters → RxCounters) : Acts s (s.countRx p g) := Sequence.nil.byWork (countRx_work p g s)
  unfold receive receiveGood
  dsimp only
  repeat' split
  case h_4.isTrue => exact (counted _).append (receiveSample_acts p f _)
  case h_4.isFalse.isTrue => exact (counted _).append (receiveRequest_acts p f _)
  case h_4.isFalse.isFalse => exact (counted _).byWork (countRx_work p _ _)
  all_goals exact counted _

/-! ## The commands -/

/-- Every command ends in a next state, to which acts lead. -/
theorem exec_acts (c : Instr) (s : State) : ∃ t, exec c s = .next t ∧ Acts s t := by
  cases c with
  | powerOn => exact ⟨_, rfl, .one (.reset .power .loading)⟩
  | resetPinRecognised => exact ⟨_, rfl, .one (.reset .pin .resetHeld)⟩
  | resetPinRelease =>
    refine ⟨_, rfl, ?_⟩
    split
    · exact .one .release
    · exact .nil
  | promLoadCompletion pdio straps tbFirst =>
    refine ⟨_, rfl, ?_⟩
    split
    · exact completeLoad_acts _ straps tbFirst s
    · exact .nil
  | linkRise p =>
    refine ⟨_, rfl, ?_⟩
    split
    · rw [State.setPort_setPort]
      exact .one (.linkUp p)
    · exact Sequence.nil.byWork (.books p rfl rfl rfl)
  | linkFall p =>
    refine ⟨_, rfl, ?_⟩
    split
    next hup => exact portDown_acts hup.2
    next => exact Sequence.nil.byWork (.books p rfl rfl rfl)
  | trunkFrameArrival p f up =>
    refine ⟨_, rfl, ?_⟩
    split
    · exact receive_acts p f s
    · exact .nil
  | syncLeadingEdge l change =>
    refine ⟨_, rfl, ?_⟩
    split
    next hedge =>
      split
      next hdelay =>
        refine (giveFrameEvent_acts l change.frame s).append (syncEdge_acts _ ?_ ?_)
        · rw [giveFrameEvent_config]
          exact hedge.1
        · rw [giveFrameEvent_config]
          exact hdelay
      next => exact giveFrameEvent_syncEdge_acts _ _ hedge.1
    next => exact .nil
  | syncTimeout timeout =>
    refine ⟨_, rfl, ?_⟩
    split
    next hslave =>
      refine (giveFrameEvent_acts _ _ s).snoc (.lost false _ ?_)
      rw [giveFrameEvent_config]
      exact hslave.1
    next => exact .nil
  | frameEvent l din order late => exact ⟨_, rfl, giveFrameEvent_acts l _ s⟩
  | servoReview g => exact ⟨_, rfl, .one (.review g)⟩
  | sampleFrameTxCompletion p =>
    refine ⟨_, rfl, ?_⟩
    split
    case h_1 hsending => exact Sequence.nil.byWork (.sampleSent hsending)
    all_goals exact .nil
  | replyTxCompletion p =>
    refine ⟨_, rfl, ?_⟩
    split
    case h_1 hsending => exact completeReply_acts hsending
    all_goals exact .nil
  | abortGapEnd p =>
    refine ⟨_, rfl, ?_⟩
    split
    next hgap => exact Sequence.nil.byWork (.gapEnd hgap)
    next => exact .nil
  | agingSweep =>
    refine ⟨_, rfl, ?_⟩
    split
    · refine Sequence.nil.request (.discovery ?_)
      unfold Discovery.sweep
      rw [List.map_map]
      exact (List.filter_sublist).map _
    · exact .nil
  | uptimeTick =>
    refine ⟨_, rfl, ?_⟩
    split
    · exact .nil
    · exact .one .tick
  | identify | status | unknownRequest => exact ⟨_, rfl, runRequest_acts (fun _ _ _ => .nil) s⟩
  | trunkConfig => exact ⟨_, rfl, runRequest_acts (fun a u _ => trunkConfig_acts a u) s⟩
  | streamDefine => exact ⟨_, rfl, runRequest_acts (fun a u hframed => streamDefine_acts a u (hframed _ rfl)) s⟩
  | streamClear => exact ⟨_, rfl, runRequest_acts (fun a u _ => streamClear_acts a u) s⟩
  | streamStart => exact ⟨_, rfl, runRequest_acts (fun a u _ => streamStart_acts a u) s⟩
  | streamStop => exact ⟨_, rfl, runRequest_acts (fun a u _ => streamStop_acts a u) s⟩
  | streamQuery => exact ⟨_, rfl, runRequest_acts (fun a u _ => streamQuery_acts a u) s⟩
  | slotAssign => exact ⟨_, rfl, runRequest_acts (fun a u _ => slotAssign_acts a u) s⟩
  | slotQuery => exact ⟨_, rfl, runRequest_acts (fun a u _ => slotQuery_acts a u) s⟩
  | laneConfig => exact ⟨_, rfl, runRequest_acts (fun a u _ => laneConfig_acts a u) s⟩
  | laneStart => exact ⟨_, rfl, runRequest_acts (fun a u _ => laneStart_acts a u) s⟩
  | laneStop => exact ⟨_, rfl, runRequest_acts (fun a u _ => laneStop_acts a u) s⟩
  | clockConfig => exact ⟨_, rfl, runRequest_acts (fun a u _ => clockConfig_acts a u) s⟩
  | counters => exact ⟨_, rfl, runRequest_acts (fun a u _ => counters_acts a u) s⟩
  | discoveryList => exact ⟨_, rfl, runRequest_acts (fun a u _ => discoveryList_acts a u) s⟩
  | discoveryConfig => exact ⟨_, rfl, runRequest_acts (fun a u _ => discoveryConfig_acts a u) s⟩
  | eventsFetch => exact ⟨_, rfl, runRequest_acts (fun a u _ => eventsFetch_acts a u) s⟩
  | eventConfig => exact ⟨_, rfl, runRequest_acts (fun a u _ => eventConfig_acts a u) s⟩
  | deviceReset => exact ⟨_, rfl, runRequest_acts (fun a u _ => deviceReset_acts a u) s⟩

/-- A step keeps what taking a command off the queue and every act keep. -/
theorem step_keeps {I : State → Prop} (hact : ∀ {s t : State}, Act s t → I s → I t)
    (hpending : ∀ {s : State} (cs : List Instr), I s → I (s.setPending cs)) {s t : State} (h : I s)
    (hstep : step s = .next t) : I t := by
  unfold step at hstep
  split at hstep
  · cases hstep
    exact h
  · obtain ⟨u, hu, acts⟩ := exec_acts _ _
    rw [hu] at hstep
    cases hstep
    exact acts.keeps hact (hpending _ h)

end Sys2Proof.Machine
end

