-- ==== Sys2Proof/Proofs/Queues.lean ====
section
/-! The parts beside streams and transmitters: the queue of waiting commands, the Event Queue, the queues of requests and
replies, and the generators. Which acts reach each, and what every step keeps of it. -/

namespace Sys2Proof.Machine

open State.Beside (refl)

/-! ## The acts that are work behind one write -/

theorem portDown_beside {p : Port} {s : State} (hreset : (s.port p).replies.any Reply.isDeviceReset = false) :
    (s.setPort p { (s.port p).abortOnDown with linkPin := false, linkUp := false, replies := [] }).Beside
      (portDown p s) := by
  have withdrawn := ((refl (s.setPort p
    { (s.port p).abortOnDown with linkPin := false, linkUp := false, replies := [] })).post .trunkDown (.port p)
    0).mapStreams (f := Stream.withdrawPort p) fun _ => rfl
  unfold portDown
  simp only [hreset, Bool.false_eq_true, if_false]
  exact ((withdrawn.trans (foldl_loseReply_beside p (s.port p).replies _)).trans
    (forStreams_beside finishDrain_beside (s.drainedBy p) _)).trans (runArbiters_beside _)

theorem enterLost_beside (l : LaneIdx) (candidate : Bool) (detail : Nat) (s : State) :
    (s.setLane l
      { s.lane l with
        state := .lost, candidate := candidate, eventDue := false, outWords := [],
        counters := { (s.lane l).counters with syncLosses := bump (s.lane l).counters.syncLosses } }).Beside
      (enterLost l candidate detail s) :=
  ((refl _).post _ _ _).trans (leaveRunning_beside l _)

theorem enterRunning_beside (l : LaneIdx) (due : Bool) (s : State) :
    (s.setLane l ((s.lane l).enterRunning due)).Beside (enterRunning l due s) := (refl _).post _ _ _

theorem stopLane_beside (l : LaneIdx) (s : State) :
    (s.setLane l { s.lane l with state := .off, candidate := false, eventDue := false, outWords := [] }).Beside
      (stopLane l s) := by
  unfold stopLane
  dsimp only
  split
  · exact leaveRunning_beside l _
  · exact refl _

/-! ## The queue of waiting commands -/

theorem RequestAct.pending {s t : State} (h : RequestAct s t) : t.pending = s.pending := by
  cases h with
  | work h => exact h.beside.pending
  | define =>
    unfold Machine.define
    dsimp only
    split <;> rfl
  | stopLane l => exact (stopLane_beside l s).pending
  | clear | control | laneCounters | slot | configure | startMaster | startSlave | clock | discovery | fetch | levels =>
    rfl

theorem Act.pending {s t : State} (h : Act s t) : t.pending = s.pending := by
  cases h with
  | request h => exact h.pending
  | linkDown _ hreset => exact (portDown_beside hreset).pending
  | replySent | reply => exact (runArbiters_beside _).pending
  | servo l g =>
    obtain ⟨-, -, -, -, -, hpending⟩ := servoTask_eventKeeps l _ g s
    exact hpending
  | review g =>
    unfold reviewIfDue
    repeat' split
    · obtain ⟨-, -, -, -, -, hpending⟩ := review_eventKeeps g _ _ s
      exact hpending
    all_goals rfl
  | discover =>
    unfold Machine.discover
    dsimp only
    repeat' split
    all_goals rfl
  | reset | release | tick | load | linkUp | accept | dequeue | candidate | due | run | frame | lost => rfl

/-- Settles O1: the step function takes the head of the queue, and idles without one. -/
theorem stepTakesTheFrontCommand : Obligations.StepTakesTheFrontCommand := by
  refine ⟨fun c rest s => rfl, fun s hempty => ?_⟩
  unfold step
  rw [hempty]

/-- Settles O2: acts lead to a next state from every state, and no act touches the queue. -/
theorem everyCommandCompletes : Obligations.EveryCommandCompletes := by
  intro c s
  obtain ⟨t, ht, acts⟩ := exec_acts c s
  exact ⟨t, ht, acts.keeps (I := fun u => u.pending = s.pending) (fun act h => act.pending.trans h) rfl⟩

/-! ## The Event Queue (R191, R194 to R197) -/

/-- The Event Queue in order. -/
structure EventQueue.Sound (q : EventQueue) : Prop where
  room : q.records.length ≤ 32
  distinct : q.records.Pairwise fun a b => ¬ (a.kind = b.kind ∧ a.source = b.source)
  line : q.asserted = true ↔ ∃ r ∈ q.records, q.threshold ≤ r.level

theorem State.eventInv_iff (s : State) : s.eventInv ↔ s.events.Sound :=
  ⟨fun ⟨room, distinct, line⟩ => ⟨room, distinct, line⟩, fun ⟨room, distinct, line⟩ => ⟨room, distinct, line⟩⟩

namespace EventQueue

theorem due_iff (q : EventQueue) : q.due = true ↔ ∃ r ∈ q.records, q.threshold ≤ r.level := by
  simp [EventQueue.due]

/-- A judged line is right, so the records alone decide. -/
theorem judge_sound {q : EventQueue} (hroom : q.records.length ≤ 32)
    (hdistinct : q.records.Pairwise fun a b => ¬ (a.kind = b.kind ∧ a.source = b.source)) : q.judge.Sound :=
  ⟨hroom, hdistinct, q.due_iff⟩

variable {q : EventQueue}

/-- A change of records that leaves their kinds, sources and levels leaves the queue in order. -/
theorem Sound.map (h : q.Sound) {f : EventRecord → EventRecord} (hkind : ∀ r, (f r).kind = r.kind)
    (hsource : ∀ r, (f r).source = r.source) (hlevel : ∀ r, (f r).level = r.level) :
    ({ q with records := q.records.map f } : EventQueue).Sound where
  room := by simpa using h.room
  distinct := List.pairwise_map.mpr (h.distinct.imp fun hab => by rwa [hkind, hkind, hsource, hsource])
  line := by
    refine h.line.trans ⟨fun ⟨r, hr, hle⟩ => ⟨f r, List.mem_map_of_mem hr, by rwa [hlevel]⟩, fun ⟨x, hx, hle⟩ => ?_⟩
    obtain ⟨r, hr, rfl⟩ := List.mem_map.mp hx
    exact ⟨r, hr, by rwa [hlevel] at hle⟩

/-- A record joins at the end where none of its kind and source stands. -/
theorem Sound.append_fresh (h : q.Sound) {kept : List EventRecord} {r : EventRecord} (hkept : kept.Sublist q.records)
    (hnew : ∀ x ∈ q.records, ¬ (x.kind = r.kind ∧ x.source = r.source)) :
    (kept ++ [r]).Pairwise fun a b => ¬ (a.kind = b.kind ∧ a.source = b.source) := by
  refine List.pairwise_append.mpr ⟨h.distinct.sublist hkept, List.pairwise_singleton _ _, fun x hx y hy => ?_⟩
  rw [List.mem_singleton.mp hy]
  exact hnew x (hkept.subset hx)

/-- An eviction keeps the queue in order: the record of the lowest level gives its place, or nothing changes. -/
theorem Sound.evict (h : q.Sound) {r : EventRecord}
    (hnew : ∀ x ∈ q.records, ¬ (x.kind = r.kind ∧ x.source = r.source)) : (q.evict r).Sound := by
  unfold EventQueue.evict
  split
  next low hlow =>
    have hlength := length_dropYoungest (EventQueue.exists_of_lowestBelow hlow).2
    have hroom := h.room
    refine judge_sound ?_ (h.append_fresh (dropYoungest_sublist low q.records) hnew)
    simp only [List.length_append, List.length_singleton]
    omega
  next => exact ⟨h.room, h.distinct, h.line⟩

theorem Sound.post (h : q.Sound) (k : EventKind) (o : Source) (d : Word) : (q.post k o d).Sound := by
  unfold EventQueue.post
  split
  next => exact h
  next level _ =>
    split
    next => exact h.map (fun r => by split <;> rfl) (fun r => by split <;> rfl) (fun r => by split <;> rfl)
    next hnone =>
      have hnew : ∀ r ∈ q.records, ¬ (r.kind = k ∧ r.source = o) :=
        fun r hr e => hnone ((any_isOf_iff k o q.records).mpr ⟨r, hr, e⟩)
      split
      next hfree =>
        refine judge_sound ?_ (h.append_fresh (List.Sublist.refl _) hnew)
        rw [List.length_append]
        exact hfree
      next => exact h.evict hnew

theorem Sound.postEach (h : q.Sound) (posts : List (EventKind × Source × Word)) : (q.postEach posts).Sound := by
  induction posts generalizing q with
  | nil => exact h
  | cons e posts ih => exact ih (h.post e.1 e.2.1 e.2.2)

end EventQueue

theorem State.Beside.sound {s t : State} (h : s.Beside t) (e : s.events.Sound) : t.events.Sound := by
  obtain ⟨posts, hposts⟩ := h.events
  rw [hposts]
  exact e.postEach posts

theorem blockReset_sound (cause : StartCause) (phase : Phase) (s : State) : (blockReset cause phase s).events.Sound :=
  ⟨Nat.zero_le _, .nil, by simp [blockReset, State.reset, EventQueue.blank]⟩

theorem review_sound (g : GenIdx) (held target : Nat) {s : State} (e : s.events.Sound) :
    (review g held target s).events.Sound := by
  unfold review
  dsimp only
  split
  · exact e
  · exact EventQueue.Sound.post e _ _ _

theorem reviewIfDue_sound (g : GenIdx) {s : State} (e : s.events.Sound) : (reviewIfDue g s).events.Sound := by
  unfold reviewIfDue
  repeat' split
  · exact review_sound g _ _ e
  all_goals exact e

/-- A request reaches the Event Queue by postings, a fetch and a setting of the levels, which judge the line again. -/
theorem RequestAct.sound {s t : State} (h : RequestAct s t) (e : s.events.Sound) : t.events.Sound := by
  cases h with
  | work h => exact h.beside.sound e
  | define =>
    unfold Machine.define
    dsimp only
    split <;> exact e
  | stopLane l => exact (stopLane_beside l s).sound e
  | startMaster => exact (enterRunning_beside _ _ s).sound e
  | fetch n =>
    exact EventQueue.judge_sound (Nat.le_trans (EventQueue.fetch_left_sublist _ n).length_le e.room)
      (e.distinct.sublist (EventQueue.fetch_left_sublist _ n))
  | levels => exact EventQueue.judge_sound e.room e.distinct
  | clear | control | laneCounters | slot | configure | startSlave | clock | discovery => exact e

/-- The other commands reach it by postings, the tick of the uptime and a reset. -/
theorem Act.sound {s t : State} (h : Act s t) (e : s.events.Sound) : t.events.Sound := by
  cases h with
  | request h => exact h.sound e
  | reset cause phase => exact blockReset_sound cause phase s
  | tick => exact ⟨e.room, e.distinct, e.line⟩
  | linkUp p => exact EventQueue.Sound.post e _ _ _
  | linkDown _ hreset => exact (portDown_beside hreset).sound e
  | replySent | reply => exact (runArbiters_beside _).sound e
  | lost c d => exact (enterLost_beside _ c d s).sound e
  | run => exact (enterRunning_beside _ _ s).sound e
  | servo l g =>
    unfold servoTask
    dsimp only
    repeat' split
    any_goals exact e
    exact reviewIfDue_sound g (s := s.setGen g _) e
  | review g => exact reviewIfDue_sound g e
  | discover =>
    unfold Machine.discover
    dsimp only
    repeat' split
    · exact e
    all_goals exact EventQueue.Sound.post e _ _ _
  | release | load | accept | dequeue | candidate | due | frame => exact e

/-! ## The queues of requests and replies (R156, R175) -/

/-- Both reply queues and the request queue lie within their capacities. -/
abbrev State.QueuesOk (s : State) : Prop := s.control.requests.length ≤ 4 ∧ ∀ p, (s.port p).replies.length ≤ 2

theorem State.queueInv_iff (s : State) : s.queueInv ↔ s.QueuesOk :=
  ⟨fun ⟨h, ha, hb⟩ => ⟨h, fun p => by cases p <;> assumption⟩, fun ⟨h, hp⟩ => ⟨h, hp .ta, hp .tb⟩⟩

theorem State.QueuesOk.setPort {s : State} (h : s.QueuesOk) (p : Port) {x : PortState} (hx : x.replies.length ≤ 2) :
    (s.setPort p x).QueuesOk := by
  refine ⟨h.1, fun q => ?_⟩
  rw [State.port_setPort]
  split
  · exact hx
  · exact h.2 q

theorem State.Beside.queuesOk {s t : State} (h : s.Beside t) (e : s.QueuesOk) : t.QueuesOk := by
  refine ⟨by rw [h.control]; exact e.1, fun p => ?_⟩
  rw [h.replies]
  exact e.2 p

theorem RequestAct.queuesOk {s t : State} (h : RequestAct s t) (e : s.QueuesOk) : t.QueuesOk := by
  refine ⟨?_, fun p => by rw [(h.replies p).1]; exact e.2 p⟩
  have hrequests : t.control.requests = s.control.requests := by
    cases h with
    | work h => exact congrArg Control.requests h.beside.control
    | define =>
      unfold Machine.define
      dsimp only
      split <;> rfl
    | stopLane l => exact congrArg Control.requests (stopLane_beside l s).control
    | control hrequests => exact hrequests
    | clear | laneCounters | slot | configure | startMaster | startSlave | clock | discovery | fetch | levels => rfl
  rw [hrequests]
  exact e.1

/-- The servos touch generators and the Event Queue alone. -/
theorem servoTask_queuesOk (l : LaneIdx) (before : State) (g : GenIdx) {s : State} (e : s.QueuesOk) :
    (servoTask l before g s).QueuesOk := by
  unfold servoTask reviewIfDue review
  dsimp only
  repeat' split
  all_goals exact e

theorem reviewIfDue_queuesOk (g : GenIdx) {s : State} (e : s.QueuesOk) : (reviewIfDue g s).QueuesOk := by
  unfold reviewIfDue review
  dsimp only
  repeat' split
  all_goals exact e

/-- A reply joins a queue that has room, a request joins one that has room, and all else that reaches the queues takes off
them. -/
theorem Act.queuesOk {s t : State} (h : Act s t) (e : s.QueuesOk) : t.QueuesOk := by
  cases h with
  | request h => exact h.queuesOk e
  | reset => exact ⟨Nat.zero_le _, fun p => by cases p <;> exact Nat.zero_le _⟩
  | load r => exact ⟨e.1, fun | .ta => e.2 .ta | .tb => e.2 .tb⟩
  | linkUp p => exact e.setPort p (e.2 p)
  | linkDown _ hreset => exact (portDown_beside hreset).queuesOk (e.setPort _ (Nat.zero_le _))
  | accept _ hroom =>
    refine ⟨?_, e.2⟩
    rw [State.setControl_control, List.length_append]
    exact hroom
  | dequeue =>
    refine ⟨?_, e.2⟩
    show s.control.requests.tail.length ≤ 4
    rw [List.length_tail]
    exact Nat.le_trans (Nat.sub_le _ _) e.1
  | replySent =>
    refine (runArbiters_beside _).queuesOk (e.setPort _ ?_)
    rw [List.length_tail]
    exact Nat.le_trans (Nat.sub_le _ _) (e.2 _)
  | reply r _ hroom =>
    refine (runArbiters_beside _).queuesOk (e.setPort _ ?_)
    rw [List.length_append]
    exact hroom
  | servo l g => exact servoTask_queuesOk l _ g e
  | review g => exact reviewIfDue_queuesOk g e
  | discover =>
    unfold Machine.discover
    dsimp only
    repeat' split
    all_goals exact e
  | lost c d => exact (enterLost_beside _ c d s).queuesOk e
  | release | tick | candidate | due | frame | run => exact e

/-- Settles O51: the postings, fetches and settings that reach the Event Queue keep it in order, and whatever joins a
queue of requests or replies finds room there. -/
theorem stepsKeepTheQueues : Obligations.StepsKeepTheQueues :=
  ⟨fun s t hs hstep =>
      t.eventInv_iff.mpr
        (step_keeps (I := fun u => u.events.Sound) Act.sound (fun _ h => h) (s.eventInv_iff.mp hs) hstep),
    fun s t hs hstep =>
      t.queueInv_iff.mpr (step_keeps Act.queuesOk (fun _ h => h) (s.queueInv_iff.mp hs) hstep)⟩

/-! ## The generators (R115, R118, R121 to R123) -/

theorem Gen.blank_ok : Gen.blank.ok := by decide

theorem clampTrim_range (t : Int) : -512 ≤ clampTrim t ∧ clampTrim t ≤ 512 := by
  unfold clampTrim
  simp only [Config.trimLimit]
  omega

theorem State.gen_setGen (s : State) (g h : GenIdx) (x : Gen) :
    (s.setGen g x).gen h = if h = g then x else s.gen h := by
  split
  · next e => rw [e, State.gen_setGen_self]
  · next e => exact State.gen_setGen_ne s x e

/-- Both generators lie in their ranges, by index. -/
abbrev State.GensOk (s : State) : Prop := ∀ g, (s.gen g).ok

theorem State.genInv_iff (s : State) : s.genInv ↔ s.GensOk :=
  ⟨fun ⟨h0, h1⟩ g => by cases g <;> assumption, fun h => ⟨h .mcg0, h .mcg1⟩⟩

theorem State.GensOk.setGen {s : State} (h : s.GensOk) (g : GenIdx) {x : Gen} (hx : x.ok) : (s.setGen g x).GensOk := by
  intro g'
  rw [State.gen_setGen]
  split
  · exact hx
  · exact h g'

/-- A review leaves its generator in its ranges, whatever its trim and count stood at. -/
theorem State.GensOk.review {s : State} {g : GenIdx} (hothers : ∀ g', g' ≠ g → (s.gen g').ok)
    (hrecord : ({ s.gen g with trim := 0, reviewCount := 0 } : Gen).ok) (held target : Nat) :
    (review g held target s).GensOk := by
  have stepped : (s.setGen g
      { s.gen g with trim := clampTrim ((s.gen g).wantedTrim held target), reviewCount := 0 }).GensOk := by
    intro g'
    rw [State.gen_setGen]
    split
    · obtain ⟨hnum, hden, hden', hratio, -, -, hstep, hstep', hwindow, -⟩ := hrecord
      obtain ⟨hlow, hhigh⟩ := clampTrim_range ((s.gen g).wantedTrim held target)
      exact ⟨hnum, hden, hden', hratio, hlow, hhigh, hstep, hstep', hwindow, Nat.zero_le _⟩
    · next hne => exact hothers g' hne
  unfold Machine.review
  dsimp only
  split
  · exact stepped
  · exact stepped

theorem Gen.ok.restarted {x : Gen} (h : x.ok) : ({ x with trim := 0, reviewCount := 0 } : Gen).ok := by
  obtain ⟨hnum, hden, hden', hratio, -, -, hstep, hstep', hwindow, -⟩ := h
  have hzero : (-512 : Int) ≤ 0 ∧ (0 : Int) ≤ 512 := by decide
  exact ⟨hnum, hden, hden', hratio, hzero.1, hzero.2, hstep, hstep', hwindow, Nat.zero_le _⟩

theorem State.GensOk.reviewIfDue {s : State} (h : s.GensOk) (g : GenIdx) : (reviewIfDue g s).GensOk := by
  unfold Machine.reviewIfDue
  repeat' split
  · exact State.GensOk.review (fun g' _ => h g') (Gen.ok.restarted (h g)) _ _
  all_goals exact h

/-- A counting event raises the count to 1024 at most, and at 1024 it is a review, which takes it to 0. -/
theorem State.GensOk.count {s : State} (h : s.GensOk) {g : GenIdx} {r : StreamIdx}
    (href : (s.gen g).reference = some r) (hplayout : (s.stream r).direction = .playout) :
    (Machine.reviewIfDue g (s.setGen g { s.gen g with reviewCount := (s.gen g).reviewCount + 1 })).GensOk := by
  obtain ⟨hnum, hden, hden', hratio, hlow, hhigh, hstep, hstep', hwindow, hcount⟩ := h g
  unfold Machine.reviewIfDue
  simp only [State.gen_setGen_self, href, State.stream_setGen, hplayout, and_true]
  split
  next hdue =>
    refine State.GensOk.review (fun g' hne => ?_) ?_ _ _
    · rw [State.gen_setGen_ne _ _ hne]
      exact h g'
    · rw [State.gen_setGen_self]
      exact (h g).restarted
  next hearly =>
    exact h.setGen g ⟨hnum, hden, hden', hratio, hlow, hhigh, hstep, hstep', hwindow,
      Nat.le_of_lt_succ (Nat.lt_of_not_le hearly)⟩

/-- The reference of a servo that counts was an active playout stream before the event, and its entry is still one of
playout: the count that stands at 1024 is reviewed. -/
theorem State.GensOk.servoTask {s before : State} (h : s.GensOk) (l : LaneIdx) (g : GenIdx)
    (hdefinitions : ∀ i, (s.stream i).definition = (before.stream i).definition) :
    (servoTask l before g s).GensOk := by
  unfold Machine.servoTask
  dsimp only
  split
  next => exact h
  next r href =>
    split
    next hactive =>
      split
      · obtain ⟨hnum, hden, hden', hratio, hlow, hhigh, hstep, hstep', hwindow, -⟩ := h g
        exact h.setGen g ⟨hnum, hden, hden', hratio, hlow, hhigh, hstep, hstep', hwindow, Nat.zero_le _⟩
      · split
        · obtain ⟨hplayout, -, -⟩ := (Stream.activePlayout_and_lane _ l).mp hactive
          exact h.count href ((congrArg Stream.direction (hdefinitions r)).trans hplayout)
        · exact h
    next => exact h

theorem Gen.configure_ok {x : Gen} (h : x.ok) {num den step w : Nat} (hranges : clockRangesOk num den step w = true)
    (reference : Option StreamIdx) (resetTrim : Bool) : (x.configure num den reference step w resetTrim).ok := by
  obtain ⟨-, -, -, -, hlow, hhigh, -, -, -, hcount⟩ := h
  simp only [clockRangesOk, Config.ratioLimit, Bool.and_eq_true, Bool.or_eq_true, decide_eq_true_eq, beq_iff_eq]
    at hranges
  obtain ⟨⟨⟨⟨⟨⟨hnum, hden⟩, hden'⟩, hratio⟩, hstep⟩, hstep'⟩, hwindow⟩ := hranges
  refine ⟨hnum, hden, hden', hratio, ?_, ?_, hstep, hstep', hwindow, ?_⟩
  all_goals
    unfold Gen.configure
    dsimp only
    split <;> omega

theorem State.Beside.gensOk {s t : State} (h : s.Beside t) (e : s.GensOk) : t.GensOk := fun g => by
  rw [h.gen]
  exact e g

/-- Of a request's acts CLOCK_CONFIG alone reaches a generator. -/
theorem RequestAct.gensOk {s t : State} (h : RequestAct s t) (e : s.GensOk) : t.GensOk := by
  cases h with
  | work h => exact h.beside.gensOk e
  | define =>
    unfold Machine.define
    dsimp only
    split <;> exact e
  | stopLane l => exact (stopLane_beside l s).gensOk e
  | clock reference resetTrim hranges => exact e.setGen _ (Gen.configure_ok (e _) hranges reference resetTrim)
  | clear | control | laneCounters | slot | configure | startMaster | startSlave | discovery | fetch | levels => exact e

/-- Of the other acts a servo at a frame event, a review and a reset reach a generator. -/
theorem Act.gensOk {s t : State} (h : Act s t) (e : s.GensOk) : t.GensOk := by
  cases h with
  | request h => exact h.gensOk e
  | reset => exact fun g => by cases g <;> exact Gen.blank_ok
  | linkDown _ hreset => exact (portDown_beside hreset).gensOk (s := s.setPort _ _) e
  | replySent | reply => exact (runArbiters_beside _).gensOk (s := s.setPort _ _) e
  | servo l g hdefinitions => exact e.servoTask l g hdefinitions
  | review g => exact e.reviewIfDue g
  | discover =>
    unfold Machine.discover
    dsimp only
    repeat' split
    all_goals exact e
  | lost c d => exact (enterLost_beside _ c d s).gensOk (s := s.setLane _ _) e
  | release | tick | load | linkUp | accept | dequeue | candidate | due | frame | run => exact e

/-- Settles O54: both generators lie in their ranges after every act. -/
theorem stepsKeepTheGenerators : Obligations.StepsKeepTheGenerators := fun s t hs hstep =>
  t.genInv_iff.mpr (step_keeps Act.gensOk (fun _ h => h) (s.genInv_iff.mp hs) hstep)

end Sys2Proof.Machine
end

