-- ==== Sys2Proof/Proofs/Reset.lean ====
section
/-! The state after a reset (R186): what its readers give, that it meets every invariant, and the obligations about
resets. -/

namespace Sys2Proof.Machine

/-- The out-slots of a part are sound when each occupied one is. -/
theorem State.slotInv_iff (s : State) :
    s.slotInv ↔ ∀ (l : LaneIdx) (k : Fin 32) (e : OutSlot), (s.lane l).outTable.get k = some e → s.slotOk l k e := by
  refine forall_congr' fun l => forall_congr' fun k => ?_
  cases (s.lane l).outTable.get k with
  | none => exact ⟨fun _ e h => (nomatch h), fun _ => rfl⟩
  | some x =>
    refine ⟨fun h e he => ?_, fun h => decide_eq_true (h x rfl)⟩
    cases he
    exact of_decide_eq_true h

section
variable (cause : StartCause) (phase : Phase) (s : State)

/-! ## What a reset leaves in each block -/

@[simp] theorem blockReset_stream (i : StreamIdx) : (blockReset cause phase s).stream i = Stream.blank := by
  simp [blockReset, State.stream, State.reset, Vector.get]

@[simp] theorem blockReset_lane (l : LaneIdx) : (blockReset cause phase s).lane l = Lane.blank := by
  simp [blockReset, State.lane, State.reset, Vector.get]

@[simp] theorem blockReset_gen (g : GenIdx) : (blockReset cause phase s).gen g = Gen.blank := by
  cases g <;> rfl

@[simp] theorem blockReset_port (p : Port) : (blockReset cause phase s).port p = PortState.blank (s.port p).linkPin := by
  cases p <;> rfl

@[simp] theorem blockReset_waitList : (blockReset cause phase s).waitList = [] := rfl
@[simp] theorem blockReset_discovery : (blockReset cause phase s).discovery.records = [] := rfl

@[simp] theorem Lane.blank_outTable (k : Fin 32) : Lane.blank.outTable.get k = none := by
  simp [Lane.blank, Vector.get]

/-- Nothing is reserved after a reset. -/
theorem blockReset_reservedCells : (blockReset cause phase s).reservedCells = 0 := by
  have none_reserved : ∀ i : StreamIdx, ((blockReset cause phase s).stream i).reserved = 0 := fun i => by
    rw [blockReset_stream]
    rfl
  unfold State.reservedCells
  rw [funext none_reserved]
  decide

/-! ## The invariants after a reset -/

theorem blockReset_admissionInv : (blockReset cause phase s).admissionInv := by
  refine ⟨Nat.zero_le _, .nil, fun i => ?_, ?_, rfl⟩
  · rw [blockReset_stream]
    exact ⟨fun h => (nomatch h), fun h => (nomatch h)⟩
  · rw [blockReset_reservedCells]
    exact Nat.zero_le _

theorem blockReset_tagInv : (blockReset cause phase s).tagInv := by
  have empty (i : StreamIdx) : ((blockReset cause phase s).stream i).state = .empty := by
    rw [blockReset_stream]
    rfl
  exact ⟨fun i h => absurd (empty i) h, fun i _ _ h => absurd (empty i) h, Nat.zero_le _, .nil, fun r h => (nomatch h)⟩

theorem blockReset_slotInv : (blockReset cause phase s).slotInv := by
  refine (State.slotInv_iff _).mpr fun l k e he => ?_
  rw [blockReset_lane, Lane.blank_outTable] at he
  exact nomatch he

theorem blockReset_laneInv : (blockReset cause phase s).laneInv := by
  refine ⟨fun i h => ?_, fun l => ?_⟩
  · rw [blockReset_stream] at h
    rcases h with h | ⟨-, h⟩ <;> exact nomatch h
  · rw [blockReset_lane]
    exact ⟨fun h => by rcases h with h | h <;> exact (nomatch h), fun h => (nomatch h), fun h => (nomatch h)⟩

theorem blockReset_transmitInv : (blockReset cause phase s).transmitInv := by
  have quiet (p : Port) : (blockReset cause phase s).downQuietAt p := fun _ => by
    rw [blockReset_port]
    refine ⟨rfl, rfl, fun i f hf => ?_⟩
    rw [blockReset_stream] at hf
    exact nomatch hf
  have settled (p : Port) : (blockReset cause phase s).settledAt p := fun h => by
    rw [blockReset_port] at h
    exact nomatch h
  refine ⟨fun i => ?_, quiet .ta, quiet .tb, settled .ta, settled .tb⟩
  rw [blockReset_stream]
  exact Nat.zero_le _

theorem Stream.blank_ok : Stream.blank.ok :=
  ⟨fun _ => rfl, fun h => absurd rfl h, fun _ h => (nomatch h), fun h => (nomatch h), Nat.zero_le _,
    fun _ h => (nomatch h), fun h => absurd rfl h, fun h => (nomatch h), rfl, fun h => (nomatch h),
    fun h => (nomatch h), fun h => (nomatch h), ⟨fun _ => ⟨rfl, rfl, rfl, rfl, rfl⟩, fun h => (nomatch h)⟩, rfl,
    fun _ h => (nomatch h)⟩

theorem Stream.blank_playOk : Stream.blank.playOk :=
  ⟨Nat.zero_le _, fun h => absurd rfl h, fun _ => ⟨rfl, rfl, rfl⟩, fun h => (nomatch h), fun h => (nomatch h),
    fun h => (nomatch h), fun h => (nomatch h)⟩

theorem blockReset_streamInv : (blockReset cause phase s).streamInv := by
  have sending (p : Port) : (blockReset cause phase s).sendingOk p := by
    refine ⟨fun i => ?_, fun h => ?_⟩
    · rw [blockReset_stream, blockReset_port]
      rfl
    · rw [blockReset_port] at h
      exact nomatch h
  refine ⟨fun i => ?_, sending .ta, sending .tb⟩
  rw [blockReset_stream]
  exact Stream.blank_ok

theorem blockReset_playInv : (blockReset cause phase s).playInv := by
  intro i _
  rw [blockReset_stream]
  exact Stream.blank_playOk

end

/-- The state after power-on is that of a reset with cause POWER, whatever stood before with its LINK inputs low. -/
theorem reset_eq_blockReset : State.reset = blockReset .power .loading State.reset := rfl

/-- Settles O60: each block after a reset meets the invariants of its block. -/
theorem resetStateMeetsTheInvariants : Obligations.ResetStateMeetsTheInvariants := by
  unfold Obligations.ResetStateMeetsTheInvariants
  rw [reset_eq_blockReset]
  exact ⟨(State.eventInv_iff _).mpr (blockReset_sound _ _ _),
    ⟨Nat.zero_le _, Nat.zero_le _, Nat.zero_le _⟩, blockReset_admissionInv _ _ _, blockReset_tagInv _ _ _,
    blockReset_slotInv _ _ _, ⟨Gen.blank_ok, Gen.blank_ok⟩, blockReset_laneInv _ _ _, blockReset_transmitInv _ _ _,
    blockReset_streamInv _ _ _, blockReset_playInv _ _ _⟩

/-- Settles O3: the readers of the reset state, block by block. -/
theorem resetStateHoldsTheResetValues : Obligations.ResetStateHoldsTheResetValues := by
  refine ⟨fun i => blockReset_stream .power .loading State.reset i, rfl, ?_, fun l => ?_, fun g => by cases g <;> rfl,
    fun p => ?_, rfl, rfl, rfl, rfl, rfl, rfl, rfl, rfl, rfl, rfl, rfl⟩
  · rw [State.unreserved, reset_eq_blockReset, blockReset_reservedCells]
    rfl
  · have blank : State.reset.lane l = Lane.blank := blockReset_lane .power .loading State.reset l
    rw [blank]
    exact ⟨rfl, rfl, rfl, rfl⟩
  · have blank : State.reset.port p = PortState.blank false := by cases p <;> rfl
    rw [blank]
    exact ⟨rfl, rfl, rfl, rfl, rfl, rfl, rfl⟩

theorem blockReset_eq_afterReset (cause : StartCause) (phase : Phase) (s : State) :
    blockReset cause phase s = s.afterReset cause phase := rfl

/-- Settles O4: the two resets are the reset of every block, and the release acts in the phase it waits in alone. -/
theorem resetsTakeEveryBlockToItsResetValues : Obligations.ResetsTakeEveryBlockToItsResetValues :=
  ⟨fun s => congrArg Host.Outcome.next (blockReset_eq_afterReset .power .loading s),
    fun s => congrArg Host.Outcome.next (blockReset_eq_afterReset .pin .resetHeld s),
    fun _ h => congrArg Host.Outcome.next (if_pos h), fun _ h => congrArg Host.Outcome.next (if_neg h)⟩

end Sys2Proof.Machine
end

