-- ==== Sys2Proof/Proofs/Definition.lean ====
section
/-! The arguments of STREAM_DEFINE (section 1.4, R12, R14): which of them are in their ranges, the entry they make, and what
holds of every entry that they make. -/

namespace Sys2Proof.Machine

/-! ## The codings of the arguments -/

theorem ofBe_lt (bs : List Byte) : ofBe bs < 256 ^ bs.length := by
  suffices h : ∀ (bs : List Byte) (n : Nat),
      bs.foldl (fun a b => a * 256 + b.toNat) n < (n + 1) * 256 ^ bs.length by
    simpa [ofBe] using h bs 0
  intro bs
  induction bs with
  | nil => intro n; simp
  | cons b bs ih =>
    intro n
    have hb : b.toNat < 256 := b.isLt
    refine Nat.lt_of_lt_of_le (ih _) ?_
    rw [List.length_cons, Nat.pow_succ, Nat.mul_comm (256 ^ bs.length), ← Nat.mul_assoc]
    refine Nat.mul_le_mul_right _ ?_
    show n * 256 + b.toNat + 1 ≤ (n + 1) * 256
    omega

theorem beAt_lt (bs : List Byte) (i n : Nat) : beAt bs i n < 256 ^ n :=
  Nat.lt_of_lt_of_le (ofBe_lt _) (Nat.pow_le_pow_right (by decide) (by
    rw [List.length_take]
    exact Nat.min_le_left _ _))

theorem tag_eq_zero_iff (a : List Byte) : BitVec.ofNat 32 (beAt a 2 4) = 0 ↔ beAt a 2 4 = 0 := by
  have h : beAt a 2 4 < 2 ^ 32 := beAt_lt a 2 4
  rw [← BitVec.toNat_inj, BitVec.toNat_ofNat, Nat.mod_eq_of_lt h]
  rfl

theorem widthOfCode_eq_some {b : Byte} (h : b.toNat ≤ 2) : widthOfCode b.toNat = some (widthNamed b) := by
  have hb : b = 0 ∨ b = 1 ∨ b = 2 := by
    simp only [← BitVec.toNat_inj]
    simp
    omega
  rcases hb with rfl | rfl | rfl <;> rfl

theorem widthNamed_bytes {b : Byte} (h : b.toNat ≤ 2) : (widthNamed b).bytes = b.toNat + 2 := by
  obtain ⟨w, hw, hbytes⟩ := widthOfCode_of_le h
  rw [widthOfCode_eq_some h] at hw
  cases hw
  exact hbytes

theorem finOf_eq_some {k n : Nat} (h : n < k) : finOf k n = some ⟨n, h⟩ := dif_pos h

theorem concealOfCode_eq (n : Nat) :
    concealOfCode n = if n ≤ 1 then some (if n = 0 then .zero else .hold) else none := by
  match n with
  | 0 | 1 => rfl
  | n + 2 => simp [concealOfCode]

theorem egressOfCode_eq (n : Nat) :
    egressOfCode n = if 1 ≤ n ∧ n ≤ 3 then some ⟨n != 2, n != 1⟩ else none := by
  match n with
  | 0 | 1 | 2 | 3 => rfl
  | n + 4 => simp [egressOfCode]

/-- The channel-slot item of a byte that has one. -/
def slotItem (b : Byte) : Option (Fin 32) := if h : b.toNat < 32 then some ⟨b.toNat, h⟩ else none

theorem channelSlotOfCode_eq (b : Byte) :
    channelSlotOfCode b.toNat = if b.toNat ≤ 31 ∨ b.toNat = 0xFF then some (slotItem b) else none := by
  unfold channelSlotOfCode slotItem finOf
  by_cases hnone : b.toNat = 0xFF
  · simp [hnone]
  · by_cases hslot : b.toNat < 32
    · have : b.toNat ≤ 31 := Nat.le_of_lt_succ hslot
      simp [hnone, hslot, this]
    · have : ¬ b.toNat ≤ 31 := fun h => hslot (Nat.lt_succ_of_le h)
      simp [hnone, hslot, this]

/-- A list of bytes gives a list of items exactly where each byte gives one. -/
theorem mapM_channelSlotOfCode (bs : List Byte) :
    (bs.mapM fun b => channelSlotOfCode b.toNat) =
      if ∀ b ∈ bs, b.toNat ≤ 31 ∨ b.toNat = 0xFF then some (bs.map slotItem) else none := by
  induction bs with
  | nil => rfl
  | cons b bs ih =>
    have hcons : (∀ x ∈ b :: bs, x.toNat ≤ 31 ∨ x.toNat = 0xFF) ↔
        (b.toNat ≤ 31 ∨ b.toNat = 0xFF) ∧ ∀ x ∈ bs, x.toNat ≤ 31 ∨ x.toNat = 0xFF := List.forall_mem_cons
    rw [List.mapM_cons, ih, channelSlotOfCode_eq]
    by_cases hb : b.toNat ≤ 31 ∨ b.toNat = 0xFF
    · by_cases hbs : ∀ b ∈ bs, b.toNat ≤ 31 ∨ b.toNat = 0xFF
      · rw [if_pos hb, if_pos hbs, if_pos (hcons.mpr ⟨hb, hbs⟩)]
        rfl
      · rw [if_pos hb, if_neg hbs, if_neg fun h => hbs (hcons.mp h).2]
        rfl
    · rw [if_neg hb, if_neg fun h => hb (hcons.mp h).1]
      rfl

/-! ## The entry that the arguments make -/

section
variable {a : List Byte}

/-- What both directions have of an entry made from arguments. -/
def definedBase (a : List Byte) (lane : LaneIdx) : Stream :=
  { Stream.blank with
    state := .idle, tag := BitVec.ofNat 32 (beAt a 2 4), channels := byteAt a 6, width := widthNamed (a.getD 7 0),
    frameSamples := byteAt a 8, lane := lane }

/-- The playout entry that arguments make. -/
def definedPlayout (a : List Byte) (lane : LaneIdx) : Stream :=
  { definedBase a lane with
    direction := .playout, depthMax := byteAt a 10, depthTarget := byteAt a 11,
    conceal := if byteAt a 12 = 0 then .zero else .hold, hold := List.replicate (byteAt a 6) 0 }

/-- The capture entry that arguments make. -/
def definedCapture (a : List Byte) (lane : LaneIdx) : Stream :=
  { definedBase a lane with
    direction := .capture, level := byteAt a 10, egress := ⟨byteAt a 11 != 2, byteAt a 11 != 1⟩,
    channelSlots := (a.drop 12).map slotItem }

theorem parseDefinition_of_playout {lane : LaneIdx} (hlane : byteAt a 9 = lane.val) (hdirection : byteAt a 1 = 0)
    (h : DefinitionArgsOk a) : parseDefinition a = some (definedPlayout a lane) := by
  obtain ⟨htag, hc, hc', hw, hf, hf', hsize, -, hrest⟩ := h
  obtain ⟨-, hm, hm', hd, hd', hconceal⟩ := hrest.resolve_right fun h => absurd (hdirection.symm.trans h.1) (by decide)
  have hwidth : widthOfCode (byteAt a 7) = some (widthNamed (a.getD 7 0)) := widthOfCode_eq_some hw
  have hbytes : (widthNamed (a.getD 7 0)).bytes = byteAt a 7 + 2 := widthNamed_bytes hw
  have htag0 : BitVec.ofNat 32 (beAt a 2 4) ≠ 0 := fun h => by
    have := (tag_eq_zero_iff a).mp h
    omega
  unfold parseDefinition
  simp only [hwidth, finOf_val hlane, hbytes]
  rw [if_pos ⟨htag0, hc, hc', hf, hf', hsize⟩]
  simp only [hdirection, concealOfCode_eq, if_pos hconceal]
  rw [if_pos ⟨hm, hm', hd, hd'⟩]
  rfl

theorem parseDefinition_of_capture {lane : LaneIdx} (hlane : byteAt a 9 = lane.val) (hdirection : byteAt a 1 = 1)
    (h : DefinitionArgsOk a) : parseDefinition a = some (definedCapture a lane) := by
  obtain ⟨htag, hc, hc', hw, hf, hf', hsize, -, hrest⟩ := h
  obtain ⟨-, hlevel, he, he', hitems⟩ := hrest.resolve_left fun h => absurd (hdirection.symm.trans h.1) (by decide)
  have hwidth : widthOfCode (byteAt a 7) = some (widthNamed (a.getD 7 0)) := widthOfCode_eq_some hw
  have hbytes : (widthNamed (a.getD 7 0)).bytes = byteAt a 7 + 2 := widthNamed_bytes hw
  have htag0 : BitVec.ofNat 32 (beAt a 2 4) ≠ 0 := fun h => by
    have := (tag_eq_zero_iff a).mp h
    omega
  unfold parseDefinition
  simp only [hwidth, finOf_val hlane, hbytes]
  rw [if_pos ⟨htag0, hc, hc', hf, hf', hsize⟩]
  simp only [hdirection, egressOfCode_eq, if_pos (And.intro he he'), mapM_channelSlotOfCode, if_pos hitems]
  rw [if_pos hlevel]
  rfl

/-- Arguments that make an entry lie in their ranges. -/
theorem definitionArgsOk_of_parse {new : Stream} (h : parseDefinition a = some new) : DefinitionArgsOk a := by
  unfold parseDefinition at h
  simp only at h
  split at h
  next w lane hwidth hlane =>
    have hlane' : byteAt a 9 ≤ 3 := by
      by_cases h3 : byteAt a 9 < 4
      · exact Nat.le_of_lt_succ h3
      · rw [finOf, dif_neg h3] at hlane
        exact nomatch hlane
    have hw : byteAt a 7 ≤ 2 := by
      by_cases h2 : byteAt a 7 ≤ 2
      · exact h2
      · rw [widthOfCode_eq_none (Nat.lt_of_not_le h2)] at hwidth
        exact nomatch hwidth
    obtain ⟨w', hw', hbytes⟩ := widthOfCode_of_le hw
    rw [hwidth] at hw'
    cases hw'
    split at h
    next hranges =>
      obtain ⟨htag, hc, hc', hf, hf', hsize⟩ := hranges
      have htag1 : 1 ≤ beAt a 2 4 := Nat.one_le_iff_ne_zero.mpr fun h0 => htag ((tag_eq_zero_iff a).mpr h0)
      rw [hbytes] at hsize
      refine ⟨htag1, hc, hc', hw, hf, hf', hsize, hlane', ?_⟩
      split at h
      next hdirection =>
        rw [concealOfCode_eq] at h
        split at h
        next c hc =>
          split at h
          next hranges =>
            obtain ⟨hm, hm', hd, hd'⟩ := hranges
            refine .inl ⟨hdirection, hm, hm', hd, hd', ?_⟩
            by_cases h1 : byteAt a 12 ≤ 1
            · exact h1
            · rw [if_neg h1] at hc
              exact nomatch hc
          next => exact nomatch h
        next => exact nomatch h
      next hdirection =>
        rw [egressOfCode_eq, mapM_channelSlotOfCode] at h
        split at h
        next e items he hitems =>
          split at h
          next hlevel =>
            refine .inr ⟨hdirection, hlevel, ?_⟩
            by_cases he' : 1 ≤ byteAt a 11 ∧ byteAt a 11 ≤ 3
            · by_cases hi : ∀ b ∈ a.drop 12, b.toNat ≤ 31 ∨ b.toNat = 0xFF
              · exact ⟨he'.1, he'.2, hi⟩
              · rw [if_neg hi] at hitems
                exact nomatch hitems
            · rw [if_neg he'] at he
              exact nomatch he
          next => exact nomatch h
        next => exact nomatch h
      next => exact nomatch h
    next => exact nomatch h
  next => exact nomatch h

theorem parseDefinition_eq_none (h : ¬ DefinitionArgsOk a) : parseDefinition a = none := by
  cases hparse : parseDefinition a with
  | none => rfl
  | some new => exact absurd (definitionArgsOk_of_parse hparse) h

/-- An entry made from arguments is one of the two, by the direction byte. -/
theorem parseDefinition_cases {new : Stream} (h : parseDefinition a = some new) :
    ∃ lane : LaneIdx, byteAt a 9 = lane.val
      ∧ ((byteAt a 1 = 0 ∧ new = definedPlayout a lane) ∨ (byteAt a 1 = 1 ∧ new = definedCapture a lane)) := by
  have hok := definitionArgsOk_of_parse h
  have ⟨_, _, _, _, _, _, _, hlane, hdirection⟩ := hok
  obtain ⟨lane, hl⟩ : ∃ lane : LaneIdx, byteAt a 9 = lane.val := ⟨⟨_, Nat.lt_succ_of_le hlane⟩, rfl⟩
  refine ⟨lane, hl, ?_⟩
  rcases hdirection with ⟨hd, -⟩ | ⟨hd, -⟩
  · rw [parseDefinition_of_playout hl hd hok] at h
    exact .inl ⟨hd, (Option.some.inj h).symm⟩
  · rw [parseDefinition_of_capture hl hd hok] at h
    exact .inr ⟨hd, (Option.some.inj h).symm⟩

/-! ## What holds of it -/

theorem parseDefinition_state {new : Stream} (h : parseDefinition a = some new) : new.state = .idle := by
  obtain ⟨lane, -, ⟨-, rfl⟩ | ⟨-, rfl⟩⟩ := parseDefinition_cases h <;> rfl

theorem parseDefinition_tag {new : Stream} (h : parseDefinition a = some new) :
    new.tag = BitVec.ofNat 32 (beAt a 2 4) ∧ new.tag ≠ 0 := by
  have hok := definitionArgsOk_of_parse h
  have htag : new.tag = BitVec.ofNat 32 (beAt a 2 4) := by
    obtain ⟨lane, -, ⟨-, rfl⟩ | ⟨-, rfl⟩⟩ := parseDefinition_cases h <;> rfl
  refine ⟨htag, fun h0 => ?_⟩
  rw [htag, tag_eq_zero_iff] at h0
  have := hok.1
  omega

theorem parseDefinition_definitionOk {new : Stream} (h : parseDefinition a = some new) : new.definitionOk := by
  obtain ⟨-, htag⟩ := parseDefinition_tag h
  obtain ⟨-, hc, hc', hw, hf, hf', hsize, -, hrest⟩ := definitionArgsOk_of_parse h
  have hbytes : (widthNamed (a.getD 7 0)).bytes = byteAt a 7 + 2 := widthNamed_bytes hw
  obtain ⟨lane, -, ⟨hd, rfl⟩ | ⟨hd, rfl⟩⟩ := parseDefinition_cases h
  · obtain ⟨-, hm, hm', ht, ht', -⟩ := hrest.resolve_right fun h => absurd (hd.symm.trans h.1) (by decide)
    refine ⟨htag, hc, hc', hf, hf', ?_, fun _ => ⟨hm, hm', ht, ht'⟩, fun h => (nomatch h)⟩
    show byteAt a 6 * (widthNamed (a.getD 7 0)).bytes * byteAt a 8 ≤ 1024
    rw [hbytes]
    exact hsize
  · obtain ⟨-, hlevel, -⟩ := hrest.resolve_left fun h => absurd (hd.symm.trans h.1) (by decide)
    refine ⟨htag, hc, hc', hf, hf', ?_, fun h => (nomatch h), fun _ => hlevel⟩
    show byteAt a 6 * (widthNamed (a.getD 7 0)).bytes * byteAt a 8 ≤ 1024
    rw [hbytes]
    exact hsize

/-- The number of channel-slot items is the number of channels where the length of the arguments is the one their layout
gives. -/
theorem parseDefinition_fieldsOk {new : Stream} (hframed : RequestCode.streamDefine.framed a = true)
    (h : parseDefinition a = some new) : new.fieldsOk := by
  obtain ⟨-, -, -, -, -, -, -, -, hrest⟩ := definitionArgsOk_of_parse h
  have hlength : defineLengthOk a = true := ((Bool.and_eq_true _ _).mp hframed).1
  obtain ⟨lane, -, ⟨hd, rfl⟩ | ⟨hd, rfl⟩⟩ := parseDefinition_cases h
  · exact ⟨fun _ => ⟨rfl, rfl, rfl, rfl, rfl⟩, fun h => (nomatch h)⟩
  · obtain ⟨-, -, he, he', -⟩ := hrest.resolve_left fun h => absurd (hd.symm.trans h.1) (by decide)
    refine ⟨fun h => (nomatch h), fun _ => ⟨rfl, rfl, rfl, rfl, rfl, rfl, rfl, rfl, rfl, rfl, ?_, fun hnone => ?_⟩⟩
    · unfold defineLengthOk at hlength
      simp only [hd, Bool.and_eq_true, beq_iff_eq] at hlength
      show ((a.drop 12).map slotItem).length = byteAt a 6
      rw [List.length_map, List.length_drop]
      omega
    · have hta : (byteAt a 11 != 2) = false := congrArg PerPort.ta hnone
      have htb : (byteAt a 11 != 1) = false := congrArg PerPort.tb hnone
      simp only [bne_eq_false_iff_eq] at hta htb
      omega

end

end Sys2Proof.Machine
end

