-- ==== Sys2Proof/Proofs/Admission.lean ====
section
/-! The wait list and the pool (chapter 2, R23 to R31): what keeps the footing of the streams in the pool, what the admission
test makes of a released reservation, and that every step keeps the list and the pool in order. -/

namespace Sys2Proof.Machine

open State.Beside (refl)

/-! ## The acts that reach one block and post -/

theorem reviewIfDue_eq (g : GenIdx) (s : State) :
    ∃ gens events, reviewIfDue g s = { s with gens := gens, events := events } := by
  unfold reviewIfDue review
  dsimp only
  repeat' split
  all_goals exact ⟨_, _, rfl⟩

theorem servoTask_eq (l : LaneIdx) (before : State) (g : GenIdx) (s : State) :
    ∃ gens events, servoTask l before g s = { s with gens := gens, events := events } := by
  unfold servoTask
  dsimp only
  repeat' split
  any_goals exact ⟨_, _, rfl⟩
  obtain ⟨gens, events, h⟩ := reviewIfDue_eq g (s.setGen g { s.gen g with reviewCount := (s.gen g).reviewCount + 1 })
  exact ⟨gens, events, h⟩

theorem discover_eq (p : Port) (f : List Byte) (s : State) :
    ∃ d events, discover p f s = { s with discovery := d, events := events } := by
  unfold discover
  dsimp only
  repeat' split
  all_goals exact ⟨_, _, rfl⟩

/-! ## The footing of a stream in the pool -/

/-- Whether a state waits and whether it reserves. -/
def StreamState.footing (x : StreamState) : Bool × Bool := (x == .waiting, x.reserves)

theorem StreamState.waiting_of_footing {x y : StreamState} (h : x.footing = y.footing) :
    x = .waiting ↔ y = .waiting := by
  have hwaits : (x == .waiting) = (y == .waiting) := congrArg Prod.fst h
  exact beq_iff_eq.symm.trans ((iff_of_eq (congrArg (· = true) hwaits)).trans beq_iff_eq)

theorem StreamState.reserves_of_footing {x y : StreamState} (h : x.footing = y.footing) : x.reserves = y.reserves :=
  congrArg Prod.snd h

/-- The wait list stands, and every stream keeps its footing. -/
structure State.SameFooting (s t : State) : Prop where
  waitList : t.waitList = s.waitList
  footing : ∀ i, (t.stream i).state.footing = (s.stream i).state.footing

namespace State.SameFooting

variable {s t u : State}

theorem refl (s : State) : s.SameFooting s := ⟨rfl, fun _ => rfl⟩

theorem trans (h : s.SameFooting t) (k : t.SameFooting u) : s.SameFooting u :=
  ⟨k.waitList.trans h.waitList, fun i => (k.footing i).trans (h.footing i)⟩

theorem setStream (h : s.SameFooting t) (i : StreamIdx) {x : Stream}
    (hx : x.state.footing = (t.stream i).state.footing) : s.SameFooting (t.setStream i x) := by
  refine h.trans ⟨rfl, fun j => ?_⟩
  rw [State.stream_setStream]
  split
  · next e => rw [e, hx]
  · rfl

theorem mapStreams (h : s.SameFooting t) {f : Stream → Stream}
    (hf : ∀ st, (f st).state.footing = st.state.footing) : s.SameFooting (t.mapStreams f) :=
  h.trans ⟨rfl, fun i => by rw [State.stream_mapStreams, hf]⟩

theorem setPort (h : s.SameFooting t) (p : Port) (x : PortState) : s.SameFooting (t.setPort p x) :=
  h.trans ⟨rfl, fun _ => rfl⟩

theorem post (h : s.SameFooting t) (k : EventKind) (o : Source) (d : Word) : s.SameFooting (t.post k o d) :=
  h.trans ⟨rfl, fun _ => rfl⟩

theorem postAll (h : s.SameFooting t) (o : Source) (es : List (EventKind × Word)) :
    s.SameFooting (t.postAll o es) := by
  rw [State.postAll_eq]
  exact h.trans ⟨rfl, fun _ => rfl⟩

end State.SameFooting

open State (SameFooting)

/-! ## What keeps it -/

theorem runArbiter_sameFooting (p : Port) (s : State) : s.SameFooting (runArbiter p s) :=
  ⟨by simp, fun i => by
    obtain ⟨r, hr, -⟩ := runArbiter_stream p s i
    rw [hr]⟩

theorem runArbiters_sameFooting (s : State) : s.SameFooting (runArbiters s) :=
  (runArbiter_sameFooting .ta s).trans (runArbiter_sameFooting .tb _)

theorem Stream.dispose_state (st : Stream) (f : ReadyFrame) : (st.dispose f).1.state = st.state := by
  unfold Stream.dispose
  repeat' split
  all_goals rfl

theorem closeFrame_sameFooting (isEnd : Bool) (i : StreamIdx) (s : State) : s.SameFooting (closeFrame isEnd i s) := by
  have closed := (SameFooting.refl s).setStream i (congrArg StreamState.footing
    (Stream.dispose_state ((s.stream i).afterClose isEnd) (closingFrame s (s.stream i) isEnd)))
  unfold closeFrame
  dsimp only
  split
  · exact closed.post _ _ _
  · exact closed

theorem takeSamples_sameFooting (c : LaneConfig) (line : PinLevels) (i : StreamIdx) (s : State) :
    s.SameFooting (takeSamples c line i s) := by
  unfold takeSamples
  dsimp only
  split
  · exact ((SameFooting.refl s).setStream i (by rfl)).trans (closeFrame_sameFooting false i _)
  · exact (SameFooting.refl s).setStream i rfl

/-- ARMED and RUNNING both reserve. -/
theorem captureTask_sameFooting (c : LaneConfig) (line : PinLevels) (i : StreamIdx) (s : State) :
    s.SameFooting (captureTask c line i s) := by
  unfold captureTask
  dsimp only
  split
  case h_1 harmed =>
    exact ((((SameFooting.refl s).setStream i (by rw [harmed]; rfl)).trans (takeSamples_sameFooting c line i _)).post
      _ _ _).trans (runArbiters_sameFooting _)
  case h_2 => exact (takeSamples_sameFooting c line i s).trans (runArbiters_sameFooting _)
  all_goals exact SameFooting.refl s

/-- The states of a playout stream that is active (section 3.5). -/
def StreamState.plays : StreamState → Bool
  | .armed | .running | .starved => true
  | .empty | .idle | .waiting | .draining => false

theorem StreamState.footing_of_plays {x : StreamState} (h : x.plays = true) : x.footing = StreamState.armed.footing := by
  cases x with
  | armed | running | starved => rfl
  | empty | idle | waiting | draining => exact nomatch h

theorem Stream.activePlayout_eq (st : Stream) : st.activePlayout = (st.direction == .playout && st.state.plays) := by
  unfold Stream.activePlayout
  cases st.state <;> rfl

theorem Stream.activePlayout_plays {st : Stream} (h : st.activePlayout = true) : st.state.plays = true := by
  rw [st.activePlayout_eq, Bool.and_eq_true] at h
  exact h.2

theorem Stream.giveSample_plays {st : Stream} (hs : st.state = .running) (f : PlayFrame) (i : Nat) :
    (st.giveSample f i).stream.state.plays = true := by
  unfold Stream.giveSample
  dsimp only
  repeat' split
  · exact (congrArg _ hs).trans rfl
  · rfl
  · exact (congrArg _ hs).trans rfl

theorem Stream.gapStep_state (st : Stream) : st.gapStep.stream.state = st.state := by
  unfold Stream.gapStep
  dsimp only
  split <;> rfl

theorem Stream.boundary_plays {st : Stream} (hs : st.state = .running) : st.boundary.stream.state.plays = true := by
  unfold Stream.boundary
  repeat' split
  · rfl
  · exact Stream.giveSample_plays hs _ 0
  · rw [st.gapStep_state, hs]
    rfl
  · rfl

/-- A step leads from ARMED, RUNNING or STARVED to one of the three. -/
theorem Stream.playStep_plays {st : Stream} (h : st.state.plays = true) : st.playStep.stream.state.plays = true := by
  unfold Stream.playStep
  split
  next hs =>
    split
    · exact h
    · exact Stream.boundary_plays (st := { st with state := .running }) rfl
  next hs =>
    repeat' split
    · rw [st.gapStep_state, hs]
      rfl
    · exact Stream.boundary_plays hs
    · exact Stream.giveSample_plays hs _ _
    · exact Stream.boundary_plays hs
  next hs =>
    split
    · exact h
    · exact Stream.boundary_plays (st := { st.skipToOldest with state := .running }) rfl
  all_goals exact h

/-- A stream that is not active takes no step. -/
theorem Stream.playStep_of_not_plays {st : Stream} (h : st.state.plays = false) : st.playStep.stream = st := by
  unfold Stream.playStep
  split
  case h_1 hs | h_2 hs | h_3 hs =>
    rw [hs] at h
    exact nomatch h
  all_goals rfl

theorem Stream.playStep_footing (st : Stream) : st.playStep.stream.state.footing = st.state.footing := by
  cases h : st.state.plays with
  | true => rw [StreamState.footing_of_plays (Stream.playStep_plays h), StreamState.footing_of_plays h]
  | false => rw [Stream.playStep_of_not_plays h]

theorem playTask_sameFooting (i : StreamIdx) (s : State) : s.SameFooting (playTask i s) :=
  ((SameFooting.refl s).setStream i (Stream.playStep_footing _)).postAll _ _

/-- An arrival leaves the state, or takes an active stream to ARMED. -/
theorem Stream.arrive_plays {st : Stream} (h : st.state.plays = true) (f : PlayFrame) :
    (st.arrive f).1.state.plays = true := by
  unfold Stream.arrive
  dsimp only
  repeat' split
  any_goals exact h
  rfl

theorem Stream.arrive_footing {st : Stream} (h : st.activePlayout = true) (f : PlayFrame) :
    (st.arrive f).1.state.footing = st.state.footing := by
  have hs := Stream.activePlayout_plays h
  rw [StreamState.footing_of_plays (Stream.arrive_plays hs f), StreamState.footing_of_plays hs]

theorem Stream.dropConstruction_state (st : Stream) : st.dropConstruction.state = st.state := by
  unfold Stream.dropConstruction
  split <;> rfl

theorem Stream.loseLane_footing (l : LaneIdx) (st : Stream) : (st.loseLane l).state.footing = st.state.footing := by
  unfold Stream.loseLane
  split
  · split
    case h_1 hs | h_2 hs | h_3 hs => rw [hs]; rfl
    case h_4 => rfl
  · rfl

/-! ## The sum of the reservations -/

theorem Stream.reservation_congr {a b : Stream} (h : a.definition = b.definition) : a.reservation = b.reservation :=
  show a.definition.reservation = b.definition.reservation by rw [h]

theorem Stream.reserved_congr {a b : Stream} (hstate : a.state.reserves = b.state.reserves)
    (h : a.definition = b.definition) : a.reserved = b.reserved := by
  unfold Stream.reserved
  rw [hstate, Stream.reservation_congr h]

/-- One term of a sum over distinct indices is replaced. -/
theorem sum_map_update {n : Nat} {is : List (Fin n)} (hnodup : is.Nodup) {i : Fin n} (hi : i ∈ is) (f : Fin n → Nat)
    (a : Nat) : (is.map fun j => if j = i then a else f j).sum + f i = (is.map f).sum + a := by
  induction is with
  | nil => exact absurd hi List.not_mem_nil
  | cons k is ih =>
    obtain ⟨hk, hnodup⟩ := List.nodup_cons.mp hnodup
    simp only [List.map_cons, List.sum_cons]
    by_cases h : k = i
    · subst h
      have rest : (is.map fun j => if j = k then a else f j) = is.map f :=
        List.map_congr_left fun j hj => if_neg fun (e : j = k) => hk (e ▸ hj)
      rw [rest, if_pos rfl]
      omega
    · have := ih hnodup ((List.mem_cons.mp hi).resolve_left (Ne.symm h))
      rw [if_neg h]
      omega

theorem State.reservedCells_setStream (s : State) (i : StreamIdx) (x : Stream) :
    (s.setStream i x).reservedCells + (s.stream i).reserved = s.reservedCells + x.reserved := by
  have terms : (fun j => ((s.setStream i x).stream j).reserved) =
      fun j => if j = i then x.reserved else (s.stream j).reserved := by
    funext j
    rw [State.stream_setStream]
    split <;> rfl
  unfold State.reservedCells
  rw [terms]
  exact sum_map_update (List.nodup_finRange 64) (List.mem_finRange i) _ _

theorem State.reservedCells_congr {s t : State} (h : ∀ i, (t.stream i).reserved = (s.stream i).reserved) :
    t.reservedCells = s.reservedCells := by
  unfold State.reservedCells
  rw [funext h]

/-! ## The invariant, with and without a head that does not fit -/

/-- The wait list and the pool in order, but for a head that may fit. -/
structure State.PoolOk (s : State) : Prop where
  room : s.waitList.length ≤ 8
  nodup : s.waitList.Nodup
  waiting : ∀ i : StreamIdx, (s.stream i).state = .waiting ↔ i ∈ s.waitList
  fits : s.reservedCells ≤ 1024

/-- The wait list and the pool in order. -/
structure State.AdmissionOk (s : State) : Prop extends s.PoolOk where
  head : ∀ i, s.waitList.head? = some i → s.unreserved < (s.stream i).reservation

theorem State.admissionInv_iff (s : State) : s.admissionInv ↔ s.AdmissionOk := by
  constructor
  · rintro ⟨room, nodup, waiting, fits, head⟩
    refine ⟨⟨room, nodup, waiting, fits⟩, fun i hi => ?_⟩
    rw [hi] at head
    exact of_decide_eq_true head
  · rintro ⟨⟨room, nodup, waiting, fits⟩, head⟩
    refine ⟨room, nodup, waiting, fits, ?_⟩
    cases h : s.waitList.head? with
    | none => rfl
    | some i => exact decide_eq_true (head i h)

/-- The pool depends on the wait list, on the footing of the streams and on the reservations of those that stand in it. -/
theorem State.AdmissionOk.congr {s t : State} (h : s.AdmissionOk) (hlist : t.waitList = s.waitList)
    (hwaiting : ∀ i, (t.stream i).state = .waiting ↔ (s.stream i).state = .waiting)
    (hreserved : ∀ i, (t.stream i).reserved = (s.stream i).reserved)
    (hreservation : ∀ i, (s.stream i).state = .waiting → (t.stream i).reservation = (s.stream i).reservation) :
    t.AdmissionOk where
  room := hlist ▸ h.room
  nodup := hlist ▸ h.nodup
  waiting i := by rw [hlist, hwaiting]; exact h.waiting i
  fits := by rw [State.reservedCells_congr hreserved]; exact h.fits
  head i hi := by
    rw [hlist] at hi
    have hw := (h.waiting i).mpr (List.mem_of_head? hi)
    rw [State.unreserved, State.reservedCells_congr hreserved, hreservation i hw]
    exact h.head i hi

theorem State.SameFooting.admissionOk {s t : State} (h : s.SameFooting t)
    (hdefinitions : ∀ i, (t.stream i).definition = (s.stream i).definition) (hs : s.AdmissionOk) : t.AdmissionOk :=
  hs.congr h.waitList (fun i => StreamState.waiting_of_footing (h.footing i))
    (fun i => Stream.reserved_congr (StreamState.reserves_of_footing (h.footing i)) (hdefinitions i))
    fun i _ => Stream.reservation_congr (hdefinitions i)

/-! ## The admission test (R30) -/

/-- The test ends with the list in order: each head that fits is taken in, and the first that does not stays. -/
theorem admitFrom_admissionOk (w : List StreamIdx) (s : State) (hroom : w.length ≤ 8) (hnodup : w.Nodup)
    (hwaiting : ∀ i : StreamIdx, (s.stream i).state = .waiting ↔ i ∈ w) (hfits : s.reservedCells ≤ 1024) :
    (admitFrom w s).AdmissionOk := by
  fun_induction admitFrom w s with
  | case1 s => exact ⟨⟨Nat.zero_le _, .nil, hwaiting, hfits⟩, fun i h => (nomatch h)⟩
  | case2 i rest s st hfit ih =>
    obtain ⟨hi, hnodup⟩ := List.nodup_cons.mp hnodup
    have hstate : (s.stream i).state = .waiting := (hwaiting i).mpr List.mem_cons_self
    refine ih (Nat.le_of_succ_le hroom) hnodup (fun j => ?_) ?_
    · rw [State.stream_post, State.stream_setStream]
      split
      next e =>
        subst e
        exact ⟨fun h => (nomatch h), fun h => absurd h hi⟩
      next e => rw [hwaiting j, List.mem_cons, or_iff_right e]
    · have hsum := s.reservedCells_setStream i st.enterArmed
      have hbefore : (s.stream i).reserved = 0 := by
        unfold Stream.reserved
        rw [hstate]
        rfl
      have hafter : st.enterArmed.reserved = st.reservation := rfl
      have hroom : st.reservation ≤ 1024 - s.reservedCells := hfit
      show (s.setStream i st.enterArmed).reservedCells ≤ 1024
      omega
  | case3 i rest s st hno =>
    refine ⟨⟨hroom, hnodup, hwaiting, hfits⟩, fun j hj => ?_⟩
    cases hj
    exact Nat.lt_of_not_le hno

theorem admissionTest_admissionOk {s : State} (h : s.PoolOk) : (admissionTest s).AdmissionOk :=
  admitFrom_admissionOk _ s h.room h.nodup h.waiting h.fits

/-- A stream that does not wait goes to IDLE: what it reserved is free, and the head of the list may fit. -/
theorem releasing_poolOk {s : State} {i : StreamIdx} (h : s.AdmissionOk) (hstate : (s.stream i).state ≠ .waiting) :
    (s.setStream i { s.stream i with state := .idle }).PoolOk := by
  refine ⟨h.room, h.nodup, fun j => ?_, ?_⟩
  · rw [State.stream_setStream, State.setStream_waitList, ← h.waiting j]
    split
    next e =>
      subst e
      exact ⟨fun h => (nomatch h), fun h => absurd h hstate⟩
    next => exact Iff.rfl
  · have hsum := s.reservedCells_setStream i { s.stream i with state := .idle }
    have hidle : ({ s.stream i with state := .idle } : Stream).reserved = 0 := rfl
    have := h.fits
    omega

theorem releaseToIdle_admissionOk {s : State} {i : StreamIdx} (h : s.AdmissionOk)
    (hstate : (s.stream i).state ≠ .waiting) : (releaseToIdle i s).AdmissionOk :=
  admissionTest_admissionOk (releasing_poolOk h hstate)

/-- A stream that waits reserves nothing, and in IDLE neither. -/
theorem reserved_of_stopWaiting {s : State} {i : StreamIdx} (hstate : (s.stream i).state = .waiting) (j : StreamIdx) :
    ((s.setStream i { s.stream i with state := .idle }).stream j).reserved = (s.stream j).reserved := by
  rw [State.stream_setStream]
  split
  next e =>
    subst e
    unfold Stream.reserved
    rw [hstate]
    rfl
  next => rfl

theorem leavingList_poolOk {s : State} {i : StreamIdx} (h : s.AdmissionOk) (hstate : (s.stream i).state = .waiting) :
    ((s.setStream i { s.stream i with state := .idle }).setWaitList (s.waitList.filter (· != i))).PoolOk := by
  refine ⟨Nat.le_trans (List.length_filter_le _ _) h.room, h.nodup.filter _, fun j => ?_, ?_⟩
  · rw [State.stream_setWaitList, State.stream_setStream, State.setWaitList_waitList, List.mem_filter, ← h.waiting j,
      bne_iff_ne]
    split
    next e => exact ⟨fun h => (nomatch h), fun h => absurd e h.2⟩
    next e => exact (and_iff_left e).symm
  · exact Nat.le_trans (Nat.le_of_eq (State.reservedCells_congr (reserved_of_stopWaiting hstate))) h.fits

theorem stopWaiting_admissionOk {s : State} {i : StreamIdx} (h : s.AdmissionOk)
    (hstate : (s.stream i).state = .waiting) : (stopWaiting i s).AdmissionOk := by
  unfold stopWaiting
  dsimp only
  split
  next => exact admissionTest_admissionOk (leavingList_poolOk h hstate)
  next hhead =>
    refine ⟨leavingList_poolOk h hstate, fun j hj => ?_⟩
    cases hlist : s.waitList with
    | nil =>
      rw [State.setWaitList_waitList, hlist] at hj
      exact nomatch hj
    | cons k rest =>
      have hk : k ≠ i := fun e => hhead (by rw [hlist, e]; rfl)
      have hfilter : (k :: rest).filter (· != i) = k :: rest.filter (· != i) :=
        List.filter_cons_of_pos (bne_iff_ne.mpr hk)
      rw [State.setWaitList_waitList, hlist, hfilter] at hj
      cases hj
      rw [State.stream_setWaitList, State.stream_setStream_ne _ _ hk]
      have hhead := h.head j (by rw [hlist]; rfl)
      rw [State.unreserved, ← State.reservedCells_congr (reserved_of_stopWaiting hstate)] at hhead
      exact hhead

/-! ## Drains -/

theorem finishDrain_admissionOk {s : State} {i : StreamIdx} (h : s.AdmissionOk)
    (hstate : (s.stream i).state ≠ .waiting) : (finishDrain i s).AdmissionOk :=
  ((SameFooting.refl _).post _ _ _).admissionOk (fun _ => rfl) (releaseToIdle_admissionOk h hstate)

theorem finishDrainIfEmpty_admissionOk {s : State} {i : StreamIdx} (h : s.AdmissionOk) :
    (finishDrainIfEmpty i s).AdmissionOk := by
  unfold finishDrainIfEmpty
  split
  next hdraining => exact finishDrain_admissionOk h (by rw [hdraining.1]; exact fun h => (nomatch h))
  next => exact h

/-- A stream that does not wait does not wait after a drain either. -/
theorem finishDrain_state_ne_waiting {s : State} {i j : StreamIdx} (h : (s.stream j).state ≠ .waiting) :
    ((finishDrain i s).stream j).state ≠ .waiting := by
  unfold finishDrain releaseToIdle
  rw [State.stream_post]
  rcases admissionTest_stream (s.setStream i { s.stream i with state := .idle }) j with e | e
  · rw [e, State.stream_setStream]
    split
    · exact fun h => (nomatch h)
    · exact h
  · rw [e]
    exact fun h => (nomatch h)

theorem forStreams_finishDrain_admissionOk (is : List StreamIdx) (s : State) (h : s.AdmissionOk)
    (hstates : ∀ i ∈ is, (s.stream i).state ≠ .waiting) : (s.forStreams is finishDrain).AdmissionOk := by
  induction is generalizing s with
  | nil => exact h
  | cons i is ih =>
    exact ih _ (finishDrain_admissionOk h (hstates i List.mem_cons_self)) fun j hj =>
      finishDrain_state_ne_waiting (hstates j (List.mem_cons_of_mem _ hj))

/-! ## The acts -/

/-- An entry that neither waits nor reserves is replaced by another such: the pool does not see it. -/
theorem State.AdmissionOk.replaceFree {s : State} (h : s.AdmissionOk) {i : StreamIdx} {x : Stream}
    (hbefore : (s.stream i).state.footing = (false, false)) (hafter : x.state.footing = (false, false)) :
    (s.setStream i x).AdmissionOk := by
  have free {st : Stream} (hst : st.state.footing = (false, false)) : st.reserved = 0 := by
    unfold Stream.reserved
    rw [show st.state.reserves = false from congrArg Prod.snd hst]
    rfl
  have hfooting (j : StreamIdx) : ((s.setStream i x).stream j).state.footing = (s.stream j).state.footing := by
    rw [State.stream_setStream]
    split
    next e => rw [e, hbefore, hafter]
    next => rfl
  refine h.congr rfl (fun j => StreamState.waiting_of_footing (hfooting j)) (fun j => ?_) fun j hj => ?_
  · rw [State.stream_setStream]
    split
    next e => rw [e, free hbefore, free hafter]
    next => rfl
  · rw [State.stream_setStream]
    split
    next e =>
      subst e
      rw [hj] at hbefore
      exact nomatch hbefore
    next => rfl

/-- A stream that fits an empty list takes its reservation. -/
theorem start_admissionOk {s : State} {i : StreamIdx} (h : s.AdmissionOk) (hidle : (s.stream i).state = .idle)
    (hempty : s.waitList = []) (hfits : (s.stream i).reservation ≤ s.unreserved) :
    (s.setStream i (s.stream i).enterArmed).AdmissionOk := by
  refine ⟨⟨h.room, h.nodup, fun j => ?_, ?_⟩, fun j hj => ?_⟩
  · rw [State.stream_setStream]
    split
    next e =>
      subst e
      refine ⟨fun h => (nomatch h), fun hj => ?_⟩
      rw [State.setStream_waitList, hempty] at hj
      exact absurd hj List.not_mem_nil
    next => exact h.waiting j
  · have hsum := s.reservedCells_setStream i (s.stream i).enterArmed
    have hbefore : (s.stream i).reserved = 0 := by
      unfold Stream.reserved
      rw [hidle]
      rfl
    have hafter : (s.stream i).enterArmed.reserved = (s.stream i).reservation := rfl
    have hroom : (s.stream i).reservation ≤ 1024 - s.reservedCells := hfits
    have := h.fits
    omega
  · rw [State.setStream_waitList, hempty] at hj
    exact nomatch hj

/-- A stream that has to wait joins the end of the list, and as its head does not fit. -/
theorem queue_admissionOk {s : State} {i : StreamIdx} (h : s.AdmissionOk) (hidle : (s.stream i).state = .idle)
    (hwaits : ¬ (s.waitList = [] ∧ (s.stream i).reservation ≤ s.unreserved)) (hroom : s.waitList.length < 8) :
    ((s.setStream i { s.stream i with state := .waiting }).setWaitList (s.waitList ++ [i])).AdmissionOk := by
  have hnew : i ∉ s.waitList := fun hi => by
    have := (h.waiting i).mpr hi
    rw [hidle] at this
    exact nomatch this
  have hreserved (j : StreamIdx) :
      ((s.setStream i { s.stream i with state := .waiting }).stream j).reserved = (s.stream j).reserved := by
    rw [State.stream_setStream]
    split
    next e =>
      subst e
      unfold Stream.reserved
      rw [hidle]
      rfl
    next => rfl
  have hcells := State.reservedCells_congr hreserved
  refine ⟨⟨?_, ?_, fun j => ?_, Nat.le_trans (Nat.le_of_eq hcells) h.fits⟩, fun j hj => ?_⟩
  · rw [State.setWaitList_waitList, List.length_append]
    exact hroom
  · refine List.nodup_append.mpr ⟨h.nodup, List.pairwise_singleton _ i, fun a ha b hb => ?_⟩
    rw [List.mem_singleton.mp hb]
    exact fun e => hnew (e ▸ ha)
  · rw [State.stream_setWaitList, State.stream_setStream, State.setWaitList_waitList, List.mem_append,
      List.mem_singleton, ← h.waiting j]
    split
    next e => exact ⟨fun _ => .inr e, fun _ => rfl⟩
    next e => exact (or_iff_left e).symm
  · have hunreserved : ((s.setStream i { s.stream i with state := .waiting }).setWaitList
        (s.waitList ++ [i])).unreserved = s.unreserved := congrArg (Config.cells - ·) hcells
    rw [hunreserved, State.stream_setWaitList, State.stream_setStream]
    cases hlist : s.waitList with
    | nil =>
      rw [State.setWaitList_waitList, hlist] at hj
      cases hj
      rw [if_pos rfl]
      exact Nat.lt_of_not_le fun hfits => hwaits ⟨hlist, hfits⟩
    | cons k rest =>
      rw [State.setWaitList_waitList, hlist] at hj
      cases hj
      have hj : j ≠ i := fun e => hnew (by rw [hlist, e]; exact List.mem_cons_self)
      rw [if_neg hj]
      exact h.head j (by rw [hlist]; rfl)

/-- The entry of a stream that stops with discard, before the end of its reservation. -/
theorem discarding_admissionOk {s : State} {i : StreamIdx} (h : s.AdmissionOk) (ready : List ReadyFrame) :
    (s.setStream i { (s.stream i).dropConstruction with ready := ready, firstOfRun := false }).AdmissionOk := by
  refine ((SameFooting.refl s).setStream i ?_).admissionOk (((refl s).setStream i ?_).definitions) h
  · exact congrArg _ (s.stream i).dropConstruction_state
  · exact (s.stream i).dropConstruction_definition

theorem stopDiscard_admissionOk {s : State} {i : StreamIdx} (h : s.AdmissionOk)
    (hrunning : (s.stream i).state = .running) : (stopDiscard i s).AdmissionOk := by
  unfold stopDiscard
  dsimp only
  split
  · refine releaseToIdle_admissionOk (discarding_admissionOk h _) ?_
    rw [State.stream_setStream_self]
    show (s.stream i).dropConstruction.state ≠ _
    rw [(s.stream i).dropConstruction_state, hrunning]
    exact fun h => (nomatch h)
  · refine ((SameFooting.refl s).setStream i ?_).admissionOk (((refl s).setStream i ?_).definitions) h
    · rw [hrunning]
      rfl
    · exact (s.stream i).dropConstruction_definition

/-- A capture stream that stops with an END frame drains, before the end of a drain with nothing left to send. -/
theorem closing_admissionOk {s : State} {i : StreamIdx} (h : s.AdmissionOk) (hrunning : (s.stream i).state = .running) :
    ((runArbiters (closeFrame true i s)).setStream i
      { (runArbiters (closeFrame true i s)).stream i with state := .draining }).AdmissionOk := by
  have closed := (closeFrame_sameFooting true i s).trans (runArbiters_sameFooting _)
  have beside := (closeFrame_beside true i s).trans (runArbiters_beside _)
  refine (closed.setStream i ?_).admissionOk (beside.setStream i ?_).definitions h
  · rw [closed.footing i, hrunning]
    rfl
  · rfl

theorem stopRunning_admissionOk {s : State} {i : StreamIdx} (h : s.AdmissionOk)
    (hrunning : (s.stream i).state = .running) : (stopRunning i s).AdmissionOk :=
  finishDrainIfEmpty_admissionOk (closing_admissionOk h hrunning)

theorem abortByStop_sameFooting (p : Port) (i : StreamIdx) (s : State) : s.SameFooting (abortByStop p i s) := by
  unfold abortByStop
  dsimp only
  split
  · exact (SameFooting.refl s).setPort p _
  · exact SameFooting.refl s

theorem abortByStop_stream (p : Port) (i j : StreamIdx) (s : State) : (abortByStop p i s).stream j = s.stream j := by
  unfold abortByStop
  dsimp only
  split <;> rfl

/-- The entry of a stream whose ready frames and transmissions a stop ends, before the end of its reservation. -/
theorem aborting_admissionOk {s : State} {i : StreamIdx} (h : s.AdmissionOk) :
    ((abortByStop .tb i (abortByStop .ta i s)).setStream i
      { (abortByStop .tb i (abortByStop .ta i s)).stream i with ready := [] }).AdmissionOk := by
  have aborted := (abortByStop_sameFooting .ta i s).trans (abortByStop_sameFooting .tb i _)
  have beside := (abortByStop_beside .ta i s).trans (abortByStop_beside .tb i _)
  exact (aborted.setStream i (by rfl)).admissionOk (beside.setStream i (by rfl)).definitions h

theorem stopArmed_admissionOk {s : State} {i : StreamIdx} (h : s.AdmissionOk)
    (harmed : (s.stream i).state = .armed) : (stopArmed i s).AdmissionOk := by
  refine releaseToIdle_admissionOk (aborting_admissionOk h) ?_
  rw [State.stream_setStream_self]
  show ((abortByStop .tb i (abortByStop .ta i s)).stream i).state ≠ _
  rw [abortByStop_stream, abortByStop_stream, harmed]
  exact fun h => (nomatch h)

theorem flushing_admissionOk {s : State} {i : StreamIdx} (h : s.AdmissionOk) :
    (s.setStream i (s.stream i).flushWindow).AdmissionOk :=
  ((SameFooting.refl s).setStream i (by rfl)).admissionOk ((refl s).setStream i (by rfl)).definitions h

theorem Stream.activePlayout_not_waiting {st : Stream} (h : st.activePlayout = true) : st.state ≠ .waiting := by
  intro hwaiting
  have := Stream.activePlayout_plays h
  rw [hwaiting] at this
  exact nomatch this

theorem stopPlayout_admissionOk {s : State} {i : StreamIdx} (h : s.AdmissionOk)
    (hactive : (s.stream i).activePlayout = true) : (stopPlayout i s).AdmissionOk := by
  refine releaseToIdle_admissionOk (flushing_admissionOk h) ?_
  rw [State.stream_setStream_self]
  exact Stream.activePlayout_not_waiting hactive

/-- A sample frame has been sent, before the end of a drain with nothing left to send. -/
theorem sending_admissionOk {s : State} (p : Port) (i : StreamIdx) (h : s.AdmissionOk) :
    ((s.setPort p
        { s.port p with
          tx := .idle, txc := { (s.port p).txc with samplesSent := bump (s.port p).txc.samplesSent } }).setStream i
      (((s.stream i).countSent p).completeOn p)).AdmissionOk := by
  have sent := ((SameFooting.refl s).setPort p
    { s.port p with tx := .idle, txc := { (s.port p).txc with samplesSent := bump (s.port p).txc.samplesSent } }).setStream
    i (x := ((s.stream i).countSent p).completeOn p) rfl
  exact sent.admissionOk (((refl s).setPort p (by exact ⟨rfl, rfl⟩)).setStream i (by rfl)).definitions h

theorem Work.admissionOk {s t : State} (h : Work s t) (hs : s.AdmissionOk) : t.AdmissionOk := by
  have same (hsame : s.SameFooting t) : t.AdmissionOk := hsame.admissionOk h.beside.definitions hs
  cases h with
  | post k o d => exact same ((SameFooting.refl s).post k o d)
  | books p => exact same ((SameFooting.refl s).setPort p _)
  | zeroCounters i => exact same ((SameFooting.refl s).setStream i rfl)
  | start hidle hempty hfits => exact start_admissionOk hs hidle hempty hfits
  | queue hidle hwaits hroom => exact queue_admissionOk hs hidle hwaits hroom
  | stopWaiting hwaiting => exact stopWaiting_admissionOk hs hwaiting
  | stopPlayout hactive => exact stopPlayout_admissionOk hs hactive
  | stopArmed _ harmed => exact stopArmed_admissionOk hs harmed
  | stopDiscard _ hrunning => exact stopDiscard_admissionOk hs hrunning
  | stopRunning _ hrunning => exact stopRunning_admissionOk hs hrunning
  | arrive hactive => exact same (((SameFooting.refl s).setStream _ (Stream.arrive_footing hactive _)).postAll _ _)
  | formatError => exact same ((SameFooting.refl s).setStream _ rfl)
  | play => exact same (playTask_sameFooting _ s)
  | capture c line => exact same (captureTask_sameFooting c line _ s)
  | @sampleSent p i =>
    exact (runArbiters_sameFooting _).admissionOk (runArbiters_beside _).definitions
      (finishDrainIfEmpty_admissionOk (sending_admissionOk p i hs))
  | @gapEnd p =>
    exact same (((SameFooting.refl s).setPort p _).trans (runArbiters_sameFooting _))

/-- The pool sees the Stream Table and the wait list alone. -/
theorem State.AdmissionOk.of_streams {s t : State} (h : s.AdmissionOk) (hstreams : t.streams = s.streams)
    (hlist : t.waitList = s.waitList) : t.AdmissionOk := by
  have hstream (i : StreamIdx) : t.stream i = s.stream i := congrArg (·.get i) hstreams
  exact SameFooting.admissionOk ⟨hlist, fun i => by rw [hstream]⟩ (fun i => by rw [hstream]) h

/-- A lane that leaves RUNNING takes its streams to ARMED, which reserves too. -/
theorem leaveRunning_admissionOk {s : State} (l : LaneIdx) (h : s.AdmissionOk) : (leaveRunning l s).AdmissionOk :=
  SameFooting.admissionOk ((SameFooting.refl s).mapStreams (Stream.loseLane_footing l)) (leaveRunning_beside l s).definitions
    h

theorem runArbiters_admissionOk {s : State} (h : s.AdmissionOk) : (runArbiters s).AdmissionOk :=
  (runArbiters_sameFooting s).admissionOk (runArbiters_beside s).definitions h

theorem RequestAct.admissionOk {s t : State} (h : RequestAct s t) (hs : s.AdmissionOk) : t.AdmissionOk := by
  cases h with
  | work h => exact h.admissionOk hs
  | @define i new args _ hfree hnew =>
    have hnewState : new.state = .idle := parseDefinition_state hnew
    have replaced := hs.replaceFree (i := i) (x := new) (by rcases hfree with h | h <;> rw [h] <;> rfl)
      (by rw [hnewState]; rfl)
    unfold Machine.define
    dsimp only
    split <;> exact replaced.of_streams rfl rfl
  | @clear i hidle =>
    have replaced := hs.replaceFree (i := i) (x := Stream.blank) (by rw [hidle]; rfl) rfl
    exact replaced.of_streams rfl rfl
  | stopLane l =>
    unfold Machine.stopLane
    dsimp only
    split
    · exact leaveRunning_admissionOk l (hs.of_streams rfl rfl)
    · exact hs.of_streams rfl rfl
  | control | laneCounters | slot | configure | startMaster | startSlave | clock | discovery | fetch | levels =>
    exact hs.of_streams rfl rfl

/-- The drains that withdrawing a port completes are those of streams that do not wait. -/
theorem state_of_mem_drainedBy {s : State} {p : Port} {i : StreamIdx} (h : i ∈ s.drainedBy p) :
    (s.stream i).state = .draining := by
  have := (List.mem_filter.mp h).2
  exact eq_of_beq ((Bool.and_eq_true _ _).mp this).1

/-- A port gone DOWN, its claims withdrawn and its replies lost, before the drains that this completes (R158 steps 1 to
3). -/
def lowerPort (p : Port) (s : State) : State :=
  (s.port p).replies.foldl (fun t r => loseReply p r.txn t)
    (((s.setPort p { (s.port p).abortOnDown with linkPin := false, linkUp := false, replies := [] }).post .trunkDown
      (.port p) 0).mapStreams (Stream.withdrawPort p))

theorem portDown_eq_lowerPort {p : Port} {s : State} (hreset : (s.port p).replies.any Reply.isDeviceReset = false) :
    portDown p s = runArbiters ((lowerPort p s).forStreams (s.drainedBy p) finishDrain) := by
  unfold portDown
  simp only [hreset, Bool.false_eq_true, if_false]
  rfl

theorem foldl_loseReply_streams (p : Port) (rs : List Reply) (s : State) :
    (rs.foldl (fun t r => loseReply p r.txn t) s).streams = s.streams
      ∧ (rs.foldl (fun t r => loseReply p r.txn t) s).waitList = s.waitList := by
  induction rs generalizing s with
  | nil => exact ⟨rfl, rfl⟩
  | cons r rs ih => exact ih _

@[simp] theorem lowerPort_stream (p : Port) (s : State) (i : StreamIdx) :
    (lowerPort p s).stream i = (s.stream i).withdrawPort p := by
  rw [lowerPort, State.stream, (foldl_loseReply_streams p _ _).1]
  exact State.stream_mapStreams _ _ i

@[simp] theorem lowerPort_waitList (p : Port) (s : State) : (lowerPort p s).waitList = s.waitList :=
  (foldl_loseReply_streams p _ _).2

theorem lowerPort_admissionOk (p : Port) {s : State} (h : s.AdmissionOk) : (lowerPort p s).AdmissionOk :=
  SameFooting.admissionOk ⟨lowerPort_waitList p s, fun i => by rw [lowerPort_stream]; rfl⟩
    (fun i => by rw [lowerPort_stream]; rfl) h

theorem portDown_admissionOk {s : State} {p : Port} (hreset : (s.port p).replies.any Reply.isDeviceReset = false)
    (h : s.AdmissionOk) : (portDown p s).AdmissionOk := by
  rw [portDown_eq_lowerPort hreset]
  refine runArbiters_admissionOk (forStreams_finishDrain_admissionOk _ _ (lowerPort_admissionOk p h) fun i hi => ?_)
  rw [lowerPort_stream]
  show (s.stream i).state ≠ .waiting
  rw [state_of_mem_drainedBy hi]
  exact fun h => (nomatch h)

theorem Act.admissionOk {s t : State} (h : Act s t) (hs : s.AdmissionOk) : t.AdmissionOk := by
  cases h with
  | request h => exact h.admissionOk hs
  | reset cause phase => exact (State.admissionInv_iff _).mp (blockReset_admissionInv cause phase s)
  | linkDown _ hreset => exact portDown_admissionOk hreset hs
  | replySent | reply => exact runArbiters_admissionOk (hs.of_streams rfl rfl)
  | @lost l c d => exact leaveRunning_admissionOk l (hs.of_streams rfl rfl)
  | @servo before l g =>
    obtain ⟨gens, events, h⟩ := servoTask_eq l before g s
    rw [h]
    exact hs.of_streams rfl rfl
  | review g =>
    obtain ⟨gens, events, h⟩ := reviewIfDue_eq g s
    rw [h]
    exact hs.of_streams rfl rfl
  | @discover p f =>
    obtain ⟨d, events, h⟩ := discover_eq p f s
    rw [h]
    exact hs.of_streams rfl rfl
  | release | tick | load | linkUp | accept | dequeue | candidate | due | run | frame => exact hs.of_streams rfl rfl

/-- Settles O52: whatever frees a reservation is followed by the admission test, and whatever takes one fits. -/
theorem stepsKeepTheWaitListAndThePool : Obligations.StepsKeepTheWaitListAndThePool := fun s t hs hstep =>
  t.admissionInv_iff.mpr (step_keeps Act.admissionOk (fun _ h => h.of_streams rfl rfl) (s.admissionInv_iff.mp hs) hstep)

end Sys2Proof.Machine
end

