-- ==== Sys2Proof/Proofs/StreamSteps.lean ====
section
/-! What an act does to the entry of each stream, said once: sixteen steps of a single stream (`StreamStep`), each with the
direction and states in which it is taken, and that every act but a definition, a clearing and a reset takes each stream
through such steps (`Act.table`). What every step keeps of an entry, every act keeps of the Stream Table. -/

namespace Sys2Proof.Machine

open State (SameFooting)

/-! ## The steps of a stream -/

/-- A DRAINING stream with nothing left to send is IDLE (R141). -/
def Stream.endDrain (st : Stream) : Stream := if st.state = .draining ∧ st.ready = [] then { st with state := .idle } else st

/-- The closing of a run with an END frame (R137). -/
def Stream.stopped (base : State) (st : Stream) : Stream :=
  { ((st.afterClose true).dispose (closingFrame base st true)).1 with state := .draining }.endDrain

/-- A stop with discard: frames in transmission alone stay (R138). -/
def Stream.discarded (st : Stream) : Stream :=
  { st.dropConstruction with
    ready := (st.dropConstruction.ready.filter (fun f : ReadyFrame => !f.inTx.isNone)).map
      (fun f : ReadyFrame => { f with pendingOn := f.inTx }),
    firstOfRun := false, state := .draining : Stream }.endDrain

/-- A sample group joins the frame under construction, that of a new run where the stream was ARMED. -/
def Stream.grouped (st : Stream) (words : List Word) : Stream :=
  (if st.state = .armed then st.beginRun else st).addGroup words

/-- A sample group is taken, and a full frame closes (R130 to R132). -/
def Stream.taken (base : State) (st : Stream) (words : List Word) : Stream :=
  if (st.grouped words).constructionFull then
    (((st.grouped words).afterClose false).dispose (closingFrame base (st.grouped words) false)).1
  else st.grouped words

/-- One step of a stream; `base` is the part in which it is taken. -/
inductive StreamStep (base : State) : Stream → Stream → Prop
  | zeroCounters {st : Stream} : StreamStep base st st.zeroCounters
  | arm {st : Stream} (h : st.state = .idle ∨ st.state = .waiting) : StreamStep base st st.enterArmed
  | wait {st : Stream} (h : st.state = .idle) : StreamStep base st { st with state := .waiting }
  | stopWaiting {st : Stream} (h : st.state = .waiting) : StreamStep base st { st with state := .idle }
  | stopPlayout {st : Stream} (h : st.activePlayout = true) : StreamStep base st { st.flushWindow with state := .idle }
  | stopArmed {st : Stream} (hcapture : st.direction = .capture) (harmed : st.state = .armed) :
      StreamStep base st { st with ready := [], state := .idle }
  | stopDiscard {st : Stream} (hcapture : st.direction = .capture) (hrunning : st.state = .running) :
      StreamStep base st st.discarded
  | stopRunning {st : Stream} (hcapture : st.direction = .capture) (hrunning : st.state = .running) :
      StreamStep base st (st.stopped base)
  | arrive {st : Stream} {f : List Byte} {n : Nat} (hactive : st.activePlayout = true)
      (hcheck : formatCheck st f = some n) : StreamStep base st (st.arrive (playFrameOf st f n)).1
  | formatError {st : Stream} (hactive : st.activePlayout = true) : StreamStep base st st.countFormatError
  | play {st : Stream} (hplayout : st.direction = .playout) (hlane : (base.lane st.lane).state = .running) :
      StreamStep base st st.playStep.stream
  | take {st : Stream} {words : List Word} (hwords : words.length = st.channelSlots.length)
      (hcapture : st.direction = .capture) (hacts : st.state = .armed ∨ st.state = .running)
      (hlane : (base.lane st.lane).state = .running) : StreamStep base st (st.taken base words)
  | grant {st : Stream} (p : Port) : StreamStep base st { st with ready := markGranted p st.ready }
  | sent {st : Stream} (p : Port) (hsends : base.streamInv → st.direction = .capture) :
      StreamStep base st ((st.countSent p).completeOn p).endDrain
  | withdraw {st : Stream} (p : Port) : StreamStep base st (st.withdrawPort p).endDrain
  | loseLane {st : Stream} (l : LaneIdx) : StreamStep base st (st.loseLane l)

/-- Steps of one stream. -/
abbrev StreamSteps (base : State) : Stream → Stream → Prop := Sequence (StreamStep base)

/-! ## Writes of one entry and of all -/

section
variable {base s : State}

theorem setStream_steps {i : StreamIdx} {x : Stream} (h : StreamSteps base (s.stream i) x) (j : StreamIdx) :
    StreamSteps base (s.stream j) ((s.setStream i x).stream j) := by
  rw [State.stream_setStream]
  split
  next e =>
    subst e
    exact h
  next => exact .nil

theorem setStream_step {i : StreamIdx} {x : Stream} (h : StreamStep base (s.stream i) x) (j : StreamIdx) :
    StreamSteps base (s.stream j) ((s.setStream i x).stream j) := setStream_steps (.one h) j

/-- An arbiter marks a ready frame of a stream or leaves it. -/
theorem runArbiter_steps (p : Port) (s : State) (i : StreamIdx) :
    StreamSteps base (s.stream i) ((runArbiter p s).stream i) := by
  obtain ⟨r, hr, h | h⟩ := runArbiter_stream p s i
  · rw [hr, h]
    exact .nil
  · rw [hr, h]
    exact .one (.grant p)

theorem runArbiters_steps (s : State) (i : StreamIdx) : StreamSteps base (s.stream i) ((runArbiters s).stream i) :=
  (runArbiter_steps .ta s i).append (runArbiter_steps .tb _ i)

/-! ## Admissions and the ends of drains -/

/-- The test takes streams that wait to ARMED and touches no other. -/
theorem admissionTest_steps (h : s.PoolOk) (i : StreamIdx) :
    StreamSteps base (s.stream i) ((admissionTest s).stream i) := by
  by_cases hi : i ∈ s.waitList
  · rcases admissionTest_stream s i with e | e
    · rw [e]
      exact .nil
    · rw [e]
      exact .one (.arm (.inr ((h.waiting i).mpr hi)))
  · rw [admissionTest, admitFrom_stream_of_notMem _ s hi]
    exact .nil

theorem releaseToIdle_steps {i : StreamIdx} (h : s.AdmissionOk) (hstate : (s.stream i).state ≠ .waiting)
    (j : StreamIdx) :
    StreamSteps base ((s.setStream i { s.stream i with state := .idle }).stream j) ((releaseToIdle i s).stream j) :=
  admissionTest_steps (releasing_poolOk h hstate) j

theorem finishDrain_steps {i : StreamIdx} (h : s.AdmissionOk) (hstate : (s.stream i).state ≠ .waiting) (j : StreamIdx) :
    StreamSteps base ((s.setStream i { s.stream i with state := .idle }).stream j) ((finishDrain i s).stream j) :=
  releaseToIdle_steps h hstate j

theorem finishDrainIfEmpty_steps {i : StreamIdx} (h : s.AdmissionOk) (j : StreamIdx) :
    StreamSteps base ((s.setStream i (s.stream i).endDrain).stream j) ((finishDrainIfEmpty i s).stream j) := by
  unfold finishDrainIfEmpty Stream.endDrain
  split
  next hdraining => exact finishDrain_steps h (by rw [hdraining.1]; exact fun h => (nomatch h)) j
  next =>
    rw [State.setStream_stream]
    exact .nil

/-- A drain that ends leaves every other stream that does not wait. -/
theorem finishDrain_stream_of_not_waiting {i j : StreamIdx} (h : s.AdmissionOk) (hij : j ≠ i)
    (hj : (s.stream j).state ≠ .waiting) : (finishDrain i s).stream j = s.stream j := by
  have hj : j ∉ s.waitList := fun hj' => hj ((h.waiting j).mpr hj')
  show (admissionTest _).stream j = _
  rw [admissionTest, admitFrom_stream_of_notMem _ _ (by simpa using hj), State.stream_setStream_ne _ _ hij]

theorem finishDrain_stream_self {i : StreamIdx} (h : s.AdmissionOk) (hi : (s.stream i).state ≠ .waiting) :
    (finishDrain i s).stream i = { s.stream i with state := .idle } := by
  have hi : i ∉ s.waitList := fun hi' => hi ((h.waiting i).mpr hi')
  show (admissionTest _).stream i = _
  rw [admissionTest, admitFrom_stream_of_notMem _ _ (by simpa using hi), State.stream_setStream_self]

/-- Drains that end together, each of a DRAINING stream. -/
theorem forStreams_finishDrain_steps (is : List StreamIdx) (hnodup : is.Nodup) (h : s.AdmissionOk)
    (hstates : ∀ i ∈ is, (s.stream i).state = .draining) (j : StreamIdx) :
    StreamSteps base (if j ∈ is then { s.stream j with state := .idle } else s.stream j)
      ((s.forStreams is finishDrain).stream j) := by
  induction is generalizing s with
  | nil => exact .nil
  | cons i is ih =>
    obtain ⟨hi, hnodup⟩ := List.nodup_cons.mp hnodup
    have hwaits {k : StreamIdx} (hk : k ∈ i :: is) : (s.stream k).state ≠ .waiting := by
      rw [hstates k hk]
      exact fun h => (nomatch h)
    have hself := hwaits (k := i) List.mem_cons_self
    have hkept {k : StreamIdx} (hk : k ∈ is) : (finishDrain i s).stream k = s.stream k :=
      finishDrain_stream_of_not_waiting h (fun e => hi (e ▸ hk)) (hwaits (List.mem_cons_of_mem _ hk))
    have rest := ih hnodup (finishDrain_admissionOk h hself) fun k hk => by
      rw [hkept hk]
      exact hstates k (List.mem_cons_of_mem _ hk)
    by_cases hj : j ∈ is
    · rw [if_pos (List.mem_cons_of_mem _ hj)]
      rwa [if_pos hj, hkept hj] at rest
    · rw [if_neg hj] at rest
      by_cases hij : j = i
      · subst hij
        rw [if_pos List.mem_cons_self]
        rwa [finishDrain_stream_self h hself] at rest
      · rw [if_neg fun h => (List.mem_cons.mp h).elim hij hj]
        have first := finishDrain_steps (base := base) h hself j
        rw [State.stream_setStream_ne _ _ hij] at first
        exact first.append rest

/-! ## The stops -/

/-- A mark leaves it open whether a drain ends. -/
theorem draining_mark_steps (p : Port) (st : Stream) :
    StreamSteps base { st with state := .draining }.endDrain
      { st with ready := markGranted p st.ready, state := .draining }.endDrain := by
  unfold Stream.endDrain
  cases hready : st.ready with
  | nil => exact .nil
  | cons f fs =>
    have hmarked : markGranted p (f :: fs) ≠ [] := by
      unfold markGranted
      split <;> exact List.cons_ne_nil _ _
    simp only [hmarked, List.cons_ne_nil, and_false, if_false]
    rw [← hready]
    exact .one (.grant (st := { st with state := .draining }) p)

theorem draining_arbiter_steps (p : Port) (s : State) (i : StreamIdx) :
    StreamSteps base { s.stream i with state := .draining }.endDrain
      { (runArbiter p s).stream i with state := .draining }.endDrain := by
  obtain ⟨r, hr, h | h⟩ := runArbiter_stream p s i
  · rw [hr, h]
    exact .nil
  · rw [hr, h]
    exact draining_mark_steps p _

end

theorem closeFrame_stream (isEnd : Bool) (i j : StreamIdx) (s : State) :
    (closeFrame isEnd i s).stream j =
      if j = i then (((s.stream i).afterClose isEnd).dispose (closingFrame s (s.stream i) isEnd)).1 else s.stream j := by
  unfold closeFrame
  dsimp only
  split <;> exact State.stream_setStream _ _ _ _

theorem stopRunning_steps {s : State} {i : StreamIdx} (h : s.AdmissionOk) (hcapture : (s.stream i).direction = .capture)
    (hrunning : (s.stream i).state = .running) (j : StreamIdx) :
    StreamSteps s (s.stream j) ((stopRunning i s).stream j) := by
  have first := finishDrainIfEmpty_steps (base := s) (closing_admissionOk h hrunning) (i := i) j
  refine Sequence.append ?_ first
  rw [State.setStream_setStream, State.stream_setStream]
  split
  next e =>
    subst e
    rw [State.stream_setStream_self]
    have closed : StreamSteps s (s.stream j) { (closeFrame true j s).stream j with state := .draining }.endDrain := by
      rw [closeFrame_stream, if_pos rfl]
      exact .one (.stopRunning hcapture hrunning)
    exact (closed.append (draining_arbiter_steps .ta _ j)).append (draining_arbiter_steps .tb _ j)
  next e =>
    have others : (closeFrame true i s).stream j = s.stream j := by rw [closeFrame_stream, if_neg e]
    rw [← others]
    exact runArbiters_steps _ j

theorem takeSamples_stream (c : LaneConfig) (line : PinLevels) (i j : StreamIdx) (s : State) :
    (takeSamples c line i s).stream j =
      if j = i then
        let u := (s.stream i).addGroup ((s.stream i).takeWords c line)
        if u.constructionFull then ((u.afterClose false).dispose (closingFrame s u false)).1 else u
      else s.stream j := by
  unfold takeSamples
  dsimp only
  split
  next hfull =>
    rw [closeFrame_stream, State.stream_setStream_self]
    split
    · rfl
    next e => rw [State.stream_setStream_ne _ _ e]
  next => exact State.stream_setStream _ _ _ _

theorem Stream.takeWords_length (st : Stream) (c : LaneConfig) (line : PinLevels) :
    (st.takeWords c line).length = st.channelSlots.length := List.length_map _

theorem captureTask_steps {s : State} {i : StreamIdx} (c : LaneConfig) (line : PinLevels)
    (hcapture : (s.stream i).direction = .capture) (hlane : (s.lane (s.stream i).lane).state = .running)
    (j : StreamIdx) : StreamSteps s (s.stream j) ((captureTask c line i s).stream j) := by
  have hwords := (s.stream i).takeWords_length c line
  unfold captureTask
  dsimp only
  split
  case h_1 harmed =>
    refine Sequence.append ?_ (runArbiters_steps _ j)
    rw [State.stream_post, takeSamples_stream, State.stream_setStream_self, State.stream_setStream]
    split
    next e =>
      subst e
      have step := StreamStep.take (base := s) hwords hcapture (.inl harmed) hlane
      unfold Stream.taken Stream.grouped at step
      rw [if_pos harmed] at step
      exact .one step
    next => exact .nil
  case h_2 hrunning =>
    refine Sequence.append ?_ (runArbiters_steps _ j)
    rw [takeSamples_stream]
    split
    next e =>
      subst e
      have step := StreamStep.take (base := s) hwords hcapture (.inr hrunning) hlane
      unfold Stream.taken Stream.grouped at step
      have hstate : (s.stream j).state ≠ .armed := by
        rw [hrunning]
        exact fun h => (nomatch h)
      rw [if_neg hstate] at step
      exact .one step
    next => exact .nil
  all_goals exact .nil

theorem stopDiscard_steps {s : State} {i : StreamIdx} (h : s.AdmissionOk) (hcapture : (s.stream i).direction = .capture)
    (hrunning : (s.stream i).state = .running) (j : StreamIdx) :
    StreamSteps s (s.stream j) ((stopDiscard i s).stream j) := by
  have step := StreamStep.stopDiscard (base := s) hcapture hrunning
  unfold Stream.discarded Stream.endDrain at step
  unfold stopDiscard
  dsimp only at step ⊢
  split
  next hkept =>
    rw [if_pos ⟨rfl, hkept⟩] at step
    refine Sequence.append ?_ (releaseToIdle_steps (discarding_admissionOk h _) ?_ j)
    · rw [State.setStream_setStream, State.stream_setStream_self]
      refine setStream_step ?_ j
      exact step
    · rw [State.stream_setStream_self]
      show (s.stream i).dropConstruction.state ≠ _
      rw [(s.stream i).dropConstruction_state, hrunning]
      exact fun h => (nomatch h)
  next hkept =>
    rw [if_neg fun h => hkept h.2] at step
    exact setStream_step step j

theorem stopArmed_steps {s : State} {i : StreamIdx} (h : s.AdmissionOk) (hcapture : (s.stream i).direction = .capture)
    (harmed : (s.stream i).state = .armed) (j : StreamIdx) :
    StreamSteps s (s.stream j) ((stopArmed i s).stream j) := by
  have hstream (k : StreamIdx) : (abortByStop .tb i (abortByStop .ta i s)).stream k = s.stream k :=
    (abortByStop_stream .tb i k _).trans (abortByStop_stream .ta i k s)
  refine Sequence.append ?_ (releaseToIdle_steps (aborting_admissionOk h) ?_ j)
  · rw [State.setStream_setStream, State.stream_setStream_self, ← hstream j]
    refine setStream_step ?_ j
    rw [hstream]
    exact .stopArmed hcapture harmed
  · rw [State.stream_setStream_self]
    show ((abortByStop .tb i (abortByStop .ta i s)).stream i).state ≠ _
    rw [hstream, harmed]
    exact fun h => (nomatch h)

theorem stopPlayout_steps {s : State} {i : StreamIdx} (h : s.AdmissionOk)
    (hactive : (s.stream i).activePlayout = true) (j : StreamIdx) :
    StreamSteps s (s.stream j) ((stopPlayout i s).stream j) := by
  refine Sequence.append ?_ (releaseToIdle_steps (flushing_admissionOk h) ?_ j)
  · rw [State.setStream_setStream, State.stream_setStream_self]
    exact setStream_step (.stopPlayout hactive) j
  · rw [State.stream_setStream_self]
    exact Stream.activePlayout_not_waiting hactive

theorem stopWaiting_steps {s : State} {i : StreamIdx} (h : s.AdmissionOk) (hwaiting : (s.stream i).state = .waiting)
    (j : StreamIdx) : StreamSteps s (s.stream j) ((stopWaiting i s).stream j) := by
  have left := setStream_step (base := s) (.stopWaiting hwaiting) j
  unfold stopWaiting
  dsimp only
  split
  · exact left.append (admissionTest_steps (leavingList_poolOk h hwaiting) j)
  · exact left

/-! ## The acts -/

/-- The stream whose frame a port sends is one of capture. -/
theorem capture_of_sending {s : State} {p : Port} {i : StreamIdx} (hsending : (s.port p).tx = .sample i)
    (h : s.streamInv) : (s.stream i).direction = .capture := by
  obtain ⟨hok, hta, htb⟩ := h
  have hcount : (s.stream i).ready.countP (fun f => f.inTx.get p) = 1 := by
    have hsends : s.sendingOk p := by cases p <;> assumption
    rw [hsends.1 i, if_pos hsending]
  obtain ⟨-, -, -, -, -, -, hready, -⟩ := hok i
  refine (hready fun hempty => ?_).1
  rw [hempty] at hcount
  exact nomatch hcount

theorem Work.steps {s t : State} (h : Work s t) (hs : s.AdmissionOk) (j : StreamIdx) :
    StreamSteps s (s.stream j) (t.stream j) := by
  cases h with
  | post | books => exact .nil
  | zeroCounters i => exact setStream_step .zeroCounters j
  | start hidle => exact setStream_step (.arm (.inl hidle)) j
  | queue hidle => exact setStream_step (.wait hidle) j
  | stopWaiting hwaiting => exact stopWaiting_steps hs hwaiting j
  | stopPlayout hactive => exact stopPlayout_steps hs hactive j
  | stopArmed hcapture harmed => exact stopArmed_steps hs hcapture harmed j
  | stopDiscard hcapture hrunning => exact stopDiscard_steps hs hcapture hrunning j
  | stopRunning hcapture hrunning => exact stopRunning_steps hs hcapture hrunning j
  | arrive hactive hcheck =>
    unfold playoutArrival
    rw [State.postAll_eq]
    exact setStream_step (.arrive hactive hcheck) j
  | formatError hactive => exact setStream_step (.formatError hactive) j
  | play hplayout hlane =>
    unfold playTask
    rw [State.postAll_eq]
    exact setStream_step (.play hplayout hlane) j
  | capture c line hcapture hlane => exact captureTask_steps c line hcapture hlane j
  | @sampleSent p i hsending =>
    refine Sequence.append ?_ (runArbiters_steps _ j)
    refine Sequence.append ?_ (finishDrainIfEmpty_steps (sending_admissionOk p i hs) j)
    rw [State.setStream_setStream, State.stream_setStream_self]
    exact setStream_step (base := s) (s := s.setPort p _) (.sent p (capture_of_sending (s := s) hsending)) j
  | @gapEnd p _ => exact runArbiters_steps (s.setPort p _) j

theorem leaveRunning_steps (l : LaneIdx) {base : State} (s : State) (j : StreamIdx) :
    StreamSteps base (s.stream j) ((leaveRunning l s).stream j) := by
  unfold leaveRunning
  rw [State.stream_mapStreams]
  exact .one (.loseLane l)

theorem portDown_steps {s : State} {p : Port} (hreset : (s.port p).replies.any Reply.isDeviceReset = false)
    (h : s.AdmissionOk) (j : StreamIdx) : StreamSteps s (s.stream j) ((portDown p s).stream j) := by
  have ended : (if j ∈ s.drainedBy p then { (lowerPort p s).stream j with state := .idle } else (lowerPort p s).stream j)
      = ((s.stream j).withdrawPort p).endDrain := by
    have hmem : j ∈ s.drainedBy p ↔
        ((s.stream j).withdrawPort p).state = .draining ∧ ((s.stream j).withdrawPort p).ready = [] := by
      simp [State.drainedBy, State.streamsWhere, streamIndices, Stream.withdrawPort]
    unfold Stream.endDrain
    rw [lowerPort_stream]
    simp only [hmem]
  have withdrawn := Sequence.one (StreamStep.withdraw (base := s) (st := s.stream j) p)
  rw [← ended] at withdrawn
  rw [portDown_eq_lowerPort hreset]
  refine (withdrawn.append (forStreams_finishDrain_steps _ ?_ (lowerPort_admissionOk p h) (fun i hi => ?_) j)).append
    (runArbiters_steps _ j)
  · exact List.Pairwise.filter _ (List.nodup_finRange 64)
  · rw [lowerPort_stream]
    exact state_of_mem_drainedBy hi

/-- What an act does to the Stream Table: a reset, a definition, a clearing, or steps of single streams. -/
inductive TableAct (s : State) : State → Prop
  | reset (cause : StartCause) (phase : Phase) : TableAct s (blockReset cause phase s)
  | define {i : StreamIdx} {new : Stream} {args : List Byte} (hframed : RequestCode.streamDefine.framed args = true)
      (hfree : (s.stream i).state = .empty ∨ (s.stream i).state = .idle) (hnew : parseDefinition args = some new)
      (htag : s.tagTaken i new.tag = false) : TableAct s (define i new s)
  | clear {i : StreamIdx} (hidle : (s.stream i).state = .idle) :
      TableAct s ((clearOutSlots i s).setStream i Stream.blank)
  | steps {t : State} (h : ∀ j, StreamSteps s (s.stream j) (t.stream j)) : TableAct s t

theorem RequestAct.table {s t : State} (h : RequestAct s t) (hs : s.AdmissionOk) : TableAct s t := by
  cases h with
  | work h => exact .steps (h.steps hs)
  | define hframed hfree hnew htag => exact .define hframed hfree hnew htag
  | clear hidle => exact .clear hidle
  | stopLane l =>
    refine .steps fun j => ?_
    unfold Machine.stopLane
    dsimp only
    split
    · exact leaveRunning_steps l (s.setLane l _) j
    · exact .nil
  | control | laneCounters | slot | configure | startMaster | startSlave | clock | discovery | fetch | levels =>
    exact .steps fun _ => .nil

theorem Act.table {s t : State} (h : Act s t) (hs : s.AdmissionOk) : TableAct s t := by
  cases h with
  | request h => exact h.table hs
  | reset cause phase => exact .reset cause phase
  | linkDown _ hreset => exact .steps (portDown_steps hreset hs)
  | replySent | reply => exact .steps (runArbiters_steps (s.setPort _ _))
  | @lost l c d => exact .steps (leaveRunning_steps l (State.post (s.setLane l _) _ _ _))
  | @servo before l g =>
    obtain ⟨gens, events, h⟩ := servoTask_eq l before g s
    rw [h]
    exact .steps fun _ => .nil
  | review g =>
    obtain ⟨gens, events, h⟩ := reviewIfDue_eq g s
    rw [h]
    exact .steps fun _ => .nil
  | @discover p f =>
    obtain ⟨d, events, h⟩ := discover_eq p f s
    rw [h]
    exact .steps fun _ => .nil
  | release | tick | load | linkUp | accept | dequeue | candidate | due | run | frame => exact .steps fun _ => .nil

theorem stream_define (i j : StreamIdx) (new : Stream) (s : State) :
    (define i new s).stream j = if j = i then new else s.stream j := by
  unfold define
  dsimp only
  rw [State.stream_setDiscovery, State.stream_setStream]
  split
  · rfl
  · split <;> rfl

/-- What a definition, a blank entry and every step of a stream keep, every act keeps of the whole table. -/
theorem Act.keeps_streams {P : Stream → Prop} (hblank : P Stream.blank)
    (hdefine : ∀ {args : List Byte} {new : Stream}, RequestCode.streamDefine.framed args = true →
      parseDefinition args = some new → P new)
    (hstep : ∀ {base : State} {st st' : Stream}, StreamStep base st st' → P st → P st') {s t : State} (h : Act s t)
    (hs : s.AdmissionOk) (hP : ∀ i, P (s.stream i)) (i : StreamIdx) : P (t.stream i) := by
  cases h.table hs with
  | reset cause phase =>
    rw [blockReset_stream]
    exact hblank
  | define hframed _ hnew =>
    rw [stream_define]
    split
    · exact hdefine hframed hnew
    · exact hP i
  | clear =>
    rw [State.stream_setStream]
    split
    · exact hblank
    · exact hP i
  | steps h => exact (h i).keeps hstep (hP i)

end Sys2Proof.Machine
end

