-- ==== Sys2Proof/Proofs/Tags.lean ====
section
/-! Tags and out-slots (R4, R15 to R17, R108, R164): the steps of a stream leave its definition and never make an entry EMPTY
or fill one, so that only definitions, clearings and the Discovery List matter to tags, and besides these the lanes to
out-slots. -/

namespace Sys2Proof.Machine

/-! ## What the steps of a stream leave -/

theorem Stream.endDrain_definition (st : Stream) : st.endDrain.definition = st.definition := by
  unfold Stream.endDrain
  split <;> rfl

theorem Stream.grouped_definition (st : Stream) (words : List Word) : (st.grouped words).definition = st.definition := by
  unfold Stream.grouped
  split <;> rfl

theorem Stream.taken_definition (base : State) (st : Stream) (words : List Word) :
    (st.taken base words).definition = st.definition := by
  unfold Stream.taken
  split
  · exact (Stream.dispose_definition _ _).trans (st.grouped_definition words)
  · exact st.grouped_definition words

theorem StreamStep.definition {base : State} {st st' : Stream} (h : StreamStep base st st') :
    st'.definition = st.definition := by
  cases h with
  | zeroCounters | arm | wait | stopWaiting | stopPlayout | stopArmed | formatError | grant => rfl
  | stopDiscard => exact (Stream.endDrain_definition _).trans st.dropConstruction_definition
  | stopRunning => exact (Stream.endDrain_definition _).trans ((st.afterClose true).dispose_definition _)
  | arrive => exact st.arrive_definition _
  | play => exact st.playStep_definition
  | take => exact st.taken_definition base _
  | sent | withdraw => exact Stream.endDrain_definition _
  | loseLane l => exact st.loseLane_definition l

theorem StreamSteps.definition {base : State} {st st' : Stream} (h : StreamSteps base st st') :
    st'.definition = st.definition :=
  h.keeps (I := fun x => x.definition = st.definition) (fun step h => step.definition.trans h) rfl

theorem Stream.endDrain_empty_iff (st : Stream) : st.endDrain.state = .empty ↔ st.state = .empty := by
  unfold Stream.endDrain
  split
  next h =>
    rw [h.1]
    exact ⟨fun h => (nomatch h), fun h => (nomatch h)⟩
  next => exact Iff.rfl

theorem Stream.grouped_state (st : Stream) (words : List Word) (h : st.state = .armed ∨ st.state = .running) :
    (st.grouped words).state = .running := by
  unfold Stream.grouped
  split
  next => rfl
  next hne => exact h.resolve_left hne

theorem Stream.taken_state (base : State) (st : Stream) (words : List Word)
    (h : st.state = .armed ∨ st.state = .running) : (st.taken base words).state = .running := by
  unfold Stream.taken
  split
  · exact (Stream.dispose_state _ _).trans (st.grouped_state words h)
  · exact st.grouped_state words h

theorem StreamState.not_empty_of_plays {x : StreamState} (h : x.plays = true) : x ≠ .empty := by
  intro e
  rw [e] at h
  exact nomatch h

theorem StreamStep.empty_iff {base : State} {st st' : Stream} (h : StreamStep base st st') :
    st'.state = .empty ↔ st.state = .empty := by
  have used {x y : StreamState} (hx : x ≠ .empty) (hy : y ≠ .empty) : x = .empty ↔ y = .empty := iff_of_false hx hy
  cases h with
  | zeroCounters | formatError | grant => exact Iff.rfl
  | arm h => rcases h with h | h <;> exact used (fun h => (nomatch h)) (by rw [h]; exact fun h => (nomatch h))
  | wait h | stopWaiting h | stopArmed _ h => exact used (fun h => (nomatch h)) (by rw [h]; exact fun h => (nomatch h))
  | stopPlayout h =>
    exact used (fun h => (nomatch h)) (StreamState.not_empty_of_plays (Stream.activePlayout_plays h))
  | stopDiscard _ h | stopRunning _ h =>
    rw [h]
    exact (Stream.endDrain_empty_iff _).trans (used (fun h => (nomatch h)) fun h => (nomatch h))
  | arrive h =>
    have hplays := Stream.activePlayout_plays h
    exact used (StreamState.not_empty_of_plays (Stream.arrive_plays hplays _)) (StreamState.not_empty_of_plays hplays)
  | play =>
    cases h : st.state.plays with
    | true =>
      exact used (StreamState.not_empty_of_plays (Stream.playStep_plays h)) (StreamState.not_empty_of_plays h)
    | false => rw [Stream.playStep_of_not_plays h]
  | take _ _ hacts =>
    rw [st.taken_state base _ hacts]
    exact used (fun h => (nomatch h)) (by rcases hacts with h | h <;> rw [h] <;> exact fun h => (nomatch h))
  | sent | withdraw => exact Stream.endDrain_empty_iff _
  | loseLane l =>
    unfold Stream.loseLane
    split
    · split
      case h_1 h | h_2 h | h_3 h => exact used (fun h => (nomatch h)) (by rw [h]; exact fun h => (nomatch h))
      case h_4 => exact Iff.rfl
    · exact Iff.rfl

theorem StreamSteps.empty_iff {base : State} {st st' : Stream} (h : StreamSteps base st st') :
    st'.state = .empty ↔ st.state = .empty :=
  h.keeps (I := fun x => x.state = .empty ↔ st.state = .empty) (fun step h => step.empty_iff.trans h) Iff.rfl

/-! ## Tags -/

/-- The tags of the Discovery List. -/
abbrev State.unknownTags (s : State) : List Word := s.discovery.records.map (·.tag)

/-- Tags in order. -/
structure State.TagsOk (s : State) : Prop where
  nonzero : ∀ i : StreamIdx, (s.stream i).state ≠ .empty → (s.stream i).tag ≠ 0
  distinct : ∀ i j : StreamIdx, i ≠ j → (s.stream i).state ≠ .empty → (s.stream j).state ≠ .empty →
    (s.stream i).tag ≠ (s.stream j).tag
  room : s.unknownTags.length ≤ 16
  nodup : s.unknownTags.Nodup
  unknown : ∀ x ∈ s.unknownTags, x ≠ 0 ∧ ∀ i : StreamIdx, (s.stream i).state ≠ .empty → (s.stream i).tag ≠ x

theorem State.tagInv_iff (s : State) : s.tagInv ↔ s.TagsOk := by
  constructor
  · rintro ⟨nonzero, distinct, room, nodup, unknown⟩
    refine ⟨nonzero, distinct, by rwa [List.length_map], List.pairwise_map.mpr nodup, fun x hx => ?_⟩
    obtain ⟨r, hr, rfl⟩ := List.mem_map.mp hx
    exact unknown r hr
  · rintro ⟨nonzero, distinct, room, nodup, unknown⟩
    exact ⟨nonzero, distinct, by rwa [List.length_map] at room, List.pairwise_map.mp nodup,
      fun r hr => unknown r.tag (List.mem_map_of_mem hr)⟩

theorem Stream.tag_congr {a b : Stream} (h : a.definition = b.definition) : a.tag = b.tag :=
  show a.definition.tag = b.definition.tag by rw [h]

/-- Entries that stay in use or EMPTY and keep their tags, beside a list that brings no new one. -/
theorem State.TagsOk.of_entries {s t : State} (h : s.TagsOk)
    (hempty : ∀ i, (t.stream i).state = .empty ↔ (s.stream i).state = .empty)
    (htag : ∀ i, (t.stream i).tag = (s.stream i).tag) (hunknown : t.unknownTags.Sublist s.unknownTags) : t.TagsOk where
  nonzero i hi := by
    rw [htag]
    exact h.nonzero i (mt (hempty i).mpr hi)
  distinct i j hij hi hj := by
    rw [htag, htag]
    exact h.distinct i j hij (mt (hempty i).mpr hi) (mt (hempty j).mpr hj)
  room := Nat.le_trans hunknown.length_le h.room
  nodup := h.nodup.sublist hunknown
  unknown x hx := ⟨(h.unknown x (hunknown.subset hx)).1, fun i hi => by
    rw [htag]
    exact (h.unknown x (hunknown.subset hx)).2 i (mt (hempty i).mpr hi)⟩

theorem State.TagsOk.of_steps {s t : State} (h : s.TagsOk) (hsteps : ∀ j, StreamSteps s (s.stream j) (t.stream j))
    (hunknown : t.unknownTags.Sublist s.unknownTags) : t.TagsOk :=
  h.of_entries (fun i => (hsteps i).empty_iff) (fun i => Stream.tag_congr (hsteps i).definition) hunknown

theorem State.tagTaken_eq_false {s : State} {i : StreamIdx} {tag : Word} (h : s.tagTaken i tag = false) (j : StreamIdx)
    (hj : j ≠ i) (hstate : (s.stream j).state ≠ .empty) : (s.stream j).tag ≠ tag := by
  intro e
  unfold State.tagTaken streamIndices at h
  have := List.any_eq_false.mp h j (List.mem_finRange j)
  simp [hj, hstate, e] at this

theorem discovery_define (i : StreamIdx) (new : Stream) (s : State) :
    (define i new s).discovery = s.discovery.remove new.tag := rfl

/-- A definition brings a tag that no other entry holds, and takes it off the Discovery List. -/
theorem define_tagsOk {s : State} {i : StreamIdx} {new : Stream} (h : s.TagsOk) (hnew : new.tag ≠ 0)
    (htag : s.tagTaken i new.tag = false) : (define i new s).TagsOk := by
  have hother := State.tagTaken_eq_false htag
  have hsub : (define i new s).unknownTags.Sublist s.unknownTags := by
    rw [State.unknownTags, discovery_define]
    exact (List.filter_sublist).map _
  refine ⟨fun j hj => ?_, fun j k hjk hj hk => ?_, Nat.le_trans hsub.length_le h.room, h.nodup.sublist hsub,
    fun x hx => ⟨(h.unknown x (hsub.subset hx)).1, fun j hj => ?_⟩⟩
  · rw [stream_define] at hj ⊢
    split at hj
    next e => rwa [if_pos e]
    next e =>
      rw [if_neg e]
      exact h.nonzero j hj
  · rw [stream_define] at hj hk ⊢
    rw [stream_define]
    split at hj
    next e =>
      subst e
      rw [if_neg hjk.symm] at hk
      rw [if_pos rfl, if_neg hjk.symm]
      exact (hother k hjk.symm hk).symm
    next e =>
      rw [if_neg e]
      split at hk
      next e' =>
        rw [if_pos e']
        exact hother j e hj
      next e' =>
        rw [if_neg e']
        exact h.distinct j k hjk hj hk
  · rw [stream_define] at hj ⊢
    split at hj
    next e =>
      rw [if_pos e]
      intro hx'
      rw [State.unknownTags, discovery_define] at hx
      obtain ⟨r, hr, rfl⟩ := List.mem_map.mp hx
      exact (bne_iff_ne.mp (List.mem_filter.mp hr).2) hx'.symm
    next e =>
      rw [if_neg e]
      exact (h.unknown x (hsub.subset hx)).2 j hj

theorem setBlank_tagsOk {s t : State} {i : StreamIdx} (h : s.TagsOk)
    (hstream : ∀ j, t.stream j = if j = i then Stream.blank else s.stream j) (hdiscovery : t.discovery = s.discovery) :
    t.TagsOk := by
  have others {j : StreamIdx} (hj : (t.stream j).state ≠ .empty) : t.stream j = s.stream j := by
    rw [hstream] at hj ⊢
    split at hj
    · exact absurd rfl hj
    next e => exact if_neg e
  refine ⟨fun j hj => ?_, fun j k hjk hj hk => ?_, ?_, ?_, fun x hx => ?_⟩
  · have e := others hj
    rw [e] at hj ⊢
    exact h.nonzero j hj
  · have ej := others hj
    have ek := others hk
    rw [ej] at hj ⊢
    rw [ek] at hk ⊢
    exact h.distinct j k hjk hj hk
  · rw [State.unknownTags, hdiscovery]
    exact h.room
  · rw [State.unknownTags, hdiscovery]
    exact h.nodup
  · rw [State.unknownTags, hdiscovery] at hx
    refine ⟨(h.unknown x hx).1, fun j hj => ?_⟩
    have e := others hj
    rw [e] at hj ⊢
    exact (h.unknown x hx).2 j hj

/-- A tag that the lookup does not find is the tag of no entry in use. -/
theorem State.tag_ne_of_lookup {s : State} {tag : Word} (htag : tag ≠ 0) (h : s.lookup tag = none) (i : StreamIdx)
    (hi : (s.stream i).state ≠ .empty) : (s.stream i).tag ≠ tag := by
  intro e
  unfold State.lookup streamIndices at h
  rw [if_neg htag] at h
  have := List.find?_eq_none.mp h i (List.mem_finRange i)
  simp [hi, e] at this

theorem DiscoveryRecord.update_tag (p : Port) (f : List Byte) (r : DiscoveryRecord) : (r.update p f).tag = r.tag := rfl

/-- An unknown tag other than 0 joins the Discovery List once, while there is room. -/
theorem discover_tagsOk {s : State} {p : Port} {f : List Byte} (h : s.TagsOk) (htag : frameTag f ≠ 0)
    (hlookup : s.lookup (frameTag f) = none) : (discover p f s).TagsOk := by
  have same {t : State} (hstreams : t.streams = s.streams) (htags : t.unknownTags = s.unknownTags) : t.TagsOk := by
    have hstream (i : StreamIdx) : t.stream i = s.stream i := congrArg (·.get i) hstreams
    exact h.of_entries (fun i => by rw [hstream]) (fun i => by rw [hstream]) (htags ▸ List.Sublist.refl _)
  unfold discover
  dsimp only
  split
  next =>
    refine same rfl ?_
    show (s.discovery.records.map _).map _ = _
    rw [List.map_map]
    refine List.map_congr_left fun r _ => ?_
    show (if r.tag == frameTag f then r.update p f else r).tag = r.tag
    split <;> rfl
  next hnew =>
    split
    next hroom =>
      have hunknown : s.unknownTags.length < 16 := by rwa [State.unknownTags, List.length_map]
      have hmem : frameTag f ∉ s.unknownTags := fun hm => by
        obtain ⟨r, hr, e⟩ := List.mem_map.mp hm
        exact hnew (List.any_eq_true.mpr ⟨r, hr, beq_iff_eq.mpr e⟩)
      have htags : (State.post (s.setDiscovery
          { s.discovery with records := s.discovery.records ++ [DiscoveryRecord.fresh p f] }) .discoveryNew (.port p)
            (frameTag f)).unknownTags = s.unknownTags ++ [frameTag f] := List.map_append
      refine ⟨h.nonzero, h.distinct, ?_, ?_, fun x hx => ?_⟩
      · rw [htags, List.length_append]
        exact hunknown
      · rw [htags]
        refine List.nodup_append.mpr ⟨h.nodup, List.pairwise_singleton _ _, fun a ha b hb => ?_⟩
        rw [List.mem_singleton.mp hb]
        exact fun e => hmem (e ▸ ha)
      · rw [htags] at hx
        rcases List.mem_append.mp hx with hx | hx
        · exact h.unknown x hx
        · rw [List.mem_singleton.mp hx]
          exact ⟨htag, State.tag_ne_of_lookup htag hlookup⟩
    next => exact same rfl rfl

/-- Of the acts an arrival alone brings a tag to the Discovery List. -/
theorem Act.unknownTags {s t : State} (h : Act s t) :
    t.unknownTags.Sublist s.unknownTags
      ∨ ∃ p f, frameTag f ≠ 0 ∧ s.lookup (frameTag f) = none ∧ t = Machine.discover p f s := by
  have same (hdiscovery : t.discovery = s.discovery) : t.unknownTags.Sublist s.unknownTags := by
    have htags : t.unknownTags = s.unknownTags := congrArg (fun d => d.records.map (·.tag)) hdiscovery
    exact htags ▸ List.Sublist.refl _
  cases h with
  | request h =>
    left
    cases h with
    | work h => exact same h.beside.discovery
    | define =>
      rw [State.unknownTags, discovery_define]
      exact (List.filter_sublist).map _
    | discovery hrecords => exact hrecords
    | stopLane l => exact same (stopLane_beside l s).discovery
    | clear | control | laneCounters | slot | configure | startMaster | startSlave | clock | fetch | levels =>
      exact same rfl
  | discover htag hlookup => exact .inr ⟨_, _, htag, hlookup, rfl⟩
  | reset => exact .inl (List.nil_sublist _)
  | linkDown _ hreset => exact .inl (same (portDown_beside hreset).discovery)
  | replySent | reply => exact .inl (same (runArbiters_beside _).discovery)
  | @servo before l g =>
    obtain ⟨gens, events, h⟩ := servoTask_eq l before g s
    exact .inl (same (by rw [h]))
  | review g =>
    obtain ⟨gens, events, h⟩ := reviewIfDue_eq g s
    exact .inl (same (by rw [h]))
  | release | tick | load | linkUp | accept | dequeue | candidate | due | run | frame | lost =>
    exact .inl (List.Sublist.refl _)

theorem Act.tagsOk {s t : State} (h : Act s t) (hs : s.AdmissionOk) (hT : s.TagsOk) : t.TagsOk := by
  rcases h.unknownTags with hunknown | ⟨p, f, htag, hlookup, rfl⟩
  · cases h.table hs with
    | reset cause phase => exact (State.tagInv_iff _).mp (blockReset_tagInv cause phase s)
    | define _ _ hnew htag => exact define_tagsOk hT (parseDefinition_definitionOk hnew).1 htag
    | clear => exact setBlank_tagsOk hT (fun j => State.stream_setStream _ _ j _) rfl
    | steps hsteps => exact hT.of_steps hsteps hunknown
  · exact discover_tagsOk hT htag hlookup

/-! ## Out-slots -/

/-- The half of a slot's condition that speaks of the entry named. -/
def State.EntryOk (s : State) (l : LaneIdx) (e : OutSlot) : Prop :=
  (s.stream e.stream).state ≠ .empty ∧ (s.stream e.stream).direction = .playout ∧ (s.stream e.stream).lane = l
    ∧ e.channel.val < (s.stream e.stream).channels

/-- The half that speaks of the lane. -/
def Lane.SlotOk (x : Lane) (k : Fin 32) : Prop := k.val < x.config.slots ∧ x.config.direction ≠ .inp

theorem State.slotOk_iff (s : State) (l : LaneIdx) (k : Fin 32) (e : OutSlot) :
    s.slotOk l k e ↔ s.EntryOk l e ∧ (s.lane l).SlotOk k :=
  ⟨fun ⟨h1, h2, h3, h4, h5, h6⟩ => ⟨⟨h1, h2, h3, h4⟩, h5, h6⟩, fun ⟨⟨h1, h2, h3, h4⟩, h5, h6⟩ => ⟨h1, h2, h3, h4, h5, h6⟩⟩

/-- Out-slots in order. -/
abbrev State.SlotsOk (s : State) : Prop :=
  ∀ (l : LaneIdx) (k : Fin 32) (e : OutSlot), (s.lane l).outTable.get k = some e →
    s.EntryOk l e ∧ (s.lane l).SlotOk k

theorem State.slotInv_iff_slotsOk (s : State) : s.slotInv ↔ s.SlotsOk := by
  rw [State.slotInv_iff]
  simp only [State.slotOk_iff]

theorem State.EntryOk.of_steps {s t : State} {l : LaneIdx} {e : OutSlot} (h : s.EntryOk l e)
    (hsteps : ∀ j, StreamSteps s (s.stream j) (t.stream j)) : t.EntryOk l e := by
  obtain ⟨hstate, hdirection, hlane, hchannel⟩ := h
  have hdefinition := (hsteps e.stream).definition
  exact ⟨mt (hsteps e.stream).empty_iff.mp hstate, (congrArg Stream.direction hdefinition).trans hdirection,
    (congrArg Stream.lane hdefinition).trans hlane, (congrArg Stream.channels hdefinition) ▸ hchannel⟩

/-- Every lane keeps its configuration and its out-slot table. -/
abbrev State.SameSlots (s t : State) : Prop :=
  ∀ l, (t.lane l).config = (s.lane l).config ∧ (t.lane l).outTable = (s.lane l).outTable

theorem sameSlots_setLane {s : State} {l : LaneIdx} {x : Lane}
    (hx : x.config = (s.lane l).config ∧ x.outTable = (s.lane l).outTable) : s.SameSlots (s.setLane l x) := by
  intro m
  rw [State.lane_setLane]
  split
  next e =>
    subst e
    exact hx
  next => exact ⟨rfl, rfl⟩

theorem sameSlots_of_lanes {s t : State} (h : t.lanes = s.lanes) : s.SameSlots t := by
  intro l
  rw [show t.lane l = s.lane l from congrArg (·.get l) h]
  exact ⟨rfl, rfl⟩

/-- What stands in an out-slot of the second state, stood there in the first, on a lane that may still carry it. -/
abbrev State.SlotsFrom (s t : State) : Prop :=
  ∀ (l : LaneIdx) (k : Fin 32) (e : OutSlot), (t.lane l).outTable.get k = some e →
    s.EntryOk l e ∧ (t.lane l).SlotOk k

theorem State.SameSlots.slotsFrom {s t : State} (h : s.SameSlots t) (hs : s.SlotsOk) : s.SlotsFrom t := by
  intro l k e he
  obtain ⟨hconfig, htable⟩ := h l
  rw [htable] at he
  unfold Lane.SlotOk
  rw [hconfig]
  exact hs l k e he

theorem clearOutSlots_slot {s : State} {i : StreamIdx} {l : LaneIdx} {k : Fin 32} {e : OutSlot}
    (he : ((clearOutSlots i s).lane l).outTable.get k = some e) :
    e.stream ≠ i ∧ (s.lane l).outTable.get k = some e := by
  unfold clearOutSlots at he
  rw [State.lane_mapLanes] at he
  unfold Lane.clearStream at he
  dsimp only at he
  rw [mapVec_get] at he
  split at he
  · exact nomatch he
  next hnames =>
    rw [he] at hnames
    exact ⟨fun h => hnames (beq_iff_eq.mpr h), he⟩

theorem clearOutSlots_slotsFrom {s : State} (i : StreamIdx) (hs : s.SlotsOk) : s.SlotsFrom (clearOutSlots i s) := by
  intro l k e he
  have hslot := hs l k e (clearOutSlots_slot he).2
  have hconfig : ((clearOutSlots i s).lane l).config = (s.lane l).config := by
    unfold clearOutSlots
    rw [State.lane_mapLanes]
    rfl
  unfold Lane.SlotOk
  rw [hconfig]
  exact hslot

/-- SLOT_ASSIGN writes an entry that is in order, or none. -/
theorem assign_slotsFrom {s : State} {l : LaneIdx} {k : Fin 32} {e : Option OutSlot} (hs : s.SlotsOk)
    (hslot : ∀ x ∈ e, s.slotOk l k x) :
    s.SlotsFrom (s.setLane l { s.lane l with outTable := (s.lane l).outTable.set k e }) := by
  intro m j x hx
  rw [State.lane_setLane] at hx ⊢
  split at hx
  next em =>
    subst em
    rw [Vector_get_set] at hx
    rw [if_pos rfl]
    split at hx
    next ej =>
      subst ej
      exact (State.slotOk_iff _ _ _ _).mp (hslot x hx)
    next => exact hs m j x hx
  next em =>
    rw [if_neg em]
    exact hs m j x hx

/-- LANE_CONFIG empties the out-slots that the new settings rule out. -/
theorem configure_slotsFrom {s : State} (l : LaneIdx) (c : LaneConfig) (hs : s.SlotsOk) :
    s.SlotsFrom (s.setLane l ((s.lane l).configure c)) := by
  intro m k x hx
  rw [State.lane_setLane] at hx ⊢
  split at hx
  next em =>
    subst em
    rw [if_pos rfl]
    unfold Lane.configure at hx
    dsimp only at hx
    rw [mapVecIdx_get] at hx
    split at hx
    next hcarries =>
      obtain ⟨hdrives, hroom⟩ := (Bool.and_eq_true _ _).mp hcarries
      exact ⟨(hs m k x hx).1, of_decide_eq_true hroom, bne_iff_ne.mp hdrives⟩
    next => exact nomatch hx
  next em =>
    rw [if_neg em]
    exact hs m k x hx

theorem RequestAct.slotsFrom {s t : State} (h : RequestAct s t) (hs : s.SlotsOk) : s.SlotsFrom t := by
  cases h with
  | work h => exact (sameSlots_of_lanes h.beside.lanes).slotsFrom hs
  | @define i new =>
    unfold Machine.define
    dsimp only
    split
    · exact clearOutSlots_slotsFrom i hs
    · exact hs
  | @clear i => exact clearOutSlots_slotsFrom i hs
  | laneCounters | startSlave => exact State.SameSlots.slotsFrom (sameSlots_setLane (by exact ⟨rfl, rfl⟩)) hs
  | slot hslot => exact assign_slotsFrom hs hslot
  | configure c => exact configure_slotsFrom _ c hs
  | startMaster => exact State.SameSlots.slotsFrom (sameSlots_setLane (s := s) (by exact ⟨rfl, rfl⟩)) hs
  | @stopLane l =>
    have stopped : s.SameSlots (Machine.stopLane l s) := fun m => by
      rw [(stopLane_beside l s).lane]
      exact sameSlots_setLane (s := s) (by exact ⟨rfl, rfl⟩) m
    exact stopped.slotsFrom hs
  | control | clock | discovery | fetch | levels => exact hs

theorem Act.slotsFrom {s t : State} (h : Act s t) (hs : s.SlotsOk) : s.SlotsFrom t := by
  cases h with
  | request h => exact h.slotsFrom hs
  | reset cause phase =>
    intro l k e he
    rw [blockReset_lane, Lane.blank_outTable] at he
    exact nomatch he
  | linkDown _ hreset => exact (sameSlots_of_lanes (portDown_beside hreset).lanes).slotsFrom hs
  | replySent | reply => exact (sameSlots_of_lanes (runArbiters_beside _).lanes).slotsFrom hs
  | candidate | due | frame => exact State.SameSlots.slotsFrom (sameSlots_setLane (by exact ⟨rfl, rfl⟩)) hs
  | run => exact State.SameSlots.slotsFrom (sameSlots_setLane (s := s) (by exact ⟨rfl, rfl⟩)) hs
  | @lost l c d =>
    have lost : s.SameSlots (enterLost l c d s) := fun m => by
      rw [(enterLost_beside l c d s).lane]
      exact sameSlots_setLane (s := s) (by exact ⟨rfl, rfl⟩) m
    exact lost.slotsFrom hs
  | @servo before l g =>
    obtain ⟨gens, events, h⟩ := servoTask_eq l before g s
    rw [h]
    exact hs
  | review g =>
    obtain ⟨gens, events, h⟩ := reviewIfDue_eq g s
    rw [h]
    exact hs
  | @discover p f =>
    obtain ⟨d, events, h⟩ := discover_eq p f s
    rw [h]
    exact hs
  | release | tick | load | linkUp | accept | dequeue => exact hs

theorem State.EntryOk.of_other {s t : State} {l : LaneIdx} {e : OutSlot} (h : s.EntryOk l e)
    (hstream : t.stream e.stream = s.stream e.stream) : t.EntryOk l e := by
  unfold State.EntryOk
  rw [hstream]
  exact h

/-- A redefinition that keeps direction, lane and channels keeps the out-slots that name the entry; another empties them. -/
theorem define_entryOk {s : State} {i : StreamIdx} {new : Stream}
    (hfree : (s.stream i).state = .empty ∨ (s.stream i).state = .idle) (hnew : new.state = .idle) {l : LaneIdx}
    {k : Fin 32} {e : OutSlot} (he : ((define i new s).lane l).outTable.get k = some e) (hentry : s.EntryOk l e) :
    (define i new s).EntryOk l e := by
  by_cases hi : e.stream = i
  · subst hi
    unfold define at he
    dsimp only at he
    split at he
    next => exact absurd rfl (clearOutSlots_slot he).1
    next hstale =>
      obtain ⟨hstate, hdirection, hlane, hchannel⟩ := hentry
      have hidle := hfree.resolve_left hstate
      have hsame : (s.stream e.stream).direction = new.direction ∧ (s.stream e.stream).lane = new.lane
          ∧ (s.stream e.stream).channels = new.channels := by
        simpa [Stream.staleAfter, hidle, and_assoc] using hstale
      unfold State.EntryOk
      rw [stream_define, if_pos rfl, hnew, ← hsame.1, ← hsame.2.1, ← hsame.2.2]
      exact ⟨fun h => (nomatch h), hdirection, hlane, hchannel⟩
  · exact hentry.of_other (by rw [stream_define, if_neg hi])

theorem Act.slotsOk {s t : State} (h : Act s t) (hA : s.AdmissionOk) (hs : s.SlotsOk) : t.SlotsOk := by
  intro l k e he
  obtain ⟨hentry, hlane⟩ := h.slotsFrom hs l k e he
  refine ⟨?_, hlane⟩
  cases h.table hA with
  | reset cause phase =>
    rw [blockReset_lane, Lane.blank_outTable] at he
    exact nomatch he
  | define _ hfree hnew => exact define_entryOk hfree (parseDefinition_state hnew) he hentry
  | clear => exact hentry.of_other (State.stream_setStream_ne _ _ (clearOutSlots_slot he).1)
  | steps hsteps => exact hentry.of_steps hsteps

/-- Settles O53: a definition takes a tag that no other entry holds off the Discovery List and empties the out-slots it makes
stale, a clearing frees both, and no other act reaches a tag or an entry's definition. -/
theorem stepsKeepTagsAndOutSlots : Obligations.StepsKeepTagsAndOutSlots := by
  constructor
  · intro s t hA _ hT hstep
    have kept := step_keeps (I := fun u => u.AdmissionOk ∧ u.TagsOk)
      (fun act h => ⟨act.admissionOk h.1, act.tagsOk h.1 h.2⟩)
      (fun _ h => ⟨h.1.of_streams rfl rfl, ⟨h.2.nonzero, h.2.distinct, h.2.room, h.2.nodup, h.2.unknown⟩⟩)
      ⟨s.admissionInv_iff.mp hA, s.tagInv_iff.mp hT⟩ hstep
    exact t.tagInv_iff.mpr kept.2
  · intro s t hA _ hS hstep
    have kept := step_keeps (I := fun u => u.AdmissionOk ∧ u.SlotsOk)
      (fun act h => ⟨act.admissionOk h.1, act.slotsOk h.1 h.2⟩) (fun _ h => ⟨h.1.of_streams rfl rfl, h.2⟩)
      ⟨s.admissionInv_iff.mp hA, s.slotInv_iff_slotsOk.mp hS⟩ hstep
    exact t.slotInv_iff_slotsOk.mpr kept.2

end Sys2Proof.Machine
end

