-- ==== Sys2Proof/Proofs/RunningLanes.lean ====
section
/-! Lanes and what runs on them (R85, R97 to R101, R116, R130): a stream runs or starves only by a frame event of its lane,
and a lane that leaves RUNNING takes its streams along; a lane looks, runs and owes an event only as its role allows. -/

namespace Sys2Proof.Machine

/-! ## Streams that need their lane -/

/-- A stream that is in a state for which its lane has to run. -/
def Stream.OnLane (st : Stream) : Prop := st.state = .running ∨ (st.direction = .playout ∧ st.state = .starved)

/-- The lanes of the streams that need them run. -/
def State.LanesCarry (s : State) : Prop := ∀ i, (s.stream i).OnLane → (s.lane (s.stream i).lane).state = .running

theorem Stream.lane_congr {a b : Stream} (h : a.definition = b.definition) : a.lane = b.lane :=
  show a.definition.lane = b.definition.lane by rw [h]

theorem Stream.direction_congr {a b : Stream} (h : a.definition = b.definition) : a.direction = b.direction :=
  show a.definition.direction = b.definition.direction by rw [h]

theorem Stream.onLane_congr {a b : Stream} (h : a.definition = b.definition) (hstate : a.state = b.state) :
    a.OnLane ↔ b.OnLane := by
  unfold Stream.OnLane
  rw [hstate, Stream.direction_congr h]

/-- The states that need no lane. -/
def StreamState.offLane : StreamState → Bool
  | .running | .starved => false
  | .empty | .idle | .waiting | .armed | .draining => true

theorem Stream.not_onLane {st : Stream} (h : st.state.offLane = true) : ¬ st.OnLane := by
  rintro (hs | ⟨-, hs⟩)
  all_goals
    rw [hs] at h
    exact nomatch h

namespace State.LanesCarry

variable {s t : State}

theorem of_streams (h : s.LanesCarry) (hstreams : t.streams = s.streams)
    (hlanes : ∀ l, (s.lane l).state = .running → (t.lane l).state = .running) : t.LanesCarry := by
  intro i hi
  have hstream : t.stream i = s.stream i := congrArg (·.get i) hstreams
  rw [hstream] at hi ⊢
  exact hlanes _ (h i hi)

theorem setStream (h : s.LanesCarry) (i : StreamIdx) {x : Stream}
    (hx : x.OnLane → (s.lane x.lane).state = .running) : (s.setStream i x).LanesCarry := by
  intro j hj
  rw [State.stream_setStream] at hj ⊢
  split at hj
  next e =>
    rw [if_pos e]
    exact hx hj
  next e =>
    rw [if_neg e]
    exact h j hj

/-- A write that leaves the lane and takes no new need. -/
theorem setStream_of (h : s.LanesCarry) {i : StreamIdx} {x : Stream} (hlane : x.lane = (s.stream i).lane)
    (hx : x.OnLane → (s.stream i).OnLane) : (s.setStream i x).LanesCarry :=
  h.setStream i fun hon => by
    rw [hlane]
    exact h i (hx hon)

/-- A write that leaves the stream without need of its lane. -/
theorem setStream_off (h : s.LanesCarry) (i : StreamIdx) {x : Stream} (hx : x.state.offLane = true) :
    (s.setStream i x).LanesCarry :=
  h.setStream i fun hon => absurd hon (Stream.not_onLane hx)

theorem mapStreams (h : s.LanesCarry) {f : Stream → Stream} (hlane : ∀ st, (f st).lane = st.lane)
    (hf : ∀ st, (f st).OnLane → st.OnLane) : (s.mapStreams f).LanesCarry := by
  intro i hi
  rw [State.stream_mapStreams] at hi ⊢
  rw [hlane]
  exact h i (hf _ hi)

theorem postAll (h : s.LanesCarry) (o : Source) (es : List (EventKind × Word)) : (s.postAll o es).LanesCarry := by
  rw [State.postAll_eq]
  exact h

theorem admissionTest (h : s.LanesCarry) : (Machine.admissionTest s).LanesCarry := by
  intro i hi
  rw [(admissionTest_beside s).lane]
  rcases admissionTest_stream s i with e | e
  · rw [e] at hi ⊢
    exact h i hi
  · rw [e] at hi
    exact absurd hi (Stream.not_onLane (by rfl))

theorem releaseToIdle (h : s.LanesCarry) (i : StreamIdx) : (Machine.releaseToIdle i s).LanesCarry :=
  admissionTest (h.setStream_off i (by rfl))

theorem finishDrainIfEmpty (h : s.LanesCarry) (i : StreamIdx) : (Machine.finishDrainIfEmpty i s).LanesCarry := by
  unfold Machine.finishDrainIfEmpty
  split
  · exact h.releaseToIdle i
  · exact h

theorem finishDrains (h : s.LanesCarry) (is : List StreamIdx) : (s.forStreams is finishDrain).LanesCarry := by
  induction is generalizing s with
  | nil => exact h
  | cons i is ih => exact ih (s := finishDrain i s) (h.releaseToIdle i)

theorem runArbiters (h : s.LanesCarry) : (Machine.runArbiters s).LanesCarry := by
  intro i hi
  have step {u : State} (p : Port) (h : (u.stream i).OnLane → (s.lane (u.stream i).lane).state = .running) :
      ((runArbiter p u).stream i).OnLane → (s.lane ((runArbiter p u).stream i).lane).state = .running := by
    obtain ⟨r, hr, -⟩ := runArbiter_stream p u i
    rw [hr]
    exact h
  rw [(runArbiters_beside s).lane]
  exact step .tb (step .ta (h i)) hi

theorem closeFrame (h : s.LanesCarry) (isEnd : Bool) (i : StreamIdx) : (Machine.closeFrame isEnd i s).LanesCarry := by
  have hdefinition := Stream.dispose_definition ((s.stream i).afterClose isEnd) (closingFrame s (s.stream i) isEnd)
  have closed := h.setStream_of (x := (((s.stream i).afterClose isEnd).dispose (closingFrame s (s.stream i) isEnd)).1)
    (Stream.lane_congr hdefinition) (Stream.onLane_congr hdefinition (Stream.dispose_state _ _)).mp
  unfold Machine.closeFrame
  dsimp only
  split <;> exact closed

theorem takeSamples (h : s.LanesCarry) (c : LaneConfig) (line : PinLevels) (i : StreamIdx) :
    (Machine.takeSamples c line i s).LanesCarry := by
  have added : (s.setStream i ((s.stream i).addGroup ((s.stream i).takeWords c line))).LanesCarry :=
    h.setStream_of rfl id
  unfold Machine.takeSamples
  dsimp only
  split
  · exact added.closeFrame false i
  · exact added

end State.LanesCarry

/-- A lane that leaves RUNNING leaves no stream behind that needs it. -/
theorem Stream.loseLane_not_onLane {l : LaneIdx} {st : Stream} (h : (st.loseLane l).OnLane) :
    st.OnLane ∧ (st.loseLane l).lane ≠ l := by
  unfold Stream.loseLane at h ⊢
  split at h
  next hl =>
    exfalso
    split at h
    case h_1 | h_2 | h_3 => exact Stream.not_onLane (by rfl) h
    case h_4 hpr hps hcr =>
      rcases h with h | ⟨hd, h⟩
      · cases hd : st.direction with
        | playout => exact hpr hd h
        | capture => exact hcr hd h
      · exact hps hd h
  next hl =>
    rw [if_neg hl]
    exact ⟨h, hl⟩

theorem leaveRunning_lanesCarry {s : State} {l : LaneIdx}
    (h : ∀ i, (s.stream i).OnLane → (s.stream i).lane ≠ l → (s.lane (s.stream i).lane).state = .running) :
    (leaveRunning l s).LanesCarry := by
  intro i hi
  rw [(leaveRunning_beside l s).lane]
  unfold leaveRunning at hi ⊢
  rw [State.stream_mapStreams] at hi ⊢
  obtain ⟨hon, hlane⟩ := Stream.loseLane_not_onLane hi
  have hkept : ((s.stream i).loseLane l).lane = (s.stream i).lane :=
    Stream.lane_congr ((s.stream i).loseLane_definition l)
  rw [hkept] at hlane ⊢
  exact h i hon hlane

/-! ## The acts -/

theorem Stream.arrive_onLane {st : Stream} {f : PlayFrame} (h : (st.arrive f).1.OnLane) : st.OnLane := by
  unfold Stream.arrive at h
  dsimp only at h
  repeat' split at h
  any_goals exact h
  exact absurd h (Stream.not_onLane (by rfl))

theorem stopRunning_lanesCarry {s : State} (i : StreamIdx) (h : s.LanesCarry) : (stopRunning i s).LanesCarry :=
  ((h.closeFrame true i).runArbiters.setStream_off i (by rfl)).finishDrainIfEmpty i

theorem stopDiscard_lanesCarry {s : State} {i : StreamIdx} (h : s.LanesCarry) : (stopDiscard i s).LanesCarry := by
  unfold stopDiscard
  dsimp only
  split
  · refine (h.setStream_of ?_ ?_).releaseToIdle i
    · exact Stream.lane_congr (s.stream i).dropConstruction_definition
    · exact (Stream.onLane_congr (s.stream i).dropConstruction_definition (s.stream i).dropConstruction_state).mp
  · exact h.setStream_off i (by rfl)

theorem stopArmed_lanesCarry {s : State} {i : StreamIdx} (h : s.LanesCarry) : (stopArmed i s).LanesCarry := by
  have abort {u : State} (p : Port) (hu : u.LanesCarry) : (abortByStop p i u).LanesCarry := by
    unfold abortByStop
    dsimp only
    split <;> exact hu
  have aborted := abort .tb (abort .ta h)
  exact (aborted.setStream_of (i := i) (x := { (abortByStop .tb i (abortByStop .ta i s)).stream i with ready := [] }) rfl
    id).releaseToIdle i

theorem Work.lanesCarry {s t : State} (h : Work s t) (hs : s.LanesCarry) : t.LanesCarry := by
  cases h with
  | post | books => exact hs
  | zeroCounters | formatError => exact hs.setStream_of rfl id
  | start | queue => exact hs.setStream_off _ (by rfl)
  | @stopWaiting i =>
    have left : (s.setStream i { s.stream i with state := .idle }).LanesCarry :=
      hs.setStream_off i (by rfl)
    unfold Machine.stopWaiting
    dsimp only
    split
    · exact State.LanesCarry.admissionTest (s := State.setWaitList _ _) left
    · exact left
  | @stopPlayout i =>
    exact (hs.setStream_of (i := i) (x := (s.stream i).flushWindow) rfl id).releaseToIdle i
  | stopArmed => exact stopArmed_lanesCarry hs
  | stopDiscard => exact stopDiscard_lanesCarry hs
  | stopRunning => exact stopRunning_lanesCarry _ hs
  | @arrive i f n =>
    exact (hs.setStream_of (Stream.lane_congr (Stream.arrive_definition _ _)) Stream.arrive_onLane).postAll _ _
  | @play i hplayout hlane =>
    refine (hs.setStream i fun _ => ?_).postAll _ _
    rw [Stream.lane_congr (s.stream i).playStep_definition]
    exact hlane
  | @capture i c line _ hlane =>
    unfold captureTask
    dsimp only
    split
    case h_1 =>
      have begun : (s.setStream i (s.stream i).beginRun).LanesCarry := hs.setStream i fun _ => hlane
      exact State.LanesCarry.runArbiters (s := State.post _ _ _ _) (begun.takeSamples c line i)
    case h_2 => exact (hs.takeSamples c line i).runArbiters
    all_goals exact hs
  | @sampleSent p i =>
    refine State.LanesCarry.runArbiters (State.LanesCarry.finishDrainIfEmpty ?_ i)
    exact State.LanesCarry.setStream_of (s := s.setPort p _) hs rfl id
  | @gapEnd p _ => exact State.LanesCarry.runArbiters (s := s.setPort p _) hs

/-- What a lane may do, with the NUM of the generators. -/
structure Lane.Ok (num : GenIdx → Nat) (x : Lane) : Prop where
  looking : x.state = .seeking ∨ x.state = .lost → x.config.role = .slave
  clocked : x.state = .running → ∀ g, x.config.role.gen = some g → num g ≠ 0
  due : x.eventDue = true → x.state = .running ∧ x.config.role = .slave ∧ x.config.delayOne = true

abbrev State.num (s : State) (g : GenIdx) : Nat := (s.gen g).num

/-- Lanes and what runs on them in order. -/
structure State.LanesOk (s : State) : Prop where
  carry : s.LanesCarry
  lanes : ∀ l, (s.lane l).Ok s.num

theorem State.laneInv_iff (s : State) : s.laneInv ↔ s.LanesOk := by
  constructor
  · rintro ⟨carry, lanes⟩
    refine ⟨carry, fun l => ?_⟩
    obtain ⟨looking, clocked, due⟩ := lanes l
    refine ⟨looking, fun hr g hg => ?_, due⟩
    cases hrole : (s.lane l).config.role with
    | master0 =>
      rw [hrole] at hg
      cases hg
      exact (clocked hr).1 hrole
    | master1 =>
      rw [hrole] at hg
      cases hg
      exact (clocked hr).2 hrole
    | slave =>
      rw [hrole] at hg
      exact nomatch hg
  · rintro ⟨carry, lanes⟩
    refine ⟨carry, fun l => ⟨(lanes l).looking, fun hr => ⟨fun h => ?_, fun h => ?_⟩, (lanes l).due⟩⟩
    · exact (lanes l).clocked hr .mcg0 (by rw [h]; rfl)
    · exact (lanes l).clocked hr .mcg1 (by rw [h]; rfl)

namespace State.LanesOk

variable {s t : State}

/-- Beside streams a state that carries them: lanes and generators stand. -/
theorem of_lanes (h : s.LanesOk) (hcarry : t.LanesCarry) (hlanes : t.lanes = s.lanes) (hnum : ∀ g, t.num g = s.num g) :
    t.LanesOk := by
  refine ⟨hcarry, fun l => ?_⟩
  rw [show t.lane l = s.lane l from congrArg (·.get l) hlanes, funext hnum]
  exact h.lanes l

theorem of_beside (h : s.LanesOk) (hbeside : s.Beside t) (hcarry : t.LanesCarry) : t.LanesOk :=
  h.of_lanes hcarry hbeside.lanes fun g => by rw [State.num, hbeside.gen]

theorem of_streams (h : s.LanesOk) (hstreams : t.streams = s.streams) (hlanes : t.lanes = s.lanes)
    (hnum : ∀ g, t.num g = s.num g) : t.LanesOk :=
  h.of_lanes (h.carry.of_streams hstreams fun l hl => by
    rw [show t.lane l = s.lane l from congrArg (·.get l) hlanes]
    exact hl) hlanes hnum

/-- A lane is written that runs as before. -/
theorem setLane (h : s.LanesOk) {l : LaneIdx} {x : Lane} (hx : x.Ok s.num)
    (hruns : (s.lane l).state = .running → x.state = .running) : (s.setLane l x).LanesOk := by
  refine ⟨h.carry.of_streams rfl fun m hm => ?_, fun m => ?_⟩
  · rw [State.lane_setLane]
    split
    next e =>
      subst e
      exact hruns hm
    next => exact hm
  · rw [State.lane_setLane]
    split
    · exact hx
    · exact h.lanes m

/-- A lane leaves RUNNING, and its streams with it. -/
theorem leave (h : s.LanesOk) {l : LaneIdx} {x : Lane} (hx : x.Ok s.num) : (leaveRunning l (s.setLane l x)).LanesOk := by
  refine ⟨leaveRunning_lanesCarry fun i hon hlane => ?_, fun m => ?_⟩
  · rw [State.stream_setLane] at hon hlane ⊢
    rw [State.lane_setLane, if_neg hlane]
    exact h.carry i hon
  · rw [(leaveRunning_beside l _).lane, State.lane_setLane]
    split
    · exact hx
    · exact h.lanes m

/-- An OFF lane owes no event. -/
theorem due_of_off (h : s.LanesOk) {l : LaneIdx} (hoff : (s.lane l).state = .off) : (s.lane l).eventDue = false := by
  rw [← Bool.not_eq_true]
  intro hdue
  have := ((h.lanes l).due hdue).1
  rw [hoff] at this
  exact nomatch this

end State.LanesOk

theorem Role.slave_of_gen {r : Role} (h : r.gen = none) : r = .slave := by
  cases r with
  | slave => rfl
  | master0 | master1 => exact nomatch h

/-- A generator in use keeps its NUM. -/
theorem clock_lanesOk {s : State} {g : GenIdx} (h : s.LanesOk) {x : Gen}
    (hfree : x.num = (s.gen g).num ∨ s.genInUse g = false) : (s.setGen g x).LanesOk := by
  refine ⟨h.carry.of_streams rfl fun _ => id, fun l => ⟨(h.lanes l).looking, fun hr g' hg' => ?_, (h.lanes l).due⟩⟩
  rw [State.num, State.gen_setGen]
  split
  next e =>
    subst e
    rcases hfree with hnum | hused
    · rw [hnum]
      exact (h.lanes l).clocked hr g' hg'
    · exfalso
      unfold State.genInUse laneIndices at hused
      have := List.any_eq_false.mp hused l (List.mem_finRange l)
      rw [State.lane_setGen] at hr hg'
      simp [hr, hg'] at this
  next => exact (h.lanes l).clocked hr g' hg'

theorem clearOutSlots_lanesOk {s : State} (i : StreamIdx) (h : s.LanesOk) : (clearOutSlots i s).LanesOk := by
  have hlane (l : LaneIdx) : (clearOutSlots i s).lane l = (s.lane l).clearStream i := State.lane_mapLanes _ _ l
  refine ⟨h.carry.of_streams rfl fun l hl => ?_, fun l => ?_⟩
  · rw [hlane]
    exact hl
  · rw [hlane]
    exact ⟨(h.lanes l).looking, (h.lanes l).clocked, (h.lanes l).due⟩

theorem define_lanesOk {s : State} {i : StreamIdx} {new : Stream} (h : s.LanesOk) (hnew : new.state = .idle) :
    (define i new s).LanesOk := by
  have written {u : State} (hu : u.LanesOk) : (u.setStream i new).LanesOk :=
    hu.of_lanes (hu.carry.setStream_off i (by rw [hnew]; rfl)) rfl fun _ => rfl
  unfold define
  dsimp only
  split
  · exact (written (clearOutSlots_lanesOk i h)).of_streams rfl rfl fun _ => rfl
  · exact (written h).of_streams rfl rfl fun _ => rfl

/-- A lane that an act leaves OFF, or stops. -/
theorem Lane.ok_of_off {num : GenIdx → Nat} {x : Lane} (hoff : x.state = .off) (hdue : x.eventDue = false) :
    x.Ok num := by
  refine ⟨fun h => ?_, fun h => ?_, fun h => ?_⟩
  · rw [hoff] at h
    exact h.elim (fun h => (nomatch h)) fun h => (nomatch h)
  · rw [hoff] at h
    exact nomatch h
  · rw [hdue] at h
    exact nomatch h

/-- A lane enters RUNNING by its role. -/
theorem enterRunning_lanesOk {s : State} {l : LaneIdx} {due : Bool} (h : s.LanesOk)
    (hclock : ∀ g, (s.lane l).config.role.gen = some g → s.num g ≠ 0)
    (hdue : due = true → (s.lane l).config.role = .slave ∧ (s.lane l).config.delayOne = true) :
    (enterRunning l due s).LanesOk :=
  State.LanesOk.of_streams (h.setLane (x := (s.lane l).enterRunning due)
    ⟨fun h => h.elim (fun h => (nomatch h)) fun h => (nomatch h), fun _ => hclock, fun h => ⟨rfl, hdue h⟩⟩ fun _ => rfl)
    rfl rfl fun _ => rfl

theorem stopLane_lanesOk {s : State} (l : LaneIdx) (h : s.LanesOk) : (stopLane l s).LanesOk := by
  unfold stopLane
  dsimp only
  split
  next => exact h.leave (Lane.ok_of_off rfl rfl)
  next hstate => exact h.setLane (Lane.ok_of_off rfl rfl) fun hr => absurd hr hstate

theorem RequestAct.lanesOk {s t : State} (h : RequestAct s t) (hs : s.LanesOk) : t.LanesOk := by
  cases h with
  | work h => exact hs.of_beside h.beside (h.lanesCarry hs.carry)
  | define _ _ hnew => exact define_lanesOk hs (parseDefinition_state hnew)
  | @clear i =>
    have cleared := clearOutSlots_lanesOk i hs
    exact cleared.of_lanes (cleared.carry.setStream_off i (by rfl)) rfl fun _ => rfl
  | @laneCounters l | @slot l =>
    exact hs.setLane ⟨(hs.lanes l).looking, (hs.lanes l).clocked, (hs.lanes l).due⟩ id
  | @configure l c hfree =>
    have hoff : (s.lane l).state = .off := by
      have := ((Bool.or_eq_false_iff).mp hfree).1
      exact beq_iff_eq.mp (by simpa using this)
    exact hs.setLane (Lane.ok_of_off hoff (hs.due_of_off hoff)) id
  | @startMaster l g hoff hrole hclock =>
    refine enterRunning_lanesOk hs (fun g' hg' => ?_) fun h => (nomatch h)
    rw [hrole] at hg'
    cases hg'
    exact bne_iff_ne.mp hclock
  | @startSlave l hoff hrole =>
    refine hs.setLane ⟨fun _ => Role.slave_of_gen hrole, fun h => (nomatch h), fun h => ?_⟩ fun hr => ?_
    · have := hs.due_of_off hoff
      rw [show (s.lane l).eventDue = true from h] at this
      exact nomatch this
    · rw [hoff] at hr
      exact nomatch hr
  | stopLane l => exact stopLane_lanesOk l hs
  | clock reference resetTrim _ hfree => exact clock_lanesOk hs hfree
  | control | discovery | fetch | levels => exact hs.of_streams rfl rfl fun _ => rfl

/-- A servo steps the trim and the count of a generator and leaves its NUM. -/
theorem reviewIfDue_num (g g' : GenIdx) (s : State) : (reviewIfDue g s).num g' = s.num g' := by
  have stepped (x : Gen) (hx : x.num = (s.gen g).num) : (s.setGen g x).num g' = s.num g' := by
    rw [State.num, State.gen_setGen]
    split
    next e => rw [hx, e]
    next => rfl
  unfold reviewIfDue review
  dsimp only
  repeat' split
  any_goals rfl
  all_goals exact stepped _ rfl

theorem servoTask_num (l : LaneIdx) (before : State) (g g' : GenIdx) (s : State) :
    (servoTask l before g s).num g' = s.num g' := by
  have stepped (x : Gen) (hx : x.num = (s.gen g).num) : (s.setGen g x).num g' = s.num g' := by
    rw [State.num, State.gen_setGen]
    split
    next e => rw [hx, e]
    next => rfl
  unfold servoTask
  dsimp only
  repeat' split
  any_goals rfl
  · exact stepped _ rfl
  · rw [reviewIfDue_num]
    exact stepped _ rfl

theorem portDown_lanesOk {s : State} {p : Port} (hreset : (s.port p).replies.any Reply.isDeviceReset = false)
    (h : s.LanesOk) : (portDown p s).LanesOk := by
  refine h.of_lanes ?_ (portDown_beside hreset).lanes fun g => by rw [State.num, (portDown_beside hreset).gen]; rfl
  have lowered : (lowerPort p s).LanesCarry := fun i hi => by
    rw [lowerPort_stream] at hi ⊢
    rw [show (lowerPort p s).lane _ = s.lane _ from
      (foldl_loseReply_beside p (s.port p).replies _).lane _]
    exact h.carry i hi
  rw [portDown_eq_lowerPort hreset]
  exact (lowered.finishDrains _).runArbiters

theorem Act.lanesOk {s t : State} (h : Act s t) (hs : s.LanesOk) : t.LanesOk := by
  cases h with
  | request h => exact h.lanesOk hs
  | reset cause phase => exact (State.laneInv_iff _).mp (blockReset_laneInv cause phase s)
  | linkDown _ hreset => exact portDown_lanesOk hreset hs
  | replySent | reply =>
    refine hs.of_lanes (State.LanesCarry.runArbiters (s := s.setPort _ _) hs.carry) (runArbiters_beside _).lanes fun g => ?_
    rw [State.num, (runArbiters_beside _).gen]
    rfl
  | @candidate l => exact hs.setLane ⟨(hs.lanes l).looking, (hs.lanes l).clocked, (hs.lanes l).due⟩ id
  | @due l hslave hrunning hdelay =>
    exact hs.setLane ⟨(hs.lanes l).looking, (hs.lanes l).clocked, fun _ => ⟨hrunning, hslave, hdelay⟩⟩ id
  | @run l due hslave hdelay =>
    refine enterRunning_lanesOk hs (fun g hg => ?_) fun h => ⟨hslave, hdelay h⟩
    rw [hslave] at hg
    exact nomatch hg
  | @frame l words => exact hs.setLane ⟨(hs.lanes l).looking, (hs.lanes l).clocked, fun h => (nomatch h)⟩ id
  | @lost l c d hslave =>
    have left := hs.leave (l := l) (x := { s.lane l with
      state := .lost, candidate := c, eventDue := false, outWords := [],
      counters := { (s.lane l).counters with syncLosses := bump (s.lane l).counters.syncLosses } })
      ⟨fun _ => hslave, fun h => (nomatch h), fun h => (nomatch h)⟩
    exact left.of_streams rfl rfl fun _ => rfl
  | @servo before l g =>
    obtain ⟨gens, events, h⟩ := servoTask_eq l before g s
    exact hs.of_streams (by rw [h]) (by rw [h]) fun g' => servoTask_num l before g g' s
  | review g =>
    obtain ⟨gens, events, h⟩ := reviewIfDue_eq g s
    exact hs.of_streams (by rw [h]) (by rw [h]) fun g' => reviewIfDue_num g g' s
  | @discover p f =>
    obtain ⟨d, events, h⟩ := discover_eq p f s
    rw [h]
    exact hs.of_streams rfl rfl fun _ => rfl
  | release | tick | load | linkUp | accept | dequeue => exact hs.of_streams rfl rfl fun _ => rfl

/-- Settles O55: a stream comes to need its lane at a frame event of the lane alone, which runs then; a lane that leaves
RUNNING takes its streams along. -/
theorem stepsKeepStreamsOnRunningLanes : Obligations.StepsKeepStreamsOnRunningLanes := fun s t _ hs hstep =>
  t.laneInv_iff.mpr (step_keeps Act.lanesOk (fun _ h => h.of_streams rfl rfl fun _ => rfl) (s.laneInv_iff.mp hs) hstep)

end Sys2Proof.Machine
end

