-- ==== Sys2Proof/Proofs/Entries.lean ====
section
/-! The entries of the Stream Table (R1, R2, R7, R129 to R142): what an entry holds in each state, kept by every step of a
stream. -/

namespace Sys2Proof.Machine

/-! ## The working values of the two blocks -/

/-- The working values of the Playout Engine (R2) and its counters, on an otherwise blank entry. -/
def Stream.engine (st : Stream) : Stream :=
  { Stream.blank with
    expected := st.expected, window := st.window, gap := st.gap, misplaced := st.misplaced,
    readIndex := st.readIndex, hold := st.hold, playout := st.playout }

/-- The working values of the Capture Packer (R129) and its counters, on an otherwise blank entry. -/
def Stream.packer (st : Stream) : Stream :=
  { Stream.blank with
    nextSeq := st.nextSeq, construction := st.construction, firstOfRun := st.firstOfRun, ready := st.ready,
    capture := st.capture }

theorem Stream.dispose_engine (st : Stream) (f : ReadyFrame) : (st.dispose f).1.engine = st.engine := by
  unfold Stream.dispose
  repeat' split
  all_goals rfl

theorem Stream.dropConstruction_engine (st : Stream) : st.dropConstruction.engine = st.engine := by
  unfold Stream.dropConstruction
  split <;> rfl

theorem Stream.giveSample_packer (st : Stream) (f : PlayFrame) (i : Nat) :
    (st.giveSample f i).stream.packer = st.packer := by
  unfold Stream.giveSample
  dsimp only
  repeat' split
  all_goals rfl

theorem Stream.gapStep_packer (st : Stream) : st.gapStep.stream.packer = st.packer := by
  unfold Stream.gapStep
  dsimp only
  split <;> rfl

theorem Stream.boundary_packer (st : Stream) : st.boundary.stream.packer = st.packer := by
  unfold Stream.boundary
  repeat' split
  · rfl
  · exact st.giveSample_packer _ 0
  · exact st.gapStep_packer
  · rfl

theorem Stream.enterRunning_packer (st : Stream) : st.enterRunning.stream.packer = st.packer :=
  Stream.boundary_packer { st with state := .running }

theorem Stream.playStep_packer (st : Stream) : st.playStep.stream.packer = st.packer := by
  unfold Stream.playStep
  repeat' split
  any_goals rfl
  · exact st.enterRunning_packer
  · exact st.gapStep_packer
  · exact st.boundary_packer
  · exact st.giveSample_packer _ _
  · exact st.boundary_packer
  · exact st.skipToOldest.enterRunning_packer

theorem Stream.arrive_packer (st : Stream) (f : PlayFrame) : (st.arrive f).1.packer = st.packer := by
  unfold Stream.arrive
  dsimp only
  repeat' split
  all_goals rfl

/-! ## What an entry holds -/

/-- A ready frame of a stream (R129, R132, R137). -/
structure Stream.FrameFits (st : Stream) (f : ReadyFrame) : Prop where
  claims : f.ok
  words : f.words.length = f.samples * st.channels
  samples : f.samples ≤ st.frameSamples
  full : f.isEnd = false → f.samples = st.frameSamples

/-- A frame under construction of a stream (R129, R131). -/
structure Stream.Builds (st : Stream) (con : Construction) : Prop where
  count : con.count < st.frameSamples
  words : con.words.length = con.count * st.channels

/-- An entry in order. -/
structure Stream.Sound (st : Stream) : Prop where
  blank : st.state = .empty → st = Stream.blank
  defined : st.state ≠ .empty → st.definitionOk
  fields : st.fieldsOk
  room : st.ready.length ≤ 2
  frames : ∀ f ∈ st.ready, st.FrameFits f
  builds : ∀ con, st.construction = some con → st.Builds con ∧ st.direction = .capture ∧ st.state = .running
  runs : st.direction = .capture → st.state = .running → st.construction.isSome = true
  first : st.firstOfRun = true → st.direction = .capture ∧ st.state = .running
  sends : st.ready ≠ [] → st.direction = .capture ∧ (st.state = .armed ∨ st.state = .running ∨ st.state = .draining)
  drains : st.state = .draining → st.direction = .capture ∧ st.ready ≠ []
  starves : st.state = .starved → st.direction = .playout

theorem Direction.capture_of_not_playout {d : Direction} (h : d ≠ .playout) : d = .capture := by
  cases d with
  | playout => exact absurd rfl h
  | capture => rfl

theorem Direction.playout_of_not_capture {d : Direction} (h : d ≠ .capture) : d = .playout := by
  cases d with
  | playout => rfl
  | capture => exact absurd rfl h

theorem Stream.ok_iff (st : Stream) : st.ok ↔ st.Sound := by
  constructor
  · rintro ⟨blank, defined, drainsOnly, starvesOnly, room, claims, sends, buildsIn, count, runs, drains, first, fields,
      words, frames⟩
    refine ⟨blank, defined, fields, room, fun f hf => ?_, fun con hcon => ?_, runs, first, sends, fun h => ⟨?_, drains h⟩,
      fun h => ?_⟩
    · obtain ⟨hwords, hsamples, hfull⟩ := frames f hf
      exact ⟨claims f hf, hwords, hsamples, hfull⟩
    · rw [hcon] at count words buildsIn
      exact ⟨⟨of_decide_eq_true count, of_decide_eq_true words⟩, buildsIn rfl⟩
    · exact Direction.capture_of_not_playout fun hd => drainsOnly hd h
    · exact Direction.playout_of_not_capture fun hd => starvesOnly hd h
  · intro h
    have built (con : Construction) (hcon : con ∈ st.construction) := h.builds con hcon
    refine ⟨h.blank, h.defined, fun hd hs => ?_, fun hd hs => ?_, h.room, fun f hf => (h.frames f hf).claims, h.sends,
      fun hcon => ?_, ?_, h.runs, fun hs => (h.drains hs).2, h.first, h.fields, ?_, fun f hf => ?_⟩
    · rw [(h.drains hs).1] at hd
      exact nomatch hd
    · rw [h.starves hs] at hd
      exact nomatch hd
    · obtain ⟨con, hcon⟩ := Option.isSome_iff_exists.mp hcon
      exact (h.builds con hcon).2
    · exact Option.all_eq_true _ _ |>.mpr fun con hcon => decide_eq_true (built con hcon).1.count
    · exact Option.all_eq_true _ _ |>.mpr fun con hcon => decide_eq_true (built con hcon).1.words
    · exact ⟨(h.frames f hf).words, (h.frames f hf).samples, (h.frames f hf).full⟩

/-! ## Which fields each part of it reads -/

section
variable {st st' : Stream}

theorem Stream.definitionOk_congr (h : st'.definition = st.definition) (hok : st.definitionOk) : st'.definitionOk := by
  show st'.definition.definitionOk
  rw [h]
  exact hok

theorem Stream.FrameFits.congr {f : ReadyFrame} (hf : st.FrameFits f) (h : st'.definition = st.definition) :
    st'.FrameFits f := by
  have hchannels : st'.channels = st.channels := show st'.definition.channels = _ by rw [h]; rfl
  have hsamples : st'.frameSamples = st.frameSamples := show st'.definition.frameSamples = _ by rw [h]; rfl
  exact ⟨hf.claims, by rw [hchannels]; exact hf.words, by rw [hsamples]; exact hf.samples,
    by rw [hsamples]; exact hf.full⟩

/-- The fields that a capture entry leaves zero are definition and engine. -/
theorem Stream.fieldsOk_of_capture (hcapture : st.direction = .capture) (hfields : st.fieldsOk)
    (hdefinition : st'.definition = st.definition) (hengine : st'.engine = st.engine) : st'.fieldsOk := by
  have hdirection := Stream.direction_congr hdefinition
  refine ⟨fun hd => ?_, fun _ => ?_⟩
  · rw [hdirection, hcapture] at hd
    exact nomatch hd
  · show st'.definition.depthMax = 0 ∧ st'.definition.depthTarget = 0 ∧ st'.definition.conceal = .zero
      ∧ st'.engine.playout = _ ∧ st'.engine.expected = none ∧ st'.engine.window = [] ∧ st'.engine.gap = false
      ∧ st'.engine.misplaced = 0 ∧ st'.engine.readIndex = 0 ∧ st'.engine.hold = []
      ∧ st'.definition.channelSlots.length = st'.definition.channels ∧ st'.definition.egress ≠ ⟨false, false⟩
    rw [hdefinition, hengine]
    exact hfields.2 hcapture

/-- The fields that a playout entry leaves zero are definition and packer. -/
theorem Stream.fieldsOk_of_playout (hplayout : st.direction = .playout) (hfields : st.fieldsOk)
    (hdefinition : st'.definition = st.definition) (hpacker : st'.packer = st.packer) : st'.fieldsOk := by
  have hdirection := Stream.direction_congr hdefinition
  refine ⟨fun _ => ?_, fun hd => ?_⟩
  · show st'.definition.level = 0 ∧ st'.definition.egress = ⟨false, false⟩ ∧ st'.definition.channelSlots = []
      ∧ st'.packer.nextSeq = 0 ∧ st'.packer.capture = _
    rw [hdefinition, hpacker]
    exact hfields.1 hplayout
  · rw [hdirection, hplayout] at hd
    exact nomatch hd

/-! ## Playout entries -/

namespace Stream.Sound

/-- A playout entry in use packs nothing. -/
theorem playout_idle (h : st.Sound) (hplayout : st.direction = .playout) :
    st.ready = [] ∧ st.construction = none ∧ st.firstOfRun = false := by
  refine ⟨Decidable.byContradiction fun hr => ?_, ?_, Bool.eq_false_iff.mpr fun hf => ?_⟩
  · have := (h.sends hr).1
    rw [hplayout] at this
    exact nomatch this
  · cases hcon : st.construction with
    | none => rfl
    | some con =>
      have := (h.builds con hcon).2.1
      rw [hplayout] at this
      exact nomatch this
  · have := (h.first hf).1
    rw [hplayout] at this
    exact nomatch this

/-- A step of the engine keeps a playout entry in order. -/
theorem of_packer (h : st.Sound) (hplayout : st.direction = .playout) (hused : st.state ≠ .empty)
    (hdefinition : st'.definition = st.definition) (hpacker : st'.packer = st.packer) (hempty : st'.state ≠ .empty)
    (hdraining : st'.state ≠ .draining) : st'.Sound := by
  obtain ⟨hready, hcon, hfirst⟩ := h.playout_idle hplayout
  have hdirection : st'.direction = .playout := (Stream.direction_congr hdefinition).trans hplayout
  have hready' : st'.ready = [] := (congrArg Stream.ready hpacker).trans hready
  have hcon' : st'.construction = none := (congrArg Stream.construction hpacker).trans hcon
  have hfirst' : st'.firstOfRun = false := (congrArg Stream.firstOfRun hpacker).trans hfirst
  refine ⟨fun e => absurd e hempty, fun _ => Stream.definitionOk_congr hdefinition (h.defined hused),
    Stream.fieldsOk_of_playout hplayout h.fields hdefinition hpacker, ?_, ?_, ?_, ?_, ?_, ?_,
    fun e => absurd e hdraining, fun _ => hdirection⟩
  · rw [hready']
    exact Nat.zero_le _
  · rw [hready']
    exact fun f hf => (nomatch hf)
  · rw [hcon']
    exact fun con hcon => (nomatch hcon)
  · rw [hdirection]
    exact fun hd => (nomatch hd)
  · rw [hfirst']
    exact fun hf => (nomatch hf)
  · rw [hready']
    exact fun hr => absurd rfl hr

end Stream.Sound

/-! ## Capture entries -/

/-- A capture entry in order, its state and its frame under construction aside. -/
structure Stream.Packed (st : Stream) : Prop where
  capture : st.direction = .capture
  defined : st.definitionOk
  fields : st.fieldsOk
  room : st.ready.length ≤ 2
  frames : ∀ f ∈ st.ready, st.FrameFits f

theorem Stream.Sound.not_empty (h : st.Sound) (hcapture : st.direction = .capture) : st.state ≠ .empty := by
  intro e
  rw [h.blank e] at hcapture
  exact nomatch hcapture

theorem Stream.Sound.packed (h : st.Sound) (hcapture : st.direction = .capture) : st.Packed :=
  ⟨hcapture, h.defined (h.not_empty hcapture), h.fields, h.room, h.frames⟩

theorem Stream.Sound.not_building (h : st.Sound) (hstate : st.state ≠ .running) :
    st.construction = none ∧ st.firstOfRun = false := by
  refine ⟨?_, Bool.eq_false_iff.mpr fun hf => hstate (h.first hf).2⟩
  cases hcon : st.construction with
  | none => rfl
  | some con => exact absurd (h.builds con hcon).2.2 hstate

namespace Stream.Packed

/-- Other ready frames that fit, and any state and construction. -/
theorem congr (h : st.Packed) (hdefinition : st'.definition = st.definition) (hengine : st'.engine = st.engine)
    (hroom : st'.ready.length ≤ 2) (hframes : ∀ f ∈ st'.ready, st.FrameFits f) : st'.Packed :=
  ⟨(Stream.direction_congr hdefinition).trans h.capture, Stream.definitionOk_congr hdefinition h.defined,
    Stream.fieldsOk_of_capture h.capture h.fields hdefinition hengine, hroom, fun f hf => (hframes f hf).congr hdefinition⟩

/-- The same ready frames. -/
theorem same (h : st.Packed) (hdefinition : st'.definition = st.definition) (hengine : st'.engine = st.engine)
    (hready : st'.ready = st.ready) : st'.Packed :=
  h.congr hdefinition hengine (hready ▸ h.room) (hready ▸ h.frames)

/-- A state in which nothing is under construction. -/
theorem sound_rest (h : st.Packed) (hcon : st.construction = none) (hfirst : st.firstOfRun = false)
    (hstate : st.state = .armed ∨ (st.state = .draining ∧ st.ready ≠ []) ∨ (st.state = .idle ∧ st.ready = [])) :
    st.Sound := by
  have states : st.state ≠ .empty ∧ st.state ≠ .running ∧ st.state ≠ .starved := by
    rcases hstate with e | ⟨e, -⟩ | ⟨e, -⟩ <;> rw [e] <;>
      exact ⟨fun h => (nomatch h), fun h => (nomatch h), fun h => (nomatch h)⟩
  obtain ⟨hempty, hrunning, hstarved⟩ := states
  refine ⟨fun e => absurd e hempty, fun _ => h.defined, h.fields, h.room, h.frames, ?_, fun _ e => absurd e hrunning, ?_,
    fun hr => ⟨h.capture, ?_⟩, fun e => ⟨h.capture, ?_⟩, fun e => absurd e hstarved⟩
  · rw [hcon]
    exact fun con hcon => (nomatch hcon)
  · rw [hfirst]
    exact fun hf => (nomatch hf)
  · rcases hstate with e | ⟨e, -⟩ | ⟨-, e⟩
    · exact .inl e
    · exact .inr (.inr e)
    · exact absurd e hr
  · rcases hstate with e' | ⟨-, hr⟩ | ⟨e', -⟩
    · rw [e] at e'
      exact nomatch e'
    · exact hr
    · rw [e] at e'
      exact nomatch e'

theorem sound_running (h : st.Packed) (hstate : st.state = .running) {con : Construction}
    (hcon : st.construction = some con) (hbuilds : st.Builds con) : st.Sound := by
  have other {x : StreamState} (hx : x ≠ .running) : st.state ≠ x := fun e => hx (e.symm.trans hstate)
  refine ⟨fun e => absurd e (other fun h => (nomatch h)), fun _ => h.defined, h.fields, h.room, h.frames,
    fun con' hcon' => ?_, fun _ _ => ?_, fun _ => ⟨h.capture, hstate⟩, fun _ => ⟨h.capture, .inr (.inl hstate)⟩,
    fun e => absurd e (other fun h => (nomatch h)), fun e => absurd e (other fun h => (nomatch h))⟩
  · rw [hcon] at hcon'
    cases hcon'
    exact ⟨hbuilds, h.capture, hstate⟩
  · rw [hcon]
    rfl

/-- A drain goes on while there is something to send. -/
theorem endDrain_sound (h : st.Packed) (hstate : st.state = .draining) (hcon : st.construction = none)
    (hfirst : st.firstOfRun = false) : st.endDrain.Sound := by
  unfold Stream.endDrain
  split
  next hempty =>
    exact (h.same (st' := { st with state := .idle }) rfl rfl rfl).sound_rest hcon hfirst (.inr (.inr ⟨rfl, hempty.2⟩))
  next hmore => exact h.sound_rest hcon hfirst (.inr (.inl ⟨hstate, fun hr => hmore ⟨hstate, hr⟩⟩))

/-- A frame that closes joins the ready list within its room, or nothing changes there. -/
theorem dispose (h : st.Packed) {f : ReadyFrame} (hf : f.pendingOn.isNone = false → st.FrameFits f) :
    (st.dispose f).1.Packed := by
  unfold Stream.dispose
  split
  · exact h
  next hclaims =>
    have hfits := hf (Bool.eq_false_iff.mpr hclaims)
    have joined {kept : List ReadyFrame} (hkept : kept.Sublist st.ready) : ∀ v ∈ kept ++ [f], st.FrameFits v := by
      intro v hv
      rcases List.mem_append.mp hv with hv | hv
      · exact h.frames v (hkept.subset hv)
      · rw [List.mem_singleton.mp hv]
        exact hfits
    split
    next hroom =>
      refine h.congr rfl rfl ?_ (joined (List.Sublist.refl _))
      rw [List.length_append]
      exact hroom
    next =>
      split
      next v hv =>
        refine h.congr rfl rfl ?_ (joined (List.eraseP_sublist))
        have hlength := List.length_eraseP_of_mem (List.mem_of_find?_eq_some hv) (List.find?_some hv)
        have hroom := h.room
        rw [List.length_append, List.length_singleton]
        omega
      next => exact h.same rfl rfl rfl

end Stream.Packed

/-- Disposing of a frame changes the ready list and the counters. -/
theorem Stream.dispose_eq (st : Stream) (f : ReadyFrame) :
    ∃ r c, (st.dispose f).1 = { st with ready := r, capture := c } := by
  unfold Stream.dispose
  repeat' split
  all_goals exact ⟨_, _, rfl⟩

/-- The frame that closes holds what was under construction. -/
theorem closingFrame_fits {base : State} {con : Construction} {isEnd : Bool} (hcon : st.construction = some con)
    (hwords : con.words.length = con.count * st.channels) (hcount : con.count ≤ st.frameSamples)
    (hfull : isEnd = false → con.count = st.frameSamples)
    (hclaims : (closingFrame base st isEnd).pendingOn.isNone = false) : st.FrameFits (closingFrame base st isEnd) := by
  have hsamples : (closingFrame base st isEnd).samples = con.count := by
    unfold closingFrame
    rw [hcon]
    rfl
  have htaken : (closingFrame base st isEnd).words = con.words := by
    unfold closingFrame
    rw [hcon]
    rfl
  refine ⟨⟨hclaims, fun h => (nomatch h), fun h => (nomatch h)⟩, ?_, ?_, fun h => ?_⟩
  · rw [hsamples, htaken]
    exact hwords
  · rw [hsamples]
    exact hcount
  · rw [hsamples]
    exact hfull h

end

/-! ## The steps -/

section
variable {base : State} {st : Stream}

theorem Stream.Sound.zeroCounters (h : st.Sound) : st.zeroCounters.Sound := by
  obtain ⟨hplayout, hcapture⟩ := h.fields
  refine ⟨fun e => ?_, h.defined, ⟨fun hd => ?_, fun hd => ?_⟩, h.room, fun f hf => (h.frames f hf).congr rfl,
    fun con hcon => ?_, h.runs, h.first, h.sends, h.drains, h.starves⟩
  · rw [h.blank e]
    rfl
  · obtain ⟨hlevel, hegress, hslots, hseq, -⟩ := hplayout hd
    exact ⟨hlevel, hegress, hslots, hseq, rfl⟩
  · obtain ⟨hmax, htarget, hconceal, -, hrest⟩ := hcapture hd
    exact ⟨hmax, htarget, hconceal, rfl, hrest⟩
  · obtain ⟨hbuilds, hstate⟩ := h.builds con hcon
    exact ⟨⟨hbuilds.count, hbuilds.words⟩, hstate⟩

theorem Stream.Sound.enterArmed (h : st.Sound) (hused : st.state ≠ .empty) : st.enterArmed.Sound := by
  obtain ⟨hplayout, hcapture⟩ := h.fields
  refine ⟨fun e => (nomatch e), fun _ => h.defined hused, ⟨hplayout, fun hd => ?_⟩, Nat.zero_le _, fun f hf => (nomatch hf),
    fun con hcon => (nomatch hcon), fun _ e => (nomatch e), fun hf => (nomatch hf), fun hr => absurd rfl hr,
    fun e => (nomatch e), fun e => (nomatch e)⟩
  obtain ⟨hmax, htarget, hconceal, hcounters, -, -, -, -, -, hhold, hslots, hegress⟩ := hcapture hd
  exact ⟨hmax, htarget, hconceal, hcounters, rfl, rfl, rfl, rfl, rfl, hhold, hslots, hegress⟩

/-- IDLE and WAITING hold the same. -/
theorem Stream.Sound.restate (h : st.Sound) (hstate : st.state = .idle ∨ st.state = .waiting) {x : StreamState}
    (hx : x = .idle ∨ x = .waiting) : { st with state := x }.Sound := by
  have rests {y : StreamState} (hy : y = .idle ∨ y = .waiting) :
      y ≠ .empty ∧ y ≠ .armed ∧ y ≠ .running ∧ y ≠ .starved ∧ y ≠ .draining := by
    rcases hy with rfl | rfl <;> decide
  obtain ⟨hempty, harmed, hrunning, -, hdraining⟩ := rests hstate
  obtain ⟨hempty', -, hrunning', hstarved', hdraining'⟩ := rests hx
  obtain ⟨hcon, hfirst⟩ := h.not_building hrunning
  have hready : ¬ st.ready ≠ [] := fun hr => (h.sends hr).2.elim harmed fun h => h.elim hrunning hdraining
  refine ⟨fun e => absurd e hempty', fun _ => h.defined hempty, h.fields, h.room, fun f hf => (h.frames f hf).congr rfl,
    fun con hcon' => ?_, fun _ e => absurd e hrunning', fun hf => ?_, fun hr => absurd hr hready,
    fun e => absurd e hdraining', fun e => absurd e hstarved'⟩
  · rw [show st.construction = some con from hcon'] at hcon
    exact nomatch hcon
  · rw [show st.firstOfRun = true from hf] at hfirst
    exact nomatch hfirst

theorem Stream.Sound.stopArmed (h : st.Sound) (hcapture : st.direction = .capture) (harmed : st.state = .armed) :
    { st with ready := [], state := .idle }.Sound := by
  obtain ⟨hcon, hfirst⟩ := h.not_building (by rw [harmed]; exact fun e => (nomatch e))
  have emptied := (h.packed hcapture).congr (st' := { st with ready := [], state := .idle }) rfl rfl (Nat.zero_le _)
    fun f hf => (nomatch hf)
  exact emptied.sound_rest hcon hfirst (.inr (.inr ⟨rfl, rfl⟩))

theorem Stream.dropConstruction_eq (st : Stream) :
    ∃ c, st.dropConstruction = { st with construction := none, capture := c } := by
  unfold Stream.dropConstruction
  split
  · exact ⟨_, rfl⟩
  next hcon => exact ⟨st.capture, by rw [← hcon]⟩

theorem Stream.Sound.discarded (h : st.Sound) (hcapture : st.direction = .capture) : st.discarded.Sound := by
  obtain ⟨c, hdrop⟩ := st.dropConstruction_eq
  have packed := h.packed hcapture
  unfold Stream.discarded
  rw [hdrop]
  refine Stream.Packed.endDrain_sound (packed.congr (by rfl) (by rfl) ?_ fun f hf => ?_) rfl rfl rfl
  · rw [List.length_map]
    exact Nat.le_trans (List.length_filter_le _ _) h.room
  · obtain ⟨v, hv, rfl⟩ := List.mem_map.mp hf
    obtain ⟨hv, hsends⟩ := List.mem_filter.mp hv
    have fits := h.frames v hv
    exact ⟨⟨by simpa using hsends, id, id⟩, fits.words, fits.samples, fits.full⟩

theorem Stream.Sound.stopped (h : st.Sound) (hcapture : st.direction = .capture) (hrunning : st.state = .running) :
    (st.stopped base).Sound := by
  obtain ⟨con, hcon⟩ := Option.isSome_iff_exists.mp (h.runs hcapture hrunning)
  have hbuilds := (h.builds con hcon).1
  have closed : ((st.afterClose true).dispose (closingFrame base st true)).1.Packed := by
    refine ((h.packed hcapture).same rfl rfl rfl : (st.afterClose true).Packed).dispose fun hclaims => ?_
    exact (closingFrame_fits (isEnd := true) hcon hbuilds.words (Nat.le_of_lt hbuilds.count) (fun e => (nomatch e))
      hclaims).congr rfl
  obtain ⟨r, c, hdispose⟩ := (st.afterClose true).dispose_eq (closingFrame base st true)
  unfold Stream.stopped
  rw [hdispose] at closed ⊢
  exact Stream.Packed.endDrain_sound (closed.same (by rfl) (by rfl) rfl) rfl rfl rfl

theorem Stream.Sound.taken (h : st.Sound) (hcapture : st.direction = .capture)
    (hacts : st.state = .armed ∨ st.state = .running) {words : List Word}
    (hwords : words.length = st.channelSlots.length) : (st.taken base words).Sound := by
  have packed := h.packed hcapture
  obtain ⟨-, -, -, hsamples, -⟩ := packed.defined
  have hchannels : words.length = st.channels := by
    obtain ⟨-, -, -, -, -, -, -, -, -, -, hslots, -⟩ := h.fields.2 hcapture
    rw [hwords, hslots]
  obtain ⟨con, hcon, hbuilds⟩ : ∃ con, (st.grouped words).construction = some con
      ∧ con.count ≤ st.frameSamples ∧ con.words.length = con.count * st.channels := by
    unfold Stream.grouped
    split
    next =>
      refine ⟨_, rfl, hsamples, ?_⟩
      show ([] ++ words).length = (0 + 1) * st.channels
      rw [List.nil_append, hchannels, Nat.zero_add, Nat.one_mul]
    next hne =>
      obtain ⟨con, hcon⟩ := Option.isSome_iff_exists.mp (h.runs hcapture (hacts.resolve_left hne))
      have hbuilds := (h.builds con hcon).1
      refine ⟨⟨con.count + 1, con.words ++ words⟩, ?_, hbuilds.count, ?_⟩
      · unfold Stream.addGroup
        rw [hcon]
        rfl
      · show (con.words ++ words).length = (con.count + 1) * st.channels
        rw [List.length_append, hbuilds.words, hchannels, Nat.add_mul, Nat.one_mul]
  obtain ⟨hcount, hlength⟩ := hbuilds
  have hstate := st.grouped_state words hacts
  have hdefinition := st.grouped_definition words
  have hF : (st.grouped words).frameSamples = st.frameSamples :=
    show (st.grouped words).definition.frameSamples = _ by rw [hdefinition]; rfl
  have hC : (st.grouped words).channels = st.channels :=
    show (st.grouped words).definition.channels = _ by rw [hdefinition]; rfl
  have grouped : (st.grouped words).Packed := by
    refine packed.same hdefinition ?_ ?_
    all_goals
      unfold Stream.grouped
      split <;> rfl
  have hfull : (st.grouped words).constructionFull = decide (st.frameSamples ≤ con.count) := by
    unfold Stream.constructionFull
    rw [hcon, hF]
  unfold Stream.taken
  rw [hfull]
  split
  next hle =>
    have hle := of_decide_eq_true hle
    have closed : (((st.grouped words).afterClose false).dispose (closingFrame base (st.grouped words) false)).1.Packed := by
      refine (grouped.same rfl rfl rfl : ((st.grouped words).afterClose false).Packed).dispose fun hclaims => ?_
      refine (closingFrame_fits hcon (by rw [hC]; exact hlength) (by rw [hF]; exact hcount)
        (fun _ => by rw [hF]; exact Nat.le_antisymm hcount hle) hclaims).congr rfl
    obtain ⟨r, c, hdispose⟩ := ((st.grouped words).afterClose false).dispose_eq
      (closingFrame base (st.grouped words) false)
    rw [hdispose] at closed ⊢
    refine closed.sound_running hstate (con := ⟨0, []⟩) rfl ⟨?_, ?_⟩
    · show 0 < (st.grouped words).frameSamples
      rw [hF]
      exact hsamples
    · exact (Nat.zero_mul _).symm
  next hlt =>
    have hlt := Nat.lt_of_not_le fun hle => hlt (decide_eq_true hle)
    exact grouped.sound_running hstate hcon ⟨by rw [hF]; exact hlt, by rw [hC]; exact hlength⟩

/-- Other ready frames in the same number. -/
theorem Stream.Sound.setReady (h : st.Sound) {r : List ReadyFrame} (hlength : r.length = st.ready.length)
    (hframes : ∀ f ∈ r, st.FrameFits f) : { st with ready := r }.Sound := by
  have hempty : r = [] ↔ st.ready = [] := by rw [← List.length_eq_zero_iff, hlength, List.length_eq_zero_iff]
  refine ⟨fun e => ?_, h.defined, h.fields, hlength ▸ h.room, fun f hf => (hframes f hf).congr rfl, fun con hcon => ?_,
    h.runs, h.first, fun hr => h.sends (mt hempty.mpr hr), fun e => ?_, h.starves⟩
  · have hblank := h.blank e
    have hr : r = [] := hempty.mpr (by rw [hblank]; rfl)
    rw [hblank, hr]
    rfl
  · obtain ⟨hbuilds, hstate⟩ := h.builds con hcon
    exact ⟨⟨hbuilds.count, hbuilds.words⟩, hstate⟩
  · obtain ⟨hd, hr⟩ := h.drains e
    exact ⟨hd, mt hempty.mp hr⟩

theorem mem_markGranted {p : Port} {f : ReadyFrame} {fs : List ReadyFrame} (h : f ∈ markGranted p fs) :
    f ∈ fs ∨ ∃ v ∈ fs, v.owedOn p = true ∧ f = { v with inTx := v.inTx.set p true } := by
  induction fs with
  | nil => exact nomatch h
  | cons v fs ih =>
    unfold markGranted at h
    split at h
    next howed =>
      rcases List.mem_cons.mp h with h | h
      · exact .inr ⟨v, List.mem_cons_self, howed, h⟩
      · exact .inl (List.mem_cons_of_mem _ h)
    next =>
      rcases List.mem_cons.mp h with h | h
      · exact .inl (h ▸ List.mem_cons_self)
      · exact (ih h).imp (List.mem_cons_of_mem _) fun ⟨u, hu, hrest⟩ => ⟨u, List.mem_cons_of_mem _ hu, hrest⟩

theorem Stream.Sound.grant (h : st.Sound) (p : Port) : { st with ready := markGranted p st.ready }.Sound := by
  refine h.setReady (markGranted_length p _) fun f hf => ?_
  rcases mem_markGranted hf with hf | ⟨v, hv, howed, rfl⟩
  · exact h.frames f hf
  · obtain ⟨⟨hclaims, hta, htb⟩, hwords, hsamples, hfull⟩ := h.frames v hv
    have hpending := ((ReadyFrame.owedOn_iff p v).mp howed).1
    refine ⟨⟨hclaims, fun hin => ?_, fun hin => ?_⟩, hwords, hsamples, hfull⟩
    all_goals cases p
    · exact hpending
    · exact hta hin
    · exact htb hin
    · exact hpending

/-- Fewer ready frames, and the drain ends with the last. -/
theorem Stream.Sound.fewer {st' : Stream} (h : st.Sound) (hcapture : st.direction = .capture)
    (hdefinition : st'.definition = st.definition) (hengine : st'.engine = st.engine) (hstate : st'.state = st.state)
    (hcon : st'.construction = st.construction) (hfirst : st'.firstOfRun = st.firstOfRun)
    (hroom : st'.ready.length ≤ st.ready.length) (hframes : ∀ f ∈ st'.ready, st.FrameFits f) : st'.endDrain.Sound := by
  have packed : st'.Packed :=
    (h.packed hcapture).congr hdefinition hengine (Nat.le_trans hroom h.room) hframes
  by_cases hdraining : st.state = .draining
  · obtain ⟨hnone, hclear⟩ := h.not_building (by rw [hdraining]; exact fun e => (nomatch e))
    exact packed.endDrain_sound (hstate.trans hdraining) (hcon.trans hnone) (hfirst.trans hclear)
  · have hother : st'.endDrain = st' := if_neg fun e => hdraining (hstate ▸ e.1)
    rw [hother]
    have hready : st'.ready ≠ [] → st.ready ≠ [] := fun hr e => hr (by
      rw [e] at hroom
      exact List.length_eq_zero_iff.mp (Nat.le_zero.mp hroom))
    have hF : st'.frameSamples = st.frameSamples := show st'.definition.frameSamples = _ by rw [hdefinition]; rfl
    have hC : st'.channels = st.channels := show st'.definition.channels = _ by rw [hdefinition]; rfl
    refine ⟨fun e => ?_, fun _ => packed.defined, packed.fields, packed.room, packed.frames, fun con hcon' => ?_,
      fun _ e => ?_, fun hf => ?_, fun hr => ⟨packed.capture, ?_⟩, fun e => absurd (hstate ▸ e) hdraining, fun e => ?_⟩
    · exact absurd (hstate ▸ e) (h.not_empty hcapture)
    · obtain ⟨⟨hcount, hwords⟩, -, hrunning⟩ := h.builds con (hcon ▸ hcon')
      exact ⟨⟨by rw [hF]; exact hcount, by rw [hC]; exact hwords⟩, packed.capture, hstate.trans hrunning⟩
    · rw [hcon]
      exact h.runs hcapture (hstate ▸ e)
    · exact ⟨packed.capture, hstate.trans (h.first (hfirst ▸ hf)).2⟩
    · rw [hstate]
      exact (h.sends (hready hr)).2
    · have := h.starves (hstate ▸ e)
      rw [hcapture] at this
      exact nomatch this

/-- A frame that a port gives up, with a claim left. -/
theorem Stream.FrameFits.giveUp {f : ReadyFrame} (h : st.FrameFits f) (p : Port)
    (hclaims : PortSet.isNone (f.pendingOn.set p false) = false) :
    st.FrameFits { f with pendingOn := f.pendingOn.set p false, inTx := f.inTx.set p false } := by
  obtain ⟨⟨-, hta, htb⟩, hwords, hsamples, hfull⟩ := h
  refine ⟨⟨hclaims, fun hin => ?_, fun hin => ?_⟩, hwords, hsamples, hfull⟩
  all_goals cases p
  · exact nomatch hin
  · exact hta hin
  · exact htb hin
  · exact nomatch hin

theorem Stream.Sound.sent (h : st.Sound) (hcapture : st.direction = .capture) (p : Port) :
    ((st.countSent p).completeOn p).endDrain.Sound := by
  refine h.fewer hcapture rfl rfl rfl rfl rfl ?_ fun f hf => ?_
  · exact Nat.le_trans (List.length_filter_le _ _) (Nat.le_of_eq (List.length_map _))
  · obtain ⟨hf, hclaims⟩ := List.mem_filter.mp hf
    obtain ⟨v, hv, rfl⟩ := List.mem_map.mp hf
    split at hclaims
    next hin =>
      rw [if_pos hin]
      exact (h.frames v hv).giveUp p (by simpa using hclaims)
    next hin =>
      rw [if_neg hin]
      exact h.frames v hv

theorem Stream.Sound.withdraw (h : st.Sound) (p : Port) : (st.withdrawPort p).endDrain.Sound := by
  cases hd : st.direction with
  | playout =>
    have hready := (h.playout_idle hd).1
    have hsame : st.withdrawPort p = st := by
      unfold Stream.withdrawPort
      rw [hready]
      show { st with ready := [] } = st
      rw [← hready]
    have hother : st.endDrain = st := if_neg fun e => by
      have := (h.drains e.1).1
      rw [hd] at this
      exact nomatch this
    rw [hsame, hother]
    exact h
  | capture =>
    refine h.fewer hd rfl rfl rfl rfl rfl ?_ fun f hf => ?_
    · exact Nat.le_trans (List.length_filter_le _ _) (Nat.le_of_eq (List.length_map _))
    · obtain ⟨hf, hclaims⟩ := List.mem_filter.mp hf
      obtain ⟨v, hv, rfl⟩ := List.mem_map.mp hf
      exact (h.frames v hv).giveUp p (by simpa using hclaims)

theorem Stream.Sound.loseLane (h : st.Sound) (l : LaneIdx) : (st.loseLane l).Sound := by
  unfold Stream.loseLane
  split
  next =>
    split
    case h_1 hd hs | h_2 hd hs =>
      exact h.of_packer (st' := { st.flushWindow with state := .armed }) hd (by rw [hs]; exact fun e => (nomatch e)) rfl
        rfl (fun e => (nomatch e)) fun e => (nomatch e)
    case h_3 hd hs =>
      obtain ⟨c, hdrop⟩ := st.dropConstruction_eq
      rw [hdrop]
      exact ((h.packed hd).same (st' := { st with construction := none, capture := c, firstOfRun := false, state := .armed })
        rfl rfl rfl).sound_rest rfl rfl (.inl rfl)
    case h_4 => exact h
  next => exact h

theorem StreamState.not_draining_of_plays {x : StreamState} (h : x.plays = true) : x ≠ .draining := by
  intro e
  rw [e] at h
  exact nomatch h

/-- A step of the engine of an active stream. -/
theorem Stream.Sound.played {st' : Stream} (h : st.Sound) (hplayout : st.direction = .playout)
    (hplays : st.state.plays = true) (hdefinition : st'.definition = st.definition) (hpacker : st'.packer = st.packer)
    (hplays' : st'.state.plays = true) : st'.Sound :=
  h.of_packer hplayout (StreamState.not_empty_of_plays hplays) hdefinition hpacker
    (StreamState.not_empty_of_plays hplays') (StreamState.not_draining_of_plays hplays')

theorem Stream.playout_of_active (h : st.activePlayout = true) : st.direction = .playout := by
  rw [st.activePlayout_eq, Bool.and_eq_true] at h
  exact eq_of_beq h.1

/-- Every step of a stream keeps its entry in order. -/
theorem StreamStep.sound {st' : Stream} (hbase : base.streamInv) (h : StreamStep base st st') (hs : st.Sound) :
    st'.Sound := by
  cases h with
  | zeroCounters => exact hs.zeroCounters
  | arm h => exact hs.enterArmed (by rcases h with h | h <;> rw [h] <;> exact fun e => (nomatch e))
  | wait h => exact hs.restate (.inl h) (.inr rfl)
  | stopWaiting h => exact hs.restate (.inr h) (.inl rfl)
  | stopPlayout h =>
    exact hs.of_packer (Stream.playout_of_active h) (StreamState.not_empty_of_plays (Stream.activePlayout_plays h)) rfl rfl
      (fun e => (nomatch e)) fun e => (nomatch e)
  | stopArmed hcapture harmed => exact hs.stopArmed hcapture harmed
  | stopDiscard hcapture => exact hs.discarded hcapture
  | stopRunning hcapture hrunning => exact hs.stopped hcapture hrunning
  | arrive h =>
    have hplays := Stream.activePlayout_plays h
    exact hs.played (Stream.playout_of_active h) hplays (st.arrive_definition _) (st.arrive_packer _)
      (Stream.arrive_plays hplays _)
  | formatError h =>
    have hplays := Stream.activePlayout_plays h
    exact hs.played (st' := st.countFormatError) (Stream.playout_of_active h) hplays rfl rfl hplays
  | play hplayout =>
    cases hplays : st.state.plays with
    | true => exact hs.played hplayout hplays st.playStep_definition st.playStep_packer (Stream.playStep_plays hplays)
    | false =>
      rw [Stream.playStep_of_not_plays hplays]
      exact hs
  | take hwords hcapture hacts => exact hs.taken hcapture hacts hwords
  | grant p => exact hs.grant p
  | sent p hsends => exact hs.sent (hsends hbase) p
  | withdraw p => exact hs.withdraw p
  | loseLane l => exact hs.loseLane l

end

end Sys2Proof.Machine
end

