-- ==== Sys2Proof/Proofs/Sending.lean ====
section
/-! The Stream Table and the transmitters in agreement (R129, R141, R147, R153 to R158): a port that sends a frame of a
stream is marked on just one ready frame, that stream's, through grants, completions, aborts and withdrawals. -/

namespace Sys2Proof.Machine

/-! ## What a run of an arbiter can be -/

theorem State.owes_of_firstAt {s : State} {p : Port} {level : Nat} {i : StreamIdx}
    (h : s.firstAt (s.eligible p) level = some i) : (s.stream i).owes p :=
  State.mem_eligible.mp (List.mem_of_find?_eq_some h)

theorem State.owes_of_creditChoice {s : State} {p : Port} {c : Credits} {i : StreamIdx}
    (h : s.creditChoice (s.eligible p) c = some i) : (s.stream i).owes p := by
  obtain ⟨level, -, hlevel⟩ := List.exists_of_findSome?_eq_some h
  split at hlevel
  · exact State.owes_of_firstAt hlevel
  · exact nomatch hlevel

/-- What a port chooses, it is owed. -/
theorem State.owes_of_choose {s : State} {p : Port} {i : StreamIdx} {c : Credits} (h : s.choose p = some (i, c)) :
    (s.stream i).owes p := by
  unfold State.choose at h
  dsimp only at h
  split at h
  · obtain ⟨j, hj, e⟩ := Option.map_eq_some_iff.mp h
    cases e
    obtain ⟨level, -, hlevel⟩ := List.exists_of_findSome?_eq_some hj
    exact State.owes_of_firstAt hlevel
  · unfold State.weightedChoice at h
    split at h
    next j hj =>
      cases h
      exact State.owes_of_creditChoice hj
    next =>
      obtain ⟨j, hj, e⟩ := Option.map_eq_some_iff.mp h
      cases e
      exact State.owes_of_creditChoice hj

theorem State.not_owes_of_firstAt {s : State} {p : Port} (h : ∀ level ∈ [2, 1, 0], s.firstAt (s.eligible p) level = none)
    {i : StreamIdx} (hlevel : (s.stream i).level ≤ 2) : ¬ (s.stream i).owes p := by
  intro howes
  have hmem : (s.stream i).level ∈ [2, 1, 0] := by
    simp only [List.mem_cons, List.not_mem_nil, or_false]
    omega
  exact List.find?_eq_none.mp (h _ hmem) i (State.mem_eligible.mpr howes) (beq_self_eq_true _)

/-- A port that chooses nothing is owed nothing. -/
theorem State.not_owes_of_choose {s : State} {p : Port} (hlevels : ∀ i : StreamIdx, (s.stream i).level ≤ 2)
    (h : s.choose p = none) (i : StreamIdx) : ¬ (s.stream i).owes p := by
  refine State.not_owes_of_firstAt (fun level hlevel => ?_) (hlevels i)
  unfold State.choose at h
  dsimp only at h
  split at h
  · exact List.findSome?_eq_none_iff.mp (Option.map_eq_none_iff.mp h) level hlevel
  · unfold State.weightedChoice at h
    split at h
    · exact nomatch h
    · have hnone := List.findSome?_eq_none_iff.mp (Option.map_eq_none_iff.mp h) level hlevel
      have hcredit : 0 < Credits.of {} level := by
        simp only [List.mem_cons, List.not_mem_nil, or_false] at hlevel
        rcases hlevel with rfl | rfl | rfl <;> decide
      rwa [if_pos hcredit] at hnone

/-- The four ways in which a run of a port's arbiter ends. -/
inductive Arbitration (p : Port) (s : State) : Prop
  | busy (h : (s.port p).linkUp = false ∨ (s.port p).tx ≠ .idle) (heq : runArbiter p s = s)
  | reply (hidle : (s.port p).tx = .idle) (hreplies : (s.port p).replies ≠ [])
      (heq : runArbiter p s = s.setPort p { s.port p with tx := .reply })
  | nothing (hreplies : (s.port p).replies = []) (hchoose : s.choose p = none) (heq : runArbiter p s = s)
  | grant {i : StreamIdx} {c : Credits} (hup : (s.port p).linkUp = true) (hidle : (s.port p).tx = .idle)
      (howes : (s.stream i).owes p) (heq : runArbiter p s = grantSample p i c s)

theorem runArbiter_cases (p : Port) (s : State) : Arbitration p s := by
  by_cases hfree : (s.port p).linkUp = true ∧ (s.port p).tx = .idle
  · obtain ⟨hup, hidle⟩ := hfree
    by_cases hreplies : (s.port p).replies = []
    · cases hchoose : s.choose p with
      | none =>
        refine .nothing hreplies hchoose ?_
        simp [runArbiter, hup, hidle, hreplies, hchoose]
      | some x => exact .grant hup hidle (State.owes_of_choose hchoose) (runArbiter_of_choose hup hidle hreplies hchoose)
    · exact .reply hidle hreplies (runArbiter_of_reply hup hidle hreplies)
  · have hbusy : (s.port p).linkUp = false ∨ (s.port p).tx ≠ .idle := by
      cases hup : (s.port p).linkUp with
      | false => exact .inl rfl
      | true => exact .inr fun hidle => hfree ⟨hup, hidle⟩
    exact .busy hbusy (runArbiter_of_not_free hbusy)

/-! ## Marks -/

/-- The number of ready frames of a stream in transmission on a port. -/
def Stream.marks (st : Stream) (p : Port) : Nat := st.ready.countP fun f => f.inTx.get p

theorem Stream.marks_congr {a b : Stream} (h : a.ready = b.ready) (p : Port) : a.marks p = b.marks p := by
  unfold Stream.marks
  rw [h]

theorem countP_markGranted {p : Port} {fs : List ReadyFrame} (h : ∃ f ∈ fs, f.owedOn p = true) (q : Port) :
    (markGranted p fs).countP (fun f => f.inTx.get q) = fs.countP (fun f => f.inTx.get q) + if q = p then 1 else 0 := by
  induction fs with
  | nil =>
    obtain ⟨f, hf, -⟩ := h
    exact nomatch hf
  | cons f fs ih =>
    unfold markGranted
    split
    next howed =>
      have hfree := ((ReadyFrame.owedOn_iff p f).mp howed).2
      rw [List.countP_cons, List.countP_cons]
      by_cases hq : q = p
      · subst hq
        simp [hfree]
      · simp [hq]
    next howed =>
      obtain ⟨v, hv, hvo⟩ := h
      have hv := (List.mem_cons.mp hv).resolve_left fun e => howed (e ▸ hvo)
      rw [List.countP_cons, List.countP_cons, ih ⟨v, hv, hvo⟩]
      omega

/-! ## The agreement -/

/-- A port sends a sample frame of a stream exactly when just one ready frame of it is marked, and no other; a reply that is
sent stands in its queue. -/
abbrev State.SendsOk (s : State) : Prop := ∀ p, s.sendingOk p

/-- Streams that wait have nothing ready. -/
abbrev State.WaitersQuiet (s : State) : Prop := ∀ i ∈ s.waitList, (s.stream i).ready = []

/-- The two together. -/
structure State.Sending (s : State) : Prop where
  sends : s.SendsOk
  waiters : s.WaitersQuiet

theorem State.SendsOk.of_marks {s t : State} (h : s.SendsOk)
    (hmarks : ∀ i p, (t.stream i).marks p = (s.stream i).marks p)
    (htx : ∀ p, (t.port p).tx = (s.port p).tx ∧ ((s.port p).replies ≠ [] → (t.port p).replies ≠ [])) : t.SendsOk := by
  intro p
  refine ⟨fun i => ?_, fun hreply => ?_⟩
  · rw [(htx p).1]
    exact (hmarks i p).trans ((h p).1 i)
  · exact (htx p).2 ((h p).2 ((htx p).1 ▸ hreply))

namespace State.Sending

variable {s t : State}

theorem setStream (h : s.Sending) (i : StreamIdx) {x : Stream} (hmarks : ∀ p, x.marks p = (s.stream i).marks p)
    (hwaits : i ∈ s.waitList → x.ready = []) : (s.setStream i x).Sending := by
  refine ⟨h.sends.of_marks (fun j p => ?_) fun p => ⟨rfl, id⟩, fun j hj => ?_⟩
  · rw [State.stream_setStream]
    split
    next e =>
      subst e
      exact hmarks p
    next => rfl
  · rw [State.stream_setStream]
    split
    next e =>
      subst e
      exact hwaits hj
    next => exact h.waiters j hj

/-- An entry is written beside its ready list. -/
theorem setStream_same (h : s.Sending) (i : StreamIdx) {x : Stream} (hready : x.ready = (s.stream i).ready) :
    (s.setStream i x).Sending :=
  h.setStream i (Stream.marks_congr hready) fun hi => hready.trans (h.waiters i hi)

/-- Beside streams, wait list, transmitters and reply queues. -/
theorem congr (h : s.Sending) (hstreams : t.streams = s.streams) (hlist : t.waitList = s.waitList)
    (htx : ∀ p, (t.port p).tx = (s.port p).tx ∧ ((s.port p).replies ≠ [] → (t.port p).replies ≠ [])) : t.Sending := by
  have hstream (i : StreamIdx) : t.stream i = s.stream i := congrArg (·.get i) hstreams
  refine ⟨h.sends.of_marks (fun i p => by rw [hstream]) htx, fun i hi => ?_⟩
  rw [hstream]
  exact h.waiters i (hlist ▸ hi)

theorem postAll (h : s.Sending) (o : Source) (es : List (EventKind × Word)) : (s.postAll o es).Sending := by
  rw [State.postAll_eq]
  exact h.congr rfl rfl fun p => ⟨rfl, id⟩

theorem admissionTest (h : s.Sending) : (Machine.admissionTest s).Sending := by
  have hready (i : StreamIdx) : ((Machine.admissionTest s).stream i).ready = (s.stream i).ready := by
    by_cases hi : i ∈ s.waitList
    · rcases admissionTest_stream s i with e | e
      · rw [e]
      · rw [e, h.waiters i hi]
        rfl
    · rw [Machine.admissionTest, admitFrom_stream_of_notMem _ s hi]
  refine ⟨h.sends.of_marks (fun i p => Stream.marks_congr (hready i) p) fun p => ?_, fun i hi => ?_⟩
  · rw [show (Machine.admissionTest s).port p = s.port p from congrArg (·.get p) (admissionTest_ports s)]
    exact ⟨rfl, id⟩
  · rw [hready]
    exact h.waiters i ((admitFrom_waitList_suffix _ s).subset hi)

theorem releaseToIdle (h : s.Sending) (i : StreamIdx) : (Machine.releaseToIdle i s).Sending :=
  admissionTest (h.setStream_same i (by rfl))

theorem finishDrain (h : s.Sending) (i : StreamIdx) : (Machine.finishDrain i s).Sending :=
  (h.releaseToIdle i).congr rfl rfl fun _ => ⟨rfl, id⟩

theorem finishDrainIfEmpty (h : s.Sending) (i : StreamIdx) : (Machine.finishDrainIfEmpty i s).Sending := by
  unfold Machine.finishDrainIfEmpty
  split
  · exact h.finishDrain i
  · exact h

theorem finishDrains (h : s.Sending) (is : List StreamIdx) : (s.forStreams is Machine.finishDrain).Sending := by
  induction is generalizing s with
  | nil => exact h
  | cons i is ih => exact ih (h.finishDrain i)

/-- A grant marks one frame where none was marked. -/
theorem runArbiter (h : s.Sending) (p : Port) : (Machine.runArbiter p s).Sending := by
  have hnone (hidle : (s.port p).tx = .idle) (i : StreamIdx) : (s.stream i).marks p = 0 := by
    refine ((h.sends p).1 i).trans (if_neg ?_)
    rw [hidle]
    exact fun e => (nomatch e)
  have others {x : PortState} {q : Port} (hq : q ≠ p) : (s.setPort p x).port q = s.port q :=
    State.port_setPort_ne s x hq
  cases runArbiter_cases p s with
  | busy _ heq | nothing _ _ heq =>
    rw [heq]
    exact h
  | reply hidle hreplies heq =>
    rw [heq]
    refine ⟨fun q => ?_, h.waiters⟩
    by_cases hq : q = p
    · subst hq
      refine ⟨fun i => ?_, fun _ => ?_⟩
      · rw [State.port_setPort_self, if_neg fun e => (nomatch e)]
        exact hnone hidle i
      · rw [State.port_setPort_self]
        exact hreplies
    · refine ⟨fun i => ?_, ?_⟩
      · rw [others hq]
        exact (h.sends q).1 i
      · rw [others hq]
        exact (h.sends q).2
  | @grant i c _ hidle howes heq =>
    obtain ⟨-, v, hv, hvo⟩ := howes
    have howed : ∃ f ∈ (s.stream i).ready, f.owedOn p = true := ⟨v, hv, (ReadyFrame.owedOn_iff p v).mpr hvo⟩
    have hstream (j : StreamIdx) : (grantSample p i c s).stream j =
        if j = i then { s.stream i with ready := markGranted p (s.stream i).ready } else s.stream j :=
      State.stream_setStream _ _ _ _
    have hport (q : Port) : (grantSample p i c s).port q =
        if q = p then { s.port p with tx := .sample i, credits := c } else s.port q :=
      State.port_setPort _ _ _ _
    rw [heq]
    refine ⟨fun q => ⟨fun j => ?_, ?_⟩, fun j hj => ?_⟩
    · have marked : ((grantSample p i c s).stream j).marks q = (s.stream j).marks q + if j = i ∧ q = p then 1 else 0 := by
        rw [hstream]
        by_cases hj : j = i
        · subst hj
          rw [if_pos rfl]
          simp only [true_and]
          exact countP_markGranted howed q
        · simp [hj]
      refine marked.trans ?_
      rw [hport]
      by_cases hq : q = p
      · subst hq
        rw [if_pos rfl, hnone hidle]
        by_cases hj : j = i
        · subst hj
          simp
        · simp [hj, Ne.symm hj]
      · simp only [hq, and_false, if_false, Nat.add_zero]
        exact (h.sends q).1 j
    · rw [hport]
      by_cases hq : q = p
      · rw [if_pos hq]
        exact fun e => (nomatch e)
      · rw [if_neg hq]
        exact (h.sends q).2
    · rw [hstream]
      split
      next e =>
        subst e
        rw [h.waiters j hj]
        rfl
      next => exact h.waiters j hj

theorem runArbiters (h : s.Sending) : (Machine.runArbiters s).Sending := (h.runArbiter .ta).runArbiter .tb

end State.Sending

/-! ## Closing, stopping and completing -/

theorem Stream.dispose_marks (st : Stream) {f : ReadyFrame} (hf : f.inTx = PortSet.none) (p : Port) :
    (st.dispose f).1.marks p = st.marks p := by
  have hfree {v : ReadyFrame} (hv : v.inTx.isNone = true) : v.inTx.get p = false := by
    simp only [PortSet.isNone, Bool.and_eq_true, Bool.not_eq_true'] at hv
    cases p
    · exact hv.1
    · exact hv.2
  have hnew : f.inTx.get p = false := hfree (by rw [hf]; rfl)
  have appended (kept : List ReadyFrame) :
      (kept ++ [f]).countP (fun v => v.inTx.get p) = kept.countP fun v => v.inTx.get p := by
    simp [List.countP_append, hnew]
  unfold Stream.dispose
  split
  · rfl
  split
  · exact appended _
  split
  next v hv =>
    refine (appended _).trans ?_
    obtain ⟨hvfree, before, behind, hready, hbefore⟩ := List.find?_eq_some_iff_append.mp hv
    have hskip : ∀ u ∈ before, ¬ u.inTx.isNone = true := fun u hu => by simpa using hbefore u hu
    have herase : (v :: behind).eraseP (fun u => u.inTx.isNone) = behind :=
      List.eraseP_cons_of_pos (p := fun u : ReadyFrame => u.inTx.isNone) hvfree
    unfold Stream.marks
    rw [hready, List.eraseP_append_right _ hskip, herase, List.countP_append, List.countP_append,
      List.countP_cons_of_neg (by simp [hfree hvfree])]
  · rfl

theorem closingFrame_inTx (s : State) (st : Stream) (isEnd : Bool) : (closingFrame s st isEnd).inTx = PortSet.none := rfl

/-- A close by a stream that does not wait. -/
theorem State.Sending.closeFrame {s : State} (h : s.Sending) (isEnd : Bool) {i : StreamIdx} (hi : i ∉ s.waitList) :
    (Machine.closeFrame isEnd i s).Sending := by
  have closed := h.setStream i
    (x := (((s.stream i).afterClose isEnd).dispose (closingFrame s (s.stream i) isEnd)).1)
    (fun p => Stream.dispose_marks _ (closingFrame_inTx _ _ _) p) fun hi' => absurd hi' hi
  unfold Machine.closeFrame
  dsimp only
  split
  · exact closed.congr rfl rfl fun _ => ⟨rfl, id⟩
  · exact closed

theorem State.Sending.takeSamples {s : State} (h : s.Sending) (c : LaneConfig) (line : PinLevels) {i : StreamIdx}
    (hi : i ∉ s.waitList) : (Machine.takeSamples c line i s).Sending := by
  have added := h.setStream_same i (x := (s.stream i).addGroup ((s.stream i).takeWords c line)) rfl
  unfold Machine.takeSamples
  dsimp only
  split
  · exact added.closeFrame false hi
  · exact added

theorem State.AdmissionOk.not_listed {s : State} (h : s.AdmissionOk) {i : StreamIdx} (hi : (s.stream i).state ≠ .waiting) :
    i ∉ s.waitList := fun hi' => hi ((h.waiting i).mpr hi')

theorem stopDiscard_sending {s : State} {i : StreamIdx} (h : s.Sending) (hA : s.AdmissionOk)
    (hrunning : (s.stream i).state = .running) : (stopDiscard i s).Sending := by
  have hi : i ∉ s.waitList := hA.not_listed (by rw [hrunning]; exact fun e => (nomatch e))
  obtain ⟨c, hdrop⟩ := (s.stream i).dropConstruction_eq
  have hkept {x : Stream} (hx : x.ready = ((s.stream i).dropConstruction.ready.filter fun f => !f.inTx.isNone).map
      fun f : ReadyFrame => { f with pendingOn := f.inTx }) (p : Port) : x.marks p = (s.stream i).marks p := by
    unfold Stream.marks
    rw [hx, hdrop, List.countP_map, List.countP_filter]
    refine List.countP_congr fun f _ => ?_
    simp only [Function.comp_apply, Bool.and_eq_true, and_iff_left_iff_imp]
    intro hin
    cases p
    all_goals
      simp only [PerPort.get] at hin
      simp [PortSet.isNone, hin]
  unfold stopDiscard
  dsimp only
  split
  · exact (h.setStream i (hkept (by rfl)) fun hi' => absurd hi' hi).releaseToIdle i
  · exact h.setStream i (hkept (by rfl)) fun hi' => absurd hi' hi

theorem abortByStop_port (p q : Port) (i : StreamIdx) (s : State) :
    ((abortByStop p i s).port q).replies = (s.port q).replies
      ∧ ((abortByStop p i s).port q).tx = if q = p ∧ (s.port q).tx = .sample i then .abortGap else (s.port q).tx := by
  unfold abortByStop
  dsimp only
  by_cases hq : q = p
  · subst hq
    split
    next hsending => simp [hsending]
    next hother => simp [hother]
  · split <;> simp [hq]

/-- A stream stops from ARMED: its marks go with its frames, and its transmissions are aborted. -/
theorem stopArmed_sending {s : State} {i : StreamIdx} (h : s.Sending) : (stopArmed i s).Sending := by
  have hport (p : Port) : ((abortByStop .tb i (abortByStop .ta i s)).port p).replies = (s.port p).replies
      ∧ ((abortByStop .tb i (abortByStop .ta i s)).port p).tx =
        if (s.port p).tx = .sample i then .abortGap else (s.port p).tx := by
    obtain ⟨hreplies, htx⟩ := abortByStop_port .ta p i s
    obtain ⟨hreplies', htx'⟩ := abortByStop_port .tb p i (abortByStop .ta i s)
    refine ⟨hreplies'.trans hreplies, ?_⟩
    rw [htx', htx]
    cases p <;> simp
  have hstream (j : StreamIdx) : (abortByStop .tb i (abortByStop .ta i s)).stream j = s.stream j :=
    (abortByStop_stream .tb i j _).trans (abortByStop_stream .ta i j s)
  have hlist : (abortByStop .tb i (abortByStop .ta i s)).waitList = s.waitList :=
    ((abortByStop_sameFooting .ta i s).trans (abortByStop_sameFooting .tb i _)).waitList
  refine State.Sending.releaseToIdle ⟨fun p => ⟨fun j => ?_, fun hreply => ?_⟩, fun j hj => ?_⟩ i
  · have hmarks := (h.sends p).1 j
    rw [State.stream_setStream, hstream, State.port_setStream, (hport p).2]
    split
    next e =>
      subst e
      split
      · exact (if_neg fun e => (nomatch e)).symm
      · rfl
    next e =>
      split
      next hsending =>
        rw [hsending, if_neg fun e' => e (Transmitter.sample.inj e').symm] at hmarks
        rw [if_neg fun e => (nomatch e), hstream]
        exact hmarks
      next =>
        rw [hstream]
        exact hmarks
  · rw [State.port_setStream, (hport p).2] at hreply
    rw [State.port_setStream, (hport p).1]
    split at hreply
    · exact nomatch hreply
    · exact (h.sends p).2 hreply
  · rw [State.stream_setStream]
    split
    · rfl
    · rw [hstream]
      exact h.waiters j (hlist ▸ hj)

theorem PerPort.get_set_false {x : PortSet} {p q : Port} :
    (PerPort.set x p false).get q = (x.get q && decide (q ≠ p)) := by
  cases p <;> cases q <;> simp [PerPort.get, PerPort.set]

/-- A frame that a port gives up stays where another port has it in transmission. -/
theorem ReadyFrame.stays_of_sent {f : ReadyFrame} (h : f.ok) {p q : Port} (hq : q ≠ p) (hin : f.inTx.get q = true) :
    PortSet.isNone (f.pendingOn.set p false) = false := by
  obtain ⟨-, hta, htb⟩ := h
  cases p <;> cases q
  · exact absurd rfl hq
  · simp [PortSet.isNone, PerPort.set, htb hin]
  · simp [PortSet.isNone, PerPort.set, hta hin]
  · exact absurd rfl hq

/-- A port that gives up ready frames, among them all that are marked for it, loses its marks; the other port keeps its
own. -/
theorem countP_giveUp {fs : List ReadyFrame} (hok : ∀ f ∈ fs, f.ok) {p : Port} {g : ReadyFrame → ReadyFrame}
    (hg : ∀ f, g f = { f with pendingOn := f.pendingOn.set p false, inTx := f.inTx.set p false }
      ∨ (g f = f ∧ f.inTx.get p = false)) (hclaims : ∀ f ∈ fs, g f = f → f.pendingOn.isNone = false) (q : Port) :
    ((fs.map g).filter fun f => !f.pendingOn.isNone).countP (fun f => f.inTx.get q) =
      if q = p then 0 else fs.countP fun f => f.inTx.get q := by
  rw [List.countP_filter, List.countP_map]
  split
  next e =>
    subst e
    refine List.countP_eq_zero.mpr fun f _ => ?_
    rcases hg f with e | ⟨e, hfree⟩
    · simp [e]
    · simp [e, hfree]
  next hq =>
    refine List.countP_congr fun f hf => ?_
    simp only [Function.comp_apply, Bool.and_eq_true, Bool.not_eq_true']
    rcases hg f with e | ⟨e, -⟩
    · rw [e]
      simp only [PerPort.get_set_ne _ _ hq, and_iff_left_iff_imp]
      exact ReadyFrame.stays_of_sent (hok f hf) hq
    · rw [e, and_iff_left (hclaims f hf e)]

theorem Stream.completeOn_marks {st : Stream} (h : st.Sound) (p q : Port) :
    (st.completeOn p).marks q = if q = p then 0 else st.marks q := by
  refine countP_giveUp (fun f hf => (h.frames f hf).claims) (fun f => ?_) (fun f hf _ => (h.frames f hf).claims.1) q
  split
  · exact .inl rfl
  next hfree => exact .inr ⟨rfl, Bool.eq_false_iff.mpr hfree⟩

theorem Stream.withdrawPort_marks {st : Stream} (h : st.Sound) (p q : Port) :
    (st.withdrawPort p).marks q = if q = p then 0 else st.marks q :=
  countP_giveUp (fun f hf => (h.frames f hf).claims) (fun _ => .inl rfl) (fun f hf _ => (h.frames f hf).claims.1) q

/-- A port that ends what it sends, and marks nothing. -/
theorem State.SendsOk.endSending {s t : State} (h : s.SendsOk) {p : Port} (htx : (t.port p).tx ≠ .reply)
    (hnone : ∀ i, (t.port p).tx ≠ .sample i) (hmarks : ∀ i, (t.stream i).marks p = 0)
    (hothers : ∀ q, q ≠ p → (t.port q).tx = (s.port q).tx ∧ (t.port q).replies = (s.port q).replies
      ∧ ∀ i, (t.stream i).marks q = (s.stream i).marks q) : t.SendsOk := by
  intro q
  by_cases hq : q = p
  · subst hq
    exact ⟨fun i => (hmarks i).trans (if_neg (hnone i)).symm, fun e => absurd e htx⟩
  · obtain ⟨hqtx, hqreplies, hqmarks⟩ := hothers q hq
    refine ⟨fun i => ?_, fun e => ?_⟩
    · rw [hqtx]
      exact (hqmarks i).trans ((h q).1 i)
    · rw [hqreplies]
      exact (h q).2 (hqtx ▸ e)

/-- A port that sends no sample frame is marked on none. -/
theorem State.SendsOk.unmarked {s : State} (h : s.SendsOk) {p : Port} {i : StreamIdx}
    (hother : (s.port p).tx ≠ .sample i) : (s.stream i).marks p = 0 := ((h p).1 i).trans (if_neg hother)

theorem completeSample_sending {s : State} {p : Port} {i : StreamIdx} (h : s.Sending) (hS : ∀ i, (s.stream i).Sound)
    (hsending : (s.port p).tx = .sample i) : (completeSample p i s).Sending := by
  have hmarks (q : Port) : (((s.stream i).countSent p).completeOn p).marks q =
      if q = p then 0 else (s.stream i).marks q := Stream.completeOn_marks (hS i) p q
  refine State.Sending.runArbiters (State.Sending.finishDrainIfEmpty ⟨?_, fun j hj => ?_⟩ i)
  · refine h.sends.endSending (p := p) ?_ (fun j => ?_) (fun j => ?_) fun q hq => ⟨?_, ?_, fun j => ?_⟩
    · rw [State.port_setStream, State.port_setPort_self]
      exact fun e => (nomatch e)
    · rw [State.port_setStream, State.port_setPort_self]
      exact fun e => (nomatch e)
    · rw [State.stream_setStream]
      split
      next e =>
        subst e
        exact (hmarks p).trans (if_pos rfl)
      next e =>
        refine h.sends.unmarked (i := j) ?_
        rw [hsending]
        exact fun e' => e (Transmitter.sample.inj e').symm
    · rw [State.port_setStream, State.port_setPort_ne _ _ hq]
    · rw [State.port_setStream, State.port_setPort_ne _ _ hq]
    · rw [State.stream_setStream]
      split
      next e =>
        subst e
        exact (hmarks q).trans (if_neg hq)
      next => rfl
  · rw [State.stream_setStream]
    split
    next e =>
      subst e
      have := h.waiters j hj
      show (List.filter _ (List.map _ (s.stream j).ready)) = []
      rw [this]
      rfl
    next => exact h.waiters j hj

/-! ## The acts -/

theorem Stream.Sound.nothing_ready {st : Stream} (h : st.Sound) (hstate : st.state = .empty ∨ st.state = .idle
    ∨ st.state = .waiting) : st.ready = [] := by
  refine Decidable.byContradiction fun hr => ?_
  rcases hstate with e | e | e <;> rcases (h.sends hr).2 with e' | e' | e' <;> exact nomatch e.symm.trans e'

/-- The agreement of the Stream Table and the transmitters at an act: streams that wait have nothing ready. -/
theorem State.SendsOk.sending {s : State} (h : s.SendsOk) (hA : s.AdmissionOk) (hS : ∀ i, (s.stream i).Sound) :
    s.Sending := ⟨h, fun i hi => (hS i).nothing_ready (.inr (.inr ((hA.waiting i).mpr hi)))⟩

/-- A port that sends none of a stream's frames stops what it does. -/
theorem State.Sending.stopPort {s : State} (h : s.Sending) {p : Port} {x : PortState}
    (hnone : ∀ i, (s.port p).tx ≠ .sample i) (hx : x.tx = .idle) : (s.setPort p x).Sending := by
  refine ⟨h.sends.endSending (p := p) ?_ (fun i => ?_) (fun i => ?_) fun q hq => ?_, h.waiters⟩
  · rw [State.port_setPort_self, hx]
    exact fun e => (nomatch e)
  · rw [State.port_setPort_self, hx]
    exact fun e => (nomatch e)
  · exact h.sends.unmarked (hnone i)
  · rw [State.port_setPort_ne _ _ hq]
    exact ⟨rfl, rfl, fun _ => rfl⟩

theorem State.Sending.setPort_same {s : State} (h : s.Sending) {p : Port} {x : PortState} (htx : x.tx = (s.port p).tx)
    (hreplies : (s.port p).replies ≠ [] → x.replies ≠ []) : (s.setPort p x).Sending := by
  refine h.congr rfl rfl fun q => ?_
  rw [State.port_setPort]
  split
  next e =>
    subst e
    exact ⟨htx, hreplies⟩
  next => exact ⟨rfl, id⟩

theorem Stream.ready_congr {a b : Stream} (h : a.packer = b.packer) : a.ready = b.ready :=
  show a.packer.ready = b.packer.ready by rw [h]

theorem Work.sending {s t : State} (h : Work s t) (hs : s.Sending) (hA : s.AdmissionOk) (hS : ∀ i, (s.stream i).Sound) :
    t.Sending := by
  have listed {i : StreamIdx} (hi : (s.stream i).state ≠ .waiting) : i ∉ s.waitList := hA.not_listed hi
  cases h with
  | post => exact hs.congr rfl rfl fun _ => ⟨rfl, id⟩
  | books p _ htx hreplies => exact hs.setPort_same htx (by rw [hreplies]; exact id)
  | zeroCounters i | formatError => exact hs.setStream_same _ rfl
  | @start i hidle =>
    have hready := (hS i).nothing_ready (.inr (.inl hidle))
    exact hs.setStream_same i hready.symm
  | @queue i hidle =>
    have hready := (hS i).nothing_ready (.inr (.inl hidle))
    have waits := hs.setStream_same i (x := { s.stream i with state := .waiting }) rfl
    refine ⟨waits.sends, fun j hj => ?_⟩
    rcases List.mem_append.mp hj with hj | hj
    · exact waits.waiters j hj
    · rw [List.mem_singleton.mp hj, State.stream_setWaitList, State.stream_setStream_self]
      exact hready
  | @stopWaiting i =>
    have idles := hs.setStream_same i (x := { s.stream i with state := .idle }) rfl
    have left : ((s.setStream i { s.stream i with state := .idle }).setWaitList
        (s.waitList.filter (· != i))).Sending :=
      ⟨idles.sends, fun j hj => idles.waiters j (List.mem_filter.mp hj).1⟩
    unfold Machine.stopWaiting
    dsimp only
    split
    · exact left.admissionTest
    · exact left
  | @stopPlayout i => exact (hs.setStream_same i (x := (s.stream i).flushWindow) rfl).releaseToIdle i
  | stopArmed => exact stopArmed_sending hs
  | stopDiscard _ hrunning => exact stopDiscard_sending hs hA hrunning
  | @stopRunning i _ hrunning =>
    have closed := (hs.closeFrame true (listed (i := i) (by rw [hrunning]; exact fun e => (nomatch e)))).runArbiters
    exact (closed.setStream_same i (by rfl)).finishDrainIfEmpty i
  | @arrive i f n =>
    exact (hs.setStream_same i (Stream.ready_congr (Stream.arrive_packer _ _))).postAll _ _
  | @play i => exact (hs.setStream_same i (Stream.ready_congr (Stream.playStep_packer _))).postAll _ _
  | @capture i c line =>
    unfold captureTask
    dsimp only
    split
    case h_1 harmed =>
      have hi := listed (i := i) (by rw [harmed]; exact fun e => (nomatch e))
      have taken := (hs.setStream_same i (x := (s.stream i).beginRun) rfl).takeSamples c line hi
      exact State.Sending.runArbiters (taken.congr rfl rfl fun _ => ⟨rfl, id⟩)
    case h_2 hrunning =>
      have hi := listed (i := i) (by rw [hrunning]; exact fun e => (nomatch e))
      exact (hs.takeSamples c line hi).runArbiters
    all_goals exact hs
  | sampleSent hsending => exact completeSample_sending hs hS hsending
  | gapEnd hgap => exact (hs.stopPort (by rw [hgap]; exact fun _ e => (nomatch e)) rfl).runArbiters

/-- Entries with nothing ready are exchanged. -/
theorem State.Sending.exchange {s : State} (h : s.Sending) {i : StreamIdx} {x : Stream} (hold : (s.stream i).ready = [])
    (hnew : x.ready = []) : (s.setStream i x).Sending := h.setStream_same i (hnew.trans hold.symm)

theorem parseDefinition_ready {a : List Byte} {new : Stream} (h : parseDefinition a = some new) : new.ready = [] := by
  obtain ⟨lane, -, ⟨-, rfl⟩ | ⟨-, rfl⟩⟩ := parseDefinition_cases h
  · rfl
  · rfl

theorem Stream.loseLane_ready (l : LaneIdx) (st : Stream) : (st.loseLane l).ready = st.ready := by
  unfold Stream.loseLane
  split
  · split
    case h_3 =>
      obtain ⟨c, hdrop⟩ := st.dropConstruction_eq
      rw [hdrop]
    all_goals rfl
  · rfl

theorem leaveRunning_sending {s : State} (h : s.Sending) (l : LaneIdx) : (leaveRunning l s).Sending := by
  have hready (i : StreamIdx) : ((leaveRunning l s).stream i).ready = (s.stream i).ready := by
    unfold leaveRunning
    rw [State.stream_mapStreams]
    exact Stream.loseLane_ready l _
  refine ⟨h.sends.of_marks (fun i p => Stream.marks_congr (hready i) p) fun p => ⟨rfl, id⟩, fun i hi => ?_⟩
  rw [hready]
  exact h.waiters i hi

theorem RequestAct.sending {s t : State} (h : RequestAct s t) (hs : s.Sending) (hA : s.AdmissionOk)
    (hS : ∀ i, (s.stream i).Sound) : t.Sending := by
  cases h with
  | work h => exact h.sending hs hA hS
  | @define i new args _ hfree hnew =>
    have hold := (hS i).nothing_ready (hfree.imp_right .inl)
    have defined := hs.exchange (x := new) hold (parseDefinition_ready hnew)
    unfold Machine.define
    dsimp only
    split
    · exact defined.congr rfl rfl fun _ => ⟨rfl, id⟩
    · exact defined.congr rfl rfl fun _ => ⟨rfl, id⟩
  | @clear i hidle =>
    have cleared := hs.exchange (i := i) (x := Stream.blank) ((hS i).nothing_ready (.inr (.inl hidle))) rfl
    exact cleared.congr rfl rfl fun _ => ⟨rfl, id⟩
  | stopLane l =>
    unfold Machine.stopLane
    dsimp only
    split
    · exact leaveRunning_sending (s := s.setLane l _) (hs.congr rfl rfl fun _ => ⟨rfl, id⟩) l
    · exact hs.congr rfl rfl fun _ => ⟨rfl, id⟩
  | control | laneCounters | slot | configure | startMaster | startSlave | clock | discovery | fetch | levels =>
    exact hs.congr rfl rfl fun _ => ⟨rfl, id⟩

theorem foldl_loseReply_port (p q : Port) (rs : List Reply) (s : State) :
    ((rs.foldl (fun t r => loseReply p r.txn t) s).port q).tx = (s.port q).tx
      ∧ ((rs.foldl (fun t r => loseReply p r.txn t) s).port q).replies = (s.port q).replies
      ∧ ((rs.foldl (fun t r => loseReply p r.txn t) s).port q).linkUp = (s.port q).linkUp := by
  induction rs generalizing s with
  | nil => exact ⟨rfl, rfl, rfl⟩
  | cons r rs ih =>
    obtain ⟨htx, hreplies, hlink⟩ := ih (loseReply p r.txn s)
    have first : ((loseReply p r.txn s).port q).tx = (s.port q).tx
        ∧ ((loseReply p r.txn s).port q).replies = (s.port q).replies
        ∧ ((loseReply p r.txn s).port q).linkUp = (s.port q).linkUp := by
      unfold loseReply
      dsimp only
      rw [State.port_post, State.port_setPort]
      split
      next e =>
        subst e
        exact ⟨rfl, rfl, rfl⟩
      next => exact ⟨rfl, rfl, rfl⟩
    exact ⟨htx.trans first.1, hreplies.trans first.2.1, hlink.trans first.2.2⟩

/-- What a port gone DOWN is left with, and the other port as it was. -/
theorem lowerPort_port (p q : Port) (s : State) :
    ((lowerPort p s).port q).tx = (if q = p then .idle else (s.port q).tx)
      ∧ ((lowerPort p s).port q).replies = (if q = p then [] else (s.port q).replies)
      ∧ ((lowerPort p s).port q).linkUp = (if q = p then false else (s.port q).linkUp) := by
  unfold lowerPort
  obtain ⟨htx, hreplies, hlink⟩ := foldl_loseReply_port p q (s.port p).replies
    (((s.setPort p { (s.port p).abortOnDown with linkPin := false, linkUp := false, replies := [] }).post .trunkDown
      (.port p) 0).mapStreams (Stream.withdrawPort p))
  rw [htx, hreplies, hlink, State.port_mapStreams, State.port_post, State.port_setPort]
  split
  next =>
    refine ⟨?_, rfl, rfl⟩
    show (s.port p).abortOnDown.tx = .idle
    unfold PortState.abortOnDown
    split
    next h => exact h
    all_goals rfl
  next => exact ⟨rfl, rfl, rfl⟩

theorem portDown_sending {s : State} {p : Port} (hreset : (s.port p).replies.any Reply.isDeviceReset = false)
    (h : s.Sending) (hS : ∀ i, (s.stream i).Sound) : (portDown p s).Sending := by
  have hmarks (i : StreamIdx) (q : Port) : ((lowerPort p s).stream i).marks q =
      if q = p then 0 else (s.stream i).marks q := by
    rw [lowerPort_stream]
    exact Stream.withdrawPort_marks (hS i) p q
  have lowered : (lowerPort p s).Sending := by
    have htx := (lowerPort_port p p s).1
    rw [if_pos rfl] at htx
    refine ⟨h.sends.endSending (p := p) ?_ (fun i => ?_) (fun i => ?_) fun q hq => ?_, fun i hi => ?_⟩
    · rw [htx]
      exact fun e => (nomatch e)
    · rw [htx]
      exact fun e => (nomatch e)
    · exact (hmarks i p).trans (if_pos rfl)
    · obtain ⟨hqtx, hqreplies, -⟩ := lowerPort_port p q s
      rw [if_neg hq] at hqtx hqreplies
      exact ⟨hqtx, hqreplies, fun i => (hmarks i q).trans (if_neg hq)⟩
    · rw [lowerPort_stream]
      show List.filter _ (List.map _ (s.stream i).ready) = []
      rw [h.waiters i (lowerPort_waitList p s ▸ hi)]
      rfl
  rw [portDown_eq_lowerPort hreset]
  exact (lowered.finishDrains _).runArbiters

theorem Act.sending {s t : State} (h : Act s t) (hs : s.Sending) (hA : s.AdmissionOk)
    (hS : ∀ i, (s.stream i).Sound) : t.Sending := by
  cases h with
  | request h => exact h.sending hs hA hS
  | reset cause phase =>
    obtain ⟨-, hta, htb⟩ := blockReset_streamInv cause phase s
    exact ⟨fun p => by cases p <;> assumption, fun i hi => (nomatch hi)⟩
  | load r => exact hs.congr rfl rfl fun q => by cases q <;> exact ⟨rfl, id⟩
  | linkUp p =>
    have up : (s.setPort p { s.port p with linkPin := true, linkUp := true }).Sending := hs.setPort_same (by rfl) id
    exact up.congr rfl rfl fun _ => ⟨rfl, id⟩
  | linkDown _ hreset => exact portDown_sending hreset hs hS
  | replySent hsending => exact (hs.stopPort (by rw [hsending]; exact fun _ e => (nomatch e)) (by rfl)).runArbiters
  | reply => exact (hs.setPort_same (by rfl) fun _ => by simp).runArbiters
  | @lost l => exact leaveRunning_sending (s := State.post (s.setLane l _) _ _ _) (hs.congr rfl rfl fun _ => ⟨rfl, id⟩) l
  | @servo before l g =>
    obtain ⟨gens, events, h⟩ := servoTask_eq l before g s
    rw [h]
    exact hs.congr rfl rfl fun _ => ⟨rfl, id⟩
  | review g =>
    obtain ⟨gens, events, h⟩ := reviewIfDue_eq g s
    rw [h]
    exact hs.congr rfl rfl fun _ => ⟨rfl, id⟩
  | @discover p f =>
    obtain ⟨d, events, h⟩ := discover_eq p f s
    rw [h]
    exact hs.congr rfl rfl fun _ => ⟨rfl, id⟩
  | release | tick | accept | dequeue | candidate | due | run | frame => exact hs.congr rfl rfl fun _ => ⟨rfl, id⟩

/-! ## The obligation -/

/-- The Stream Table in order beside the transmitters. -/
structure State.StreamsOk (s : State) : Prop where
  entries : ∀ i, (s.stream i).Sound
  sends : s.SendsOk

theorem State.streamInv_iff (s : State) : s.streamInv ↔ s.StreamsOk := by
  constructor
  · rintro ⟨hok, hta, htb⟩
    exact ⟨fun i => (Stream.ok_iff _).mp (hok i), fun p => by cases p <;> assumption⟩
  · rintro ⟨hentries, hsends⟩
    exact ⟨fun i => (Stream.ok_iff _).mpr (hentries i), hsends .ta, hsends .tb⟩

theorem Stream.sound_of_parse {a : List Byte} {new : Stream} (hframed : RequestCode.streamDefine.framed a = true)
    (h : parseDefinition a = some new) : new.Sound := by
  have hstate := parseDefinition_state h
  have hready := parseDefinition_ready h
  have hrest : new.construction = none ∧ new.firstOfRun = false := by
    obtain ⟨lane, -, ⟨-, rfl⟩ | ⟨-, rfl⟩⟩ := parseDefinition_cases h
    · exact ⟨rfl, rfl⟩
    · exact ⟨rfl, rfl⟩
  have other {x : StreamState} (hx : x ≠ .idle) : new.state ≠ x := fun e => hx (e.symm.trans hstate)
  refine ⟨fun e => absurd e (other fun e => (nomatch e)), fun _ => parseDefinition_definitionOk h,
    parseDefinition_fieldsOk hframed h, ?_, ?_, ?_, fun _ e => absurd e (other fun e => (nomatch e)), ?_, ?_,
    fun e => absurd e (other fun e => (nomatch e)), fun e => absurd e (other fun e => (nomatch e))⟩
  · rw [hready]
    exact Nat.zero_le _
  · rw [hready]
    exact fun f hf => (nomatch hf)
  · rw [hrest.1]
    exact fun con hcon => (nomatch hcon)
  · rw [hrest.2]
    exact fun e => (nomatch e)
  · exact fun hr => absurd hready hr

/-- A step of a stream is taken in the part as the act finds it. -/
theorem TableAct.streamsSound {s t : State} (h : TableAct s t) (hs : s.StreamsOk) (i : StreamIdx) :
    (t.stream i).Sound := by
  cases h with
  | reset cause phase =>
    rw [blockReset_stream]
    exact (Stream.ok_iff _).mp Stream.blank_ok
  | define hframed _ hnew =>
    rw [stream_define]
    split
    · exact Stream.sound_of_parse hframed hnew
    · exact hs.entries i
  | clear =>
    rw [State.stream_setStream]
    split
    · exact (Stream.ok_iff _).mp Stream.blank_ok
    · exact hs.entries i
  | steps h => exact (h i).keeps (StreamStep.sound (s.streamInv_iff.mpr hs)) (hs.entries i)

theorem Act.streamsOk {s t : State} (h : Act s t) (hA : s.AdmissionOk) (hs : s.StreamsOk) : t.StreamsOk :=
  ⟨(h.table hA).streamsSound hs, (h.sending (hs.sends.sending hA hs.entries) hA hs.entries).sends⟩

/-- Settles O57: each act takes every stream through steps that keep its entry in order, and marks, completes, aborts and
withdraws in the Stream Table what the transmitters do. -/
theorem stepsKeepStreamsAndTransmissions : Obligations.StepsKeepStreamsAndTransmissions := by
  intro s t hA hS hstep
  have kept := step_keeps (I := fun u => u.AdmissionOk ∧ u.StreamsOk)
    (fun act h => ⟨act.admissionOk h.1, act.streamsOk h.1 h.2⟩)
    (fun _ h => ⟨h.1.of_streams rfl rfl, ⟨h.2.entries, h.2.sends⟩⟩)
    ⟨s.admissionInv_iff.mp hA, s.streamInv_iff.mp hS⟩ hstep
  exact t.streamInv_iff.mpr kept.2

end Sys2Proof.Machine
end

