-- ==== Sys2Proof/Proofs/Windows.lean ====
section
/-! The reorder windows (R53, R62 to R84, R90): what the working values of a playout entry hold in each state, kept by every
arrival and every step at a frame event. -/

namespace Sys2Proof.Machine

/-! ## What the working values hold -/

/-- A window whose position 0 stands for a sequence (R62). -/
structure Stream.WindowOk (st : Stream) (e : Half) : Prop where
  length : st.window.length = st.depthMax
  frames : ∀ n f, st.window[n]? = some (some f) → st.frameOk e n f

/-- The working values of a playout entry in order. -/
structure Stream.Plays (st : Stream) : Prop where
  misplaced : st.misplaced ≤ 7
  hold : st.state ≠ .empty → st.hold.length = st.channels
  unset : st.expected = none → st.window = [] ∧ st.gap = false ∧ st.readIndex = 0
  set : ∀ e, st.expected = some e → st.activePlayout = true ∧ st.WindowOk e
  armed : st.state = .armed → st.gap = false ∧ st.readIndex = 0 ∧ (st.expected.isSome = true → st.front.isSome = true)
  runs : st.state = .running → st.expected.isSome = true
  conceals : st.state = .running → st.gap = true →
    st.front = none ∧ 1 ≤ st.held ∧ 1 ≤ st.readIndex ∧ st.readIndex < st.frameSamples
  plays : st.state = .running → st.gap = false → st.readIndex ≠ 0 → ∃ f, st.front = some f ∧ st.readIndex < st.playLength f
  starved : st.state = .starved → st.expected.isSome = true ∧ st.gap = false ∧ st.readIndex = 0

theorem Stream.windowOk_iff {st : Stream} {e : Half} (he : st.expected = some e) : st.windowOk ↔ st.WindowOk e := by
  have hget {n : Nat} {f : PlayFrame} : st.window.getD n none = some f ↔ st.window[n]? = some (some f) := by
    rw [List.getD_eq_getElem?_getD]
    cases st.window[n]? with
    | none => exact ⟨fun h => (nomatch h), fun h => (nomatch h)⟩
    | some x => exact ⟨fun h => congrArg some h, fun h => Option.some.inj h⟩
  unfold Stream.windowOk
  rw [he]
  constructor
  · rintro ⟨hlength, hframes⟩
    refine ⟨hlength, fun n f hf => ?_⟩
    have hn : n < st.depthMax := by
      rw [← hlength]
      exact (List.getElem?_eq_some_iff.mp hf).1
    have := List.all_eq_true.mp hframes n (List.mem_range.mpr hn)
    rw [hget.mpr hf] at this
    exact of_decide_eq_true this
  · rintro ⟨hlength, hframes⟩
    refine ⟨hlength, List.all_eq_true.mpr fun n _ => (Option.all_eq_true _ _).mpr fun f hf => ?_⟩
    exact decide_eq_true (hframes n f (hget.mp hf))

theorem Stream.playOk_iff (st : Stream) : st.playOk ↔ st.Plays := by
  constructor
  · rintro ⟨misplaced, hold, unset, set, armed, running, starved⟩
    refine ⟨misplaced, hold, unset, fun e he => ?_, armed, fun hr => (running hr).1, fun hr => (running hr).2.1,
      fun hr hg hi => ?_, starved⟩
    · obtain ⟨hactive, hwindow⟩ := set (by rw [he]; rfl)
      exact ⟨hactive, (Stream.windowOk_iff he).mp hwindow⟩
    · obtain ⟨f, hf, hlength⟩ := (Option.any_eq_true _ _).mp ((running hr).2.2 hg hi)
      exact ⟨f, hf, of_decide_eq_true hlength⟩
  · intro h
    refine ⟨h.misplaced, h.hold, h.unset, fun he => ?_, h.armed, fun hr => ⟨h.runs hr, h.conceals hr, fun hg hi => ?_⟩,
      h.starved⟩
    · obtain ⟨e, he⟩ := Option.isSome_iff_exists.mp he
      obtain ⟨hactive, hwindow⟩ := h.set e he
      exact ⟨hactive, (Stream.windowOk_iff he).mpr hwindow⟩
    · obtain ⟨f, hf, hlength⟩ := h.plays hr hg hi
      exact (Option.any_eq_true _ _).mpr ⟨f, hf, decide_eq_true hlength⟩

/-- The working values that the relations speak of, on an otherwise blank entry. -/
def Stream.playhead (st : Stream) : Stream :=
  { Stream.blank with
    state := st.state, direction := st.direction, channels := st.channels, frameSamples := st.frameSamples,
    depthMax := st.depthMax, expected := st.expected, window := st.window, gap := st.gap, misplaced := st.misplaced,
    readIndex := st.readIndex, hold := st.hold }

theorem Stream.Plays.congr {a b : Stream} (h : a.Plays) (hhead : b.playhead = a.playhead) : b.Plays := by
  have onHead {st : Stream} (h : st.playhead.Plays) : st.Plays :=
    ⟨h.misplaced, h.hold, h.unset, fun e he => ⟨(h.set e he).1, (h.set e he).2.length, (h.set e he).2.frames⟩, h.armed,
      h.runs, h.conceals, h.plays, h.starved⟩
  have toHead {st : Stream} (h : st.Plays) : st.playhead.Plays :=
    ⟨h.misplaced, h.hold, h.unset, fun e he => ⟨(h.set e he).1, (h.set e he).2.length, (h.set e he).2.frames⟩, h.armed,
      h.runs, h.conceals, h.plays, h.starved⟩
  refine onHead ?_
  rw [hhead]
  exact toHead h

section
variable {st : Stream}

/-- A stream in no active state has E unset. -/
theorem Stream.Plays.unset_of_inactive (h : st.Plays) (hstate : st.state.plays = false) : st.expected = none := by
  cases he : st.expected with
  | none => rfl
  | some e =>
    have := Stream.activePlayout_plays (h.set e he).1
    rw [hstate] at this
    exact nomatch this

/-- With E unset, every state but RUNNING and STARVED is in order. -/
theorem Stream.plays_of_unset (hmisplaced : st.misplaced ≤ 7) (hhold : st.hold.length = st.channels)
    (hunset : st.expected = none ∧ st.window = [] ∧ st.gap = false ∧ st.readIndex = 0)
    (hstate : st.state ≠ .running ∧ st.state ≠ .starved) : st.Plays := by
  obtain ⟨hexpected, hwindow, hgap, hindex⟩ := hunset
  refine ⟨hmisplaced, fun _ => hhold, fun _ => ⟨hwindow, hgap, hindex⟩, fun e he => ?_, fun _ => ⟨hgap, hindex, fun he => ?_⟩,
    fun e => absurd e hstate.1, fun e => absurd e hstate.1, fun e => absurd e hstate.1, fun e => absurd e hstate.2⟩
  · rw [hexpected] at he
    exact nomatch he
  · rw [hexpected] at he
    exact nomatch he

/-! ## Windows as they move and fill -/

theorem Stream.WindowOk.congr {st' : Stream} {e : Half} (h : st.WindowOk e) (hwindow : st'.window = st.window)
    (hmax : st'.depthMax = st.depthMax) (hsamples : st'.frameSamples = st.frameSamples)
    (hchannels : st'.channels = st.channels) : st'.WindowOk e := by
  refine ⟨by rw [hwindow, hmax]; exact h.length, fun n f hf => ?_⟩
  unfold Stream.frameOk
  rw [hsamples, hchannels]
  exact h.frames n f (hwindow ▸ hf)

/-- A window moved on n sequences (R74, R80). -/
theorem Stream.WindowOk.advance {e : Half} (h : st.WindowOk e) (n : Nat) :
    (st.advance n).WindowOk (e + BitVec.ofNat 16 n) := by
  refine ⟨?_, fun k f hf => ?_⟩
  · show (st.window.drop n ++ List.replicate (min n st.window.length) none).length = st.depthMax
    rw [List.length_append, List.length_drop, List.length_replicate, ← h.length]
    omega
  · have hmoved : (st.window.drop n ++ List.replicate (min n st.window.length) none)[k]? = some (some f) := hf
    rw [List.getElem?_append] at hmoved
    split at hmoved
    · rw [List.getElem?_drop] at hmoved
      obtain ⟨hseq, hrest⟩ := h.frames (n + k) f hmoved
      refine ⟨?_, hrest⟩
      rw [hseq, BitVec.add_assoc, BitVec.ofNat_add]
    · have := List.mem_of_getElem? hmoved
      exact nomatch List.eq_of_mem_replicate this

/-- A frame stored at its position. -/
theorem Stream.WindowOk.store {e : Half} (h : st.WindowOk e) {d : Nat} {f : PlayFrame} (hf : st.frameOk e d f) :
    (st.storeAt d f).WindowOk e := by
  refine ⟨(List.length_set ..).trans h.length, fun n v hv => ?_⟩
  have hset : (st.window.set d (some f))[n]? = some (some v) := hv
  rw [List.getElem?_set] at hset
  split at hset
  next e' =>
    subst e'
    split at hset
    · cases hset
      exact hf
    · exact nomatch hset
  next => exact h.frames n v hset

/-- A window opened at a frame. -/
theorem Stream.openWindow_windowOk {f : PlayFrame} (hf : st.frameOk f.seq 0 f) : (st.openWindow f).WindowOk f.seq := by
  refine Stream.WindowOk.store (st := { st with expected := some f.seq, window := List.replicate st.depthMax none })
    ⟨List.length_replicate, fun n v hv => ?_⟩ hf
  exact nomatch List.eq_of_mem_replicate (List.mem_of_getElem? hv)

theorem Stream.front_eq (st : Stream) : st.front = st.window[0]?.join := by
  unfold Stream.front
  rw [List.head?_eq_getElem?]

theorem Stream.front_eq_some {f : PlayFrame} : st.front = some f ↔ st.window[0]? = some (some f) := by
  rw [st.front_eq, Option.join_eq_some_iff]

/-- A frame stored at position 0 is the front, and one stored elsewhere leaves it. -/
theorem Stream.front_storeAt (st : Stream) {d : Nat} (f : PlayFrame) (hd : d < st.window.length) :
    (st.storeAt d f).front = if d = 0 then some f else st.front := by
  rw [Stream.front_eq, Stream.front_eq]
  show (st.window.set d (some f))[0]?.join = _
  rw [List.getElem?_set]
  split
  next e =>
    subst e
    rfl
  next => rfl

theorem Stream.held_pos_iff : 0 < st.held ↔ ∃ (n : Nat) (f : PlayFrame), st.window[n]? = some (some f) := by
  unfold Stream.held
  rw [List.countP_pos_iff]
  constructor
  · rintro ⟨x, hx, hsome⟩
    obtain ⟨f, rfl⟩ := Option.isSome_iff_exists.mp hsome
    obtain ⟨n, hn⟩ := List.getElem?_of_mem hx
    exact ⟨n, f, hn⟩
  · rintro ⟨n, f, h⟩
    exact ⟨some f, List.mem_of_getElem? h, rfl⟩

/-! ## Arrivals -/

theorem unpackSamples_length (w : Width) (n : Nat) (bs : List Byte) : (unpackSamples w n bs).length = n := by
  induction n generalizing bs with
  | zero => rfl
  | succ n ih => exact congrArg (· + 1) (ih _)

/-- A frame that passes the format checks is in order wherever its sequence places it (R53, R54). -/
theorem Stream.frameOk_of_formatCheck {bs : List Byte} {n : Nat} (h : formatCheck st bs = some n) {e : Half} {d : Nat}
    (hseq : frameSeq bs = e + BitVec.ofNat 16 d) : st.frameOk e d (playFrameOf st bs n) := by
  obtain ⟨hchecks, hn⟩ := Option.ite_none_right_eq_some.mp h
  cases hn
  have hsamples := ((Bool.and_eq_true _ _).mp hchecks).2
  refine ⟨hseq, ?_, fun hend => ?_, unpackSamples_length _ _ _⟩
  · split at hsamples
    · exact of_decide_eq_true hsamples
    · exact Nat.le_of_eq (beq_iff_eq.mp hsamples)
  · rw [if_neg (by rw [show frameEnd bs = false from hend]; exact Bool.false_ne_true)] at hsamples
    exact beq_iff_eq.mp hsamples

theorem Stream.openWindow_plays {f : PlayFrame} (hstate : st.state = .armed) (hplayout : st.direction = .playout)
    (hgap : st.gap = false) (hindex : st.readIndex = 0) (hhold : st.hold.length = st.channels) (hmax : 0 < st.depthMax)
    (hf : st.frameOk f.seq 0 f) : (st.openWindow f).Plays := by
  have other {x : StreamState} (hx : x ≠ .armed) : (st.openWindow f).state ≠ x := fun e => hx (e.symm.trans hstate)
  refine ⟨Nat.zero_le _, fun _ => hhold, fun h => (nomatch h), fun e he => ?_, fun _ => ⟨hgap, hindex, fun _ => ?_⟩,
    fun e => absurd e (other fun e => (nomatch e)), fun e => absurd e (other fun e => (nomatch e)),
    fun e => absurd e (other fun e => (nomatch e)), fun e => absurd e (other fun e => (nomatch e))⟩
  · cases he
    refine ⟨?_, Stream.openWindow_windowOk hf⟩
    rw [Stream.activePlayout_eq]
    show (st.direction == .playout && st.state.plays) = true
    rw [hplayout, hstate]
    rfl
  · unfold Stream.openWindow
    rw [Stream.front_storeAt _ _ (by rw [List.length_replicate]; exact hmax)]
    rfl

theorem Stream.Plays.storeAt (h : st.Plays) {e : Half} (he : st.expected = some e) {d : Nat} {f : PlayFrame}
    (hd : d < st.depthMax) (hfree : st.window.getD d none = none) (hplace : d = 0 → st.gap = false)
    (hf : st.frameOk e d f) : (st.storeAt d f).Plays := by
  obtain ⟨hactive, hwindow⟩ := h.set e he
  have hfront := st.front_storeAt f (hwindow.length ▸ hd)
  have hkept (hgap : st.gap = false → st.front ≠ none) : d = 0 → False := fun hd0 => by
    subst hd0
    refine hgap (hplace rfl) ?_
    rw [st.front_eq, List.getD_eq_getElem?_getD] at *
    cases h0 : st.window[0]? with
    | none => rfl
    | some x =>
      rw [h0] at hfree
      exact hfree
  refine ⟨Nat.zero_le _, h.hold, fun hnone => ?_, fun e' he' => ?_, fun hs => ?_, h.runs, fun hs hg => ?_,
    fun hs hg hi => ?_, h.starved⟩
  · rw [show st.expected = none from hnone] at he
    exact nomatch he
  · rw [show st.expected = some e' from he'] at he
    cases he
    exact ⟨hactive, hwindow.store hf⟩
  · obtain ⟨hgap, hindex, hopen⟩ := h.armed hs
    refine ⟨hgap, hindex, fun _ => ?_⟩
    rw [hfront]
    split
    · rfl
    · exact hopen (by rw [he]; rfl)
  · obtain ⟨hnone, hheld, hindex⟩ := h.conceals hs hg
    refine ⟨?_, ?_, hindex⟩
    · rw [hfront, if_neg fun hd0 => ?_, hnone]
      have := hplace hd0
      rw [show st.gap = true from hg] at this
      exact nomatch this
    · refine Stream.held_pos_iff.mpr ⟨d, f, ?_⟩
      show (st.window.set d (some f))[d]? = _
      rw [List.getElem?_set_self (hwindow.length ▸ hd)]
  · obtain ⟨v, hv, hlength⟩ := h.plays hs hg hi
    refine ⟨v, ?_, hlength⟩
    rw [hfront, if_neg, hv]
    exact hkept fun _ => by rw [hv]; exact fun h => (nomatch h)

/-- An arrival of a frame that passes the format checks keeps the relations. -/
theorem Stream.Plays.arrive (h : st.Plays) (hactive : st.activePlayout = true) (hmax : 0 < st.depthMax) {bs : List Byte}
    {n : Nat} (hcheck : formatCheck st bs = some n) : (st.arrive (playFrameOf st bs n)).1.Plays := by
  have hplays := Stream.activePlayout_plays hactive
  have hhold := h.hold (StreamState.not_empty_of_plays hplays)
  have hplayout := Stream.playout_of_active hactive
  have hopens : st.frameOk (playFrameOf st bs n).seq 0 (playFrameOf st bs n) :=
    Stream.frameOk_of_formatCheck hcheck (BitVec.add_zero _).symm
  unfold Stream.arrive
  split
  next hnone =>
    obtain ⟨-, hgap, hindex⟩ := h.unset hnone
    refine Stream.openWindow_plays ?_ hplayout hgap hindex hhold hmax hopens
    cases hs : st.state with
    | armed => rfl
    | running =>
      have := h.runs hs
      rw [hnone] at this
      exact nomatch this
    | starved =>
      have := (h.starved hs).1
      rw [hnone] at this
      exact nomatch this
    | empty | idle | waiting | draining =>
      rw [hs] at hplays
      exact nomatch hplays
  next e he =>
    dsimp only
    split
    next hd =>
      split
      · exact h.congr rfl
      next hfree =>
        split
        · exact h.congr rfl
        next hplace =>
          refine h.storeAt he hd (by simpa using hfree) (fun hd0 => ?_) (Stream.frameOk_of_formatCheck hcheck ?_)
          · exact Bool.eq_false_iff.mpr fun hg => hplace ⟨hd0, hg⟩
          · rw [BitVec.ofNat_toNat, BitVec.setWidth_eq, BitVec.add_comm, BitVec.sub_add_cancel]
            rfl
    next =>
      split
      next =>
        exact Stream.openWindow_plays (st := { st.countMisplaced _ with
          gap := false, readIndex := 0, state := .armed,
          playout := { (st.countMisplaced _).playout with resyncs := bump (st.countMisplaced _).playout.resyncs } })
          rfl hplayout rfl rfl hhold hmax hopens
      next hfew =>
        have hmisplaced : st.misplaced + 1 ≤ 7 := Nat.le_of_lt_succ (Nat.lt_of_not_le hfew)
        exact ⟨hmisplaced, h.hold, h.unset, fun e' he' => ⟨(h.set e' he').1, (h.set e' he').2.congr rfl rfl rfl rfl⟩,
          h.armed, h.runs, h.conceals, h.plays, h.starved⟩

/-! ## Steps at a frame event -/

/-- A RUNNING stream of playout with E set, before a sample of the frame at its front is given or a boundary step is
taken: what a step finds besides its read index and gap flag. -/
structure Stream.Reads (st : Stream) (e : Half) : Prop where
  running : st.state = .running
  playout : st.direction = .playout
  samples : 1 ≤ st.frameSamples
  misplaced : st.misplaced ≤ 7
  hold : st.hold.length = st.channels
  expected : st.expected = some e
  window : st.WindowOk e

namespace Stream.Reads

variable {e : Half}

theorem active (h : st.Reads e) : st.activePlayout = true := by
  rw [Stream.activePlayout_eq, h.playout, h.running]
  rfl

/-- A RUNNING stream in order, from what its read index and gap flag say. -/
theorem toPlays (h : st.Reads e)
    (hconceals : st.gap = true → st.front = none ∧ 1 ≤ st.held ∧ 1 ≤ st.readIndex ∧ st.readIndex < st.frameSamples)
    (hplays : st.gap = false → st.readIndex ≠ 0 → ∃ f, st.front = some f ∧ st.readIndex < st.playLength f) :
    st.Plays := by
  have other {x : StreamState} (hx : x ≠ .running) : st.state ≠ x := fun e => hx (e.symm.trans h.running)
  refine ⟨h.misplaced, fun _ => h.hold, fun hnone => ?_, fun e' he' => ?_, fun e => absurd e (other fun e => (nomatch e)),
    fun _ => ?_, fun _ => hconceals, fun _ => hplays, fun e => absurd e (other fun e => (nomatch e))⟩
  · rw [h.expected] at hnone
    exact nomatch hnone
  · rw [h.expected] at he'
    cases he'
    exact ⟨h.active, h.window⟩
  · rw [h.expected]
    rfl

/-- The next sequence, with nothing of its frame given (R74, R77). -/
theorem advance (h : st.Reads e) (hgap : st.gap = false) : (st.advance 1).Plays := by
  have moved : (st.advance 1).Reads (e + BitVec.ofNat 16 1) :=
    ⟨h.running, h.playout, h.samples, h.misplaced, h.hold, by
      show st.expected.map _ = _
      rw [h.expected]
      rfl, h.window.advance 1⟩
  refine moved.toPlays (fun hg => ?_) fun _ hi => absurd rfl hi
  rw [show st.gap = true from hg] at hgap
  exact nomatch hgap

/-- The end of a run, with the window released (R82). -/
theorem completeEnd (h : st.Reads e) : st.completeEnd.Plays :=
  Stream.plays_of_unset (Nat.zero_le _) h.hold ⟨rfl, rfl, rfl, rfl⟩ ⟨fun e => (nomatch e), fun e => (nomatch e)⟩

/-- A sample of the frame at the front, within its play length (R73, R74, R81). -/
theorem giveSample (h : st.Reads e) (hgap : st.gap = false) {f : PlayFrame} (hf : st.front = some f) {i : Nat}
    (hi : i < st.playLength f) : (st.giveSample f i).stream.Plays := by
  obtain ⟨-, hmost, hfull, hwords⟩ := h.window.frames 0 f (Stream.front_eq_some.mp hf)
  have hsample : i < f.samples := by
    unfold Stream.playLength at hi
    split at hi
    · exact hi
    next hend =>
      rw [hfull (Bool.eq_false_iff.mpr hend)]
      exact hi
  have hlength : (st.sampleWords f i).length = st.channels := by
    have hroom : (i + 1) * st.channels ≤ f.samples * st.channels := Nat.mul_le_mul_right _ hsample
    rw [Nat.add_mul, Nat.one_mul] at hroom
    unfold Stream.sampleWords
    rw [List.length_take, List.length_drop, hwords]
    omega
  have given : ({ st with hold := st.sampleWords f i, readIndex := i + 1 } : Stream).Reads e :=
    ⟨h.running, h.playout, h.samples, h.misplaced, hlength, h.expected, h.window.congr rfl rfl rfl rfl⟩
  unfold Stream.giveSample
  dsimp only
  split
  next hmore =>
    refine given.toPlays (fun hg => ?_) fun _ _ => ⟨f, hf, hmore⟩
    rw [show st.gap = true from hg] at hgap
    exact nomatch hgap
  next =>
    split
    · exact given.completeEnd
    · exact given.advance hgap

/-- A lane frame of a gap behind which a frame is held (R76, R77). -/
theorem gapStep (h : st.Reads e) (hfront : st.front = none) (hheld : 1 ≤ st.held) : st.gapStep.stream.Plays := by
  have conceals : ({ st with gap := true, readIndex := st.readIndex + 1 } : Stream).Reads e :=
    ⟨h.running, h.playout, h.samples, h.misplaced, h.hold, h.expected, h.window.congr rfl rfl rfl rfl⟩
  unfold Stream.gapStep
  dsimp only
  split
  next hmore =>
    refine conceals.toPlays (fun _ => ⟨hfront, hheld, Nat.succ_pos _, hmore⟩) fun hg => (nomatch hg)
  next =>
    have ended : ({ st with gap := false } : Stream).Reads e :=
      ⟨h.running, h.playout, h.samples, h.misplaced, h.hold, h.expected, h.window.congr rfl rfl rfl rfl⟩
    exact (ended.advance rfl).congr rfl

/-- A boundary step: the frame at the front plays, a gap begins, or the stream starves (R73, R76, R78, R81). -/
theorem boundary (h : st.Reads e) (hgap : st.gap = false) (hindex : st.readIndex = 0) : st.boundary.stream.Plays := by
  unfold Stream.boundary
  split
  next f hf =>
    split
    · exact h.completeEnd
    next hsome =>
      refine h.giveSample hgap hf ?_
      unfold Stream.playLength
      split
      next hend =>
        refine Nat.pos_of_ne_zero fun hzero => hsome ?_
        rw [hend, hzero]
        rfl
      next => exact h.samples
  next hfront =>
    split
    next hheld => exact h.gapStep hfront hheld
    next =>
      have hexpected : ∀ e', st.expected = some e' → e' = e := fun e' he' => by
        rw [h.expected] at he'
        exact (Option.some.inj he').symm
      refine ⟨h.misplaced, fun _ => h.hold, fun hnone => ?_, fun e' he' => ?_, fun e => (nomatch e), fun e => (nomatch e),
        fun e => (nomatch e), fun e => (nomatch e), fun _ => ⟨?_, hgap, hindex⟩⟩
      · exact nomatch h.expected.symm.trans hnone
      · rw [hexpected e' he']
        refine ⟨?_, h.window.congr rfl rfl rfl rfl⟩
        rw [Stream.activePlayout_eq]
        show (st.direction == .playout && StreamState.starved.plays) = true
        rw [h.playout]
        rfl
      · show st.expected.isSome = true
        rw [h.expected]
        rfl

end Stream.Reads

/-- Entry to RUNNING with a frame held: E is set, so the boundary step has a window (R72, R80). -/
theorem Stream.enterRunning_plays {e : Half} (hplayout : st.direction = .playout) (hsamples : 1 ≤ st.frameSamples)
    (hmisplaced : st.misplaced ≤ 7) (hhold : st.hold.length = st.channels) (hexpected : st.expected = some e)
    (hwindow : st.WindowOk e) (hgap : st.gap = false) (hindex : st.readIndex = 0) :
    st.enterRunning.stream.Plays :=
  Stream.Reads.boundary (st := { st with state := .running })
    ⟨rfl, hplayout, hsamples, hmisplaced, hhold, hexpected, hwindow.congr rfl rfl rfl rfl⟩ hgap hindex

/-- A stream that holds its target of frames has E set. -/
theorem Stream.Plays.expected_of_held (h : st.Plays) (htarget : 1 ≤ st.depthTarget) (hheld : ¬ st.held < st.depthTarget) :
    ∃ e, st.expected = some e := by
  cases he : st.expected with
  | some e => exact ⟨e, rfl⟩
  | none =>
    exfalso
    refine hheld (Nat.lt_of_lt_of_le ?_ htarget)
    unfold Stream.held
    rw [(h.unset he).1]
    exact Nat.one_pos

theorem Stream.Plays.playStep_armed (h : st.Plays) (hs : st.state = .armed) (hplayout : st.direction = .playout)
    (hdefined : st.definitionOk) : st.playStep.stream.Plays := by
  obtain ⟨-, -, -, hsamples, -, -, hdepth, -⟩ := hdefined
  obtain ⟨-, -, htarget, -⟩ := hdepth hplayout
  obtain ⟨hgap, hindex, -⟩ := h.armed hs
  unfold Stream.playStep
  simp only [hs]
  split
  next => exact h
  next hheld =>
    obtain ⟨e, he⟩ := h.expected_of_held htarget hheld
    exact Stream.enterRunning_plays hplayout hsamples h.misplaced (h.hold (by rw [hs]; exact fun e => (nomatch e))) he
      (h.set e he).2 hgap hindex

theorem Stream.Plays.playStep_running (h : st.Plays) (hs : st.state = .running) (hplayout : st.direction = .playout)
    (hdefined : st.definitionOk) : st.playStep.stream.Plays := by
  obtain ⟨-, -, -, hsamples, -⟩ := hdefined
  obtain ⟨e, he⟩ := Option.isSome_iff_exists.mp (h.runs hs)
  have reads : st.Reads e :=
    ⟨hs, hplayout, hsamples, h.misplaced, h.hold (by rw [hs]; exact fun e => (nomatch e)), he, (h.set e he).2⟩
  unfold Stream.playStep
  simp only [hs]
  split
  next hgap =>
    obtain ⟨hfront, hheld, -⟩ := h.conceals hs hgap
    exact reads.gapStep hfront hheld
  next hgap =>
    have hgap := Bool.eq_false_iff.mpr hgap
    split
    next hindex => exact reads.boundary hgap hindex
    next hindex =>
      obtain ⟨f, hf, hlength⟩ := h.plays hs hgap hindex
      rw [hf]
      exact reads.giveSample hgap hf hlength

theorem Stream.Plays.playStep_starved (h : st.Plays) (hs : st.state = .starved) (hplayout : st.direction = .playout)
    (hdefined : st.definitionOk) : st.playStep.stream.Plays := by
  obtain ⟨-, -, -, hsamples, -⟩ := hdefined
  obtain ⟨hexpected, hgap, -⟩ := h.starved hs
  obtain ⟨e, he⟩ := Option.isSome_iff_exists.mp hexpected
  unfold Stream.playStep
  simp only [hs]
  split
  next => exact h
  next =>
    refine Stream.enterRunning_plays (st := st.skipToOldest) (e := e + BitVec.ofNat 16 st.oldest) hplayout hsamples
      h.misplaced (h.hold (by rw [hs]; exact fun e => (nomatch e))) ?_ ?_ hgap rfl
    · show st.expected.map _ = _
      rw [he]
      rfl
    · exact ((h.set e he).2.advance st.oldest).congr rfl rfl rfl rfl

theorem Stream.Plays.playStep (h : st.Plays) (hplayout : st.direction = .playout) (hsound : st.Sound) :
    st.playStep.stream.Plays := by
  have defined {x : StreamState} (hs : st.state = x) (hx : x ≠ .empty) : st.definitionOk :=
    hsound.defined fun e => hx (hs.symm.trans e)
  cases hs : st.state with
  | armed => exact h.playStep_armed hs hplayout (defined hs fun e => (nomatch e))
  | running => exact h.playStep_running hs hplayout (defined hs fun e => (nomatch e))
  | starved => exact h.playStep_starved hs hplayout (defined hs fun e => (nomatch e))
  | empty | idle | waiting | draining =>
    rw [Stream.playStep_of_not_plays (by rw [hs]; rfl)]
    exact h

/-- A window released, in a state that plays nothing (R82 to R84). -/
theorem Stream.Plays.flush (h : st.Plays) (hused : st.state ≠ .empty) {x : StreamState}
    (hx : x ≠ .running ∧ x ≠ .starved) : { st.flushWindow with state := x }.Plays :=
  Stream.plays_of_unset (Nat.zero_le _) (h.hold hused) ⟨rfl, rfl, rfl, rfl⟩ hx

/-! ## The steps -/

/-- A drain is not for playout streams. -/
theorem Stream.endDrain_of_not_draining (h : st.state ≠ .draining) : st.endDrain = st := if_neg fun e => h e.1

theorem StreamStep.plays {base : State} {st' : Stream} (h : StreamStep base st st') (hsound : st.Sound)
    (hplayout : st.direction = .playout) (hs : st.Plays) : st'.Plays := by
  have capture {P : Prop} (hcapture : st.direction = .capture) : P := nomatch hplayout.symm.trans hcapture
  have hdraining : st.state ≠ .draining := fun e => capture (hsound.drains e).1
  have rests {x : StreamState} (hx : x.plays = false) (hstate : st.state = x) (hused : x ≠ .empty) {y : StreamState}
      (hy : y ≠ .running ∧ y ≠ .starved) : { st with state := y }.Plays := by
    have hunset := hs.unset_of_inactive (by rw [hstate]; exact hx)
    exact Stream.plays_of_unset hs.misplaced (hs.hold (by rw [hstate]; exact hused)) ⟨hunset, hs.unset hunset⟩ hy
  cases h with
  | zeroCounters | formatError | grant => exact hs.congr rfl
  | arm h =>
    have hused : st.state ≠ .empty := by rcases h with h | h <;> rw [h] <;> exact fun e => (nomatch e)
    exact Stream.plays_of_unset (Nat.zero_le _) (hs.hold hused) ⟨rfl, rfl, rfl, rfl⟩
      ⟨fun e => (nomatch e), fun e => (nomatch e)⟩
  | wait h => exact rests rfl h (fun e => (nomatch e)) ⟨fun e => (nomatch e), fun e => (nomatch e)⟩
  | stopWaiting h => exact rests rfl h (fun e => (nomatch e)) ⟨fun e => (nomatch e), fun e => (nomatch e)⟩
  | stopPlayout h =>
    exact hs.flush (StreamState.not_empty_of_plays (Stream.activePlayout_plays h))
      ⟨fun e => (nomatch e), fun e => (nomatch e)⟩
  | stopArmed hcapture | stopDiscard hcapture | stopRunning hcapture | take _ hcapture => exact capture hcapture
  | arrive hactive hcheck =>
    have hused := StreamState.not_empty_of_plays (Stream.activePlayout_plays hactive)
    obtain ⟨-, -, -, -, -, -, hdepth, -⟩ := hsound.defined hused
    exact hs.arrive hactive (Nat.lt_of_lt_of_le Nat.two_pos (hdepth hplayout).1) hcheck
  | play => exact hs.playStep hplayout hsound
  | sent p =>
    rw [Stream.endDrain_of_not_draining (st := (st.countSent p).completeOn p) hdraining]
    exact hs.congr rfl
  | withdraw p =>
    rw [Stream.endDrain_of_not_draining (st := st.withdrawPort p) hdraining]
    exact hs.congr rfl
  | loseLane l =>
    unfold Stream.loseLane
    split
    · split
      case h_1 h | h_2 h =>
        exact hs.flush (by rw [h]; exact fun e => (nomatch e)) ⟨fun e => (nomatch e), fun e => (nomatch e)⟩
      case h_3 hcapture _ => exact capture hcapture
      case h_4 => exact hs
    · exact hs

end

theorem Stream.plays_of_parse {a : List Byte} {new : Stream} (h : parseDefinition a = some new)
    (hplayout : new.direction = .playout) : new.Plays := by
  obtain ⟨lane, -, ⟨-, rfl⟩ | ⟨-, rfl⟩⟩ := parseDefinition_cases h
  · exact Stream.plays_of_unset (Nat.zero_le _) List.length_replicate ⟨rfl, rfl, rfl, rfl⟩
      ⟨fun e => (nomatch e), fun e => (nomatch e)⟩
  · exact nomatch hplayout

/-- Every playout entry keeps the relations. -/
abbrev State.PlaysOk (s : State) : Prop := ∀ i, (s.stream i).direction = .playout → (s.stream i).Plays

theorem State.playInv_iff (s : State) : s.playInv ↔ s.PlaysOk :=
  forall_congr' fun i => imp_congr_right fun _ => Stream.playOk_iff (s.stream i)

theorem TableAct.playsOk {s t : State} (h : TableAct s t) (hs : s.StreamsOk) (hp : s.PlaysOk) : t.PlaysOk := by
  intro i
  cases h with
  | reset cause phase =>
    rw [blockReset_stream]
    exact fun _ => (Stream.playOk_iff _).mp Stream.blank_playOk
  | define _ _ hnew =>
    rw [stream_define]
    split
    · exact Stream.plays_of_parse hnew
    · exact hp i
  | clear =>
    rw [State.stream_setStream]
    split
    · exact fun _ => (Stream.playOk_iff _).mp Stream.blank_playOk
    · exact hp i
  | steps h =>
    refine ((h i).keeps (I := fun st => st.Sound ∧ (st.direction = .playout → st.Plays)) (fun step hst => ?_)
      ⟨hs.entries i, hp i⟩).2
    refine ⟨step.sound (s.streamInv_iff.mpr hs) hst.1, fun hd => ?_⟩
    have hplayout := (Stream.direction_congr step.definition).symm.trans hd
    exact step.plays hst.1 hplayout (hst.2 hplayout)

/-- Settles O58: every step of a playout stream keeps the relations of its working values. -/
theorem stepsKeepThePlayoutWindows : Obligations.StepsKeepThePlayoutWindows := by
  intro s t hA hS hP hstep
  have kept := step_keeps (I := fun u => u.AdmissionOk ∧ u.StreamsOk ∧ u.PlaysOk)
    (fun act h => ⟨act.admissionOk h.1, act.streamsOk h.1 h.2.1, (act.table h.1).playsOk h.2.1 h.2.2⟩)
    (fun _ h => ⟨h.1.of_streams rfl rfl, ⟨h.2.1.entries, h.2.1.sends⟩, h.2.2⟩)
    ⟨s.admissionInv_iff.mp hA, s.streamInv_iff.mp hS, s.playInv_iff.mp hP⟩ hstep
  exact t.playInv_iff.mpr kept.2.2

end Sys2Proof.Machine
end

