-- ==== Sys2Proof/Proofs/Eligible.lean ====
section
/-! The transmit side (R149, R150, R159): a DOWN port is quiet, and an idle one waits only for work that does not yet exist.
What brings work is followed by the arbiters, and everything else takes work away. -/

namespace Sys2Proof.Machine

/-! ## The claims of a port on a stream -/

/-- A port has no claim on a stream's ready frames. -/
def Stream.Quiet (st : Stream) (p : Port) : Prop := ∀ f ∈ st.ready, f.pendingOn.get p = false ∧ f.inTx.get p = false

/-- What a capture stream owes a port, the port is sending. -/
def Stream.Served (st : Stream) (p : Port) : Prop :=
  st.direction = .capture → ∀ f ∈ st.ready, f.pendingOn.get p = true → f.inTx.get p = true

/-- A stream that claims no more than another did. -/
structure Stream.ClaimsLess (st st' : Stream) : Prop where
  level : st'.level = st.level
  quiet : ∀ p, st.Quiet p → st'.Quiet p
  served : ∀ p, st.Served p → st'.Served p

theorem Stream.level_congr {a b : Stream} (h : a.definition = b.definition) : a.level = b.level :=
  show a.definition.level = b.definition.level by rw [h]

/-- Ready frames that were ready before. -/
theorem Stream.claimsLess_of_subset {st st' : Stream} (hdefinition : st'.definition = st.definition)
    (hready : ∀ f ∈ st'.ready, f ∈ st.ready) : st.ClaimsLess st' := by
  refine ⟨Stream.level_congr hdefinition, fun p h f hf => h f (hready f hf), fun p h hd f hf => h ?_ f (hready f hf)⟩
  exact (Stream.direction_congr hdefinition).symm.trans hd

theorem Stream.claimsLess_of_ready {st st' : Stream} (hdefinition : st'.definition = st.definition)
    (hready : st'.ready = st.ready) : st.ClaimsLess st' :=
  Stream.claimsLess_of_subset hdefinition fun _ hf => hready ▸ hf

theorem Stream.ClaimsLess.refl (st : Stream) : st.ClaimsLess st := ⟨rfl, fun _ => id, fun _ => id⟩

/-! ## The transmit side in order -/

/-- The transmit side, settled where `judged` holds: an act that brings work is not over before the arbiters have run. -/
structure State.TransmitOk (judged : Prop) (s : State) : Prop where
  levels : ∀ i : StreamIdx, (s.stream i).level ≤ 2
  quiet : ∀ p, s.downQuietAt p
  settled : judged → ∀ p, s.settledAt p

theorem State.transmitInv_iff (s : State) : s.transmitInv ↔ s.TransmitOk True := by
  constructor
  · rintro ⟨levels, hta, htb, hsettled, hsettled'⟩
    exact ⟨levels, fun p => by cases p <;> assumption, fun _ p => by cases p <;> assumption⟩
  · rintro ⟨levels, quiet, settled⟩
    exact ⟨levels, quiet .ta, quiet .tb, settled trivial .ta, settled trivial .tb⟩

namespace State.TransmitOk

variable {judged : Prop} {s t : State}

/-- Streams that claim less at ports that stand as they stood. -/
theorem of_claims (h : s.TransmitOk judged) (hstreams : ∀ i, (s.stream i).ClaimsLess (t.stream i))
    (hports : ∀ p, (t.port p).linkUp = (s.port p).linkUp ∧ (t.port p).tx = (s.port p).tx
      ∧ (t.port p).replies = (s.port p).replies) : t.TransmitOk judged := by
  refine ⟨fun i => ?_, fun p hdown => ?_, fun hj p hup hidle => ?_⟩
  · rw [(hstreams i).level]
    exact h.levels i
  · obtain ⟨hlink, htx, hreplies⟩ := hports p
    obtain ⟨hidle, hnone, hquiet⟩ := h.quiet p (hlink ▸ hdown)
    exact ⟨htx.trans hidle, hreplies.trans hnone, fun i => (hstreams i).quiet p (hquiet i)⟩
  · obtain ⟨hlink, htx, hreplies⟩ := hports p
    obtain ⟨hnone, hserved⟩ := h.settled hj p (hlink ▸ hup) (htx ▸ hidle)
    exact ⟨hreplies.trans hnone, fun i => (hstreams i).served p (hserved i)⟩

theorem congr (h : s.TransmitOk judged) (hstreams : t.streams = s.streams)
    (hports : ∀ p, (t.port p).linkUp = (s.port p).linkUp ∧ (t.port p).tx = (s.port p).tx
      ∧ (t.port p).replies = (s.port p).replies) : t.TransmitOk judged := by
  refine h.of_claims (fun i => ?_) hports
  rw [show t.stream i = s.stream i from congrArg (·.get i) hstreams]
  exact .refl _

theorem setStream (h : s.TransmitOk judged) (i : StreamIdx) {x : Stream} (hx : (s.stream i).ClaimsLess x) :
    (s.setStream i x).TransmitOk judged := by
  refine h.of_claims (fun j => ?_) fun _ => ⟨rfl, rfl, rfl⟩
  rw [State.stream_setStream]
  split
  next e =>
    subst e
    exact hx
  next => exact .refl _

theorem postAll (h : s.TransmitOk judged) (o : Source) (es : List (EventKind × Word)) :
    (s.postAll o es).TransmitOk judged := by
  rw [State.postAll_eq]
  exact h.congr rfl fun _ => ⟨rfl, rfl, rfl⟩

theorem admissionTest (h : s.TransmitOk judged) : (Machine.admissionTest s).TransmitOk judged := by
  refine h.of_claims (fun i => ?_) fun p => ?_
  · rcases admissionTest_stream s i with e | e
    · rw [e]
      exact .refl _
    · rw [e]
      exact Stream.claimsLess_of_subset rfl fun f hf => (nomatch hf)
  · rw [show (Machine.admissionTest s).port p = s.port p from congrArg (·.get p) (admissionTest_ports s)]
    exact ⟨rfl, rfl, rfl⟩

theorem releaseToIdle (h : s.TransmitOk judged) (i : StreamIdx) : (Machine.releaseToIdle i s).TransmitOk judged :=
  admissionTest (h.setStream i (Stream.claimsLess_of_ready rfl rfl))

theorem finishDrain (h : s.TransmitOk judged) (i : StreamIdx) : (Machine.finishDrain i s).TransmitOk judged :=
  (h.releaseToIdle i).congr rfl fun _ => ⟨rfl, rfl, rfl⟩

theorem finishDrainIfEmpty (h : s.TransmitOk judged) (i : StreamIdx) :
    (Machine.finishDrainIfEmpty i s).TransmitOk judged := by
  unfold Machine.finishDrainIfEmpty
  split
  · exact h.finishDrain i
  · exact h

theorem finishDrains (h : s.TransmitOk judged) (is : List StreamIdx) :
    (s.forStreams is Machine.finishDrain).TransmitOk judged := by
  induction is generalizing s with
  | nil => exact h
  | cons i is ih => exact ih (h.finishDrain i)

/-- A port is written that has nothing to do where it is DOWN; the arbiters have still to run. -/
theorem setPort (h : s.TransmitOk judged) (p : Port) {x : PortState} (hlink : x.linkUp = (s.port p).linkUp)
    (hquiet : x.linkUp = false → x.tx = .idle ∧ x.replies = []) : (s.setPort p x).TransmitOk False := by
  refine ⟨h.levels, fun q hdown => ?_, fun e => e.elim⟩
  rw [State.port_setPort] at hdown ⊢
  split at hdown
  next e =>
    subst e
    rw [if_pos rfl]
    obtain ⟨hidle, hnone⟩ := hquiet hdown
    exact ⟨hidle, hnone, (h.quiet q (hlink ▸ hdown)).2.2⟩
  next e =>
    rw [if_neg e]
    exact h.quiet q hdown

theorem forget (h : s.TransmitOk judged) : s.TransmitOk False := ⟨h.levels, h.quiet, fun e => e.elim⟩

end State.TransmitOk

/-! ## The arbiters -/

/-- A grant by one port leaves the claims of another, and marks nothing for a port with none. -/
theorem markGranted_quiet {st : Stream} {p q : Port} (h : st.Quiet q) :
    { st with ready := markGranted p st.ready }.Quiet q := by
  intro f hf
  rcases mem_markGranted hf with hf | ⟨v, hv, howed, rfl⟩
  · exact h f hf
  · obtain ⟨hpending, hin⟩ := h v hv
    have hq : q ≠ p := fun e => by
      subst e
      exact Bool.false_ne_true (hpending.symm.trans ((ReadyFrame.owedOn_iff q v).mp howed).1)
    exact ⟨hpending, by rw [PerPort.get_set_ne _ _ hq]; exact hin⟩

theorem markGranted_served {st : Stream} {p q : Port} (h : st.Served q) :
    { st with ready := markGranted p st.ready }.Served q := by
  intro hd f hf hpending
  rcases mem_markGranted hf with hf | ⟨v, hv, -, rfl⟩
  · exact h hd f hf hpending
  · rw [PerPort.get_set]
    split
    · rfl
    · exact h hd v hv hpending

theorem runArbiter_claimsLess (p : Port) (s : State) (i : StreamIdx) :
    (s.stream i).ClaimsLess ((runArbiter p s).stream i) := by
  obtain ⟨r, hr, h | h⟩ := runArbiter_stream p s i
  · rw [hr, h]
    exact .refl _
  · rw [hr, h]
    exact ⟨rfl, fun _ => markGranted_quiet, fun _ => markGranted_served⟩

section
variable {judged : Prop} {s : State}

theorem runArbiter_downQuietAt (h : s.TransmitOk judged) (p q : Port) : (runArbiter p s).downQuietAt q := by
  have hlink := (runArbiter_beside p s).links q
  intro hdown
  obtain ⟨hidle, hnone, hquiet⟩ := h.quiet q (hlink ▸ hdown)
  have hport : (runArbiter p s).port q = s.port q := by
    by_cases hq : q = p
    · subst hq
      rw [runArbiter_of_not_free (.inl (hlink ▸ hdown))]
    · exact runArbiter_port_ne s hq
  rw [hport]
  exact ⟨hidle, hnone, fun i => (runArbiter_claimsLess p s i).quiet q (hquiet i)⟩

/-- A port whose arbiter has run is settled. -/
theorem runArbiter_settledAt_self (h : s.TransmitOk judged) (p : Port) : (runArbiter p s).settledAt p := by
  cases runArbiter_cases p s with
  | busy hbusy heq =>
    rw [heq]
    intro hup hidle
    rcases hbusy with hdown | hbusy
    · rw [hup] at hdown
      exact nomatch hdown
    · exact absurd hidle hbusy
  | reply hidle hreplies heq =>
    rw [heq]
    refine State.settledAt_of_busy ?_
    rw [State.port_setPort_self]
    exact fun e => (nomatch e)
  | nothing hreplies hchoose heq =>
    rw [heq]
    refine fun _ _ => ⟨hreplies, fun i hd f hf hpending => ?_⟩
    cases hin : f.inTx.get p with
    | true => rfl
    | false => exact absurd ⟨hd, f, hf, hpending, hin⟩ (State.not_owes_of_choose h.levels hchoose i)
  | grant hup hidle howes heq =>
    rw [heq]
    refine State.settledAt_of_busy ?_
    show ((State.setPort _ p _).port p).tx ≠ .idle
    rw [State.port_setPort_self]
    exact fun e => (nomatch e)

theorem runArbiter_settledAt_ne {p q : Port} (hq : q ≠ p) (h : s.settledAt q) : (runArbiter p s).settledAt q := by
  intro hup hidle
  rw [runArbiter_port_ne s hq] at hup hidle ⊢
  obtain ⟨hnone, hserved⟩ := h hup hidle
  exact ⟨hnone, fun i => (runArbiter_claimsLess p s i).served q (hserved i)⟩

/-- After the arbiters nothing eligible is left at an idle port, whatever work there was. -/
theorem runArbiters_transmitOk (h : s.TransmitOk judged) : (runArbiters s).TransmitOk True := by
  have first : (runArbiter .ta s).TransmitOk False :=
    ⟨fun i => by rw [(runArbiter_claimsLess .ta s i).level]; exact h.levels i, runArbiter_downQuietAt h .ta,
      fun e => e.elim⟩
  refine ⟨fun i => ?_, runArbiter_downQuietAt first .tb, fun _ p => ?_⟩
  · rw [show (runArbiters s).stream i = (runArbiter .tb (runArbiter .ta s)).stream i from rfl,
      (runArbiter_claimsLess .tb _ i).level]
    exact first.levels i
  · cases p with
    | ta => exact runArbiter_settledAt_ne (by decide) (runArbiter_settledAt_self h .ta)
    | tb => exact runArbiter_settledAt_self first .tb

/-! ## Closing, stopping and completing -/

/-- A frame that closes is pending on UP ports alone. -/
theorem closeFrame_transmitOk (h : s.TransmitOk judged) (isEnd : Bool) (i : StreamIdx) :
    (closeFrame isEnd i s).TransmitOk False := by
  have hnew {p : Port} (hdown : (s.port p).linkUp = false) :
      (closingFrame s (s.stream i) isEnd).pendingOn.get p = false
        ∧ (closingFrame s (s.stream i) isEnd).inTx.get p = false := by
    cases p
    · exact ⟨by simp [closingFrame, State.upPorts, PerPort.get, hdown], rfl⟩
    · exact ⟨by simp [closingFrame, State.upPorts, PerPort.get, hdown], rfl⟩
  have hready : ∀ f ∈ (((s.stream i).afterClose isEnd).dispose (closingFrame s (s.stream i) isEnd)).1.ready,
      f ∈ (s.stream i).ready ∨ f = closingFrame s (s.stream i) isEnd := by
    intro f hf
    have joined {kept : List ReadyFrame} (hkept : kept.Sublist (s.stream i).ready)
        (hf : f ∈ kept ++ [closingFrame s (s.stream i) isEnd]) :
        f ∈ (s.stream i).ready ∨ f = closingFrame s (s.stream i) isEnd :=
      (List.mem_append.mp hf).imp (fun hf => hkept.subset hf) List.mem_singleton.mp
    unfold Stream.dispose at hf
    repeat' split at hf
    · exact .inl hf
    · exact joined (List.Sublist.refl _) hf
    · exact joined List.eraseP_sublist hf
    · exact .inl hf
  have hlevel := Stream.level_congr (((s.stream i).afterClose isEnd).dispose_definition
    (closingFrame s (s.stream i) isEnd))
  have closed : (s.setStream i
      (((s.stream i).afterClose isEnd).dispose (closingFrame s (s.stream i) isEnd)).1).TransmitOk False := by
    refine ⟨fun j => ?_, fun p hdown => ?_, fun e => e.elim⟩
    · rw [State.stream_setStream]
      split
      next e =>
        subst e
        rw [hlevel]
        exact h.levels j
      next => exact h.levels j
    · obtain ⟨hidle, hnone, hquiet⟩ := h.quiet p hdown
      refine ⟨hidle, hnone, fun j => ?_⟩
      rw [State.stream_setStream]
      split
      next e =>
        subst e
        intro f hf
        rcases hready f hf with hf | rfl
        · exact hquiet j f hf
        · exact hnew hdown
      next => exact hquiet j
  unfold closeFrame
  dsimp only
  split
  · exact closed.congr rfl fun _ => ⟨rfl, rfl, rfl⟩
  · exact closed

theorem takeSamples_transmitOk (h : s.TransmitOk judged) (c : LaneConfig) (line : PinLevels) (i : StreamIdx) :
    (takeSamples c line i s).TransmitOk False := by
  have added := h.setStream i (x := (s.stream i).addGroup ((s.stream i).takeWords c line))
    (Stream.claimsLess_of_ready rfl rfl)
  unfold takeSamples
  dsimp only
  split
  · exact closeFrame_transmitOk added false i
  · exact added.forget

theorem captureTask_transmitOk (h : s.TransmitOk True) (c : LaneConfig) (line : PinLevels) (i : StreamIdx) :
    (captureTask c line i s).TransmitOk True := by
  unfold captureTask
  dsimp only
  split
  case h_1 =>
    have begun := h.setStream i (x := (s.stream i).beginRun) (Stream.claimsLess_of_ready rfl rfl)
    exact runArbiters_transmitOk ((takeSamples_transmitOk begun c line i).congr rfl fun _ => ⟨rfl, rfl, rfl⟩)
  case h_2 => exact runArbiters_transmitOk (takeSamples_transmitOk h c line i)
  all_goals exact h

theorem stopDiscard_transmitOk (h : s.TransmitOk judged) (i : StreamIdx) : (stopDiscard i s).TransmitOk judged := by
  have hdefinition := (s.stream i).dropConstruction_definition
  obtain ⟨c, hdrop⟩ := (s.stream i).dropConstruction_eq
  have kept {x : Stream} (hx : x.definition = (s.stream i).definition)
      (hready : x.ready = ((s.stream i).dropConstruction.ready.filter fun f => !f.inTx.isNone).map
        fun f : ReadyFrame => { f with pendingOn := f.inTx }) : (s.stream i).ClaimsLess x := by
    have old {f : ReadyFrame} (hf : f ∈ x.ready) : f.pendingOn = f.inTx ∧ ∃ v ∈ (s.stream i).ready, f.inTx = v.inTx := by
      rw [hready, hdrop] at hf
      obtain ⟨v, hv, rfl⟩ := List.mem_map.mp hf
      exact ⟨rfl, v, (List.mem_filter.mp hv).1, rfl⟩
    refine ⟨Stream.level_congr hx, fun p hq f hf => ?_, fun p _ _ f hf hpending => ?_⟩
    · obtain ⟨hpending, v, hv, hin⟩ := old hf
      rw [hpending, hin]
      exact ⟨(hq v hv).2, (hq v hv).2⟩
    · rw [(old hf).1] at hpending
      exact hpending
  unfold stopDiscard
  dsimp only
  split
  · exact (h.setStream i (kept (by exact hdefinition) (by rfl))).releaseToIdle i
  · exact h.setStream i (kept (by exact hdefinition) (by rfl))

theorem abortByStop_transmitOk (h : s.TransmitOk judged) (p : Port) (i : StreamIdx) :
    (abortByStop p i s).TransmitOk judged := by
  unfold abortByStop
  dsimp only
  split
  next hsending =>
    refine ⟨h.levels, fun q hdown => ?_, fun hj q => ?_⟩
    · rw [State.port_setPort] at hdown ⊢
      split at hdown
      next e =>
        subst e
        have := (h.quiet q hdown).1
        rw [hsending] at this
        exact nomatch this
      next e =>
        rw [if_neg e]
        exact h.quiet q hdown
    · by_cases hq : q = p
      · subst hq
        refine State.settledAt_of_busy ?_
        rw [State.port_setPort_self]
        exact fun e => (nomatch e)
      · exact State.settledAt_setPort_ne _ hq (h.settled hj q)
  next => exact h

theorem stopArmed_transmitOk (h : s.TransmitOk judged) (i : StreamIdx) : (stopArmed i s).TransmitOk judged := by
  have aborted := abortByStop_transmitOk (abortByStop_transmitOk h .ta i) .tb i
  exact (aborted.setStream i (x := { (abortByStop .tb i (abortByStop .ta i s)).stream i with ready := [] })
    (Stream.claimsLess_of_subset (by rfl) fun f hf => (nomatch hf))).releaseToIdle i

theorem giveUp_quiet {p q : Port} {f : ReadyFrame} (h : f.pendingOn.get q = false ∧ f.inTx.get q = false) :
    (PerPort.set f.pendingOn p false).get q = false ∧ (PerPort.set f.inTx p false).get q = false := by
  rw [PerPort.get_set, PerPort.get_set]
  split
  · exact ⟨rfl, rfl⟩
  · exact h

theorem completeSample_transmitOk (h : s.TransmitOk judged) (p : Port) (i : StreamIdx) :
    (completeSample p i s).TransmitOk True := by
  have ended := h.setPort p (x := { s.port p with
    tx := .idle, txc := { (s.port p).txc with samplesSent := bump (s.port p).txc.samplesSent } }) rfl
    fun hdown => ⟨rfl, (h.quiet p hdown).2.1⟩
  refine runArbiters_transmitOk (State.TransmitOk.finishDrainIfEmpty (judged := False) ?_ i)
  refine ⟨fun j => ?_, fun q hdown => ?_, fun e => e.elim⟩
  · rw [State.stream_setStream]
    split
    next e =>
      subst e
      exact h.levels j
    next => exact h.levels j
  · obtain ⟨hidle, hnone, hquiet⟩ := ended.quiet q hdown
    refine ⟨hidle, hnone, fun j => ?_⟩
    rw [State.stream_setStream]
    split
    next e =>
      subst e
      intro f hf
      obtain ⟨v, hv, rfl⟩ := List.mem_map.mp (List.mem_filter.mp hf).1
      split
      · exact giveUp_quiet (hquiet j v hv)
      · exact hquiet j v hv
    next => exact hquiet j

end

/-! ## The acts -/

theorem Work.transmitOk {s t : State} (h : Work s t) (hs : s.TransmitOk True) : t.TransmitOk True := by
  cases h with
  | post => exact hs.congr rfl fun _ => ⟨rfl, rfl, rfl⟩
  | @books p x hlink htx hreplies =>
    refine hs.congr rfl fun q => ?_
    rw [State.port_setPort]
    split
    next e =>
      subst e
      exact ⟨hlink, htx, hreplies⟩
    next => exact ⟨rfl, rfl, rfl⟩
  | zeroCounters | formatError => exact hs.setStream _ (Stream.claimsLess_of_ready rfl rfl)
  | start => exact hs.setStream _ (Stream.claimsLess_of_subset rfl fun f hf => (nomatch hf))
  | @queue i =>
    have waits := hs.setStream i (x := { s.stream i with state := .waiting }) (Stream.claimsLess_of_ready rfl rfl)
    exact waits.congr rfl fun _ => ⟨rfl, rfl, rfl⟩
  | @stopWaiting i =>
    have idles := hs.setStream i (x := { s.stream i with state := .idle }) (Stream.claimsLess_of_ready rfl rfl)
    have left : ((s.setStream i { s.stream i with state := .idle }).setWaitList
        (s.waitList.filter (· != i))).TransmitOk True := idles.congr rfl fun _ => ⟨rfl, rfl, rfl⟩
    unfold Machine.stopWaiting
    dsimp only
    split
    · exact left.admissionTest
    · exact left
  | @stopPlayout i =>
    exact (hs.setStream i (x := (s.stream i).flushWindow) (Stream.claimsLess_of_ready rfl rfl)).releaseToIdle i
  | @stopArmed i => exact stopArmed_transmitOk hs i
  | @stopDiscard i => exact stopDiscard_transmitOk hs i
  | @stopRunning i =>
    have closed := runArbiters_transmitOk (closeFrame_transmitOk hs true i)
    exact (closed.setStream i (Stream.claimsLess_of_ready (by rfl) (by rfl))).finishDrainIfEmpty i
  | @arrive i =>
    exact (hs.setStream i (Stream.claimsLess_of_ready (Stream.arrive_definition _ _)
      (Stream.ready_congr (Stream.arrive_packer _ _)))).postAll _ _
  | @play i =>
    exact (hs.setStream i (Stream.claimsLess_of_ready (Stream.playStep_definition _)
      (Stream.ready_congr (Stream.playStep_packer _)))).postAll _ _
  | @capture i c line => exact captureTask_transmitOk hs c line i
  | @sampleSent p i => exact completeSample_transmitOk hs p i
  | @gapEnd p =>
    exact runArbiters_transmitOk (hs.setPort p (by rfl) fun hdown => ⟨rfl, (hs.quiet p hdown).2.1⟩)

/-- An entry is replaced by one that owes nothing. -/
theorem State.TransmitOk.replace {judged : Prop} {s : State} (h : s.TransmitOk judged) (i : StreamIdx) {x : Stream}
    (hlevel : x.level ≤ 2) (hready : x.ready = []) : (s.setStream i x).TransmitOk judged := by
  have others {P : Stream → Prop} (hx : P x) (hs : ∀ j, P (s.stream j)) (j : StreamIdx) :
      P ((s.setStream i x).stream j) := by
    rw [State.stream_setStream]
    split
    · exact hx
    · exact hs j
  refine ⟨others (P := fun st => st.level ≤ 2) hlevel h.levels, fun p hdown => ?_, fun hj p hup hidle => ?_⟩
  · obtain ⟨hidle, hnone, hquiet⟩ := h.quiet p hdown
    exact ⟨hidle, hnone, others (P := fun st => st.Quiet p) (fun f hf => nomatch hready ▸ hf) hquiet⟩
  · obtain ⟨hnone, hserved⟩ := h.settled hj p hup hidle
    exact ⟨hnone, others (P := fun st => st.Served p) (fun _ f hf => nomatch hready ▸ hf) hserved⟩

theorem parseDefinition_level {a : List Byte} {new : Stream} (hframed : RequestCode.streamDefine.framed a = true)
    (h : parseDefinition a = some new) : new.level ≤ 2 := by
  cases hd : new.direction with
  | playout =>
    rw [((parseDefinition_fieldsOk hframed h).1 hd).1]
    exact Nat.zero_le _
  | capture =>
    obtain ⟨-, -, -, -, -, -, -, hlevel⟩ := parseDefinition_definitionOk h
    exact hlevel hd

theorem leaveRunning_transmitOk {judged : Prop} {s : State} (h : s.TransmitOk judged) (l : LaneIdx) :
    (leaveRunning l s).TransmitOk judged := by
  refine h.of_claims (fun i => ?_) fun _ => ⟨rfl, rfl, rfl⟩
  unfold leaveRunning
  rw [State.stream_mapStreams]
  exact Stream.claimsLess_of_ready (Stream.loseLane_definition l _) (Stream.loseLane_ready l _)

theorem RequestAct.transmitOk {s t : State} (h : RequestAct s t) (hs : s.TransmitOk True) : t.TransmitOk True := by
  cases h with
  | work h => exact h.transmitOk hs
  | @define i new args hframed _ hnew =>
    have defined := hs.replace i (parseDefinition_level hframed hnew) (parseDefinition_ready hnew)
    unfold Machine.define
    dsimp only
    split
    · exact defined.congr rfl fun _ => ⟨rfl, rfl, rfl⟩
    · exact defined.congr rfl fun _ => ⟨rfl, rfl, rfl⟩
  | @clear i =>
    have cleared := hs.replace i (x := Stream.blank) (Nat.zero_le _) rfl
    exact cleared.congr rfl fun _ => ⟨rfl, rfl, rfl⟩
  | stopLane l =>
    unfold Machine.stopLane
    dsimp only
    split
    · exact leaveRunning_transmitOk (s := s.setLane l _) (hs.congr rfl fun _ => ⟨rfl, rfl, rfl⟩) l
    · exact hs.congr rfl fun _ => ⟨rfl, rfl, rfl⟩
  | control | laneCounters | slot | configure | startMaster | startSlave | clock | discovery | fetch | levels =>
    exact hs.congr rfl fun _ => ⟨rfl, rfl, rfl⟩

/-- A DOWN port has nothing to do as it goes UP. -/
theorem linkUp_transmitOk {s : State} (p : Port) (h : s.TransmitOk True) :
    (s.setPort p { s.port p with linkPin := true, linkUp := true }).TransmitOk True := by
  refine ⟨h.levels, fun q hdown => ?_, fun _ q => ?_⟩
  · rw [State.port_setPort] at hdown ⊢
    split at hdown
    · exact nomatch hdown
    next e =>
      rw [if_neg e]
      exact h.quiet q hdown
  · by_cases hq : q = p
    · subst hq
      intro _ hidle
      rw [State.port_setPort_self] at hidle ⊢
      cases hlink : (s.port q).linkUp with
      | true => exact h.settled trivial q hlink hidle
      | false =>
        obtain ⟨-, hnone, hquiet⟩ := h.quiet q hlink
        refine ⟨hnone, fun i _ f hf hpending => ?_⟩
        rw [(hquiet i f hf).1] at hpending
        exact nomatch hpending
    · exact State.settledAt_setPort_ne _ hq (h.settled trivial q)

theorem withdrawPort_quiet {st : Stream} {p q : Port} (h : q ≠ p → st.Quiet q) : (st.withdrawPort p).Quiet q := by
  intro f hf
  obtain ⟨v, hv, rfl⟩ := List.mem_map.mp (List.mem_filter.mp hf).1
  by_cases hq : q = p
  · subst hq
    exact ⟨PerPort.get_set_self _ _ _, PerPort.get_set_self _ _ _⟩
  · exact giveUp_quiet (h hq v hv)

/-- A port that goes DOWN is quiet at once. -/
theorem portDown_transmitOk {s : State} {p : Port} (hreset : (s.port p).replies.any Reply.isDeviceReset = false)
    (h : s.TransmitOk True) : (portDown p s).TransmitOk True := by
  have lowered : (lowerPort p s).TransmitOk False := by
    refine ⟨fun i => ?_, fun q hdown => ?_, fun e => e.elim⟩
    · rw [lowerPort_stream]
      exact h.levels i
    · obtain ⟨htx, hreplies, hlink⟩ := lowerPort_port p q s
      rw [hlink] at hdown
      by_cases hq : q = p
      · rw [if_pos hq] at htx hreplies
        refine ⟨htx, hreplies, fun i => ?_⟩
        rw [lowerPort_stream]
        exact withdrawPort_quiet fun e => absurd hq e
      · rw [if_neg hq] at htx hreplies hdown
        obtain ⟨hidle, hnone, hquiet⟩ := h.quiet q hdown
        refine ⟨htx.trans hidle, hreplies.trans hnone, fun i => ?_⟩
        rw [lowerPort_stream]
        exact withdrawPort_quiet fun _ => hquiet i
  rw [portDown_eq_lowerPort hreset]
  exact runArbiters_transmitOk (lowered.finishDrains _)

theorem Act.transmitOk {s t : State} (h : Act s t) (hs : s.TransmitOk True) : t.TransmitOk True := by
  cases h with
  | request h => exact h.transmitOk hs
  | reset cause phase => exact (State.transmitInv_iff _).mp (blockReset_transmitInv cause phase s)
  | load r => exact hs.congr rfl fun q => by cases q <;> exact ⟨rfl, rfl, rfl⟩
  | linkUp p => exact (linkUp_transmitOk p hs).congr rfl fun _ => ⟨rfl, rfl, rfl⟩
  | linkDown _ hreset => exact portDown_transmitOk hreset hs
  | @replySent p =>
    refine runArbiters_transmitOk (hs.setPort p (by rfl) fun hdown => ⟨rfl, ?_⟩)
    show (s.port p).replies.tail = []
    rw [(hs.quiet p hdown).2.1]
    rfl
  | @reply p r hup =>
    refine runArbiters_transmitOk (hs.setPort p (by rfl) fun hdown => ?_)
    exact nomatch hup.symm.trans hdown
  | @lost l =>
    exact leaveRunning_transmitOk (s := State.post (s.setLane l _) _ _ _) (hs.congr rfl fun _ => ⟨rfl, rfl, rfl⟩) l
  | @servo before l g =>
    obtain ⟨gens, events, h⟩ := servoTask_eq l before g s
    rw [h]
    exact hs.congr rfl fun _ => ⟨rfl, rfl, rfl⟩
  | review g =>
    obtain ⟨gens, events, h⟩ := reviewIfDue_eq g s
    rw [h]
    exact hs.congr rfl fun _ => ⟨rfl, rfl, rfl⟩
  | @discover p f =>
    obtain ⟨d, events, h⟩ := discover_eq p f s
    rw [h]
    exact hs.congr rfl fun _ => ⟨rfl, rfl, rfl⟩
  | release | tick | accept | dequeue | candidate | due | run | frame => exact hs.congr rfl fun _ => ⟨rfl, rfl, rfl⟩

/-- Settles O56: whatever brings a port work is followed by its arbiter, and a port that goes DOWN gives up every claim. -/
theorem stepsLeaveNothingEligible : Obligations.StepsLeaveNothingEligible := fun s t hs hstep =>
  t.transmitInv_iff.mpr
    (step_keeps Act.transmitOk (fun _ h => ⟨h.levels, h.quiet, h.settled⟩) (s.transmitInv_iff.mp hs) hstep)

end Sys2Proof.Machine
end

