-- ==== Sys2Proof/Proofs/Requests.lean ====
section
/-! The execution of requests (chapter 10, R173, R176, R184): each request command runs the handler of its code, which
requests the agent executes and which it finds malformed, the reply of a framed one, and the DEVICE_RESET. -/

namespace Sys2Proof.Machine

/-! ## The twenty request commands -/

/-- The command that executes the requests of a code. -/
def RequestCode.command : RequestCode → Instr
  | .identify => .identify
  | .status => .status
  | .trunkConfig => .trunkConfig
  | .streamDefine => .streamDefine
  | .streamClear => .streamClear
  | .streamStart => .streamStart
  | .streamStop => .streamStop
  | .streamQuery => .streamQuery
  | .slotAssign => .slotAssign
  | .slotQuery => .slotQuery
  | .laneConfig => .laneConfig
  | .laneStart => .laneStart
  | .laneStop => .laneStop
  | .clockConfig => .clockConfig
  | .counters => .counters
  | .discoveryList => .discoveryList
  | .discoveryConfig => .discoveryConfig
  | .eventsFetch => .eventsFetch
  | .eventConfig => .eventConfig
  | .deviceReset => .deviceReset

/-- The handler of the requests of a code. -/
def RequestCode.handler : RequestCode → List Byte → State → State × Answer
  | .identify => Machine.identify
  | .status => Machine.status
  | .trunkConfig => Machine.trunkConfig
  | .streamDefine => Machine.streamDefine
  | .streamClear => Machine.streamClear
  | .streamStart => Machine.streamStart
  | .streamStop => Machine.streamStop
  | .streamQuery => Machine.streamQuery
  | .slotAssign => Machine.slotAssign
  | .slotQuery => Machine.slotQuery
  | .laneConfig => Machine.laneConfig
  | .laneStart => Machine.laneStart
  | .laneStop => Machine.laneStop
  | .clockConfig => Machine.clockConfig
  | .counters => Machine.counters
  | .discoveryList => Machine.discoveryList
  | .discoveryConfig => Machine.discoveryConfig
  | .eventsFetch => Machine.eventsFetch
  | .eventConfig => Machine.eventConfig
  | .deviceReset => Machine.deviceReset

theorem exec_command (c : RequestCode) (s : State) : exec c.command s = .next (runRequest (some c) c.handler s) := by
  cases c <;> rfl

/-- A framed request other than DEVICE_RESET replies what its handler answers on the state with the head taken off. -/
theorem exec_command_replied (c : RequestCode) {s u : State} {rq : Request} {rest : List Request} {code : Byte}
    {args : List Byte} {a : Answer} (hx : s.executes rq rest) (hcode : rq.code = code) (hargs : rq.args = args)
    (hc : RequestCode.ofByte code = some c) (hreset : code ≠ 0x14) (hframed : c.framed args = true)
    (hhandler : c.handler args (s.taken rest) = (u, a)) (hu : u.settled) :
    exec c.command s = .next (u.replied rq (code :: a.status.code :: a.results)) := by
  subst hcode hargs
  rw [exec_command, runRequest_replied hx hc hreset hframed hhandler hu]

/-! ## Requests that are not framed as their layouts ask (R173) -/

theorem exec_command_malformed (c : RequestCode) {s : State} {rq : Request} {rest : List Request} (hs : s.settled)
    (hx : s.executes rq rest) (hc : RequestCode.ofByte rq.code = some c) (h : ¬ c.framed rq.args = true) :
    exec c.command s = .next ((s.taken rest).replied rq [rq.code, 0x02]) := by
  have hcarry : carryOut (some c) c.handler rq.args (s.taken rest) = (s.taken rest, { status := .malformed }) := if_neg h
  rw [exec_command, runRequest_answers hx hc c.handler hcarry (State.settled_taken hs rest)
    (.inr fun e => absurd (List.cons.inj (List.cons.inj e).2).1 (by decide))]
  rfl

theorem exec_unknownRequest_malformed {s : State} {rq : Request} {rest : List Request} (hs : s.settled)
    (hx : s.executes rq rest) (hc : RequestCode.ofByte rq.code = none) :
    exec .unknownRequest s = .next ((s.taken rest).replied rq [rq.code, 0x02]) :=
  congrArg Host.Outcome.next (runRequest_answers hx hc _ rfl (State.settled_taken hs rest)
    (.inr fun e => absurd (List.cons.inj (List.cons.inj e).2).1 (by decide)))

theorem not_framed_of_length {c : RequestCode} {a : List Byte} {n : Nat} (hc : c.lengthOk a = (a.length == n))
    (h : a.length ≠ n) : ¬ c.framed a = true := fun hframed =>
  h (eq_of_beq (hc.symm.trans ((Bool.and_eq_true _ _).mp hframed).1))

theorem not_framed_of_option {c : RequestCode} {a : List Byte} {n k : Nat} (hc : c.lengthOk a = (a.length == n))
    (hk : c.optionAt = some k) (h : a.length ≠ n ∨ 1 < byteAt a k) : ¬ c.framed a = true := by
  rcases h with h | h
  · exact not_framed_of_length hc h
  · intro hframed
    have hoption := ((Bool.and_eq_true _ _).mp hframed).2
    rw [hk] at hoption
    exact absurd (of_decide_eq_true hoption) (Nat.not_le.mpr h)

/-- The argument lengths of a STREAM_DEFINE, by its direction byte. -/
theorem not_framed_streamDefine {a : List Byte}
    (h : (byteAt a 1 = 0 ∧ a.length ≠ 13) ∨ (byteAt a 1 = 1 ∧ (a.length < 7 ∨ a.length ≠ 12 + byteAt a 6))
      ∨ (1 < byteAt a 1 ∧ a.length < 10)) : ¬ RequestCode.streamDefine.framed a = true := by
  intro hframed
  have hlength : defineLengthOk a = true := ((Bool.and_eq_true _ _).mp hframed).1
  unfold defineLengthOk at hlength
  split at hlength
  next h1 =>
    have := eq_of_beq hlength
    omega
  next h1 =>
    obtain ⟨h7, h12⟩ := (Bool.and_eq_true _ _).mp hlength
    have := eq_of_beq h12
    have := of_decide_eq_true h7
    omega
  next h0 h1 =>
    have := of_decide_eq_true hlength
    rcases h with h | h | h
    · exact h0 h.1
    · exact h1 h.1
    · omega

theorem ofByte_eq_none {b : Byte} (h : b = 0x00 ∨ 0x14 < b.toNat) : RequestCode.ofByte b = none := by
  rcases h with rfl | h
  · rfl
  · unfold RequestCode.ofByte
    split
    case h_21 => rfl
    all_goals omega

/-- Settles O33: the arguments of each layout, by its length and its option byte. -/
theorem misframedRequestsAreMalformed : Obligations.MisframedRequestsAreMalformed := by
  intro s rq rest hs hx n option plain
  have malformed (c : RequestCode) (b : Byte) (hb : RequestCode.ofByte b = some c) (hcode : rq.code = b)
      (h : ¬ c.framed rq.args = true) : exec c.command s = .next ((s.taken rest).replied rq [rq.code, 0x02]) :=
    exec_command_malformed c hs hx (hcode ▸ hb) h
  have length (c : RequestCode) (b : Byte) (k : Nat) (hb : RequestCode.ofByte b = some c)
      (hc : ∀ a, c.lengthOk a = (a.length == k)) (hcode : rq.code = b) : plain c.command k := fun h =>
    malformed c b hb hcode (not_framed_of_length (hc _) h)
  have optional (c : RequestCode) (b : Byte) (k at_ : Nat) (hb : RequestCode.ofByte b = some c)
      (hc : ∀ a, c.lengthOk a = (a.length == k)) (ho : c.optionAt = some at_) (hcode : rq.code = b) :
      option c.command k at_ := fun h => malformed c b hb hcode (not_framed_of_option (hc _) ho h)
  exact ⟨fun h => exec_unknownRequest_malformed hs hx (ofByte_eq_none h),
    length .identify _ _ rfl fun _ => rfl, length .status _ _ rfl fun _ => rfl,
    length .trunkConfig _ _ rfl fun _ => rfl,
    fun hcode h => malformed .streamDefine _ rfl hcode (not_framed_streamDefine h),
    length .streamClear _ _ rfl fun _ => rfl, length .streamStart _ _ rfl fun _ => rfl,
    optional .streamStop _ _ _ rfl (fun _ => rfl) rfl, optional .streamQuery _ _ _ rfl (fun _ => rfl) rfl,
    length .slotAssign _ _ rfl fun _ => rfl, length .slotQuery _ _ rfl fun _ => rfl,
    length .laneConfig _ _ rfl fun _ => rfl, length .laneStart _ _ rfl fun _ => rfl,
    length .laneStop _ _ rfl fun _ => rfl, optional .clockConfig _ _ _ rfl (fun _ => rfl) rfl,
    optional .counters _ _ _ rfl (fun _ => rfl) rfl, optional .discoveryList _ _ _ rfl (fun _ => rfl) rfl,
    optional .discoveryConfig _ _ _ rfl (fun _ => rfl) rfl, length .eventsFetch _ _ rfl fun _ => rfl,
    length .eventConfig _ _ rfl fun _ => rfl, length .deviceReset _ _ rfl fun _ => rfl⟩

/-! ## When no request is executed (R173, R176, R185) -/

/-- The request code that a command executes: none for UNKNOWN_REQUEST. -/
def Runs (c : Instr) (code : Option RequestCode) : Prop :=
  ∃ handler, ∀ s, exec c s = .next (runRequest code handler s)

theorem exec_eq_self {c : Instr} {code : Option RequestCode} (hc : Runs c code) {s : State}
    (h : ∀ rq rest, s.control.requests = rq :: rest → RequestCode.ofByte rq.code = code → ¬ s.canExecute rq = true) :
    exec c s = .next s := by
  obtain ⟨handler, hexec⟩ := hc
  refine (hexec s).trans (congrArg Host.Outcome.next (runRequest_of_not handler fun rq hhead ⟨hcode, hcan⟩ => ?_))
  obtain ⟨rest, hq⟩ := List.head?_eq_some_iff.mp hhead
  exact h rq rest hq hcode hcan

/-- The command that the first byte of a request's payload names. -/
def commandOf (b : Byte) : Instr := (RequestCode.ofByte b).elim .unknownRequest RequestCode.command

theorem commandOf_eq_lookup : ∀ b : Byte, commandOf b =
    ([(0x01, Instr.identify), (0x02, .status), (0x03, .trunkConfig), (0x04, .streamDefine),
      (0x05, .streamClear), (0x06, .streamStart), (0x07, .streamStop), (0x08, .streamQuery),
      (0x09, .slotAssign), (0x0A, .slotQuery), (0x0B, .laneConfig), (0x0C, .laneStart), (0x0D, .laneStop),
      (0x0E, .clockConfig), (0x0F, .counters), (0x10, .discoveryList), (0x11, .discoveryConfig),
      (0x12, .eventsFetch), (0x13, .eventConfig), (0x14, .deviceReset)].lookup b).getD .unknownRequest := by
  decide

theorem runs_of_mem {c : Instr}
    (h : c ∈ [Instr.identify, .status, .trunkConfig, .streamDefine, .streamClear, .streamStart, .streamStop,
      .streamQuery, .slotAssign, .slotQuery, .laneConfig, .laneStart, .laneStop, .clockConfig, .counters,
      .discoveryList, .discoveryConfig, .eventsFetch, .eventConfig, .deviceReset, .unknownRequest]) :
    ∃ code : Option RequestCode, Runs c code ∧ c = code.elim .unknownRequest RequestCode.command := by
  have request (d : RequestCode) : ∃ code : Option RequestCode,
      Runs d.command code ∧ d.command = code.elim .unknownRequest RequestCode.command :=
    ⟨some d, ⟨d.handler, exec_command d⟩, rfl⟩
  simp only [List.mem_cons, List.not_mem_nil, or_false] at h
  rcases h with rfl | rfl | rfl | rfl | rfl | rfl | rfl | rfl | rfl | rfl | rfl | rfl | rfl | rfl | rfl | rfl | rfl | rfl
    | rfl | rfl | rfl
  · exact request .identify
  · exact request .status
  · exact request .trunkConfig
  · exact request .streamDefine
  · exact request .streamClear
  · exact request .streamStart
  · exact request .streamStop
  · exact request .streamQuery
  · exact request .slotAssign
  · exact request .slotQuery
  · exact request .laneConfig
  · exact request .laneStart
  · exact request .laneStop
  · exact request .clockConfig
  · exact request .counters
  · exact request .discoveryList
  · exact request .discoveryConfig
  · exact request .eventsFetch
  · exact request .eventConfig
  · exact request .deviceReset
  · exact ⟨none, ⟨_, fun _ => rfl⟩, rfl⟩

/-- Settles O32: a request command runs nothing unless the head has its code and can be executed. -/
theorem requestsWaitAtTheHead : Obligations.RequestsWaitAtTheHead := by
  intro s c hc
  obtain ⟨code, hruns, hcommand⟩ := runs_of_mem hc
  refine ⟨fun hempty => ?empty, fun hhalted => ?halted, fun rq rest hq => ⟨fun hup hfull => ?full, fun hne => ?other⟩⟩
  case empty => exact exec_eq_self hruns fun rq rest hq => nomatch hempty.symm.trans hq
  case halted =>
    refine exec_eq_self hruns fun rq rest _ _ hcan => ?_
    rw [State.canExecute_iff, hhalted] at hcan
    exact nomatch hcan.1
  case full =>
    refine exec_eq_self hruns fun rq' rest' hq' _ hcan => ?_
    obtain ⟨rfl, -⟩ := List.cons.inj (hq.symm.trans hq')
    obtain ⟨-, hroom | hdown⟩ := (State.canExecute_iff _ _).mp hcan
    · exact absurd hroom (Nat.not_lt.mpr hfull)
    · exact nomatch hup.symm.trans hdown
  case other =>
    refine exec_eq_self hruns fun rq' rest' hq' hcode _ => hne ?_
    obtain ⟨rfl, -⟩ := List.cons.inj (hq.symm.trans hq')
    rw [← commandOf_eq_lookup, commandOf, hcode, hcommand]

/-! ## DEVICE_RESET (R184) -/

/-- Settles O50: the reply joins the queue of an UP port; at a DOWN port it is discarded, and the reset follows. -/
theorem deviceResetHaltsThenResets : Obligations.DeviceResetHaltsThenResets := by
  intro s rq rest hs hx hcode hargs
  have hcarry : carryOut (some .deviceReset) deviceReset rq.args (s.taken rest) =
      ((s.taken rest).setControl { (s.taken rest).control with halted := true }, { status := .ok }) := by
    rw [hargs]
    rfl
  have hc : RequestCode.ofByte rq.code = some .deviceReset := by rw [hcode]; rfl
  refine ⟨fun hup => ?up, fun hdown => ?down⟩
  case up =>
    have hrun := runRequest_answers hx hc deviceReset hcarry hs (.inl hup)
    rw [hcode] at hrun
    exact congrArg Host.Outcome.next hrun
  case down =>
    show Host.Outcome.next (runRequest (some .deviceReset) deviceReset s) = _
    have hreset : (replyTo ((s.taken rest).setControl { (s.taken rest).control with halted := true }) rq
        { status := .ok }).isDeviceReset = true := by
      unfold Reply.isDeviceReset replyTo
      rw [hcode]
      rfl
    rw [runRequest_of_executes hx hc, hcarry, ← blockReset_eq_afterReset]
    refine congrArg Host.Outcome.next ?_
    unfold deliver
    have hnot : ¬ (s.port rq.port).linkUp = true := by
      rw [hdown]
      exact Bool.false_ne_true
    refine (if_neg hnot).trans ((if_pos hreset).trans (blockReset_congr (fun q => ?_) (by rfl) _ _))
    unfold loseReply
    rw [State.port_post, State.port_setPort]
    split
    · next e => rw [e]; rfl
    · rfl

end Sys2Proof.Machine
end

