-- ==== Sys2Proof/Proofs/Codes.lean ====
section
/-! Codes and fields (R41, R172, R174, R192): numbers of two and of four bytes, most significant first, bytes that are 0 to
2, and the levels and codes of every kind of value. -/

namespace Sys2Proof.Machine

/-! ## Bytes of a number -/

theorem byteOf_toNat (b : Byte) : byteOf b.toNat = b := BitVec.eq_of_toNat_eq (by
  rw [byteOf, BitVec.toNat_ofNat, Nat.mod_eq_of_lt b.isLt])

theorem byteOf_shift {w : Nat} (v : BitVec w) (k : Nat) : byteOf (v.toNat / 2 ^ k) = v.extractLsb' k 8 := by
  refine BitVec.eq_of_toNat_eq ?_
  rw [byteOf, BitVec.toNat_ofNat, BitVec.extractLsb'_toNat, Nat.shiftRight_eq_div_pow]

theorem byteOf_low {w : Nat} (v : BitVec w) : byteOf v.toNat = v.extractLsb' 0 8 := by
  rw [← byteOf_shift, Nat.pow_zero, Nat.div_one]

/-- Two bytes are the bytes of the number they spell. -/
theorem be2_bytes (h l : Byte) : be2 (h.toNat * 256 + l.toNat) = [h, l] := by
  have hh := h.isLt
  have hl := l.isLt
  have high : byteOf ((h.toNat * 256 + l.toNat) / 256) = h := by
    refine BitVec.eq_of_toNat_eq ?_
    rw [byteOf, BitVec.toNat_ofNat]
    omega
  have low : byteOf (h.toNat * 256 + l.toNat) = l := by
    refine BitVec.eq_of_toNat_eq ?_
    rw [byteOf, BitVec.toNat_ofNat]
    omega
  rw [be2, high, low]

theorem ofBe_be4 {n : Nat} (h : n < 2 ^ 32) : ofBe (be4 n) = n := by
  simp only [ofBe, be4, byteOf, List.foldl_cons, List.foldl_nil, BitVec.toNat_ofNat]
  omega

/-- A field of four bytes, most significant first. -/
theorem beAt_four {bs : List Byte} {i : Nat} (h : i + 4 ≤ bs.length) :
    beAt bs i 4 =
      byteAt bs i * 0x1000000 + byteAt bs (i + 1) * 0x10000 + byteAt bs (i + 2) * 0x100 + byteAt bs (i + 3) := by
  have hbytes : (bs.drop i).take 4 = [bs.getD i 0, bs.getD (i + 1) 0, bs.getD (i + 2) 0, bs.getD (i + 3) 0] := by
    rw [List.drop_eq_getElem_cons (show i < bs.length by omega),
      List.drop_eq_getElem_cons (show i + 1 < bs.length by omega),
      List.drop_eq_getElem_cons (show i + 1 + 1 < bs.length by omega),
      List.drop_eq_getElem_cons (show i + 1 + 1 + 1 < bs.length by omega)]
    simp only [List.take_succ_cons, List.take_zero, List.getD_eq_getElem?_getD]
    rw [List.getElem?_eq_getElem (show i < bs.length by omega),
      List.getElem?_eq_getElem (show i + 1 < bs.length by omega),
      List.getElem?_eq_getElem (show i + 2 < bs.length by omega),
      List.getElem?_eq_getElem (show i + 3 < bs.length by omega)]
    rfl
  simp only [beAt, hbytes, ofBe, byteAt, List.foldl_cons, List.foldl_nil]
  omega

theorem byte_le_one {b : Byte} (h : b.toNat ≤ 1) : b = 0 ∨ b = 1 := by
  simp only [← BitVec.toNat_inj]
  exact Nat.le_one_iff_eq_zero_or_eq_one.mp h

theorem byte_le_two {b : Byte} (h : b.toNat ≤ 2) : b = 0 ∨ b = 1 ∨ b = 2 := by
  have h2 : b.toNat = 0 ∨ b.toNat = 1 ∨ b.toNat = 2 := by omega
  simp only [← BitVec.toNat_inj]
  exact h2

/-! ## Fields of two or three values -/

section
variable {α : Type} {f : Nat → Option α} {x y z : α}

theorem decode_of_two (h0 : f 0 = some x) (h1 : f 1 = some y) (hmore : ∀ n, f (n + 2) = none) (b : Byte) :
    f b.toNat = if b.toNat ≤ 1 then some (if b = 0 then x else y) else none := by
  by_cases h : b.toNat ≤ 1
  · rcases byte_le_one h with rfl | rfl
    · exact h0
    · exact h1
  · obtain ⟨n, hn⟩ := Nat.exists_eq_add_of_le' (Nat.lt_of_not_le h)
    rw [if_neg h, hn, hmore]

theorem decode_of_three (h0 : f 0 = some x) (h1 : f 1 = some y) (h2 : f 2 = some z) (hmore : ∀ n, f (n + 3) = none)
    (b : Byte) :
    f b.toNat = if b.toNat ≤ 2 then some (if b = 0 then x else if b = 1 then y else z) else none := by
  by_cases h : b.toNat ≤ 2
  · rcases byte_le_two h with rfl | rfl | rfl
    · exact h0
    · exact h1
    · exact h2
  · obtain ⟨n, hn⟩ := Nat.exists_eq_add_of_le' (Nat.lt_of_not_le h)
    rw [if_neg h, hn, hmore]

end

theorem cond_of_some {α : Type} {b : Prop} [Decidable b] {x y : α} (h : (if b then some x else none) = some y) : b :=
  Decidable.byContradiction fun hb => nomatch (if_neg hb).symm.trans h

/-- Settles O27: the tables of codes are read off, and the fields of two and four bytes are computed. -/
theorem kindsHaveTheirLevelsAndCodes : Obligations.KindsHaveTheirLevelsAndCodes := by
  refine ⟨fun _ => rfl, ?levels, rfl, rfl, rfl, rfl, fun b hb => ofByte_eq_none hb, ?codes,
    ⟨rfl, fun _ => rfl, fun _ => rfl, rfl, rfl⟩, rfl, rfl, ?two, ?four, fun bs i h => beAt_two h,
    fun bs i h => beAt_four h⟩
  case levels =>
    intro q
    have hlist : q.levels.toList = (List.finRange 15).map q.levels.get :=
      List.ext_getElem (by simp) fun n _ _ => by simp [Vector.get]
    rw [hlist]
    rfl
  case codes =>
    exact ⟨rfl, rfl, rfl, rfl, rfl, rfl, rfl, rfl, rfl, rfl, rfl, rfl, rfl, rfl, rfl, rfl, rfl, rfl, fun _ => rfl, rfl⟩
  case two =>
    intro v
    have byte1 : byteOf (v.toNat / 256) = v.extractLsb' 8 8 := byteOf_shift v 8
    rw [be2, byteOf_low, byte1]
  case four =>
    intro v
    have byte1 : byteOf (v.toNat / 256) = v.extractLsb' 8 8 := byteOf_shift v 8
    have byte2 : byteOf (v.toNat / 65536) = v.extractLsb' 16 8 := byteOf_shift v 16
    have byte3 : byteOf (v.toNat / 16777216) = v.extractLsb' 24 8 := byteOf_shift v 24
    rw [be4, byteOf_low, byte1, byte2, byte3]

end Sys2Proof.Machine
end

