-- ==== Sys2Proof/Proofs/Reports.lean ====
section
/-! TRUNK_CONFIG, STREAM_QUERY, COUNTERS, DISCOVERY_LIST and DISCOVERY_CONFIG (chapters 1, 9 and 10): what each handler
answers at each check, the bytes of its results, that the part stays settled, and the obligations assembled from these; the
sweep of an aging interval and the tick. -/

namespace Sys2Proof.Machine

/-! ## Writes that keep a part settled -/

theorem State.settled_setPort {s : State} (h : s.settled) (p : Port) {x : PortState}
    (hx : x.linkUp = (s.port p).linkUp ∧ x.tx = (s.port p).tx ∧ x.replies = (s.port p).replies) :
    (s.setPort p x).settled := by
  obtain ⟨hup, htx, hreplies⟩ := hx
  have each (q : Port) (hq : s.settledAt q) : (s.setPort p x).settledAt q := by
    by_cases e : q = p
    · subst e
      unfold State.settledAt
      rw [State.port_setPort_self, hup, htx, hreplies]
      exact hq
    · exact State.settledAt_setPort_ne x e hq
  exact ⟨each .ta h.1, each .tb h.2⟩

theorem State.settled_setStream {s : State} (h : s.settled) (i : StreamIdx) {x : Stream}
    (hx : x.ready = [] ∨ (x.direction = (s.stream i).direction ∧ x.ready = (s.stream i).ready)) :
    (s.setStream i x).settled := by
  refine State.settled_congr (s := s) rfl (fun j hd => ?_) h
  by_cases e : j = i
  · subst e
    rw [State.stream_setStream_self] at hd ⊢
    exact hx.imp id fun ⟨hdirection, hready⟩ => ⟨hdirection ▸ hd, hready⟩
  · rw [State.stream_setStream_ne _ _ e] at hd ⊢
    exact .inr ⟨hd, rfl⟩

/-! ## TRUNK_CONFIG (R160, R182) -/

theorem txModeOfCode_eq (b : Byte) :
    txModeOfCode b.toNat = if b.toNat ≤ 1 then some (if b = 0 then .strict else .weighted) else none :=
  decode_of_two (f := txModeOfCode) rfl rfl (fun _ => rfl) b

theorem controlPortsOfCode_eq (b : Byte) :
    controlPortsOfCode b.toNat =
      if b.toNat ≤ 2 then some (if b = 0 then .ta else if b = 1 then .tb else .either) else none :=
  decode_of_three (f := controlPortsOfCode) rfl rfl rfl (fun _ => rfl) b

section
variable {n1 n0 c ma mb : Byte}

/-- The settings a TRUNK_CONFIG may ask for. -/
abbrev TrunkConfigOk (n1 n0 c ma mb : Byte) : Prop :=
  1 ≤ n1.toNat * 256 + n0.toNat ∧ n1.toNat * 256 + n0.toNat ≤ 0xFFFE ∧ c.toNat ≤ 2 ∧ ma.toNat ≤ 1 ∧ mb.toNat ≤ 1

theorem trunkConfig_of_ok (h : TrunkConfigOk n1 n0 c ma mb) (s : State) :
    trunkConfig [n1, n0, c, ma, mb] s =
      ({ s with
          control :=
            { s.control with
              nodeId := BitVec.ofNat 16 (n1.toNat * 256 + n0.toNat),
              ports := if c = 0 then .ta else if c = 1 then .tb else .either },
          ports := ⟨s.ports.ta.setMode (if ma = 0 then .strict else .weighted),
            s.ports.tb.setMode (if mb = 0 then .strict else .weighted)⟩ },
        { status := .ok, results := [n1, n0] }) := by
  obtain ⟨hlow, hhigh, hc, hma, hmb⟩ := h
  have hnode : beAt [n1, n0, c, ma, mb] 0 2 = n1.toNat * 256 + n0.toNat := beAt_two (Nat.le_add_left 2 3)
  simp only [trunkConfig, hnode, (nodeIdOk_iff _).mpr ⟨hlow, hhigh⟩, byteAt_cons_succ, byteAt_cons_zero,
    controlPortsOfCode_eq, txModeOfCode_eq, if_pos hc, if_pos hma, if_pos hmb, be2_bytes]

theorem trunkConfig_of_not_ok (h : ¬ TrunkConfigOk n1 n0 c ma mb) (s : State) :
    trunkConfig [n1, n0, c, ma, mb] s = (s, { status := .value, results := be2 s.control.nodeId.toNat }) := by
  have hnode : beAt [n1, n0, c, ma, mb] 0 2 = n1.toNat * 256 + n0.toNat := beAt_two (Nat.le_add_left 2 3)
  unfold trunkConfig
  simp only [hnode, byteAt_cons_succ, byteAt_cons_zero, controlPortsOfCode_eq, txModeOfCode_eq]
  split
  next hid hports hta htb =>
    obtain ⟨hlow, hhigh⟩ := (nodeIdOk_iff _).mp hid
    exact absurd ⟨hlow, hhigh, cond_of_some hports, cond_of_some hta, cond_of_some htb⟩ h
  next => rfl

end

/-- Settles O35: the checks of the handler are the ranges of the statement. -/
theorem trunkConfigSetsIdentityAndModes : Obligations.TrunkConfigSetsIdentityAndModes := by
  intro s rq rest n1 n0 c ma mb hs hx hcode hargs node sound mode
  refine ⟨fun h => ?sound, fun h => ?unsound⟩
  case sound =>
    exact exec_command_replied .trunkConfig hx hcode hargs rfl (by decide) rfl (trunkConfig_of_ok h _)
      ⟨fun hup hidle => hs.1 hup hidle, fun hup hidle => hs.2 hup hidle⟩
  case unsound =>
    exact exec_command_replied .trunkConfig hx hcode hargs rfl (by decide) rfl (trunkConfig_of_not_ok h _) hs

/-! ## STREAM_QUERY (R18, R20) -/

theorem streamQuery_of_badIndex {b o : Byte} (h : 63 < b.toNat) (s : State) :
    streamQuery [b, o] s = (s, { status := .index }) := by
  simp only [streamQuery, byteAt_cons_zero, finOf_eq_none (k := 64) h]

theorem streamQuery_of_index {b o : Byte} {i : StreamIdx} (h : b.toNat = i.val) (ho : o.toNat ≤ 1) (s : State) :
    streamQuery [b, o] s =
      (if o = 1 then s.setStream i (s.stream i).zeroCounters else s,
        { status := .ok, results := (s.stream i).queryBytes }) := by
  simp only [streamQuery, byteAt_cons_zero, finOf_val h]
  rcases byte_le_one ho with rfl | rfl <;> rfl

theorem Conceal.code_eq (c : Conceal) : c.code = if c == .hold then 1 else 0 := by
  cases c <;> rfl

theorem map_channelSlotCode (items : List (Option (Fin 32))) :
    bytesOf (items.map channelSlotCode) =
      items.map fun item =>
        match item with
        | some k => byteOf k.val
        | none => 0xFF := by
  rw [bytesOf, List.map_map]
  refine List.map_congr_left fun item _ => ?_
  cases item <;> rfl

/-- Settles O42: the result of each direction, byte for byte. -/
theorem streamQueryReportsTheEntry : Obligations.StreamQueryReportsTheEntry := by
  intro s rq rest b o hs hx hcode hargs ho
  have hframed : RequestCode.streamQuery.framed [b, o] = true := by
    rcases byte_le_one ho with rfl | rfl <;> rfl
  refine ⟨fun hb => ?badIndex, fun i hb => ?report⟩
  case badIndex =>
    exact exec_command_replied .streamQuery hx hcode hargs rfl (by decide) hframed (streamQuery_of_badIndex hb _) hs
  case report =>
    intro st bit four p c u head
    have hu : u.settled := by
      show (if o = 1 then _ else _ : State).settled
      split
      · exact State.settled_setStream (State.settled_taken hs rest) i (.inr ⟨rfl, rfl⟩)
      · exact hs
    have hreply := exec_command_replied .streamQuery hx hcode hargs rfl (by decide) hframed
      (streamQuery_of_index hb ho (s.taken rest)) hu
    refine ⟨fun hd => ?playout, fun hd => ?capture⟩
    case playout =>
      have hd' : ((s.taken rest).stream i).direction = .playout := hd
      refine hreply.trans (congrArg (fun bytes => Host.Outcome.next (u.replied rq bytes)) ?_)
      simp only [Stream.queryBytes, hd', Stream.playoutBytes, Stream.headBytes, Conceal.code_eq]
      rfl
    case capture =>
      have hd' : ((s.taken rest).stream i).direction = .capture := hd
      refine hreply.trans (congrArg (fun bytes => Host.Outcome.next (u.replied rq bytes)) ?_)
      simp only [Stream.queryBytes, hd', Stream.captureBytes, Stream.headBytes, map_channelSlotCode]
      rfl

/-! ## COUNTERS (R61, R112, R161, R183) -/

section
variable {scope index o : Byte}

theorem counters_of_badScope (h : 1 < scope.toNat) (s : State) :
    counters [scope, index, o] s = (s, { status := .value }) := by
  unfold counters
  simp only [byteAt_cons_zero]
  split
  next h0 => exact absurd h0 (Nat.ne_of_gt (Nat.lt_trans Nat.zero_lt_one h))
  next h1 => exact absurd h1 (Nat.ne_of_gt h)
  next => rfl

theorem counters_of_badPort (h : 1 < index.toNat) (s : State) :
    counters [0, index, o] s = (s, { status := .index }) := by
  have hport : portOfCode index.toNat = none := by
    unfold portOfCode
    split
    · omega
    · omega
    · rfl
  show (match portOfCode index.toNat with
    | some p => portCounters p (optionChosen [0, index, o] 2) s
    | none => (s, { status := .index })) = _
  rw [hport]

theorem counters_of_badLane (h : 3 < index.toNat) (s : State) :
    counters [1, index, o] s = (s, { status := .index }) := by
  show (match finOf 4 index.toNat with
    | some l => laneCounters l (optionChosen [1, index, o] 2) s
    | none => (s, { status := .index })) = _
  rw [finOf_eq_none (k := 4) h]

theorem counters_of_port {p : Port} (h : index = if p = .ta then 0 else 1) (ho : o.toNat ≤ 1) (s : State) :
    counters [0, index, o] s = portCounters p (decide (o = 1)) s := by
  subst h
  rcases byte_le_one ho with rfl | rfl <;> cases p <;> rfl

theorem counters_of_lane {l : LaneIdx} (h : index.toNat = l.val) (ho : o.toNat ≤ 1) (s : State) :
    counters [1, index, o] s = laneCounters l (decide (o = 1)) s := by
  show (match finOf 4 index.toNat with
    | some l => laneCounters l (optionChosen [1, index, o] 2) s
    | none => (s, { status := .index })) = _
  rw [finOf_val h]
  rcases byte_le_one ho with rfl | rfl <;> rfl

end

/-- Settles O47: the two scopes, each with a bad index and with the counters of one port or lane. -/
theorem countersReadAndClearOneScope : Obligations.CountersReadAndClearOneScope := by
  intro s rq rest scope index o hs hx hcode hargs ho four
  have hframed : RequestCode.counters.framed [scope, index, o] = true := by
    rcases byte_le_one ho with rfl | rfl <;> rfl
  have reply {u : State} {a : Answer} (h : counters [scope, index, o] (s.taken rest) = (u, a)) (hu : u.settled) :
      exec .counters s = .next (u.replied rq (0x0F :: a.status.code :: a.results)) :=
    exec_command_replied .counters hx hcode hargs rfl (by decide) hframed h hu
  refine ⟨fun h => reply (counters_of_badScope h _) hs, fun h0 h => ?badPort, fun h1 h => ?badLane, fun p h0 h => ?port,
    fun l h1 h => ?lane⟩
  case badPort =>
    subst h0
    exact reply (counters_of_badPort h _) hs
  case badLane =>
    subst h1
    exact reply (counters_of_badLane h _) hs
  case port =>
    subst h0
    refine (reply (counters_of_port h ho _) ?_).trans ?_
    · simp only [decide_eq_true_eq]
      split
      · exact State.settled_setPort (State.settled_taken hs rest) p ⟨rfl, rfl, rfl⟩
      · exact hs
    · simp only [decide_eq_true_eq]
      rfl
  case lane =>
    subst h1
    refine (reply (counters_of_lane h ho _) ?_).trans ?_
    · simp only [decide_eq_true_eq]
      split
      · exact State.settled_setLane (State.settled_taken hs rest) l _
      · exact hs
    · simp only [decide_eq_true_eq]
      rfl

/-! ## DISCOVERY_LIST (R169) -/

theorem DiscoveryRecord.bytes_eq (r : DiscoveryRecord) :
    r.bytes =
      be4 r.tag.toNat
        ++ [byteOf ((if r.ports.ta then 1 else 0) + if r.ports.tb then 2 else 0), r.channels, r.widthCode]
        ++ be2 r.samples ++ be2 r.firstSeq.toNat ++ be4 r.count.toNat ++ [byteOf (if r.seen then 1 else 0)] := by
  simp only [DiscoveryRecord.bytes, bytesOf_cons, bytesOf_nil, byteOf_toNat]
  rfl

/-- The aging codes as statements spell them. -/
theorem byteOf_agingCode (a : Aging) :
    byteOf a.code =
      match a with
      | .off => 0
      | .s1 => 1
      | .s2 => 2
      | .s4 => 3
      | .s8 => 4 := by
  cases a <;> rfl

/-- Settles O48: the list, record by record. -/
theorem discoveryListIsReported : Obligations.DiscoveryListIsReported := by
  intro s rq rest o hs hx hcode hargs ho d code
  have hframed : RequestCode.discoveryList.framed [o] = true := by
    rcases byte_le_one ho with rfl | rfl <;> rfl
  have hlist : discoveryList [o] (s.taken rest) =
      (if o = 1 then (s.taken rest).setDiscovery { d with overflow := 0 } else s.taken rest,
        { status := .ok, results := d.bytes }) := by
    rcases byte_le_one ho with rfl | rfl <;> rfl
  have hsettled : (if o = 1 then (s.taken rest).setDiscovery { d with overflow := 0 } else s.taken rest).settled := by
    split
    · exact hs
    · exact hs
  have hcodes : code = byteOf d.aging.code := (byteOf_agingCode _).symm
  refine (exec_command_replied .discoveryList hx hcode hargs rfl (by decide) hframed hlist hsettled).trans
    (congrArg (fun bytes => Host.Outcome.next (State.replied _ rq bytes)) ?_)
  simp only [hcodes, ← DiscoveryRecord.bytes_eq]
  rfl

/-! ## Aging and uptime (R167, R168, R171, R198) -/

theorem replied_keepsInterval (u : State) (rq : Request) (bytes : List Byte) :
    (u.replied rq bytes).discovery = u.discovery ∧ (u.replied rq bytes).events.uptime = u.events.uptime := by
  unfold State.replied
  dsimp only
  split
  · exact ⟨rfl, rfl⟩
  · exact ⟨rfl, EventQueue.post_uptime _ _ _ _⟩

theorem exec_agingSweep_of_restarted {s : State} (h : s.discovery.restarted = some s.events.uptime) :
    exec .agingSweep s = .next s := by
  have hjust : s.discovery.justRestarted s.events.uptime = true := by
    unfold Discovery.justRestarted
    rw [h]
    show decide ((s.events.uptime - s.events.uptime).toNat < 2) = true
    rw [BitVec.sub_self]
    rfl
  exact congrArg Host.Outcome.next (if_neg fun e => absurd (hjust.symm.trans e.2.2) (by decide))

theorem agingOfCode_code (a : Aging) : agingOfCode a.code = some a := by
  cases a <;> rfl

section
variable {c o : Byte} {a : Aging}

theorem discoveryConfig_of_badCode (h : 4 < c.toNat) (s : State) :
    discoveryConfig [c, o] s = (s, { status := .value }) := by
  simp only [discoveryConfig, byteAt_cons_zero, agingOfCode_eq_none h]

theorem discoveryConfig_of_keep (h : c.toNat = a.code) (s : State) :
    discoveryConfig [c, 0] s =
      (s.setDiscovery { s.discovery with aging := a, restarted := some s.events.uptime },
        { status := .ok, results := [c, 0] }) := by
  have hc : byteOf a.code = c := h ▸ byteOf_toNat c
  simp only [discoveryConfig, byteAt_cons_zero, h, agingOfCode_code, bytesOf_cons, hc]
  rfl

theorem discoveryConfig_of_flush (h : c.toNat = a.code) (s : State) :
    discoveryConfig [c, 1] s =
      (s.setDiscovery { s.discovery with aging := a, restarted := some s.events.uptime, records := [] },
        { status := .ok, results := [c, byteOf s.discovery.records.length] }) := by
  have hc : byteOf a.code = c := h ▸ byteOf_toNat c
  simp only [discoveryConfig, byteAt_cons_zero, h, agingOfCode_code, bytesOf_cons, hc]
  rfl

end

/-- Settles O25: an expiry, a tick, and a DISCOVERY_CONFIG, after which the sweep of the abandoned interval does not take
place. -/
theorem sweepsAndTicksActOnTheirOwnState : Obligations.SweepsAndTicksActOnTheirOwnState := by
  refine ⟨fun s => ⟨fun h => ?sweep, fun h => ?none, fun h => ?tick, fun h => ?held⟩,
    fun s rq rest c o hs hx hcode hargs ho => ⟨fun hc => ?badCode, fun a hc => ?config⟩⟩
  case sweep =>
    obtain ⟨hstarted, haging, hown⟩ := h
    exact congrArg Host.Outcome.next (if_pos ⟨hstarted, haging, (Discovery.justRestarted_eq_false _ _).mpr hown⟩)
  case none =>
    exact congrArg Host.Outcome.next (if_neg fun ⟨hstarted, haging, hown⟩ =>
      h ⟨hstarted, haging, (Discovery.justRestarted_eq_false _ _).mp hown⟩)
  case tick => exact congrArg Host.Outcome.next (if_neg h)
  case held => exact congrArg Host.Outcome.next (if_pos h)
  case badCode =>
    have hframed : RequestCode.discoveryConfig.framed [c, o] = true := by
      rcases byte_le_one ho with rfl | rfl <;> rfl
    exact exec_command_replied .discoveryConfig hx hcode hargs rfl (by decide) hframed (discoveryConfig_of_badCode hc _) hs
  case config =>
    have hcode' : c.toNat = a.code := by
      rw [hc]
      cases a <;> rfl
    have keep (ho : o = 0) := exec_command_replied .discoveryConfig hx hcode (hargs.trans (by rw [ho])) rfl (by decide) rfl
      (discoveryConfig_of_keep hcode' (s.taken rest)) hs
    have flush (ho : o = 1) := exec_command_replied .discoveryConfig hx hcode (hargs.trans (by rw [ho])) rfl (by decide)
      rfl (discoveryConfig_of_flush hcode' (s.taken rest)) hs
    refine ⟨keep, flush, fun t ht => exec_agingSweep_of_restarted ?_⟩
    have restarted {u : State} {bytes : List Byte} (hu : u.discovery.restarted = some u.events.uptime)
        (h : exec .discoveryConfig s = .next (u.replied rq bytes)) : t.discovery.restarted = some t.events.uptime := by
      obtain rfl : u.replied rq bytes = t := Host.Outcome.next.inj (h.symm.trans ht)
      obtain ⟨hdiscovery, huptime⟩ := replied_keepsInterval u rq bytes
      rw [hdiscovery, huptime, hu]
    rcases byte_le_one ho with ho | ho
    · exact restarted rfl (keep ho)
    · exact restarted rfl (flush ho)

end Sys2Proof.Machine
end

