-- ==== Sys2Proof/Proofs/LaneRequests.lean ====
section
/-! LANE_CONFIG, LANE_START, LANE_STOP and CLOCK_CONFIG (sections 5.2, 5.3 and 6.2, R95 to R98, R102, R118, R119): the
checks of each handler as conditions on its argument bytes, what it writes, that the part stays settled, and the obligations
assembled from these. -/

namespace Sys2Proof.Machine

/-! ## LANE_CONFIG (R95, R96) -/

section
variable {l d r n w sh po dl ed : Byte}

/-- The eight fields of a LANE_CONFIG that lie in their values. -/
abbrev LaneConfigOk (d r n w sh po dl ed : Byte) : Prop :=
  d.toNat ≤ 2 ∧ r.toNat ≤ 2 ∧ 1 ≤ n.toNat ∧ n.toNat ≤ 32 ∧ w.toNat ≤ 2 ∧ sh.toNat ≤ 2 ∧ po.toNat ≤ 1
    ∧ dl.toNat ≤ 1 ∧ ed.toNat ≤ 1 ∧ ¬ (sh = 2 ∧ n.toNat % 2 = 1)

/-- The configuration that the eight bytes ask for. -/
def laneConfigOf (d r n w sh po dl ed : Byte) : LaneConfig :=
  { direction := if d = 0 then .out else if d = 1 then .inp else .both,
    role := if r = 0 then .master0 else if r = 1 then .master1 else .slave,
    slots := n.toNat, slotWidth := widthNamed w,
    syncShape := if sh = 0 then .pulse else if sh = 1 then .slot else .half,
    polarity := if po = 0 then .high else .low, delayOne := dl == 1,
    clockEdge := if ed = 0 then .driveFalling else .driveRising }

theorem laneDirectionOfCode_eq (b : Byte) :
    laneDirectionOfCode b.toNat =
      if b.toNat ≤ 2 then some (if b = 0 then .out else if b = 1 then .inp else .both) else none :=
  decode_of_three (f := laneDirectionOfCode) rfl rfl rfl (fun _ => rfl) b

theorem roleOfCode_eq (b : Byte) :
    roleOfCode b.toNat =
      if b.toNat ≤ 2 then some (if b = 0 then .master0 else if b = 1 then .master1 else .slave) else none :=
  decode_of_three (f := roleOfCode) rfl rfl rfl (fun _ => rfl) b

theorem widthOfCode_eq (b : Byte) : widthOfCode b.toNat = if b.toNat ≤ 2 then some (widthNamed b) else none :=
  decode_of_three (f := widthOfCode) rfl rfl rfl (fun _ => rfl) b

theorem syncShapeOfCode_eq (b : Byte) :
    syncShapeOfCode b.toNat =
      if b.toNat ≤ 2 then some (if b = 0 then .pulse else if b = 1 then .slot else .half) else none :=
  decode_of_three (f := syncShapeOfCode) rfl rfl rfl (fun _ => rfl) b

theorem polarityOfCode_eq (b : Byte) :
    polarityOfCode b.toNat = if b.toNat ≤ 1 then some (if b = 0 then .high else .low) else none :=
  decode_of_two (f := polarityOfCode) rfl rfl (fun _ => rfl) b

theorem clockEdgeOfCode_eq (b : Byte) :
    clockEdgeOfCode b.toNat = if b.toNat ≤ 1 then some (if b = 0 then .driveFalling else .driveRising) else none :=
  decode_of_two (f := clockEdgeOfCode) rfl rfl (fun _ => rfl) b

theorem delayOfCode_eq (b : Byte) : delayOfCode b.toNat = if b.toNat ≤ 1 then some (b == 1) else none := by
  rw [decode_of_two (f := delayOfCode) rfl rfl (fun _ => rfl) b]
  refine ite_congr rfl (fun h => ?_) fun _ => rfl
  rcases byte_le_one h with rfl | rfl <;> rfl

/-- A shape byte of 2 is HALF. -/
theorem half_iff {sh : Byte} (h : sh.toNat ≤ 2) :
    ((if sh = 0 then SyncShape.pulse else if sh = 1 then .slot else .half) = .half) ↔ sh = 2 := by
  rcases byte_le_two h with rfl | rfl | rfl <;> decide

theorem parseLaneConfig_of_ok (h : LaneConfigOk d r n w sh po dl ed) :
    parseLaneConfig [l, d, r, n, w, sh, po, dl, ed] = some (laneConfigOf d r n w sh po dl ed) := by
  obtain ⟨hd, hr, hn, hn', hw, hsh, hpo, hdl, hed, hhalf⟩ := h
  have hshape : ¬ ((if sh = 0 then SyncShape.pulse else if sh = 1 then .slot else .half) = .half ∧ n.toNat % 2 = 1) :=
    fun e => hhalf ⟨(half_iff hsh).mp e.1, e.2⟩
  simp only [parseLaneConfig, byteAt_cons_succ, byteAt_cons_zero, laneDirectionOfCode_eq, roleOfCode_eq, widthOfCode_eq,
    syncShapeOfCode_eq, polarityOfCode_eq, delayOfCode_eq, clockEdgeOfCode_eq, if_pos hd, if_pos hr, if_pos hw,
    if_pos hsh, if_pos hpo, if_pos hdl, if_pos hed]
  exact if_pos ⟨hn, hn', hshape⟩

theorem parseLaneConfig_of_not_ok (h : ¬ LaneConfigOk d r n w sh po dl ed) :
    parseLaneConfig [l, d, r, n, w, sh, po, dl, ed] = none := by
  unfold parseLaneConfig
  simp only [byteAt_cons_succ, byteAt_cons_zero, laneDirectionOfCode_eq, roleOfCode_eq, widthOfCode_eq,
    syncShapeOfCode_eq, polarityOfCode_eq, delayOfCode_eq, clockEdgeOfCode_eq]
  split
  next hd hr hw hsh hpo hdl hed =>
    refine if_neg fun ⟨hn, hn', hhalf⟩ => h ⟨cond_of_some hd, cond_of_some hr, hn, hn', cond_of_some hw,
      cond_of_some hsh, cond_of_some hpo, cond_of_some hdl, cond_of_some hed, fun e => hhalf ⟨?_, e.2⟩⟩
    have hshape := (if_pos (cond_of_some hsh)).symm.trans hsh
    rw [← Option.some.inj hshape]
    exact (half_iff (cond_of_some hsh)).mpr e.1
  next => rfl

theorem State.laneBusy_iff (s : State) (lane : LaneIdx) :
    s.laneBusy lane = true ↔
      (s.lane lane).state ≠ .off
        ∨ ∃ i : StreamIdx, (s.stream i).lane = lane
            ∧ ((s.stream i).state = .armed ∨ (s.stream i).state = .running ∨ (s.stream i).state = .starved
              ∨ (s.stream i).state = .draining) := by
  have hreserves (st : StreamState) :
      st.reserves = true ↔ st = .armed ∨ st = .running ∨ st = .starved ∨ st = .draining := by
    cases st <;> decide
  simp only [State.laneBusy, Bool.or_eq_true, bne_iff_ne, List.any_eq_true, Bool.and_eq_true, beq_iff_eq, hreserves,
    streamIndices, List.mem_finRange, true_and]

theorem laneConfig_of_badIndex (h : 3 < l.toNat) (s : State) :
    laneConfig [l, d, r, n, w, sh, po, dl, ed] s = (s, { status := .index }) := by
  simp only [laneConfig, byteAt_cons_zero, finOf_eq_none (k := 4) h]

variable {lane : LaneIdx} {s : State}

theorem laneConfig_of_busy (h : l.toNat = lane.val) (hbusy : s.laneBusy lane = true) :
    laneConfig [l, d, r, n, w, sh, po, dl, ed] s = (s, { status := .busy }) := by
  simp only [laneConfig, byteAt_cons_zero, finOf_val h, if_pos hbusy]

theorem laneConfig_of_unsound (h : l.toNat = lane.val) (hbusy : ¬ s.laneBusy lane = true)
    (hbad : ¬ LaneConfigOk d r n w sh po dl ed) :
    laneConfig [l, d, r, n, w, sh, po, dl, ed] s = (s, { status := .value }) := by
  simp only [laneConfig, byteAt_cons_zero, finOf_val h, if_neg hbusy, parseLaneConfig_of_not_ok hbad]

theorem laneConfig_of_ok (h : l.toNat = lane.val) (hbusy : ¬ s.laneBusy lane = true)
    (hok : LaneConfigOk d r n w sh po dl ed) :
    laneConfig [l, d, r, n, w, sh, po, dl, ed] s =
      (s.setLane lane ((s.lane lane).configure (laneConfigOf d r n w sh po dl ed)), { status := .ok }) := by
  simp only [laneConfig, byteAt_cons_zero, finOf_val h, if_neg hbusy, parseLaneConfig_of_ok hok]

/-- The out-slot entries that an accepted LANE_CONFIG leaves. -/
theorem configure_outTable_get (hd : d.toNat ≤ 2) (x : Lane) (k : Fin 32) :
    (x.configure (laneConfigOf d r n w sh po dl ed)).outTable.get k =
      if d = 1 ∨ n.toNat ≤ k.val then none else x.outTable.get k := by
  have hdrives : (laneConfigOf d r n w sh po dl ed).drives = !decide (d = 1) := by
    rcases byte_le_two hd with rfl | rfl | rfl <;> rfl
  rw [Lane.configure, mapVecIdx_get, hdrives]
  by_cases h1 : d = 1
  · rw [if_pos (Or.inl h1), decide_eq_true h1]
    rfl
  · rw [decide_eq_false h1]
    by_cases hk : k.val < n.toNat
    · rw [if_neg (not_or.mpr ⟨h1, Nat.not_le.mpr hk⟩)]
      exact if_pos (decide_eq_true hk)
    · rw [if_pos (Or.inr (Nat.le_of_not_lt hk))]
      exact if_neg fun e => hk (of_decide_eq_true e)

end

/-- Settles O44: the checks in order, and the configuration with the out-slots it leaves. -/
theorem laneConfigWritesAnIdleLane : Obligations.LaneConfigWritesAnIdleLane := by
  intro s rq rest l d r n w sh po dl ed hs hx hcode hargs sound answered
  have reply {u : State} {a : Answer} (h : laneConfig [l, d, r, n, w, sh, po, dl, ed] (s.taken rest) = (u, a))
      (hu : u.settled) : exec .laneConfig s = .next (u.replied rq (0x0B :: a.status.code :: a.results)) :=
    exec_command_replied .laneConfig hx hcode hargs rfl (by decide) rfl h hu
  refine ⟨fun h => reply (laneConfig_of_badIndex h _) hs, fun lane hl => ?_⟩
  intro x busy
  have hbusy : (s.taken rest).laneBusy lane = true ↔ busy := State.laneBusy_iff _ lane
  refine ⟨fun h => ?busy, fun h hbad => ?unsound, fun h hok => ?accepted⟩
  case busy => exact reply (laneConfig_of_busy hl (hbusy.mpr h)) hs
  case unsound => exact reply (laneConfig_of_unsound hl (mt hbusy.mp h) hbad) hs
  case accepted =>
    exact ⟨_, configure_outTable_get hok.1 x,
      reply (laneConfig_of_ok hl (mt hbusy.mp h) hok) (State.settled_setLane (State.settled_taken hs rest) lane _)⟩

/-! ## LANE_START and LANE_STOP (R98, R102) -/

section
variable {b : Byte} {l : LaneIdx} {s : State}

theorem laneStart_of_badIndex (h : 3 < b.toNat) (s : State) : laneStart [b] s = (s, { status := .index }) := by
  simp only [laneStart, byteAt_cons_zero, finOf_eq_none (k := 4) h]

theorem laneStart_of_started (h : b.toNat = l.val) (hstate : (s.lane l).state ≠ .off) :
    laneStart [b] s = (s, { status := .state }) := by
  simp only [laneStart, byteAt_cons_zero, finOf_val h, if_neg hstate]

theorem laneStart_of_off (h : b.toNat = l.val) (hstate : (s.lane l).state = .off) : laneStart [b] s = startLane l s := by
  simp only [laneStart, byteAt_cons_zero, finOf_val h, if_pos hstate]

theorem startLane_of_slave (h : (s.lane l).config.role = .slave) :
    startLane l s = (s.setLane l { s.lane l with state := .seeking, candidate := false }, { status := .ok }) := by
  simp only [startLane, h, Role.gen]

/-- The generator of a master lane, as statements name it. -/
theorem gen_of_master {role : Role} {g : GenIdx} (h : (g = .mcg0 ∧ role = .master0) ∨ (g = .mcg1 ∧ role = .master1)) :
    role.gen = some g := by
  rcases h with ⟨rfl, rfl⟩ | ⟨rfl, rfl⟩ <;> rfl

variable {g : GenIdx}

theorem startLane_of_silent (h : (s.lane l).config.role.gen = some g) (hg : (s.gen g).num = 0) :
    startLane l s = (s, { status := .state }) := by
  have hoff : ¬ (s.gen g).isRunning = true := by
    rw [Gen.isRunning, hg]
    decide
  simp only [startLane, h, if_neg hoff]

theorem startLane_of_clocked (h : (s.lane l).config.role.gen = some g) (hg : (s.gen g).num ≠ 0) :
    startLane l s = (enterRunning l false s, { status := .ok }) := by
  have hon : (s.gen g).isRunning = true := bne_iff_ne.mpr hg
  simp only [startLane, h, if_pos hon]

theorem LaneConfig.zeroSlots_eq (c : LaneConfig) :
    c.zeroSlots = if c.direction = .inp then [] else List.replicate c.slots 0 := by
  unfold LaneConfig.zeroSlots LaneConfig.drives
  cases c.direction <;> rfl

theorem laneStop_of_badIndex (h : 3 < b.toNat) (s : State) : laneStop [b] s = (s, { status := .index }) := by
  simp only [laneStop, byteAt_cons_zero, finOf_eq_none (k := 4) h]

theorem laneStop_of_index (h : b.toNat = l.val) : laneStop [b] s = (stopLane l s, { status := .ok }) := by
  simp only [laneStop, byteAt_cons_zero, finOf_val h]

/-- A lane's loss takes no frame of a capture stream off its ready list. -/
theorem State.settled_leaveRunning (h : s.settled) (l : LaneIdx) : (leaveRunning l s).settled := by
  refine State.settled_congr (s := s) rfl (fun i hd => .inr ?_) h
  unfold leaveRunning at hd ⊢
  rw [State.stream_mapStreams] at hd ⊢
  exact ⟨(Stream.direction_congr (Stream.loseLane_definition l _)).symm.trans hd, Stream.loseLane_ready l _⟩

end

/-- Settles O45: a start by the state and the role of the lane, and a stop by its state. -/
theorem lanesStartAndStop : Obligations.LanesStartAndStop := by
  intro s rq rest b hs hx hargs
  have htaken : (s.taken rest).settled := State.settled_taken hs rest
  refine ⟨fun hcode => ?start, fun hcode => ?stop⟩
  case start =>
    have reply {u : State} {a : Answer} (h : laneStart [b] (s.taken rest) = (u, a)) (hu : u.settled) :
        exec .laneStart s = .next (u.replied rq (0x0C :: a.status.code :: a.results)) :=
      exec_command_replied .laneStart hx hcode hargs rfl (by decide) rfl h hu
    refine ⟨fun h => reply (laneStart_of_badIndex h _) hs, fun l hl => ?_⟩
    refine ⟨fun hstate => reply (laneStart_of_started hl hstate) hs, fun hoff hslave => ?slave, fun g hoff hclock =>
      ⟨fun hg => ?silent, fun hg => ?clocked⟩⟩
    case slave =>
      exact reply ((laneStart_of_off (s := s.taken rest) hl hoff).trans (startLane_of_slave hslave))
        (State.settled_setLane htaken l _)
    case silent =>
      exact reply ((laneStart_of_off (s := s.taken rest) hl hoff).trans (startLane_of_silent (gen_of_master hclock) hg)) hs
    case clocked =>
      have hreply := reply
        ((laneStart_of_off (s := s.taken rest) hl hoff).trans (startLane_of_clocked (gen_of_master hclock) hg))
        (State.settled_setEvents (State.settled_setLane htaken l _) _)
      rw [← LaneConfig.zeroSlots_eq]
      exact hreply
  case stop =>
    have reply {u : State} {a : Answer} (h : laneStop [b] (s.taken rest) = (u, a)) (hu : u.settled) :
        exec .laneStop s = .next (u.replied rq (0x0D :: a.status.code :: a.results)) :=
      exec_command_replied .laneStop hx hcode hargs rfl (by decide) rfl h hu
    refine ⟨fun h => reply (laneStop_of_badIndex h _) hs, fun l hl => ?_⟩
    intro x u
    have hu : u.settled := State.settled_setLane htaken l _
    have stopped (v : State) (h : stopLane l (s.taken rest) = v) : laneStop [b] (s.taken rest) = (v, { status := .ok }) :=
      h ▸ laneStop_of_index hl
    exact ⟨fun h => reply (stopped u (if_neg h)) hu,
      fun h => reply (stopped (leaveRunning l u) (if_pos h)) (State.settled_leaveRunning hu l)⟩

/-! ## CLOCK_CONFIG (R118, R119) -/

theorem genOfCode_eq_none {n : Nat} (h : 1 < n) : genOfCode n = none := by
  match n, h with
  | _ + 2, _ => rfl

theorem referenceOfCode_eq_none {n : Nat} (h : 63 < n) (hnone : n ≠ 0xFF) : referenceOfCode n = none := by
  rw [referenceOfCode, if_neg hnone, finOf_eq_none (k := 64) h]
  rfl

/-- A reference byte names a stream by its index and no stream by 0xFF. -/
abbrev NamesReference (ref : Byte) (reference : Option StreamIdx) : Prop :=
  match reference with
  | some i => ref.toNat = i.val
  | none => ref = 0xFF

theorem referenceOfCode_eq_some {ref : Byte} {reference : Option StreamIdx} (h : NamesReference ref reference) :
    referenceOfCode ref.toNat = some reference := by
  cases reference with
  | none =>
    rw [show ref = 0xFF from h]
    rfl
  | some i =>
    have hi : ref.toNat = i.val := h
    have hnot : ¬ ref.toNat = 0xFF := fun e => absurd (hi.symm.trans e) (Nat.ne_of_lt (Nat.lt_trans i.isLt (by decide)))
    rw [referenceOfCode, if_neg hnot, finOf_val hi]
    rfl

theorem clockRangesOk_iff (num den step w : Nat) :
    clockRangesOk num den step w = true ↔
      num ≤ 1048575 ∧ 1 ≤ den ∧ den ≤ 1048575 ∧ (num ≠ 0 → num * 4 ≤ den) ∧ 1 ≤ step ∧ step ≤ 16 ∧ w ≤ 4 := by
  simp only [clockRangesOk, Config.ratioLimit, Bool.and_eq_true, Bool.or_eq_true, decide_eq_true_eq, beq_iff_eq]
  constructor
  · rintro ⟨⟨⟨⟨⟨⟨h1, h2⟩, h3⟩, h4⟩, h5⟩, h6⟩, h7⟩
    exact ⟨h1, h2, h3, fun h0 => h4.resolve_left h0, h5, h6, h7⟩
  · rintro ⟨h1, h2, h3, h4, h5, h6, h7⟩
    exact ⟨⟨⟨⟨⟨⟨h1, h2⟩, h3⟩, Decidable.or_iff_not_imp_left.mpr h4⟩, h5⟩, h6⟩, h7⟩

theorem Role.gen_eq_some_iff (role : Role) (g : GenIdx) :
    role.gen = some g ↔ role = if g = .mcg0 then .master0 else .master1 := by
  cases role <;> cases g <;> decide

theorem State.genInUse_iff (s : State) (g : GenIdx) :
    s.genInUse g = true ↔
      ∃ l : LaneIdx, (s.lane l).config.role = (if g = .mcg0 then .master0 else .master1) ∧ (s.lane l).state ≠ .off := by
  simp only [State.genInUse, laneIndices, List.any_eq_true, List.mem_finRange, true_and, Bool.and_eq_true, beq_iff_eq,
    bne_iff_ne, Role.gen_eq_some_iff]

theorem Gen.settingBytes_eq (g : Gen) :
    g.settingBytes =
      be4 g.num ++ be4 g.den
        ++ [byteOf (if g.num = 0 then 0 else 1), byteOf (match g.reference with
              | some i => i.val
              | none => 0xFF), byteOf g.step, byteOf g.window]
        ++ be2 (BitVec.ofInt 16 g.trim).toNat ++ be2 g.reviewCount := by
  rw [Gen.settingBytes, flagCode_isRunning]
  cases g.reference <;> rfl

section
variable {b ref step w o : Byte} {num den : Word}

/-- The argument bytes of a CLOCK_CONFIG. -/
def clockArgs (b : Byte) (num den : Word) (ref step w o : Byte) : List Byte :=
  [b] ++ be4 num.toNat ++ be4 den.toNat ++ [ref, step, w, o]

theorem clockConfig_args (s : State) :
    clockConfig (clockArgs b num den ref step w o) s =
      match genOfCode b.toNat, referenceOfCode ref.toNat with
      | some g, some reference =>
        if !clockRangesOk num.toNat den.toNat step.toNat w.toNat then
          (s, { status := .value, results := (s.gen g).settingBytes })
        else if (num.toNat ≠ (s.gen g).num ∨ den.toNat ≠ (s.gen g).den) ∧ s.genInUse g then
          (s, { status := .busy, results := (s.gen g).settingBytes })
        else
          (s.setGen g
              ((s.gen g).configure num.toNat den.toNat reference step.toNat w.toNat (o.toNat == 1)),
            { status := .ok,
              results := ((s.gen g).configure num.toNat den.toNat reference step.toNat w.toNat
                (o.toNat == 1)).settingBytes })
      | _, _ => (s, { status := .index }) := by
  have hnum : beAt (clockArgs b num den ref step w o) 1 4 = num.toNat := ofBe_be4 num.isLt
  have hden : beAt (clockArgs b num den ref step w o) 5 4 = den.toNat := ofBe_be4 den.isLt
  simp only [clockConfig, hnum, hden]
  rfl

theorem clockConfig_of_badIndex (h : 1 < b.toNat ∨ (63 < ref.toNat ∧ ref ≠ 0xFF)) (s : State) :
    clockConfig (clockArgs b num den ref step w o) s = (s, { status := .index }) := by
  rw [clockConfig_args]
  rcases h with h | ⟨h, hnone⟩
  · rw [genOfCode_eq_none h]
  · rw [referenceOfCode_eq_none h fun e => hnone (BitVec.eq_of_toNat_eq e)]
    cases genOfCode b.toNat <;> rfl

variable {g : GenIdx} {reference : Option StreamIdx} {s : State}

/-- The settings a CLOCK_CONFIG may ask for. -/
abbrev ClockSettingsOk (num den : Word) (step w : Byte) : Prop :=
  num.toNat ≤ 1048575 ∧ 1 ≤ den.toNat ∧ den.toNat ≤ 1048575
    ∧ (num.toNat ≠ 0 → num.toNat * 4 ≤ den.toNat) ∧ 1 ≤ step.toNat ∧ step.toNat ≤ 16 ∧ w.toNat ≤ 4

/-- A change of the ratio while a lane runs on the generator. -/
abbrev State.ratioHeld (s : State) (g : GenIdx) (num den : Word) : Prop :=
  (num.toNat ≠ (s.gen g).num ∨ den.toNat ≠ (s.gen g).den)
    ∧ ∃ l : LaneIdx, (s.lane l).config.role = (if g = .mcg0 then .master0 else .master1) ∧ (s.lane l).state ≠ .off

/-- The checks of a CLOCK_CONFIG whose indices name a generator and a reference. -/
theorem clockConfig_of_index (hb : b = if g = .mcg0 then 0 else 1) (href : NamesReference ref reference) :
    clockConfig (clockArgs b num den ref step w o) s =
      if !clockRangesOk num.toNat den.toNat step.toNat w.toNat then
        (s, { status := .value, results := (s.gen g).settingBytes })
      else if (num.toNat ≠ (s.gen g).num ∨ den.toNat ≠ (s.gen g).den) ∧ s.genInUse g then
        (s, { status := .busy, results := (s.gen g).settingBytes })
      else
        (s.setGen g ((s.gen g).configure num.toNat den.toNat reference step.toNat w.toNat (o.toNat == 1)),
          { status := .ok,
            results := ((s.gen g).configure num.toNat den.toNat reference step.toNat w.toNat
              (o.toNat == 1)).settingBytes }) := by
  have hgen : genOfCode b.toNat = some g := by
    subst hb
    cases g <;> rfl
  rw [clockConfig_args, hgen, referenceOfCode_eq_some href]

theorem clockConfig_of_unsound (hb : b = if g = .mcg0 then 0 else 1) (href : NamesReference ref reference)
    (h : ¬ ClockSettingsOk num den step w) :
    clockConfig (clockArgs b num den ref step w o) s =
      (s, { status := .value, results := (s.gen g).settingBytes }) := by
  have hranges : clockRangesOk num.toNat den.toNat step.toNat w.toNat = false :=
    Bool.eq_false_iff.mpr (mt (clockRangesOk_iff _ _ _ _).mp h)
  rw [clockConfig_of_index hb href, hranges]
  rfl

theorem clockConfig_of_held (hb : b = if g = .mcg0 then 0 else 1) (href : NamesReference ref reference)
    (h : ClockSettingsOk num den step w) (hheld : s.ratioHeld g num den) :
    clockConfig (clockArgs b num den ref step w o) s =
      (s, { status := .busy, results := (s.gen g).settingBytes }) := by
  rw [clockConfig_of_index hb href, (clockRangesOk_iff _ _ _ _).mpr h]
  exact (if_neg (by decide)).trans (if_pos ⟨hheld.1, (s.genInUse_iff g).mpr hheld.2⟩)

theorem clockConfig_of_ok (hb : b = if g = .mcg0 then 0 else 1) (href : NamesReference ref reference)
    (h : ClockSettingsOk num den step w) (hfree : ¬ s.ratioHeld g num den) :
    clockConfig (clockArgs b num den ref step w o) s =
      (s.setGen g ((s.gen g).configure num.toNat den.toNat reference step.toNat w.toNat (o.toNat == 1)),
        { status := .ok,
          results := ((s.gen g).configure num.toNat den.toNat reference step.toNat w.toNat
            (o.toNat == 1)).settingBytes }) := by
  rw [clockConfig_of_index hb href, (clockRangesOk_iff _ _ _ _).mpr h]
  exact (if_neg (by decide)).trans (if_neg fun e => hfree ⟨e.1, (s.genInUse_iff g).mp e.2⟩)

end

/-- Settles O46: the indices, the ranges, the generator in use, and the settings as they are written. -/
theorem clockConfigSetsAGenerator : Obligations.ClockConfigSetsAGenerator := by
  intro s rq rest b ref step w o num den hs hx hcode hargs ho settings
  have hframed : RequestCode.clockConfig.framed (clockArgs b num den ref step w o) = true := by
    rcases byte_le_one ho with rfl | rfl <;> rfl
  have reply {u : State} {a : Answer} (h : clockConfig (clockArgs b num den ref step w o) (s.taken rest) = (u, a))
      (hu : u.settled) : exec .clockConfig s = .next (u.replied rq (0x0E :: a.status.code :: a.results)) :=
    exec_command_replied .clockConfig hx hcode hargs rfl (by decide) hframed h hu
  have hsettings : settings = Gen.settingBytes := funext fun g => g.settingBytes_eq.symm
  rw [hsettings]
  refine ⟨fun h => reply (clockConfig_of_badIndex h _) hs, fun g reference hb href => ?_⟩
  intro x sound busy y
  refine ⟨fun h => reply (clockConfig_of_unsound hb href h) hs,
    fun h hheld => reply (clockConfig_of_held hb href h hheld) hs, fun h hfree => ?accepted⟩
  case accepted =>
    have hy : (x.configure num.toNat den.toNat reference step.toNat w.toNat (o.toNat == 1)) = y := by
      rcases byte_le_one ho with rfl | rfl <;> rfl
    rw [← hy]
    exact reply (clockConfig_of_ok hb href h hfree) hs

end Sys2Proof.Machine
end

