-- ==== Sys2Proof/Proofs/Reception.lean ====
section
/-! LINK_RISE and the arrival of good frames (sections 3.3 to 3.5, R46, R49 to R58): the tag lookup, the format checks in
the bytes of the frame, the request that a frame carries, and the obligations assembled from these. -/

namespace Sys2Proof.Machine

/-- Settles O7: the link state moves after the load alone, and only from DOWN. -/
theorem linkRiseTakesADownPortUp : Obligations.LinkRiseTakesADownPortUp := by
  refine fun p s => ⟨fun hstarted hdown => ?up, fun h => ?input⟩
  case up =>
    refine congrArg Host.Outcome.next ((if_pos ⟨hstarted, hdown⟩).trans ?_)
    rw [State.setPort_setPort]
  case input => exact congrArg Host.Outcome.next (if_neg h)

/-! ## The tag lookup (R4, R49) -/

theorem State.lookup_of_matched {s : State} {tag : Word} {i : StreamIdx} (h0 : tag ≠ 0)
    (hused : (s.stream i).state ≠ .empty) (htag : (s.stream i).tag = tag)
    (hunique : ∀ j : StreamIdx, (s.stream j).state ≠ .empty → (s.stream j).tag = tag → j = i) :
    s.lookup tag = some i := by
  unfold State.lookup
  rw [if_neg h0]
  cases hfind : streamIndices.find? fun i => (s.stream i).state != .empty && (s.stream i).tag == tag with
  | none =>
    refine absurd (List.find?_eq_none.mp hfind i (List.mem_finRange i)) (not_not_intro ?_)
    exact (Bool.and_eq_true _ _).mpr ⟨bne_iff_ne.mpr hused, beq_iff_eq.mpr htag⟩
  | some j =>
    have hfound := List.find?_some hfind
    obtain ⟨hj, hjtag⟩ := (Bool.and_eq_true _ _).mp hfound
    rw [hunique j (bne_iff_ne.mp hj) (beq_iff_eq.mp hjtag)]

/-! ## The format checks (R51 to R53) -/

/-- END is bit 1 of the flags. -/
theorem frameEnd_eq (f : List Byte) : frameEnd f = decide (byteAt f 1 / 2 % 2 = 1) :=
  Nat.testBit_eq_decide_div_mod_eq

theorem Width.bytes_eq (w : Width) : w.bytes = if w = .w16 then 2 else if w = .w24 then 3 else 4 := by
  cases w <;> rfl

theorem Width.code_eq (w : Width) : w.code = if w = .w16 then 0 else if w = .w24 then 1 else 2 := by
  cases w <;> rfl

theorem eq_div_mul_iff (n group : Nat) : n = n / group * group ↔ n % group = 0 := by
  have := Nat.div_add_mod' n group
  omega

/-- A frame that the definition of a stream admits, in the bytes of the frame. -/
abbrev Stream.Fits (st : Stream) (f : List Byte) : Prop :=
  let n := beAt f 14 2 / (st.channels * st.width.bytes)
  byteAt f 12 = st.channels ∧ byteAt f 13 = st.width.code ∧ beAt f 14 2 % (st.channels * st.width.bytes) = 0
    ∧ (byteAt f 1 / 2 % 2 = 1 → n ≤ st.frameSamples) ∧ (¬ byteAt f 1 / 2 % 2 = 1 → n = st.frameSamples)

theorem formatCheck_eq (st : Stream) (f : List Byte) [Decidable (st.Fits f)] :
    formatCheck st f = if st.Fits f then some (beAt f 14 2 / (st.channels * st.width.bytes)) else none := by
  have hsamples (n : Nat) :
      (if frameEnd f = true then decide (n ≤ st.frameSamples) else n == st.frameSamples) = true ↔
        (byteAt f 1 / 2 % 2 = 1 → n ≤ st.frameSamples) ∧ (¬ byteAt f 1 / 2 % 2 = 1 → n = st.frameSamples) := by
    by_cases hend : byteAt f 1 / 2 % 2 = 1
    · rw [if_pos ((frameEnd_eq f).trans (decide_eq_true hend)), decide_eq_true_eq]
      exact ⟨fun h => ⟨fun _ => h, fun h' => absurd hend h'⟩, fun h => h.1 hend⟩
    · rw [if_neg (by rw [frameEnd_eq, decide_eq_true_eq]; exact hend), beq_iff_eq]
      exact ⟨fun h => ⟨fun h' => absurd h' hend, fun _ => h⟩, fun h => h.2 hend⟩
  have hchecks : ((frameChannels f).toNat == st.channels && (frameWidthCode f).toNat == st.width.code
      && framePayloadLength f == framePayloadLength f / (st.channels * st.width.bytes) * (st.channels * st.width.bytes)
      && (if frameEnd f then framePayloadLength f / (st.channels * st.width.bytes) ≤ st.frameSamples
          else framePayloadLength f / (st.channels * st.width.bytes) == st.frameSamples)) = true ↔ st.Fits f := by
    rw [Bool.and_eq_true, Bool.and_eq_true, Bool.and_eq_true, beq_iff_eq, beq_iff_eq, beq_iff_eq, eq_div_mul_iff,
      hsamples]
    exact ⟨fun ⟨⟨⟨h1, h2⟩, h3⟩, h4⟩ => ⟨h1, h2, h3, h4⟩, fun ⟨h1, h2, h3, h4⟩ => ⟨⟨⟨h1, h2⟩, h3⟩, h4⟩⟩
  by_cases h : st.Fits f
  · rw [if_pos h]
    exact if_pos (hchecks.mpr h)
  · rw [if_neg h]
    exact if_neg (mt hchecks.mp h)

/-! ## A SAMPLE frame whose tag matches an entry (R51 to R54) -/

theorem Stream.activePlayout_iff (st : Stream) :
    st.activePlayout = true ↔ st.direction = .playout ∧ (st.state = .armed ∨ st.state = .running ∨ st.state = .starved) := by
  simp only [Stream.activePlayout, Bool.and_eq_true, Bool.or_eq_true, beq_iff_eq, or_assoc]

section
variable {p : Port} {f : List Byte} {s : State} {i : StreamIdx}

theorem receiveSample_of_inactive (h : s.lookup (frameTag f) = some i) (hactive : ¬ (s.stream i).activePlayout = true) :
    receiveSample p f s = s.countRx p fun c => { c with inactive := bump c.inactive } := by
  simp only [receiveSample, h, if_neg hactive]

theorem receiveSample_of_unfit (h : s.lookup (frameTag f) = some i) (hactive : (s.stream i).activePlayout = true)
    (hcheck : formatCheck (s.stream i) f = none) :
    receiveSample p f s = s.setStream i (s.stream i).countFormatError := by
  simp only [receiveSample, h, if_pos hactive, hcheck]

theorem receiveSample_of_fit {n : Nat} (h : s.lookup (frameTag f) = some i) (hactive : (s.stream i).activePlayout = true)
    (hcheck : formatCheck (s.stream i) f = some n) :
    receiveSample p f s = playoutArrival i (playFrameOf (s.stream i) f n) s := by
  simp only [receiveSample, h, if_pos hactive, hcheck]

end

/-- Settles O11: the lookup finds the entry, and then the entry is inactive, the frame does not fit, or it is handed on. -/
theorem knownTagsAreJudgedAndHandedOn : Obligations.KnownTagsAreJudgedAndHandedOn := by
  intro p f s i hup hgood hused htag h0 hunique c st active g code group ends n fits handed
  have hlookup : (s.countRx p fun c => { c with good := bump c.good }).lookup (frameTag f) = some i :=
    State.lookup_of_matched (fun e => h0 (htag.trans e)) hused htag fun j hj hjtag => hunique j hj (hjtag.trans htag.symm)
  have hgroup : group = st.channels * st.width.bytes := by rw [Width.bytes_eq]
  have hfits : fits ↔ st.Fits f := by
    rw [Stream.Fits, Width.code_eq, ← hgroup]
  have hcheck := formatCheck_eq st f
  rw [exec_trunkFrameArrival_of_goodFrame hup hgood, receiveGood_of_sample hgood]
  refine ⟨fun h => ?inactive, fun h hunfit => ?unfit, fun h hfit => ?fit⟩
  case inactive =>
    rw [receiveSample_of_inactive hlookup (mt st.activePlayout_iff.mp h), State.countRx_countRx]
  case unfit =>
    rw [if_neg (mt hfits.mpr hunfit)] at hcheck
    rw [receiveSample_of_unfit hlookup (st.activePlayout_iff.mpr h) hcheck]
    rfl
  case fit =>
    rw [if_pos (hfits.mp hfit), ← hgroup] at hcheck
    rw [receiveSample_of_fit hlookup (st.activePlayout_iff.mpr h) hcheck]
    have hhanded : playFrameOf st f n = handed := by
      unfold playFrameOf
      rw [frameEnd_eq]
      rfl
    show Host.Outcome.next (((s.countRx p _).setStream i (st.arrive (playFrameOf st f n)).1).postAll (.stream i)
      (st.arrive (playFrameOf st f n)).2) = _
    rw [hhanded]
    rfl

/-! ## REQUEST and REPLY frames (R56 to R58) -/

/-- The payload of a REQUEST frame: its code, and then its arguments. -/
theorem framePayload_of_request {f : List Byte} (h : GoodFrame f 0x52) :
    framePayload f = f.getD 16 0 :: (f.drop 17).take (f.length - 21) := by
  obtain ⟨-, -, hpayload, -, -, hkind⟩ := h
  have h16 : 16 < f.length := by omega
  have htake : f.length - 20 = f.length - 21 + 1 := by omega
  rw [framePayload, List.drop_eq_getElem_cons h16, htake, List.take_succ_cons, List.getD_eq_getElem?_getD,
    List.getElem?_eq_getElem h16]
  rfl

theorem ControlPorts.allows_iff (c : ControlPorts) (p : Port) :
    c.allows p = true ↔ c = .either ∨ (c = .ta ∧ p = .ta) ∨ (c = .tb ∧ p = .tb) := by
  cases c <;> cases p <;> decide

theorem State.accepts_iff (s : State) (p : Port) (f : List Byte) :
    s.accepts p f = true ↔
      (frameDest f = s.control.nodeId ∨ frameDest f = 0xFFFF)
        ∧ (s.control.ports = .either ∨ (s.control.ports = .ta ∧ p = .ta) ∨ (s.control.ports = .tb ∧ p = .tb))
        ∧ s.control.halted = false := by
  simp only [State.accepts, Config.broadcastNode, Bool.and_eq_true, Bool.or_eq_true, beq_iff_eq, Bool.not_eq_true',
    ControlPorts.allows_iff, and_assoc]

theorem receiveGood_of_request {f : List Byte} (h : GoodFrame f 0x52) (p : Port) (s : State) :
    receiveGood p f s = receiveRequest p f (s.countRx p fun c => { c with good := bump c.good }) := by
  unfold receiveGood
  rw [frameKind_of_goodFrame h]
  rfl

theorem receiveGood_of_reply {f : List Byte} (h : GoodFrame f 0x53) (p : Port) (s : State) :
    receiveGood p f s =
      s.withRx p { (s.port p).rx with
        good := bump (s.port p).rx.good, notAddressed := bump (s.port p).rx.notAddressed } := by
  unfold receiveGood
  rw [frameKind_of_goodFrame h]
  exact (if_neg (by decide)).trans ((if_neg (by decide)).trans (State.countRx_countRx s p _ _))

/-- Settles O12: a REPLY, a REQUEST that is not accepted, and an accepted one with and without room in the queue. -/
theorem requestsAreAcceptedAndRepliesDiscarded : Obligations.RequestsAreAcceptedAndRepliesDiscarded := by
  intro p f s hup c dest accepted
  refine ⟨fun hgood => ?reply, fun hgood h => ?refused, fun hgood h hroom => ?placed, fun hgood h hfull => ?dropped⟩
  case reply => rw [exec_trunkFrameArrival_of_goodFrame hup hgood, receiveGood_of_reply hgood]
  case refused =>
    rw [exec_trunkFrameArrival_of_goodFrame hup hgood, receiveGood_of_request hgood]
    refine congrArg Host.Outcome.next ((if_neg (mt (State.accepts_iff _ p f).mp h)).trans ?_)
    exact State.countRx_countRx s p _ _
  case placed =>
    rw [exec_trunkFrameArrival_of_goodFrame hup hgood, receiveGood_of_request hgood]
    refine congrArg Host.Outcome.next ((if_pos ((State.accepts_iff _ p f).mpr h)).trans ((if_pos hroom).trans ?_))
    rw [State.countRx_countRx, requestOf, framePayload_of_request hgood]
    rfl
  case dropped =>
    rw [exec_trunkFrameArrival_of_goodFrame hup hgood, receiveGood_of_request hgood]
    refine congrArg Host.Outcome.next ((if_pos ((State.accepts_iff _ p f).mpr h)).trans
      ((if_neg (Nat.not_lt.mpr hfull)).trans ?_))
    exact State.countRx_countRx s p _ _

end Sys2Proof.Machine
end

