-- ==== Sys2Proof/Proofs/Reservations.lean ====
section
/-! Reservations and admission (chapter 2, R3, R18, R23, R24, R30): the cells of a frame and of a stream, what a stream
holds of them, and the admission test head by head. -/

namespace Sys2Proof.Machine

/-! ## The admission test (R30) -/

/-- The list that an admission test works on is an argument of its own. -/
theorem admitFrom_setWaitList (w v : List StreamIdx) (s : State) : admitFrom w (s.setWaitList v) = admitFrom w s := by
  induction w generalizing s with
  | nil => rfl
  | cons i rest ih =>
    have hfits : ((s.setWaitList v).stream i).reservation ≤ (s.setWaitList v).unreserved ↔
        (s.stream i).reservation ≤ s.unreserved := Iff.rfl
    unfold admitFrom
    by_cases h : (s.stream i).reservation ≤ s.unreserved
    · refine (if_pos (hfits.mpr h)).trans (Eq.trans ?_ (if_pos h).symm)
      exact ih ((s.setStream i (s.stream i).enterArmed).post .streamAdmitted (.stream i)
        (BitVec.ofNat 32 (s.stream i).reservation))
    · exact (if_neg (mt hfits.mp h)).trans (if_neg h).symm

theorem State.setWaitList_waitList_self (s : State) : s.setWaitList s.waitList = s := rfl

/-- Settles O28: an empty list, a head that does not fit, and a head that does. -/
theorem admissionTestAdmitsInOrder : Obligations.AdmissionTestAdmitsInOrder := by
  refine fun s => ⟨fun hempty => ?empty, fun h rest hlist => ⟨fun hlarge => ?waits, fun hfits => ?admitted⟩⟩
  case empty =>
    unfold admissionTest
    rw [hempty]
    exact (congrArg s.setWaitList hempty).symm
  case waits =>
    unfold admissionTest
    rw [hlist]
    refine (if_neg (Nat.not_le.mpr hlarge)).trans ?_
    rw [← hlist]
    rfl
  case admitted =>
    unfold admissionTest
    rw [hlist]
    refine (if_pos hfits).trans ?_
    exact (admitFrom_setWaitList rest rest _).symm

/-! ## Reservations (R3, R23, R24) -/

theorem Stream.cellsPerFrame_le_iff (st : Stream) (k : Nat) :
    st.cellsPerFrame ≤ k ↔ st.channels * st.frameSamples ≤ 64 * k := by
  unfold Stream.cellsPerFrame Config.wordsPerCell
  omega

theorem Stream.reservation_of_playout {st : Stream} (h : st.direction = .playout) :
    st.reservation = st.depthMax * st.cellsPerFrame := by
  unfold Stream.reservation
  rw [h]

theorem Stream.reservation_of_capture {st : Stream} (h : st.direction = .capture) :
    st.reservation = 3 * st.cellsPerFrame := by
  unfold Stream.reservation
  rw [h]

theorem StreamState.reserves_iff (x : StreamState) :
    x.reserves = true ↔ x = .armed ∨ x = .running ∨ x = .starved ∨ x = .draining := by
  cases x <;> decide

theorem Stream.reserved_of_reserves {st : Stream} (h : st.state.reserves = true) : st.reserved = st.reservation := if_pos h

theorem Stream.cellsPerFrame_of_definitionOk {st : Stream} (h : st.definitionOk) :
    1 ≤ st.cellsPerFrame ∧ st.cellsPerFrame ≤ 8 := by
  obtain ⟨-, hchannels, -, hsamples, -, hbytes, -⟩ := h
  have hwidth : 2 ≤ st.width.bytes := by cases st.width <;> decide
  have hpositive : 0 < st.channels * st.frameSamples := Nat.mul_pos hchannels hsamples
  have hwords : st.channels * st.frameSamples * 2 ≤ 1024 :=
    calc st.channels * st.frameSamples * 2 ≤ st.channels * st.frameSamples * st.width.bytes := Nat.mul_le_mul_left _ hwidth
      _ = st.channels * st.width.bytes * st.frameSamples := Nat.mul_right_comm _ _ _
      _ ≤ 1024 := hbytes
  constructor
  · have := st.cellsPerFrame_le_iff 0
    omega
  · exact (st.cellsPerFrame_le_iff 8).mpr (by omega)

/-! ## What a stream holds (R24) -/

section
variable {st : Stream}

/-- A playout stream holds frames in its window alone, while it is active. -/
theorem Stream.cellsHeld_of_playout (h : st.Sound) (hplays : st.Plays) (hplayout : st.direction = .playout) :
    st.cellsHeld ≤ st.reserved := by
  obtain ⟨hready, hcon, -⟩ := h.playout_idle hplayout
  have hheld : st.cellsHeld = st.held * st.cellsPerFrame := by
    unfold Stream.cellsHeld
    rw [hready, hcon]
    rfl
  rw [hheld]
  cases he : st.expected with
  | none =>
    have hnone : st.held = 0 := by
      unfold Stream.held
      rw [(hplays.unset he).1]
      rfl
    rw [hnone, Nat.zero_mul]
    exact Nat.zero_le _
  | some e =>
    obtain ⟨hactive, hwindow⟩ := hplays.set e he
    have hreserves : st.state.reserves = true :=
      (StreamState.reserves_iff _).mpr (((st.activePlayout_iff.mp hactive).2).imp id (Or.imp id .inl))
    rw [Stream.reserved_of_reserves hreserves, Stream.reservation_of_playout hplayout]
    exact Nat.mul_le_mul_right _ (Nat.le_trans List.countP_le_length (Nat.le_of_eq hwindow.length))

/-- A capture stream holds at most two ready frames and one under construction, in the states that reserve three. -/
theorem Stream.cellsHeld_of_capture (h : st.Sound) (hcapture : st.direction = .capture) :
    st.cellsHeld ≤ st.reserved := by
  have hheld : st.held = 0 := by
    unfold Stream.held
    rw [(h.fields.2 hcapture).2.2.2.2.2.1]
    rfl
  by_cases hreserves : st.state.reserves = true
  · rw [Stream.reserved_of_reserves hreserves, Stream.reservation_of_capture hcapture]
    refine Nat.mul_le_mul_right _ ?_
    have hroom := h.room
    split <;> omega
  · have hready : st.ready = [] := Decidable.byContradiction fun hr =>
      hreserves ((StreamState.reserves_iff _).mpr (((h.sends hr).2).imp id (Or.imp id .inr)))
    have hcon : st.construction = none := (h.not_building fun hrunning =>
      hreserves ((StreamState.reserves_iff _).mpr (.inr (.inl hrunning)))).1
    unfold Stream.cellsHeld
    rw [hheld, hready, hcon]
    exact Nat.le_trans (Nat.le_of_eq (Nat.zero_mul _)) (Nat.zero_le _)

end

/-- Settles O29: the sizes from their definitions, and the cells held by the direction of the entry. -/
theorem reservationsFollowTheDefinition : Obligations.ReservationsFollowTheDefinition := by
  refine ⟨fun st => ⟨st.cellsPerFrame_le_iff, Stream.reservation_of_playout, Stream.reservation_of_capture, ?reserved,
    Stream.cellsPerFrame_of_definitionOk⟩, fun s i hstreams hplays => ?held⟩
  case reserved =>
    unfold Stream.reserved
    simp only [StreamState.reserves_iff]
  case held =>
    have hsound := (s.stream i).ok_iff.mp (hstreams.1 i)
    cases hd : (s.stream i).direction with
    | playout => exact Stream.cellsHeld_of_playout hsound ((s.stream i).playOk_iff.mp (hplays i hd)) hd
    | capture => exact Stream.cellsHeld_of_capture hsound hd

end Sys2Proof.Machine
end

