-- ==== Sys2Proof/Proofs/PlaySteps.lean ====
section
/-! The step of a playout stream at a frame event (sections 4.3 to 4.5, R71 to R82): what it does in each state, frame by
frame, and the depth servo's review (section 6.4, R120 to R123). -/

namespace Sys2Proof.Machine

section
variable {st : Stream}

/-! ## Concealment (R79) -/

theorem Stream.concealWords_eq (st : Stream) :
    st.concealWords = if st.conceal = .zero then List.replicate st.channels 0 else st.hold := by
  unfold Stream.concealWords
  cases st.conceal <;> rfl

/-! ## Entering RUNNING (R72, R80) -/

theorem Stream.playStep_of_armed (h : st.state = .armed) :
    st.playStep =
      if st.held < st.depthTarget then { stream := st, words := st.zeroWords, posts := [], entered := false }
      else st.enterRunning := by
  unfold Stream.playStep
  rw [h]

theorem Stream.playStep_of_starved (h : st.state = .starved) :
    st.playStep =
      if st.held < st.depthTarget then { stream := st, words := st.concealWords, posts := [], entered := false }
      else st.skipToOldest.enterRunning := by
  unfold Stream.playStep
  rw [h]

/-- Settles O17: below D frames a stream waits, and with D it takes its boundary step in RUNNING. -/
theorem streamsPrimeFromDFrames : Obligations.StreamsPrimeFromDFrames := by
  intro st held n enter
  refine ⟨fun hs hfew => ?armedWaits, fun hs hmany => ?armedEnters, fun hs hfew => ?starvedWaits,
    fun hs hmany => ?starvedEnters⟩
  case armedWaits => exact (Stream.playStep_of_armed hs).trans (if_pos hfew)
  case armedEnters => exact (Stream.playStep_of_armed hs).trans (if_neg (Nat.not_lt.mpr hmany))
  case starvedWaits =>
    rw [Stream.playStep_of_starved hs, Stream.concealWords_eq]
    exact if_pos hfew
  case starvedEnters => exact (Stream.playStep_of_starved hs).trans (if_neg (Nat.not_lt.mpr hmany))

/-! ## RUNNING (R73 to R79, R81, R82) -/

theorem Stream.playStep_of_running (h : st.state = .running) :
    st.playStep =
      if st.gap then st.gapStep
      else if st.readIndex = 0 then st.boundary
      else
        match st.front with
        | some f => st.giveSample f st.readIndex
        | none => st.boundary := by
  unfold Stream.playStep
  rw [h] <;> rfl

theorem Stream.boundary_of_frame {f : PlayFrame} (hfront : st.front = some f) (h : ¬ (f.isEnd && f.samples == 0) = true) :
    st.boundary = st.giveSample f 0 := by
  simp only [Stream.boundary, hfront, if_neg h]

/-- A RUNNING stream reads the frame at position E, from its first sample at the boundary. -/
theorem Stream.playStep_of_frame {f : PlayFrame} (hs : st.state = .running) (hgap : st.gap = false)
    (hfront : st.front = some f) (h : st.readIndex = 0 → ¬ (f.isEnd && f.samples == 0) = true) :
    st.playStep = st.giveSample f st.readIndex := by
  rw [Stream.playStep_of_running hs, hgap]
  by_cases hi : st.readIndex = 0
  · refine (if_neg Bool.false_ne_true).trans ((if_pos hi).trans ?_)
    rw [Stream.boundary_of_frame hfront (h hi), hi]
  · refine (if_neg Bool.false_ne_true).trans ((if_neg hi).trans ?_)
    rw [hfront]

/-- A gap goes on, or begins at the boundary where the frame is missing and others are held. -/
theorem Stream.playStep_of_gap (hs : st.state = .running)
    (h : st.gap = true ∨ (st.readIndex = 0 ∧ st.front = none ∧ 0 < st.held)) (hgap : st.gap = true ∨ st.gap = false) :
    st.playStep = st.gapStep := by
  rw [Stream.playStep_of_running hs]
  rcases hgap with hgap | hgap
  · exact if_pos hgap
  · obtain ⟨hi, hfront, hheld⟩ := h.resolve_left fun e => Bool.false_ne_true (hgap.symm.trans e)
    rw [hgap]
    refine (if_neg Bool.false_ne_true).trans ((if_pos hi).trans ?_)
    simp only [Stream.boundary, hfront, if_pos hheld]

theorem Stream.playStep_of_nothing (hs : st.state = .running) (hgap : st.gap = false) (hfront : st.front = none)
    (hheld : st.held = 0) : st.playStep = st.starve := by
  have hboundary : st.boundary = st.starve := by
    simp only [Stream.boundary, hfront, hheld, if_neg (Nat.lt_irrefl 0)]
  rw [Stream.playStep_of_running hs, hgap, hfront, hboundary]
  exact (if_neg Bool.false_ne_true).trans (ite_self _)

/-- Settles O18: a sample of a frame, a lane frame of a gap, and starvation. -/
theorem runningStreamsPlayGapAndStarve : Obligations.RunningStreamsPlayGapAndStarve := by
  intro st hs front held concealed shifted i
  have hconcealed : st.concealWords = concealed := st.concealWords_eq
  refine ⟨fun f hgap hfront hend => ?frame, fun h => ?gap, fun hgap hfront hheld => ?starves⟩
  case frame =>
    intro words
    have hlength : st.playLength f = st.frameSamples := by
      unfold Stream.playLength
      rw [hend]
      rfl
    have hstep : st.playStep = st.giveSample f i :=
      Stream.playStep_of_frame hs hgap hfront fun _ => by rw [hend]; exact Bool.false_ne_true
    rw [hstep, Stream.giveSample, hlength, hend]
    exact ⟨fun hmore => if_pos hmore, fun hlast => (if_neg (Nat.not_lt.mpr hlast)).trans (if_neg Bool.false_ne_true)⟩
  case gap =>
    have hstep : st.playStep = st.gapStep := Stream.playStep_of_gap hs h (Bool.eq_false_or_eq_true _)
    rw [hstep, Stream.gapStep, hconcealed]
    refine ⟨fun hmore => ?_, fun hlast => ?_⟩
    · rw [if_pos hmore]
    · rw [if_neg (Nat.not_lt.mpr hlast)]
      rfl
  case starves =>
    rw [Stream.playStep_of_nothing hs hgap hfront hheld, Stream.starve, hconcealed]
    rfl

/-- Settles O19: an END frame without samples ends the run at its boundary, and one with samples after its last. -/
theorem endFramesEndTheRun : Obligations.EndFramesEndTheRun := by
  intro st f hs hgap hfront hend i words ended
  have hlength : st.playLength f = f.samples := by
    unfold Stream.playLength
    rw [hend]
    rfl
  have sample (hsome : 0 < f.samples) : st.playStep = st.giveSample f i := by
    refine Stream.playStep_of_frame hs hgap hfront fun _ h => ?_
    rw [hend] at h
    exact Nat.ne_of_gt hsome (eq_of_beq h)
  refine ⟨fun hnone hi => ?empty, fun hsome hmore => ?more, fun hsome hlast => ?last⟩
  case empty =>
    have hboundary : st.boundary =
        { stream := st.completeEnd, words := st.zeroWords, posts := [endPost f], entered := false } := by
      have hempty : (f.isEnd && f.samples == 0) = true := by
        rw [hend, hnone]
        rfl
      have hfront' : st.front = some f := hfront
      simp only [Stream.boundary, hfront', if_pos hempty]
    rw [Stream.playStep_of_running hs, hgap]
    exact (if_neg Bool.false_ne_true).trans ((if_pos hi).trans hboundary)
  case more =>
    rw [sample hsome, Stream.giveSample, hlength]
    exact if_pos hmore
  case last =>
    rw [sample hsome, Stream.giveSample, hlength]
    exact (if_neg (Nat.not_lt.mpr hlast)).trans (if_pos hend)

end

/-! ## Reviews of the depth servo (R120 to R123) -/

theorem clampTrim_of_within {t : Int} (hlow : -512 ≤ t) (hhigh : t ≤ 512) : clampTrim t = t := by
  unfold clampTrim Config.trimLimit
  omega

theorem clampTrim_of_above {t : Int} (h : 512 < t) : clampTrim t = 512 := by
  unfold clampTrim Config.trimLimit
  omega

theorem clampTrim_of_below {t : Int} (h : t < -512) : clampTrim t = -512 := by
  unfold clampTrim Config.trimLimit
  omega

section
variable {s : State} {g : GenIdx} {held target : Nat}

theorem review_of_within (hlow : -512 ≤ (s.gen g).wantedTrim held target) (hhigh : (s.gen g).wantedTrim held target ≤ 512) :
    review g held target s =
      s.setGen g { s.gen g with trim := (s.gen g).wantedTrim held target, reviewCount := 0 } := by
  unfold review
  dsimp only
  rw [clampTrim_of_within hlow hhigh]
  exact if_pos rfl

theorem review_of_above (h : 512 < (s.gen g).wantedTrim held target) :
    review g held target s =
      (s.setGen g { s.gen g with trim := 512, reviewCount := 0 }).post .servoLimit (.gen g) 512 := by
  unfold review
  dsimp only
  rw [clampTrim_of_above h]
  exact if_neg (Int.ne_of_gt h)

theorem review_of_below (h : (s.gen g).wantedTrim held target < -512) :
    review g held target s =
      (s.setGen g { s.gen g with trim := -512, reviewCount := 0 }).post .servoLimit (.gen g) 0xFFFFFE00 := by
  unfold review
  dsimp only
  rw [clampTrim_of_below h]
  exact if_neg (Int.ne_of_lt h)

theorem reviewIfDue_of_none (h : (s.gen g).reference = none) : reviewIfDue g s = s := by
  unfold reviewIfDue
  rw [h]

theorem reviewIfDue_of_not_due {r : StreamIdx} (hr : (s.gen g).reference = some r)
    (h : ¬ (1024 ≤ (s.gen g).reviewCount ∧ (s.stream r).direction = .playout)) : reviewIfDue g s = s := by
  unfold reviewIfDue
  rw [hr]
  exact if_neg h

theorem reviewIfDue_of_due {r : StreamIdx} (hr : (s.gen g).reference = some r) (hdue : 1024 ≤ (s.gen g).reviewCount)
    (hplayout : (s.stream r).direction = .playout) :
    reviewIfDue g s = review g (s.stream r).held (s.stream r).depthTarget s := by
  unfold reviewIfDue
  rw [hr]
  exact if_pos ⟨hdue, hplayout⟩

end

/-- Settles O20: no review below 1024 or without a playout reference, and a step within, above or below the limits. -/
theorem servoReviewsStepTheTrim : Obligations.ServoReviewsStepTheTrim := by
  intro g s x
  refine ⟨fun h => congrArg Host.Outcome.next ?early, fun r hr => ?_⟩
  case early =>
    cases hr : (s.gen g).reference with
    | none => exact reviewIfDue_of_none hr
    | some r =>
      have hcount : x.reviewCount < 1024 := h.resolve_right fun e => nomatch hr.symm.trans e
      exact reviewIfDue_of_not_due hr fun hdue => Nat.not_le.mpr hcount hdue.1
  intro st held wanted
  refine ⟨fun hd => congrArg Host.Outcome.next ?capture, fun hdue hd hlow hhigh => congrArg Host.Outcome.next ?within,
    fun hdue hd h => congrArg Host.Outcome.next ?above, fun hdue hd h => congrArg Host.Outcome.next ?below⟩
  case capture => exact reviewIfDue_of_not_due hr fun hdue => nomatch hdue.2.symm.trans hd
  case within => exact (reviewIfDue_of_due hr hdue hd).trans (review_of_within hlow hhigh)
  case above => exact (reviewIfDue_of_due hr hdue hd).trans (review_of_above h)
  case below => exact (reviewIfDue_of_due hr hdue hd).trans (review_of_below h)

end Sys2Proof.Machine
end

