-- ==== Sys2Proof/Proofs/StreamDefine.lean ====
section
/-! STREAM_DEFINE (section 1.4, R11 to R16): the checks of the handler in order, what an accepted request writes, that the
part stays settled, and the obligations assembled from these. -/

namespace Sys2Proof.Machine

/-! ## The checks of STREAM_DEFINE (R11 to R13) -/

theorem exists_parseDefinition {a : List Byte} (h : DefinitionArgsOk a) : ∃ new, parseDefinition a = some new := by
  have ⟨_, _, _, _, _, _, _, hlane, hdirection⟩ := h
  obtain ⟨lane, hl⟩ : ∃ lane : LaneIdx, byteAt a 9 = lane.val := ⟨⟨_, Nat.lt_succ_of_le hlane⟩, rfl⟩
  rcases hdirection with ⟨hd, -⟩ | ⟨hd, -⟩
  · exact ⟨_, parseDefinition_of_playout hl hd h⟩
  · exact ⟨_, parseDefinition_of_capture hl hd h⟩

theorem State.tagTaken_iff (s : State) (i : StreamIdx) (tag : Word) :
    s.tagTaken i tag = true ↔ ∃ j : StreamIdx, j ≠ i ∧ (s.stream j).state ≠ .empty ∧ (s.stream j).tag = tag := by
  simp only [State.tagTaken, streamIndices, List.any_eq_true, List.mem_finRange, true_and, Bool.and_eq_true, bne_iff_ne,
    beq_iff_eq, and_assoc]

section
variable {a : List Byte} {s : State} {i : StreamIdx}

theorem streamDefine_of_badIndex (h : 63 < byteAt a 0) (s : State) : streamDefine a s = (s, { status := .index }) := by
  simp only [streamDefine, finOf_eq_none (k := 64) h]

theorem streamDefine_of_inUse (h : byteAt a 0 = i.val)
    (hused : ¬ ((s.stream i).state = .empty ∨ (s.stream i).state = .idle)) :
    streamDefine a s = (s, { status := .state }) := by
  simp only [streamDefine, finOf_val h]
  exact if_pos ⟨fun e => hused (.inl e), fun e => hused (.inr e)⟩

/-- A free entry goes on to the checks of the definition. -/
theorem streamDefine_of_free (h : byteAt a 0 = i.val) (hfree : (s.stream i).state = .empty ∨ (s.stream i).state = .idle) :
    streamDefine a s =
      match parseDefinition a with
      | none => (s, { status := .value })
      | some new =>
        if s.tagTaken i new.tag then (s, { status := .tagConflict }) else (define i new s, { status := .ok }) := by
  have hnot : ¬ ((s.stream i).state ≠ .empty ∧ (s.stream i).state ≠ .idle) := fun ⟨he, hi⟩ => hfree.elim he hi
  simp only [streamDefine, finOf_val h, if_neg hnot] <;> rfl

theorem streamDefine_of_badValue (h : byteAt a 0 = i.val)
    (hfree : (s.stream i).state = .empty ∨ (s.stream i).state = .idle) (hbad : ¬ DefinitionArgsOk a) :
    streamDefine a s = (s, { status := .value }) := by
  rw [streamDefine_of_free h hfree, parseDefinition_eq_none hbad]

theorem streamDefine_of_conflict (h : byteAt a 0 = i.val)
    (hfree : (s.stream i).state = .empty ∨ (s.stream i).state = .idle) (hok : DefinitionArgsOk a)
    (htaken : ∃ j : StreamIdx, j ≠ i ∧ (s.stream j).state ≠ .empty ∧ (s.stream j).tag = BitVec.ofNat 32 (beAt a 2 4)) :
    streamDefine a s = (s, { status := .tagConflict }) := by
  obtain ⟨new, hnew⟩ := exists_parseDefinition hok
  rw [streamDefine_of_free h hfree, hnew]
  refine if_pos ((s.tagTaken_iff i _).mpr ?_)
  rw [(parseDefinition_tag hnew).1]
  exact htaken

theorem streamDefine_of_accepted {new : Stream} (h : byteAt a 0 = i.val)
    (hfree : (s.stream i).state = .empty ∨ (s.stream i).state = .idle) (hnew : parseDefinition a = some new)
    (hunique : ∀ j : StreamIdx, j ≠ i → (s.stream j).state ≠ .empty → (s.stream j).tag ≠ new.tag) :
    streamDefine a s = (define i new s, { status := .ok }) := by
  rw [streamDefine_of_free h hfree, hnew]
  refine if_neg fun htaken => ?_
  obtain ⟨j, hj, hused, htag⟩ := (s.tagTaken_iff i _).mp htaken
  exact hunique j hj hused htag

end

/-- Settles O37: the checks of a STREAM_DEFINE in their order. -/
theorem streamDefineRefusesInOrder : Obligations.StreamDefineRefusesInOrder := by
  intro s rq rest hs hx hcode hlength answered
  have reply {u : State} {a : Answer} (h : streamDefine rq.args (s.taken rest) = (u, a)) (hu : u.settled) :
      exec .streamDefine s = .next (u.replied rq (0x04 :: a.status.code :: a.results)) :=
    exec_command_replied .streamDefine hx hcode rfl rfl (by decide) ((Bool.and_eq_true _ _).mpr ⟨hlength, rfl⟩) h hu
  refine ⟨fun h => reply (streamDefine_of_badIndex h _) hs, fun i hi => ?_⟩
  exact ⟨fun hused => reply (streamDefine_of_inUse hi hused) hs,
    fun hfree hbad => reply (streamDefine_of_badValue hi hfree hbad) hs,
    fun hfree hok htaken => reply (streamDefine_of_conflict hi hfree hok htaken) hs⟩

/-! ## An accepted STREAM_DEFINE (R14 to R16) -/

/-- A redefinition after which the out-slots that name the entry are stale (R15). -/
abbrev Stream.Stale (old new : Stream) : Prop :=
  old.state = .idle ∧ (old.direction ≠ new.direction ∨ old.lane ≠ new.lane ∨ old.channels ≠ new.channels)

theorem Stream.staleAfter_iff (old new : Stream) : old.staleAfter new = true ↔ old.Stale new := by
  simp only [Stream.staleAfter, Bool.and_eq_true, Bool.or_eq_true, beq_iff_eq, bne_iff_ne, or_assoc]

theorem define_eq (i : StreamIdx) (new : Stream) (s : State) :
    define i new s =
      { s with
        streams := s.streams.set i new,
        lanes := if (s.stream i).Stale new then mapVec (Lane.clearStream i) s.lanes else s.lanes,
        discovery := { s.discovery with records := s.discovery.records.filter fun r => r.tag != new.tag } } := by
  unfold define
  by_cases h : (s.stream i).Stale new
  · rw [if_pos h, if_pos ((Stream.staleAfter_iff _ _).mpr h)]
    rfl
  · rw [if_neg h, if_neg (mt (Stream.staleAfter_iff _ _).mp h)]
    rfl

theorem Lane.clearStream_eq (i : StreamIdx) :
    Lane.clearStream i =
      fun x =>
        { x with
          outTable := mapVec (fun e => if (e.any fun o => o.stream == i) = true then none else e) x.outTable } := by
  unfold Lane.clearStream
  rw [names_eq_any]

/-- A new entry has no ready frame, so a settled part stays settled. -/
theorem settled_define {s : State} (h : s.settled) (i : StreamIdx) {new : Stream} (hready : new.ready = []) :
    (define i new s).settled := by
  rw [define_eq]
  exact State.settled_setStream h i (.inl hready)

theorem toNat_bne_one : ∀ b : Byte, (b.toNat != 1) = (b != 1) := by decide

theorem toNat_bne_two : ∀ b : Byte, (b.toNat != 2) = (b != 2) := by decide

/-- Settles O36: the entry that the argument bytes make, written by `define`. -/
theorem streamDefineWritesTheEntry : Obligations.StreamDefineWritesTheEntry := by
  intro s rq rest i tag lane channels width frameSamples hs hx hcode hfree hunique head base become
  have accepted {new : Stream} (hframed : RequestCode.streamDefine.framed rq.args = true) (hindex : byteAt rq.args 0 = i.val)
      (hnew : parseDefinition rq.args = some new) (htag : new.tag = tag) (hready : new.ready = []) :
      exec .streamDefine s = .next ((define i new (s.taken rest)).replied rq [0x04, 0x00]) :=
    exec_command_replied .streamDefine hx hcode rfl rfl (by decide) hframed
      (streamDefine_of_accepted (s := s.taken rest) hindex hfree hnew fun j hj hused => htag ▸ hunique j hj hused)
      (settled_define (State.settled_taken hs rest) i hready)
  have becomes (new : Stream) (htag : new.tag = tag) (hlane : new.lane = lane) (hchannels : new.channels = channels.toNat) :
      define i new (s.taken rest) = become new := by
    rw [define_eq, Lane.clearStream_eq]
    unfold Stream.Stale
    rw [htag, hlane, hchannels]
    rfl
  have hi : (byteOf i.val).toNat = i.val := by
    rw [byteOf, BitVec.toNat_ofNat]
    exact Nat.mod_eq_of_lt (Nat.lt_trans i.isLt (by decide))
  have hl : (byteOf lane.val).toNat = lane.val := by
    rw [byteOf, BitVec.toNat_ofNat]
    exact Nat.mod_eq_of_lt (Nat.lt_trans lane.isLt (by decide))
  have htag : BitVec.ofNat 32 (ofBe (be4 tag.toNat)) = tag := by
    rw [ofBe_be4 tag.isLt, BitVec.ofNat_toNat, BitVec.setWidth_eq]
  refine ⟨fun m d c hargs hok => ?playout, fun level egress items hargs hlength hok => ?capture⟩
  case playout =>
    rw [hargs] at accepted hok
    have hparse := parseDefinition_of_playout (a := head 0 ++ [m, d, c]) hl rfl hok
    have hnew : definedPlayout (head 0 ++ [m, d, c]) lane =
        { base with
          direction := .playout, depthMax := m.toNat, depthTarget := d.toNat,
          conceal := if c = 0 then .zero else .hold, hold := List.replicate channels.toNat 0 } := by
      unfold definedPlayout definedBase
      rw [show BitVec.ofNat 32 (beAt (head 0 ++ [m, d, c]) 2 4) = tag from htag]
      rw [show (if byteAt (head 0 ++ [m, d, c]) 12 = 0 then Conceal.zero else .hold) = if c = 0 then .zero else .hold from
        ite_congr (propext (BitVec.toNat_inj (y := 0))) (fun _ => rfl) fun _ => rfl]
      rfl
    rw [hnew] at hparse
    rw [← becomes _ rfl rfl rfl]
    exact accepted rfl hi hparse rfl rfl
  case capture =>
    rw [hargs] at accepted hok
    have hparse := parseDefinition_of_capture (a := head 1 ++ [level, egress] ++ items) hl rfl hok
    have hnew : definedCapture (head 1 ++ [level, egress] ++ items) lane =
        { base with
          direction := .capture, level := level.toNat, egress := ⟨egress != 2, egress != 1⟩,
          channelSlots := items.map fun b => if h : b.toNat < 32 then some ⟨b.toNat, h⟩ else none } := by
      unfold definedCapture definedBase
      rw [show BitVec.ofNat 32 (beAt (head 1 ++ [level, egress] ++ items) 2 4) = tag from htag]
      rw [show byteAt (head 1 ++ [level, egress] ++ items) 11 = egress.toNat from rfl, toNat_bne_one, toNat_bne_two]
      rfl
    have hframed : RequestCode.streamDefine.framed (head 1 ++ [level, egress] ++ items) = true := by
      have hlen : (head 1 ++ [level, egress] ++ items).length = 12 + channels.toNat := by
        rw [List.length_append, hlength]
        rfl
      have hok : RequestCode.streamDefine.lengthOk (head 1 ++ [level, egress] ++ items) = true := by
        show (decide (7 ≤ (head 1 ++ [level, egress] ++ items).length)
          && (head 1 ++ [level, egress] ++ items).length == 12 + channels.toNat) = true
        rw [hlen]
        exact (Bool.and_eq_true _ _).mpr ⟨decide_eq_true (by omega), beq_self_eq_true _⟩
      exact (Bool.and_eq_true _ _).mpr ⟨hok, rfl⟩
    rw [hnew] at hparse
    rw [← becomes _ rfl rfl rfl]
    exact accepted hframed hi hparse rfl rfl

end Sys2Proof.Machine
end

