-- ==== Sys2Proof/Proofs/StreamStart.lean ====
section
/-! STREAM_START and STREAM_STOP (sections 2.2, 2.5, 4.6 and 7.5, R26 to R28, R33, R34, R83, R137 to R140): the checks of a
start, its decision against the wait list and the pool, what a stop does in each state, and the obligations assembled from
these. -/

namespace Sys2Proof.Machine

/-! ## The checks of STREAM_START (R26, R27) -/

/-- A lane whose direction does not serve the stream. -/
abbrev Stream.WrongWay (st : Stream) (c : LaneConfig) : Prop :=
  (st.direction = .playout ∧ c.direction = .inp) ∨ (st.direction = .capture ∧ c.direction = .out)

/-- A channel slot that the lane does not have. -/
abbrev Stream.Beyond (st : Stream) (c : LaneConfig) : Prop :=
  st.direction = .capture ∧ ∃ k : Fin 32, some k ∈ st.channelSlots ∧ c.slots ≤ k.val

theorem startCheck_of_wrongWay {st : Stream} {c : LaneConfig} (h : st.WrongWay c) : startCheck st c = some .state := by
  unfold startCheck LaneConfig.drives LaneConfig.takes
  rcases h with ⟨hd, hlane⟩ | ⟨hd, hlane⟩
  · rw [hd, hlane]
    rfl
  · rw [hd, hlane]
    rfl

/-- A channel-slot item at or beyond the slots of the lane. -/
theorem any_beyond_iff (items : List (Option (Fin 32))) (slots : Nat) :
    (items.any fun item =>
      match item with
      | some k => decide (slots ≤ k.val)
      | none => false) = true ↔ ∃ k : Fin 32, some k ∈ items ∧ slots ≤ k.val := by
  rw [List.any_eq_true]
  constructor
  · rintro ⟨item, hmem, hbeyond⟩
    cases item with
    | none => exact nomatch hbeyond
    | some k => exact ⟨k, hmem, of_decide_eq_true hbeyond⟩
  · rintro ⟨k, hmem, hbeyond⟩
    exact ⟨some k, hmem, decide_eq_true hbeyond⟩

/-- A lane of the right direction, by the direction of the stream. -/
theorem startCheck_of_rightWay {st : Stream} {c : LaneConfig} (h : ¬ st.WrongWay c) [Decidable (st.Beyond c)] :
    startCheck st c = if st.Beyond c then some .value else none := by
  unfold startCheck
  cases hd : st.direction with
  | playout =>
    have hdrives : c.drives = true := bne_iff_ne.mpr fun e => h (.inl ⟨hd, e⟩)
    have hnot : ¬ st.Beyond c := fun e => nomatch hd.symm.trans e.1
    rw [if_neg hnot]
    exact if_pos hdrives
  | capture =>
    have htakes : c.takes = true := bne_iff_ne.mpr fun e => h (.inr ⟨hd, e⟩)
    refine (if_neg (by rw [htakes]; decide)).trans ?_
    by_cases hb : st.Beyond c
    · rw [if_pos hb]
      exact if_pos ((any_beyond_iff _ _).mpr hb.2)
    · rw [if_neg hb]
      exact if_neg fun e => hb ⟨hd, (any_beyond_iff _ _).mp e⟩

/-! ## The decision (R28) -/

theorem Stream.reserved_of_not_reserves {st : Stream} (h : st.state.reserves = false) : st.reserved = 0 :=
  if_neg (by rw [h]; exact Bool.false_ne_true)

section
variable {s : State} {i : StreamIdx}

theorem unreserved_enterArmed (hidle : (s.stream i).state = .idle) :
    (s.setStream i (s.stream i).enterArmed).unreserved = 1024 - s.reservedCells - (s.stream i).reservation := by
  have hcells := s.reservedCells_setStream i (s.stream i).enterArmed
  have hbefore : (s.stream i).reserved = 0 := Stream.reserved_of_not_reserves (by rw [hidle]; rfl)
  have hafter : (s.stream i).enterArmed.reserved = (s.stream i).reservation := rfl
  unfold State.unreserved Config.cells
  omega

theorem unreserved_enterWaiting (hidle : (s.stream i).state = .idle) (w : List StreamIdx) :
    ((s.setStream i { s.stream i with state := .waiting }).setWaitList w).unreserved = 1024 - s.reservedCells := by
  have hcells := s.reservedCells_setStream i { s.stream i with state := .waiting }
  have hbefore : (s.stream i).reserved = 0 := Stream.reserved_of_not_reserves (by rw [hidle]; rfl)
  have hafter : ({ s.stream i with state := .waiting } : Stream).reserved = 0 := rfl
  show 1024 - (s.setStream i { s.stream i with state := .waiting }).reservedCells = _
  omega

theorem decideStart_of_admitted (hidle : (s.stream i).state = .idle) (hlist : s.waitList = [])
    (hfits : (s.stream i).reservation ≤ 1024 - s.reservedCells) :
    decideStart i s =
      (s.setStream i (s.stream i).enterArmed,
        { status := .ok,
          results := be2 (s.stream i).reservation ++ be2 (1024 - s.reservedCells - (s.stream i).reservation)
            ++ [0xFF] }) := by
  rw [← unreserved_enterArmed hidle]
  exact if_pos ⟨hlist, hfits⟩

theorem decideStart_of_queued (hidle : (s.stream i).state = .idle)
    (hnot : ¬ (s.waitList = [] ∧ (s.stream i).reservation ≤ 1024 - s.reservedCells)) (hroom : s.waitList.length < 8) :
    decideStart i s =
      ((s.setStream i { s.stream i with state := .waiting }).setWaitList (s.waitList ++ [i]),
        { status := .queued,
          results := be2 (s.stream i).reservation ++ be2 (1024 - s.reservedCells) ++ [byteOf s.waitList.length] }) := by
  rw [← unreserved_enterWaiting hidle (s.waitList ++ [i])]
  exact (if_neg hnot).trans (if_pos hroom)

theorem decideStart_of_full (hfull : 8 ≤ s.waitList.length) :
    decideStart i s =
      (s, { status := .full, results := be2 (s.stream i).reservation ++ be2 (1024 - s.reservedCells) ++ [0xFF] }) := by
  refine (if_neg fun h => ?_).trans (if_neg (Nat.not_lt.mpr hfull))
  rw [h.1] at hfull
  exact absurd hfull (by decide)

/-! ## The handler -/

variable {b : Byte}

theorem streamStart_of_badIndex (h : 63 < b.toNat) (s : State) : streamStart [b] s = (s, { status := .index }) := by
  simp only [streamStart, byteAt_cons_zero, finOf_eq_none (k := 64) h]

theorem streamStart_of_not_idle (h : b.toNat = i.val) (hstate : (s.stream i).state ≠ .idle) :
    streamStart [b] s = (s, { status := .state }) := by
  simp only [streamStart, byteAt_cons_zero, finOf_val h, if_pos hstate]

theorem streamStart_of_refused {refusal : Status} (h : b.toNat = i.val) (hidle : (s.stream i).state = .idle)
    (hcheck : startCheck (s.stream i) (s.lane (s.stream i).lane).config = some refusal) :
    streamStart [b] s = (s, { status := refusal }) := by
  simp only [streamStart, byteAt_cons_zero, finOf_val h, if_neg (not_not_intro hidle), hcheck]

theorem streamStart_of_checked (h : b.toNat = i.val) (hidle : (s.stream i).state = .idle)
    (hcheck : startCheck (s.stream i) (s.lane (s.stream i).lane).config = none) :
    streamStart [b] s = decideStart i s := by
  simp only [streamStart, byteAt_cons_zero, finOf_val h, if_neg (not_not_intro hidle), hcheck]

end

/-- Settles O39: the checks in order, and then admission, the wait list, or FULL. -/
theorem streamStartAdmitsQueuesOrRefuses : Obligations.StreamStartAdmitsQueuesOrRefuses := by
  intro s rq rest b hs hx hcode hargs
  have htaken : (s.taken rest).settled := State.settled_taken hs rest
  have reply {u : State} {a : Answer} (h : streamStart [b] (s.taken rest) = (u, a)) (hu : u.settled) :
      exec .streamStart s = .next (u.replied rq (0x06 :: a.status.code :: a.results)) :=
    exec_command_replied .streamStart hx hcode hargs rfl (by decide) rfl h hu
  refine ⟨fun h => reply (streamStart_of_badIndex h _) hs, fun i hb => ?_⟩
  intro st lane wrongWay beyond r free
  have checked (hidle : st.state = .idle) (hway : ¬ wrongWay) (hin : ¬ beyond) :
      streamStart [b] (s.taken rest) = decideStart i (s.taken rest) :=
    streamStart_of_checked hb hidle ((startCheck_of_rightWay hway).trans (if_neg hin))
  refine ⟨fun hstate => reply (streamStart_of_not_idle hb hstate) hs,
    fun hidle hway => reply (streamStart_of_refused hb hidle (startCheck_of_wrongWay hway)) hs,
    fun hidle hway hbeyond =>
      reply (streamStart_of_refused hb hidle ((startCheck_of_rightWay hway).trans (if_pos hbeyond))) hs,
    fun hidle hway hin hlist hfits => ?admitted, fun hidle hway hin hnot hroom => ?queued,
    fun hidle hway hin hfull => reply ((checked hidle hway hin).trans (decideStart_of_full hfull)) hs⟩
  case admitted =>
    exact reply ((checked hidle hway hin).trans (decideStart_of_admitted (s := s.taken rest) hidle hlist hfits))
      (State.settled_setStream htaken i (.inl rfl))
  case queued =>
    exact reply ((checked hidle hway hin).trans (decideStart_of_queued (s := s.taken rest) hidle hnot hroom))
      (State.settled_setStream htaken i (.inr ⟨rfl, rfl⟩))

/-! ## STREAM_STOP, by the state of the entry -/

section
variable {b o : Byte} {s : State} {i : StreamIdx}

theorem streamStop_of_badIndex (h : 63 < b.toNat) (s : State) : streamStop [b, o] s = (s, { status := .index }) := by
  simp only [streamStop, byteAt_cons_zero, finOf_eq_none (k := 64) h]

theorem streamStop_of_none (h : b.toNat = i.val) (hstop : stopEffect (s.stream i) (optionChosen [b, o] 1) = none) :
    streamStop [b, o] s = (s, { status := .state }) := by
  simp only [streamStop, byteAt_cons_zero, finOf_val h, hstop]

/-- A stop that is carried out answers OK with the state reached. -/
theorem streamStop_of_some {stop : StreamIdx → State → State} {t : State} {x : StreamState} (h : b.toNat = i.val)
    (hstop : stopEffect (s.stream i) (optionChosen [b, o] 1) = some stop) (ht : stop i s = t)
    (hx : (t.stream i).state = x) : streamStop [b, o] s = (t, { status := .ok, results := [byteOf x.code] }) := by
  subst ht hx
  simp only [streamStop, byteAt_cons_zero, finOf_val h, hstop, bytesOf_cons, bytesOf_nil]

theorem stopEffect_eq_none {st : Stream} (h : st.state = .empty ∨ st.state = .idle ∨ st.state = .draining)
    (discard : Bool) : stopEffect st discard = none := by
  unfold stopEffect
  rcases h with h | h | h
  · rw [h]
  · rw [h]
  · rw [h]
    cases st.direction <;> rfl

theorem stopEffect_of_waiting {st : Stream} (h : st.state = .waiting) (discard : Bool) :
    stopEffect st discard = some stopWaiting := by
  unfold stopEffect
  rw [h]

theorem stopEffect_of_playout {st : Stream} (hd : st.direction = .playout)
    (h : st.state = .armed ∨ st.state = .running ∨ st.state = .starved) (discard : Bool) :
    stopEffect st discard = some stopPlayout := by
  unfold stopEffect
  rw [hd]
  rcases h with h | h | h
  · rw [h]
  · rw [h]
  · rw [h]

/-- An admission test leaves a stream that is not on the wait list. -/
theorem admissionTest_stream_of_notMem (h : i ∉ s.waitList) : (admissionTest s).stream i = s.stream i :=
  admitFrom_stream_of_notMem _ s h

/-- A stream that is not WAITING is IDLE once its reservation is released. -/
theorem releaseToIdle_stream_self (h : i ∉ s.waitList) :
    (releaseToIdle i s).stream i = { s.stream i with state := .idle } := by
  unfold releaseToIdle
  rw [admissionTest_stream_of_notMem (s := s.setStream i _) h, State.stream_setStream_self]

theorem stopWaiting_stream_self : ((stopWaiting i s).stream i).state = .idle := by
  have hlist : i ∉ s.waitList.filter (· != i) := fun h => by simpa using (List.mem_filter.mp h).2
  unfold stopWaiting
  dsimp only
  split
  · rw [admissionTest_stream_of_notMem hlist, State.stream_setWaitList, State.stream_setStream_self]
  · rw [State.stream_setWaitList, State.stream_setStream_self]

theorem settled_stopWaiting (h : s.settled) : (stopWaiting i s).settled := by
  have hleft : (s.setStream i { s.stream i with state := .idle }).settled :=
    State.settled_setStream h i (.inr ⟨rfl, rfl⟩)
  unfold stopWaiting
  dsimp only
  split
  · exact settled_admissionTest hleft
  · exact hleft

theorem notMem_waitList (h : s.admissionInv) (hstate : (s.stream i).state ≠ .waiting) : i ∉ s.waitList := fun hmem =>
  hstate ((s.admissionInv_iff.mp h).waiting i |>.mpr hmem)

end

/-- Settles O40: a bad index, a state that cannot be stopped, a WAITING stream, and an active playout stream. -/
theorem streamStopEndsWaitingAndPlayout : Obligations.StreamStopEndsWaitingAndPlayout := by
  intro s rq rest b o hs hadmission hx hcode hargs ho
  have htaken : (s.taken rest).settled := State.settled_taken hs rest
  have hframed : RequestCode.streamStop.framed [b, o] = true := by
    rcases byte_le_one ho with rfl | rfl <;> rfl
  have reply {u : State} {a : Answer} (h : streamStop [b, o] (s.taken rest) = (u, a)) (hu : u.settled) :
      exec .streamStop s = .next (u.replied rq (0x07 :: a.status.code :: a.results)) :=
    exec_command_replied .streamStop hx hcode hargs rfl (by decide) hframed h hu
  refine ⟨fun h => reply (streamStop_of_badIndex h _) hs, fun i hb => ?_⟩
  intro st
  refine ⟨fun h => reply (streamStop_of_none hb (stopEffect_eq_none h _)) hs, fun h => ?waiting, fun hd h => ?playout⟩
  case waiting =>
    exact reply (streamStop_of_some hb (stopEffect_of_waiting h _) rfl stopWaiting_stream_self) (settled_stopWaiting htaken)
  case playout =>
    have hnot : i ∉ (s.taken rest).waitList := by
      refine notMem_waitList hadmission fun e => ?_
      have hst : st.state = .waiting := e
      rw [hst] at h
      exact nomatch h
    have hstop : stopPlayout i (s.taken rest) = admissionTest ((s.taken rest).setStream i
        { st with
          state := .idle, expected := none, window := [], gap := false, misplaced := 0, readIndex := 0 }) := by
      unfold stopPlayout releaseToIdle
      rw [State.stream_setStream_self, State.setStream_setStream]
      rfl
    refine reply (streamStop_of_some (x := .idle) hb (stopEffect_of_playout hd h _) hstop ?_)
      (settled_admissionTest (State.settled_setStream htaken i (.inr ⟨rfl, rfl⟩)))
    rw [admissionTest_stream_of_notMem (s := (s.taken rest).setStream i _) hnot, State.stream_setStream_self]

end Sys2Proof.Machine
end

