-- ==== Sys2Proof/Proofs/StreamStop.lean ====
section
/-! STREAM_STOP of a capture stream (section 7.5, R137 to R139, R141, R157): the drain without discard, the frames kept with
it, and the release of an ARMED stream. -/

namespace Sys2Proof.Machine

/-! ## What each stop does to a capture stream -/

section
variable {s : State} {i : StreamIdx}

theorem stopEffect_of_running {st : Stream} (hd : st.direction = .capture) (h : st.state = .running) (discard : Bool) :
    stopEffect st discard = some (if discard then stopDiscard else stopRunning) := by
  unfold stopEffect
  rw [hd, h]

theorem stopEffect_of_armed {st : Stream} (hd : st.direction = .capture) (h : st.state = .armed) (discard : Bool) :
    stopEffect st discard = some stopArmed := by
  unfold stopEffect
  rw [hd, h]

/-- The arbiters leave the state of every stream. -/
theorem runArbiters_state (s : State) (i : StreamIdx) : ((runArbiters s).stream i).state = (s.stream i).state := by
  obtain ⟨r, hr, -⟩ := runArbiters_stream s i
  rw [hr]

/-- A stream whose END frame has been closed and its port granted. -/
def draining (i : StreamIdx) (c : State) : State := c.setStream i { c.stream i with state := .draining }

theorem finishDrainIfEmpty_of_left (h : (s.stream i).ready ≠ []) : finishDrainIfEmpty i (draining i s) = draining i s := by
  refine if_neg fun e => h ?_
  have hready := e.2
  rw [draining, State.stream_setStream_self] at hready
  exact hready

theorem finishDrainIfEmpty_of_empty (h : (s.stream i).ready = []) :
    finishDrainIfEmpty i (draining i s) = (draining i s).drained i := by
  refine if_pos ?_
  rw [draining, State.stream_setStream_self]
  exact ⟨rfl, h⟩

theorem drained_stream_self (h : i ∉ s.waitList) : (s.drained i).stream i = { s.stream i with state := .idle } :=
  releaseToIdle_stream_self h

theorem not_isNone (x : PortSet) : (!x.isNone) = (x.ta || x.tb) := by
  cases x with
  | mk ta tb => cases ta <;> cases tb <;> rfl

/-- The frames that a stop with discard keeps: those in transmission, each pending where it is being sent (R138). -/
def Stream.kept (st : Stream) : List ReadyFrame :=
  (st.ready.filter fun f => f.inTx.ta || f.inTx.tb).map fun f => { f with pendingOn := f.inTx }

/-- The capture counters after the construction is dropped (R138, R142). -/
def Stream.countPartial (st : Stream) : CaptureCounters :=
  if (st.construction.any fun con => con.count != 0) then { st.capture with partials := bump st.capture.partials }
  else st.capture

theorem Stream.dropConstruction_eq_count (st : Stream) :
    st.dropConstruction = { st with construction := none, capture := st.countPartial } := by
  unfold Stream.dropConstruction Stream.countPartial
  split
  next con hcon =>
    rw [hcon]
    by_cases h : con.count = 0
    · rw [if_pos h]
      have hnone : ¬ ((some con).any fun con => con.count != 0) = true := fun e => bne_iff_ne.mp e h
      rw [if_neg hnone]
    · rw [if_neg h]
      have hsome : ((some con).any fun con => con.count != 0) = true := bne_iff_ne.mpr h
      rw [if_pos hsome]
  next hcon =>
    have hnone : ¬ (st.construction.any fun con => con.count != 0) = true := by
      rw [hcon]
      exact Bool.false_ne_true
    rw [if_neg hnone, ← hcon]

/-- A stop with discard, its construction and its mark dropped, down to the frames kept. -/
theorem stopDiscard_eq (i : StreamIdx) (s : State) :
    stopDiscard i s =
      let v : Stream :=
        { s.stream i with
          construction := none, firstOfRun := false, capture := (s.stream i).countPartial, ready := (s.stream i).kept }
      if (s.stream i).kept = [] then releaseToIdle i (s.setStream i v)
      else s.setStream i { v with state := .draining } := by
  unfold stopDiscard
  simp only [Stream.dropConstruction_eq_count, not_isNone]
  rfl

theorem abortByStop_eq (p : Port) (i : StreamIdx) (s : State) :
    abortByStop p i s =
      if (s.port p).tx = .sample i then
        s.setPort p
          { s.port p with
            tx := .abortGap, txc := { (s.port p).txc with aborted := bump (s.port p).txc.aborted } }
      else s := rfl

theorem stopArmed_eq (i : StreamIdx) (s : State) :
    stopArmed i s =
      admissionTest ((abortByStop .tb i (abortByStop .ta i s)).setStream i
        { s.stream i with state := .idle, ready := [] }) := by
  unfold stopArmed releaseToIdle
  simp only [State.stream_setStream_self, State.setStream_setStream, abortByStop_stream]

theorem stopArmed_stream_self (h : i ∉ s.waitList) : ((stopArmed i s).stream i).state = .idle := by
  have hlist : (abortByStop .tb i (abortByStop .ta i s)).waitList = s.waitList :=
    ((abortByStop_sameFooting .ta i s).trans (abortByStop_sameFooting .tb i _)).1
  rw [stopArmed_eq, admissionTest_stream_of_notMem (by
    rw [State.setStream_waitList, hlist]
    exact h), State.stream_setStream_self]

theorem State.TransmitOk.settled' (h : s.TransmitOk True) : s.settled := ⟨h.settled trivial .ta, h.settled trivial .tb⟩

end

/-- Settles O41: a RUNNING stream drains what it has closed, or with discard what is being sent; an ARMED one gives up all
of it. -/
theorem streamStopEndsCapture : Obligations.StreamStopEndsCapture := by
  intro s rq rest b o i htransmit hstreams hadmission hx hcode hargs hb hd st u dropped kept cut
  have hu : u.TransmitOk True := u.transmitInv_iff.mp htransmit
  have reply (ho : o.toNat ≤ 1) {v : State} {a : Answer} (h : streamStop [b, o] u = (v, a)) (hv : v.TransmitOk True) :
      exec .streamStop s = .next (v.replied rq (0x07 :: a.status.code :: a.results)) :=
    exec_command_replied .streamStop hx hcode hargs rfl (by decide) (by rcases byte_le_one ho with rfl | rfl <;> rfl) h
      hv.settled'
  have unlisted {x : StreamState} (hstate : st.state = x) (hne : x ≠ .waiting) : i ∉ u.waitList :=
    notMem_waitList hadmission fun e => hne (hstate.symm.trans e)
  refine ⟨fun hstate ho => ?drain, fun hstate ho => ?discard, fun hstate ho => ?armed⟩
  case drain =>
    subst ho
    intro c d
    have hstop : stopEffect (u.stream i) (optionChosen [b, 0] 1) = some stopRunning := stopEffect_of_running hd hstate _
    have hc : c.TransmitOk True := runArbiters_transmitOk (closeFrame_transmitOk hu true i)
    have hd' : d.TransmitOk True := hc.setStream i (Stream.claimsLess_of_ready (by rfl) (by rfl))
    have hlist : i ∉ d.waitList := by
      have hlists : d.waitList = u.waitList :=
        (runArbiters_waitList _).trans (closeFrame_sameFooting true i u).1
      rw [hlists]
      exact unlisted hstate (by decide)
    refine ⟨fun hleft => ?left, fun hempty => ?empty⟩
    case left =>
      refine reply (by decide) (streamStop_of_some (x := .draining) hb hstop (finishDrainIfEmpty_of_left hleft) ?_) hd'
      rw [draining, State.stream_setStream_self]
    case empty =>
      refine reply (by decide) (streamStop_of_some (x := .idle) hb hstop (finishDrainIfEmpty_of_empty hempty) ?_) ?_
      · exact congrArg Stream.state (drained_stream_self hlist)
      · have hfinish := hd'.finishDrainIfEmpty i
        rw [show finishDrainIfEmpty i d = d.drained i from finishDrainIfEmpty_of_empty hempty] at hfinish
        exact hfinish
  case discard =>
    subst ho
    intro v
    have hstop : stopEffect (u.stream i) (optionChosen [b, 1] 1) = some stopDiscard := stopEffect_of_running hd hstate _
    have hok := stopDiscard_transmitOk hu i
    refine ⟨fun hkept => ?left, fun hkept => ?empty⟩
    case left =>
      have heq : stopDiscard i u = u.setStream i { v with state := .draining } :=
        (stopDiscard_eq i u).trans (if_neg hkept)
      rw [heq] at hok
      refine reply (by decide) (streamStop_of_some (x := .draining) hb hstop heq ?_) hok
      rw [State.stream_setStream_self]
    case empty =>
      have heq : stopDiscard i u = admissionTest (u.setStream i { v with state := .idle }) := by
        refine (stopDiscard_eq i u).trans ((if_pos hkept).trans ?_)
        unfold releaseToIdle
        rw [State.stream_setStream_self, State.setStream_setStream]
        rfl
      rw [heq] at hok
      refine reply (by decide) (streamStop_of_some (x := .idle) hb hstop heq ?_) hok
      rw [admissionTest_stream_of_notMem (s := u.setStream i _) (unlisted hstate (by decide)), State.stream_setStream_self]
  case armed =>
    have heq := stopArmed_eq i u
    have hok := stopArmed_transmitOk hu i
    have hidle := stopArmed_stream_self (unlisted hstate (by decide))
    rw [heq] at hok hidle
    exact reply ho (streamStop_of_some (x := .idle) hb (stopEffect_of_armed hd hstate _) heq hidle) hok

end Sys2Proof.Machine
end

