-- ==== Sys2Proof/Proofs/Closes.lean ====
section
/-! The close of a capture frame (section 7.3, R132 to R134, R137): the frame it makes, and how a full ready list disposes of
it. -/

namespace Sys2Proof.Machine

theorem PortSet.isNone_iff (x : PortSet) : x.isNone = true ↔ x.ta = false ∧ x.tb = false := by
  cases x with
  | mk ta tb => cases ta <;> cases tb <;> decide

theorem PortSet.not_isNone_iff (x : PortSet) : ¬ x.isNone = true ↔ x.ta = true ∨ x.tb = true := by
  cases x with
  | mk ta tb => cases ta <;> cases tb <;> decide

/-! ## How a frame is disposed of (R133, R134) -/

section
variable {st : Stream} {f a b : ReadyFrame}

theorem Stream.dispose_of_unclaimed (h : f.pendingOn.isNone = true) : st.dispose f = (st, none) := if_pos h

theorem Stream.dispose_of_room (h : ¬ f.pendingOn.isNone = true) (hroom : st.ready.length < 2) :
    st.dispose f = ({ st with ready := st.ready ++ [f] }, none) :=
  (if_neg h).trans (if_pos hroom)

/-- A full ready list gives up its oldest frame that is in transmission on neither port. -/
theorem Stream.dispose_of_full (h : ¬ f.pendingOn.isNone = true) (hready : st.ready = [a, b]) :
    st.dispose f =
      match [a, b].find? (fun v => v.inTx.isNone) with
      | some v => ({ st.countOverrun with ready := [a, b].eraseP (fun v => v.inTx.isNone) ++ [f] }, some v.seq)
      | none => (st.countOverrun, some f.seq) := by
  have hfull : ¬ st.ready.length < Config.readyFrames := by
    rw [hready]
    exact Nat.lt_irrefl 2
  unfold Stream.dispose
  rw [if_neg h, if_neg hfull, hready] <;> rfl

theorem Stream.dispose_of_oldest (h : ¬ f.pendingOn.isNone = true) (hready : st.ready = [a, b]) (ha : a.inTx.isNone = true) :
    st.dispose f = ({ st.countOverrun with ready := [b, f] }, some a.seq) := by
  rw [Stream.dispose_of_full h hready, List.find?_cons_of_pos (by exact ha), List.eraseP_cons_of_pos (by exact ha)]
  rfl

theorem Stream.dispose_of_younger (h : ¬ f.pendingOn.isNone = true) (hready : st.ready = [a, b])
    (ha : ¬ a.inTx.isNone = true) (hb : b.inTx.isNone = true) :
    st.dispose f = ({ st.countOverrun with ready := [a, f] }, some b.seq) := by
  rw [Stream.dispose_of_full h hready, List.find?_cons_of_neg (by exact ha), List.find?_cons_of_pos (by exact hb),
    List.eraseP_cons_of_neg (by exact ha), List.eraseP_cons_of_pos (by exact hb)]
  rfl

theorem Stream.dispose_of_sending (h : ¬ f.pendingOn.isNone = true) (hready : st.ready = [a, b])
    (ha : ¬ a.inTx.isNone = true) (hb : ¬ b.inTx.isNone = true) : st.dispose f = (st.countOverrun, some f.seq) := by
  rw [Stream.dispose_of_full h hready, List.find?_cons_of_neg (by exact ha), List.find?_cons_of_neg (by exact hb)]
  rfl

end

theorem closeFrame_of_kept {isEnd : Bool} {i : StreamIdx} {s : State} {x : Stream}
    (h : ((s.stream i).afterClose isEnd).dispose (closingFrame s (s.stream i) isEnd) = (x, none)) :
    closeFrame isEnd i s = s.setStream i x := by
  unfold closeFrame
  dsimp only
  rw [h]

theorem closeFrame_of_overrun {isEnd : Bool} {i : StreamIdx} {s : State} {x : Stream} {seq : Half}
    (h : ((s.stream i).afterClose isEnd).dispose (closingFrame s (s.stream i) isEnd) = (x, some seq)) :
    closeFrame isEnd i s = (s.setStream i x).post .captureOverrun (.stream i) (seqDetail seq) := by
  unfold closeFrame
  dsimp only
  rw [h]

/-- Settles O22: the frame without a claim, with room, and onto a full ready list by the frames in transmission. -/
theorem closesDisposeOfTheFrame : Obligations.ClosesDisposeOfTheFrame := by
  intro isEnd i s con hcon st f sent free closed overrun lost
  have hframe : closingFrame s st isEnd = f := by
    unfold closingFrame
    rw [hcon]
    rfl
  have claimed (h : sent) : ¬ f.pendingOn.isNone = true := (PortSet.not_isNone_iff _).mpr h
  have idle (v : ReadyFrame) : free v ↔ v.inTx.isNone = true := (PortSet.isNone_iff _).symm
  have kept {x : Stream} (h : closed.dispose f = (x, none)) : closeFrame isEnd i s = s.setStream i x :=
    closeFrame_of_kept (hframe ▸ h)
  have overruns {x : Stream} {seq : Half} (h : closed.dispose f = (x, some seq)) :
      closeFrame isEnd i s = lost x seq := closeFrame_of_overrun (hframe ▸ h)
  refine ⟨fun h => kept (Stream.dispose_of_unclaimed (Decidable.byContradiction fun e => h ?_)),
    fun h hroom => kept (Stream.dispose_of_room (claimed h) hroom),
    fun a b h hready ha => overruns (Stream.dispose_of_oldest (claimed h) hready ((idle a).mp ha)),
    fun a b h hready ha hb =>
      overruns (Stream.dispose_of_younger (claimed h) hready (mt (idle a).mpr ha) ((idle b).mp hb)),
    fun a b h hready ha hb =>
      overruns (Stream.dispose_of_sending (claimed h) hready (mt (idle a).mpr ha) (mt (idle b).mpr hb))⟩
  exact (PortSet.not_isNone_iff _).mp e

end Sys2Proof.Machine
end

