-- ==== Sys2Proof/Proofs/Completions.lean ====
section
/-! The ends of transmissions and LINK_FALL (sections 3.3, 8.4 and 8.6, R46, R154 to R158, R184): what a completion leaves,
and what a port going DOWN withdraws in a settled part. -/

namespace Sys2Proof.Machine

theorem filter_claimed (fs : List ReadyFrame) :
    (fs.filter fun f => !f.pendingOn.isNone) = fs.filter fun f => f.pendingOn.ta || f.pendingOn.tb :=
  congrArg (List.filter · fs) (funext fun f => not_isNone f.pendingOn)

theorem Reply.isDeviceReset_iff (r : Reply) : r.isDeviceReset = true ↔ r.payload = [0x14, 0x00] := beq_iff_eq

/-- A reset forgets what a port was doing, but for its LINK input. -/
theorem blockReset_setPort (cause : StartCause) (phase : Phase) (s : State) (p : Port) {x : PortState}
    (hx : x.linkPin = (s.port p).linkPin) : blockReset cause phase (s.setPort p x) = blockReset cause phase s := by
  refine blockReset_congr (fun q => ?_) (by rfl) cause phase
  rw [State.port_setPort]
  split
  next e => rw [e, hx]
  next => rfl

/-! ## SAMPLE_FRAME_TX_COMPLETION (R154, R141) -/

theorem Stream.completeOn_eq (p : Port) (st : Stream) :
    (st.countSent p).completeOn p =
      { st with
        ready :=
          (st.ready.map fun f =>
            if f.inTx.get p = true then
              { f with pendingOn := f.pendingOn.set p false, inTx := f.inTx.set p false }
            else f).filter fun f => f.pendingOn.ta || f.pendingOn.tb,
        capture :=
          if p = .ta then { st.capture with sentTa := bump st.capture.sentTa }
          else { st.capture with sentTb := bump st.capture.sentTb } } := by
  unfold Stream.completeOn Stream.countSent
  rw [filter_claimed]
  cases p <;> rfl

theorem exec_sampleFrameTxCompletion_of_sample {p : Port} {s : State} {i : StreamIdx} (h : (s.port p).tx = .sample i) :
    exec (.sampleFrameTxCompletion p) s = .next (completeSample p i s) := by
  show Host.Outcome.next (match (s.port p).tx with
    | .sample i => completeSample p i s
    | .idle | .reply | .abortGap => s) = _
  rw [h]

theorem exec_sampleFrameTxCompletion_of_none {p : Port} {s : State} (h : ∀ i, (s.port p).tx ≠ .sample i) :
    exec (.sampleFrameTxCompletion p) s = .next s := by
  show Host.Outcome.next (match (s.port p).tx with
    | .sample i => completeSample p i s
    | .idle | .reply | .abortGap => s) = _
  cases htx : (s.port p).tx with
  | sample i => exact absurd htx (h i)
  | idle | reply | abortGap => rfl

/-! ## REPLY_TX_COMPLETION and ABORT_GAP_END (R155, R157) -/

theorem exec_replyTxCompletion_of_none {p : Port} {s : State} (h : (s.port p).tx ≠ .reply) :
    exec (.replyTxCompletion p) s = .next s := by
  show Host.Outcome.next (match (s.port p).tx with
    | .reply => completeReply p s
    | .idle | .sample _ | .abortGap => s) = _
  cases htx : (s.port p).tx with
  | reply => exact absurd htx h
  | idle | sample i | abortGap => rfl

theorem exec_replyTxCompletion_of_reply {p : Port} {s : State} {r : Reply} {rest : List Reply} (h : (s.port p).tx = .reply)
    (hreplies : (s.port p).replies = r :: rest) :
    exec (.replyTxCompletion p) s =
      let t := s.setPort p
        { s.port p with
          tx := .idle, replies := rest, txc := { (s.port p).txc with repliesSent := bump (s.port p).txc.repliesSent } }
      .next (if r.isDeviceReset then blockReset .request .loading t else runArbiters t) := by
  show Host.Outcome.next (match (s.port p).tx with
    | .reply => completeReply p s
    | .idle | .sample _ | .abortGap => s) = _
  rw [h]
  refine congrArg Host.Outcome.next ?_
  unfold completeReply
  dsimp only
  rw [hreplies]
  rfl

/-- Settles O24: the sample frame and its drain, the reply, the reply of a DEVICE_RESET, and the gap. -/
theorem completionsFreeTheTransmitter : Obligations.CompletionsFreeTheTransmitter := by
  refine ⟨fun p s => ⟨exec_sampleFrameTxCompletion_of_none, fun i htx => ?_⟩, fun p s => ?_⟩
  · intro x st left u
    have hleft : u.stream i = { st with
        ready := left,
        capture :=
          if p = .ta then { st.capture with sentTa := bump st.capture.sentTa }
          else { st.capture with sentTb := bump st.capture.sentTb } } := State.stream_setStream_self _ _ _
    have hcomplete : completeSample p i s = runArbiters (finishDrainIfEmpty i u) := by
      unfold completeSample
      dsimp only
      rw [Stream.completeOn_eq]
      rfl
    rw [exec_sampleFrameTxCompletion_of_sample htx, hcomplete]
    refine ⟨fun hstate hempty => ?_, fun h => ?_⟩
    · have hfinish : finishDrainIfEmpty i u = u.drained i := if_pos (by rw [hleft]; exact ⟨hstate, hempty⟩)
      rw [hfinish]
    · have hkeep : finishDrainIfEmpty i u = u := if_neg (by rw [hleft]; exact h)
      rw [hkeep]
  · intro x
    refine ⟨exec_replyTxCompletion_of_none, fun r rest htx hreplies hr => ?sent, fun r rest htx hreplies hr => ?reset,
      fun h => congrArg Host.Outcome.next (if_pos h), fun h => congrArg Host.Outcome.next (if_neg h)⟩
    case sent =>
      rw [exec_replyTxCompletion_of_reply htx hreplies]
      exact congrArg Host.Outcome.next (if_neg (mt r.isDeviceReset_iff.mp hr))
    case reset =>
      rw [exec_replyTxCompletion_of_reply htx hreplies, ← blockReset_eq_afterReset]
      exact congrArg Host.Outcome.next ((if_pos (r.isDeviceReset_iff.mpr hr)).trans (blockReset_setPort _ _ s p rfl))

/-! ## LINK_FALL (R46, R158) -/

theorem PortState.abortOnDown_eq (x : PortState) :
    x.abortOnDown =
      { x with
        tx := .idle,
        txc := { x.txc with aborted := if x.tx = .idle ∨ x.tx = .abortGap then x.txc.aborted else bump x.txc.aborted } } := by
  obtain ⟨linkPin, linkUp, rx, tx, replies, mode, credits, txc⟩ := x
  unfold PortState.abortOnDown
  cases tx with
  | idle => rw [if_pos (by exact .inl rfl)]
  | abortGap => rw [if_pos (by exact .inr rfl)]
  | reply => rw [if_neg fun h => h.elim (fun e => nomatch e) fun e => nomatch e]
  | sample i => rw [if_neg fun h => h.elim (fun e => nomatch e) fun e => nomatch e]

theorem Stream.withdrawPort_eq (p : Port) (st : Stream) : st.withdrawPort p = { st with ready := withdrawn p st.ready } := by
  unfold Stream.withdrawPort withdrawn
  rw [filter_claimed]

theorem State.drainedBy_eq (s : State) (p : Port) :
    s.drainedBy p =
      (List.finRange 64).filter fun i =>
        decide ((s.stream i).state = .draining ∧ withdrawn p (s.stream i).ready = []) := by
  unfold State.drainedBy State.streamsWhere streamIndices
  refine congrArg (List.filter · _) (funext fun i => ?_)
  show ((s.stream i).state == .draining && ((s.stream i).withdrawPort p).ready.isEmpty) = _
  rw [Stream.withdrawPort_eq, Bool.eq_iff_iff, Bool.and_eq_true, beq_iff_eq, List.isEmpty_iff, decide_eq_true_eq]

section
variable {s : State} {p : Port}

/-- A port whose link is DOWN waits for nothing. -/
theorem State.settledAt_of_down (h : (s.port p).linkUp = false) : s.settledAt p := fun hup => nomatch h.symm.trans hup

/-- Withdrawing a port takes its claims alone. -/
theorem mem_withdrawn_settled {fs : List ReadyFrame} {q : Port} (hq : q ≠ p)
    (h : ∀ f ∈ fs, f.pendingOn.get q = true → f.inTx.get q = true) :
    ∀ f ∈ withdrawn p fs, f.pendingOn.get q = true → f.inTx.get q = true := by
  intro f hf hpending
  obtain ⟨v, hv, rfl⟩ := List.mem_map.mp (List.mem_filter.mp hf).1
  rw [PerPort.get_set_ne _ _ hq] at hpending ⊢
  exact h v hv hpending

theorem State.settled_of_each (h : ∀ q, s.settledAt q) : s.settled := ⟨h .ta, h .tb⟩

theorem State.settled.each (h : s.settled) (q : Port) : s.settledAt q := by
  cases q with
  | ta => exact h.1
  | tb => exact h.2

theorem settled_loseReply (h : s.settled) (txn : Word) : (loseReply p txn s).settled :=
  State.settled_setEvents (State.settled_setPort h p (by exact ⟨rfl, rfl, rfl⟩)) _

theorem settled_foldl_loseReply (rs : List Reply) (h : s.settled) :
    (rs.foldl (fun t r => loseReply p r.txn t) s).settled := by
  induction rs generalizing s with
  | nil => exact h
  | cons r rs ih => exact ih (settled_loseReply h r.txn)

theorem settled_finishDrain (h : s.settled) (i : StreamIdx) : (finishDrain i s).settled :=
  settled_admissionTest (State.settled_setStream h i (by exact .inr ⟨rfl, rfl⟩))

theorem settled_forStreams_finishDrain (is : List StreamIdx) (h : s.settled) : (s.forStreams is finishDrain).settled := by
  induction is generalizing s with
  | nil => exact h
  | cons i is ih => exact ih (settled_finishDrain h i)

/-- In a settled part a port that goes DOWN leaves nothing for the other to send. -/
theorem settled_lowerPort (h : s.settled) (p : Port) : (lowerPort p s).settled := by
  refine settled_foldl_loseReply _ (State.settled_of_each fun q => ?_)
  by_cases hq : q = p
  · subst hq
    refine State.settledAt_of_down ?_
    rw [State.port_mapStreams, State.port_post, State.port_setPort_self]
  · intro hup hidle
    rw [State.port_mapStreams, State.port_post, State.port_setPort_ne _ _ hq] at hup hidle ⊢
    obtain ⟨hreplies, hserved⟩ := h.each q hup hidle
    refine ⟨hreplies, fun i hd => ?_⟩
    rw [State.stream_mapStreams, Stream.withdrawPort_eq] at hd ⊢
    exact mem_withdrawn_settled hq (hserved i hd)

theorem portDown_of_settled (h : s.settled) (hreset : ∀ r ∈ (s.port p).replies, r.payload ≠ [0x14, 0x00]) :
    portDown p s = (lowerPort p s).forStreams (s.drainedBy p) finishDrain := by
  have hnone : (s.port p).replies.any Reply.isDeviceReset = false :=
    List.any_eq_false.mpr fun r hr e => hreset r hr (r.isDeviceReset_iff.mp e)
  rw [portDown_eq_lowerPort hnone]
  exact runArbiters_of_settled (settled_forStreams_finishDrain _ (settled_lowerPort h p))

end

/-- Settles O8: the input alone, an UP port that goes DOWN without and with the reply of a DEVICE_RESET, and frames that meet
a DOWN port. -/
theorem linkFallTakesAnUpPortDown : Obligations.LinkFallTakesAnUpPortDown := by
  intro p s
  refine ⟨fun h => congrArg Host.Outcome.next (if_neg h), fun hstarted hup hs hreset => ?_, fun hstarted hup hreset => ?_,
    fun f => congrArg Host.Outcome.next (if_neg fun h => nomatch h.1),
    fun hdown f => congrArg Host.Outcome.next (if_neg fun h => absurd (hdown.symm.trans h.2) (by decide))⟩
  · intro x s1 s2 s3 ends
    refine congrArg Host.Outcome.next ((if_pos ⟨hstarted, hup⟩).trans ((portDown_of_settled hs hreset).trans ?_))
    have hs3 : lowerPort p s = s3 := by
      unfold lowerPort
      rw [PortState.abortOnDown_eq, funext (Stream.withdrawPort_eq p)]
      rfl
    rw [hs3, State.drainedBy_eq]
    rfl
  · have hany : (s.port p).replies.any Reply.isDeviceReset = true := by
      obtain ⟨r, hr, hpayload⟩ := hreset
      exact List.any_eq_true.mpr ⟨r, hr, r.isDeviceReset_iff.mpr hpayload⟩
    rw [← blockReset_eq_afterReset]
    exact congrArg Host.Outcome.next ((if_pos ⟨hstarted, hup⟩).trans (portDown_of_reset hany))

end Sys2Proof.Machine
end

