-- ==== Sys2Proof/Proofs/BitStrings.lean ====
section
/-! Bits taken most significant first as a number: which of them are its bits. The PROM image and the slots of a lane
are put together this way (R93, R187). -/

namespace Sys2Proof.Machine

theorem foldl_bits_eq (bits : List Bool) (n : Nat) :
    bits.foldl (fun n b => n * 2 + b.toNat) n = 2 ^ bits.length * n + ofBits bits := by
  unfold ofBits
  induction bits generalizing n with
  | nil => exact (Nat.one_mul n).symm
  | cons b bits ih =>
    rw [List.foldl_cons, List.foldl_cons, ih, ih (0 * 2 + b.toNat), List.length_cons, Nat.pow_succ, Nat.zero_mul,
      Nat.zero_add, Nat.mul_add, Nat.add_assoc, Nat.mul_comm n 2, Nat.mul_assoc]

theorem ofBits_cons (b : Bool) (bits : List Bool) : ofBits (b :: bits) = 2 ^ bits.length * b.toNat + ofBits bits := by
  rw [show ofBits (b :: bits) = bits.foldl (fun n b => n * 2 + b.toNat) (0 * 2 + b.toNat) from rfl, foldl_bits_eq,
    Nat.zero_mul, Nat.zero_add]

theorem ofBits_lt (bits : List Bool) : ofBits bits < 2 ^ bits.length := by
  induction bits with
  | nil => exact Nat.one_pos
  | cons b bits ih =>
    rw [ofBits_cons, List.length_cons, Nat.pow_succ]
    cases b
    · rw [Bool.toNat_false]
      omega
    · rw [Bool.toNat_true]
      omega

/-- The first bit of the list is the most significant. -/
theorem ofBits_testBit (bits : List Bool) (k : Nat) (h : k < bits.length) :
    (ofBits bits).testBit (bits.length - 1 - k) = bits.getD k false := by
  induction bits generalizing k with
  | nil => exact absurd h (Nat.not_lt_zero k)
  | cons b bits ih =>
    rw [ofBits_cons, Nat.testBit_two_pow_mul_add _ (ofBits_lt bits), List.length_cons]
    cases k with
    | zero =>
      rw [if_neg (by omega), show bits.length + 1 - 1 - 0 - bits.length = 0 by omega]
      cases b <;> rfl
    | succ k =>
      have hk : k < bits.length := Nat.lt_of_succ_lt_succ h
      rw [if_pos (by omega), show bits.length + 1 - 1 - (k + 1) = bits.length - 1 - k by omega, ih k hk]
      rfl

/-- The list fills the low end of a bit vector that has room for it, its first bit most significant. -/
theorem ofNat_ofBits_getMsbD {w : Nat} (bits : List Bool) (h : bits.length ≤ w) (k : Nat) :
    (BitVec.ofNat w (ofBits bits)).getMsbD (k + (w - bits.length)) = bits.getD k false := by
  by_cases hk : k < bits.length
  · rw [BitVec.getMsbD, BitVec.getLsbD_ofNat, decide_eq_true (show k + (w - bits.length) < w by omega),
      decide_eq_true (show w - 1 - (k + (w - bits.length)) < w by omega), Bool.true_and, Bool.true_and,
      show w - 1 - (k + (w - bits.length)) = bits.length - 1 - k by omega, ofBits_testBit bits k hk]
  · rw [BitVec.getMsbD_of_ge _ _ (by omega), List.getD_eq_getElem?_getD, List.getElem?_eq_none (Nat.not_lt.mp hk),
      Option.getD_none]

end Sys2Proof.Machine
end

