-- ==== Sys2Proof/Proofs/PromLoad.lean ====
section
/-! PROM_LOAD_COMPLETION: the bits read from PDIO as bytes, and what the completion of a load makes of the part
(R187, R189, R190). -/

namespace Sys2Proof.Machine

/-! ## The bytes of the read -/

theorem byteOfPdio_getMsbD (bits : List Bool) (k : Nat) (h : bits.length = 8) :
    (byteOfPdio bits).getMsbD k = bits.getD k false := by
  have hbit := ofNat_ofBits_getMsbD (w := 8) bits (Nat.le_of_eq h) k
  rwa [h] at hbit

theorem bytesOfPdio_length (count : Nat) (bits : List Bool) : (bytesOfPdio count bits).length = count := by
  induction count generalizing bits with
  | zero => rfl
  | succ count ih => exact congrArg (· + 1) (ih (bits.drop 8))

theorem bytesOfPdio_getD (count n : Nat) (bits : List Bool) (h : n < count) :
    (bytesOfPdio count bits).getD n 0 = byteOfPdio ((bits.drop (8 * n)).take 8) := by
  induction count generalizing n bits with
  | zero => exact absurd h (Nat.not_lt_zero n)
  | succ count ih =>
    cases n with
    | zero => rfl
    | succ n =>
      rw [Nat.mul_succ, Nat.add_comm (8 * n) 8, ← List.drop_drop]
      exact ih n (bits.drop 8) (Nat.lt_of_succ_lt_succ h)

theorem bytesOfPdio_getMsbD (count n k : Nat) (bits : List Bool) (hbits : bits.length = 8 * count) (hn : n < count)
    (hk : k < 8) : ((bytesOfPdio count bits).getD n 0).getMsbD k = bits.getD (8 * n + k) false := by
  have hlength : ((bits.drop (8 * n)).take 8).length = 8 := by
    rw [List.length_take, List.length_drop]
    omega
  rw [bytesOfPdio_getD count n bits hn, byteOfPdio_getMsbD _ k hlength, List.getD_eq_getElem?_getD,
    List.getElem?_take_of_lt hk, List.getElem?_drop, ← List.getD_eq_getElem?_getD]

/-! ## The completion -/

/-- A port with its LINK input active is UP afterwards, and only then an event is posted (R45). -/
theorem takeUpLink_eq (p : Port) (s : State) :
    takeUpLink p s =
      { s.setPort p
          { s.port p with
            linkUp := (s.port p).linkPin || (s.port p).linkUp } with
        events := if (s.port p).linkPin then s.events.post .trunkUp (.port p) 0 else s.events } := by
  unfold takeUpLink
  dsimp only
  by_cases hpin : (s.port p).linkPin = true
  · rw [if_pos hpin, if_pos hpin, Bool.or_eq_true_iff.mpr (.inl hpin)]
    rfl
  · have hup : ((s.port p).linkPin || (s.port p).linkUp) = (s.port p).linkUp := by
      rw [Bool.eq_false_iff.mpr hpin, Bool.false_or]
    rw [if_neg hpin, if_neg hpin, hup]
    exact (State.setPort_port s p).symm

theorem exec_promLoadCompletion_of_loading {s : State} (h : s.phase = .loading) (pdio : Vector Bool 256)
    (straps : BitVec 3) (tbFirst : Bool) :
    exec (.promLoadCompletion pdio straps tbFirst) s =
      .next (completeLoad (bytesOfPdio 32 pdio.toList) straps tbFirst s) :=
  congrArg Host.Outcome.next (if_pos h)

/-- Settles O6. The two ports take up their LINK inputs independently, so the order shows in the event queue alone. -/
theorem promLoadCompletionStartsThePart : Obligations.PromLoadCompletionStartsThePart := by
  unfold Obligations.PromLoadCompletionStartsThePart
  refine ⟨⟨rfl, rfl, fun s => beq_iff_eq⟩, fun pdio => ⟨bytesOfPdio_length _ _, fun n k hn hk => ?_⟩,
    fun pdio straps tbFirst s => ⟨fun h => congrArg Host.Outcome.next (if_neg h), fun h => ?_⟩⟩
  · exact bytesOfPdio_getMsbD 32 n k pdio.toList pdio.length_toList hn hk
  · intro r up started
    refine ⟨_, exec_promLoadCompletion_of_loading h pdio straps tbFirst, ?_⟩
    unfold completeLoad takeUpLinks
    cases tbFirst
    · rw [if_neg Bool.false_ne_true, takeUpLink_eq .tb, takeUpLink_eq .ta]
      exact ⟨rfl, rfl, rfl, rfl, rfl, rfl, rfl, rfl, rfl, rfl, rfl⟩
    · rw [if_pos rfl, takeUpLink_eq .ta, takeUpLink_eq .tb]
      exact ⟨rfl, rfl, rfl, rfl, rfl, rfl, rfl, rfl, rfl, rfl, rfl⟩

end Sys2Proof.Machine
end

