-- ==== Sys2Proof/Proofs/LanePins.lean ====
section
/-! The pins of a lane: how they stand, the edges on which they change, and the words put together from Ln_DIN and
taken apart onto Ln_DOUT (R92 to R97, R104, R105, R116). -/

namespace Sys2Proof.Machine

theorem Width.bits_le (w : Width) : w.bits ≤ 32 := by
  cases w <;> decide

theorem LaneConfig.takes_iff (c : LaneConfig) : c.takes = true ↔ c.direction ≠ .out := bne_iff_ne

/-! ## How the pins stand -/

section
variable {x : Lane}

theorem Lane.pins_of_off (h : x.state = .off) :
    x.clockPins = .highImpedance ∧ x.doutPin = .highImpedance ∧ x.dinPin = .notSampled := by
  rw [Lane.clockPins, Lane.doutPin, Lane.dinPin, h]
  exact ⟨rfl, rfl, rfl⟩

theorem Lane.clockPins_of_slave (h : x.state ≠ .off) (hrole : x.config.role = .slave) : x.clockPins = .input := by
  rw [Lane.clockPins, hrole]
  cases hx : x.state
  case off => exact absurd hx h
  all_goals rfl

theorem Lane.clockPins_of_master (h : x.state = .running) (hrole : x.config.role ≠ .slave) : x.clockPins = .driven := by
  rw [Lane.clockPins, h]
  cases hr : x.config.role
  case slave => exact absurd hr hrole
  all_goals rfl

theorem Lane.doutPin_of_inp (hdir : x.config.direction = .inp) : x.doutPin = .highImpedance := by
  rw [Lane.doutPin, LaneConfig.drives, hdir]
  cases x.state <;> rfl

theorem Lane.doutPin_of_drives (hdir : x.config.direction ≠ .inp) :
    (x.state = .running → x.doutPin = .driven)
      ∧ (x.state = .seeking ∨ x.state = .lost → x.doutPin = .drivenLow) := by
  have hdrives : x.config.drives = true := bne_iff_ne.mpr hdir
  rw [Lane.doutPin, hdrives]
  constructor
  · intro h
    rw [h]
  · intro h
    rcases h with h | h <;> rw [h]

theorem Lane.dinPin_of_takes (h : x.state ≠ .off) (hdir : x.config.direction ≠ .out) : x.dinPin = .input := by
  rw [Lane.dinPin, x.config.takes_iff.mpr hdir]
  cases hx : x.state
  case off => exact absurd hx h
  all_goals rfl

theorem Lane.dinPin_of_out (hdir : x.config.direction = .out) : x.dinPin = .notSampled := by
  rw [Lane.dinPin, LaneConfig.takes, hdir]
  cases x.state <;> rfl

end

/-! ## Edges -/

section
variable (c : LaneConfig)

theorem LaneConfig.driveEdge_eq : c.driveEdge = if c.clockEdge = .driveFalling then .falling else .rising := by
  unfold LaneConfig.driveEdge
  cases c.clockEdge <;> rfl

theorem LaneConfig.sampleEdge_eq : c.sampleEdge = if c.clockEdge = .driveFalling then .rising else .falling := by
  unfold LaneConfig.sampleEdge LaneConfig.driveEdge
  cases c.clockEdge <;> rfl

theorem LaneConfig.edgeAt_even (k : Nat) : c.edgeAt (2 * k) = c.driveEdge := if_pos (Nat.mul_mod_right 2 k)

theorem LaneConfig.edgeAt_odd (k : Nat) : c.edgeAt (2 * k + 1) = c.sampleEdge :=
  if_neg (by rw [Nat.mul_add_mod]; decide)

theorem LaneConfig.dataPeriod_eq (k : Nat) : c.dataPeriod k = if c.delayOne = true then k + 1 else k := by
  unfold LaneConfig.dataPeriod
  cases c.delayOne <;> rfl

theorem LaneConfig.syncLevel_eq_active_iff (k : Nat) : c.syncLevel k = c.activeLevel ↔ k < c.syncPeriods := by
  unfold LaneConfig.syncLevel
  by_cases h : k < c.syncPeriods
  · rw [if_pos h]
    exact iff_of_true rfl h
  · rw [if_neg h]
    exact iff_of_false (mt (Bool.not_eq_self _).mp not_false) h

theorem LaneConfig.leadingEdge_iff (before now : AtEdges Bool) :
    c.leadingEdge before now = true ↔
      c.inputOf before ≠ decide (c.polarity = .high) ∧ c.inputOf now = decide (c.polarity = .high) := by
  rw [c.leadingEdge_eq_true, c.sampled_eq_inputOf, c.sampled_eq_inputOf, c.activeLevel_eq]

theorem half_of_even (k : Nat) : 2 * k / 2 = k := Nat.mul_div_cancel_left k (by decide)

theorem half_of_odd (k : Nat) : (2 * k + 1) / 2 = 2 * k / 2 := by
  omega

end

/-! ## Words on the pins -/

theorem slotBits_getLsbD (w : Width) (word : Word) (bit : Nat) (h : bit < w.bits) :
    (slotBits w word).getLsbD (w.bits - 1 - bit) = word.getLsbD (31 - bit) := by
  have hbits := w.bits_le
  rw [slotBits, BitVec.getLsbD_ushiftRight, show 32 - w.bits + (w.bits - 1 - bit) = 31 - bit by omega]

theorem Lane.dataBit_of_slot (x : Lane) (slot bit : Nat) (hslot : slot < x.config.slots)
    (hbit : bit < x.config.slotWidth.bits) :
    x.dataBit (slot * x.config.slotWidth.bits + bit) =
      (slotBits x.config.slotWidth (x.outWords.getD slot 0)).getLsbD (x.config.slotWidth.bits - 1 - bit) := by
  have hpos : 0 < x.config.slotWidth.bits := Nat.zero_lt_of_lt hbit
  have hwithin : slot * x.config.slotWidth.bits + bit < x.config.frameLength :=
    calc slot * x.config.slotWidth.bits + bit
      _ < slot * x.config.slotWidth.bits + x.config.slotWidth.bits := Nat.add_lt_add_left hbit _
      _ = (slot + 1) * x.config.slotWidth.bits := (Nat.succ_mul _ _).symm
      _ ≤ x.config.slots * x.config.slotWidth.bits := Nat.mul_le_mul_right _ hslot
  rw [slotBits_getLsbD _ _ _ hbit, Lane.dataBit, if_pos hwithin, Nat.mul_comm, Nat.mul_add_div hpos,
    Nat.div_eq_of_lt hbit, Nat.add_zero, Nat.mul_add_mod, Nat.mod_eq_of_lt hbit]

theorem Lane.dataBit_beyond (x : Lane) (k : Nat) (h : x.config.slots * x.config.slotWidth.bits ≤ k) :
    x.dataBit k = false :=
  if_neg (Nat.not_lt.mpr h)

section
variable (c : LaneConfig) (line : PinLevels) (slot : Fin 32)

theorem LaneConfig.slotLevels_getD (b : Nat) :
    (c.slotLevels line slot.val).getD b false =
      (decide (b < c.slotWidth.bits) && line.getLsbD (c.dataPeriod (slot.val * c.slotWidth.bits + b))) := by
  by_cases hb : b < c.slotWidth.bits
  · rw [List.getD_eq_getElem?_getD, c.slotLevels_getElem? line slot.val b hb, decide_eq_true hb, Bool.true_and,
      Option.getD_some]
  · have hbeyond : (c.slotLevels line slot.val).length ≤ b := (c.slotLevels_length line slot.val).symm ▸ Nat.not_lt.mp hb
    rw [List.getD_eq_getElem?_getD, List.getElem?_eq_none hbeyond, Option.getD_none, decide_eq_false hb, Bool.false_and]

/-- The bits of an in-slot word from its most significant on. -/
theorem LaneConfig.inWord_getMsbD (hdir : c.direction ≠ .out) (hslot : slot.val < c.slots) (b : Nat) :
    (c.inWord line slot).getMsbD b =
      (decide (b < c.slotWidth.bits) && line.getLsbD (c.dataPeriod (slot.val * c.slotWidth.bits + b))) := by
  have hlength := c.slotLevels_length line slot.val
  have hbits := ofNat_ofBits_getMsbD (w := 32) (c.slotLevels line slot.val) (hlength.symm ▸ c.slotWidth.bits_le) b
  rw [hlength] at hbits
  have htaken : (c.takes && decide (slot.val < c.slots)) = true := by
    rw [c.takes_iff.mpr hdir, decide_eq_true hslot, Bool.true_and]
  rw [LaneConfig.inWord, if_pos htaken, leftJustify, BitVec.getMsbD_shiftLeft, hbits, c.slotLevels_getD]

/-- The level of Ln_DIN that gives bit b of the word of a slot, counted from the most significant. -/
def LaneConfig.levelAt (b : Nat) : Bool :=
  decide (b < c.slotWidth.bits
    ∧ line.getLsbD ((slot.val * c.slotWidth.bits + if c.delayOne = true then 1 else 0) + b) = true)

theorem LaneConfig.levelAt_eq (b : Nat) :
    c.levelAt line slot b =
      (decide (b < c.slotWidth.bits) && line.getLsbD (c.dataPeriod (slot.val * c.slotWidth.bits + b))) := by
  rw [LaneConfig.levelAt, LaneConfig.dataPeriod, Nat.add_right_comm, Bool.decide_and, Bool.decide_eq_true]

theorem capturedWord_eq_ofBits (hdir : c.direction ≠ .out) (hslot : slot.val < c.slots) :
    capturedWord c line (some slot) = BitVec.ofNat 32 (ofBits ((List.range 32).map (c.levelAt line slot))) := by
  have hstep : (fun (n b : Nat) => n * 2 + (c.levelAt line slot b).toNat) =
      fun n b =>
        2 * n + if b < c.slotWidth.bits
            ∧ line.getLsbD ((slot.val * c.slotWidth.bits + if c.delayOne = true then 1 else 0) + b) = true then 1 else 0 := by
    funext n b
    rw [Nat.mul_comm, LaneConfig.levelAt, Bool.toNat, Bool.cond_decide]
  rw [ofBits, List.foldl_map, hstep]
  exact if_neg fun h => h.elim hdir (Nat.not_le.mpr hslot)

/-- The word that the model puts together in a slot is the word that the statements speak of. -/
theorem LaneConfig.inWord_eq_capturedWord : c.inWord line slot = capturedWord c line (some slot) := by
  by_cases h : c.direction = .out ∨ c.slots ≤ slot.val
  · rw [c.inWord_eq_zero line slot (h.imp_left fun hdir => by rw [LaneConfig.takes, hdir]; rfl)]
    exact (if_pos h).symm
  · have hdir : c.direction ≠ .out := fun hdir => h (.inl hdir)
    have hslot : slot.val < c.slots := Nat.not_le.mp fun hslot => h (.inr hslot)
    rw [capturedWord_eq_ofBits c line slot hdir hslot]
    refine BitVec.eq_of_getMsbD_eq fun b hb => ?_
    have hlength : ((List.range 32).map (c.levelAt line slot)).length = 32 := by
      rw [List.length_map, List.length_range]
    have hbit := ofNat_ofBits_getMsbD (w := 32) _ (Nat.le_of_eq hlength) b
    rw [hlength] at hbit
    rw [c.inWord_getMsbD line slot hdir hslot, ← c.levelAt_eq]
    refine Eq.trans ?_ hbit.symm
    rw [List.getD_eq_getElem?_getD, List.getElem?_map, List.getElem?_range hb]
    rfl

end

/-! ## The bit clock -/

theorem Gen.bitClock_eq_none {g : Gen} (h : g.num = 0) : g.bitClock = none :=
  if_neg (by rw [Gen.isRunning, h]; decide)

theorem Gen.bitClock_eq_some {g : Gen} (h : g.num ≠ 0) :
    g.bitClock = some (98304000 * g.num * (2 ^ 20 + g.trim), g.den * 2 ^ 20) :=
  if_pos (bne_iff_ne.mpr h)

/-- Settles O59, a pin at a time. -/
theorem lanePinsFollowTheirConfiguration : Obligations.LanePinsFollowTheirConfiguration := by
  unfold Obligations.LanePinsFollowTheirConfiguration
  refine ⟨fun x => ⟨Lane.pins_of_off, Lane.clockPins_of_slave, Lane.clockPins_of_master, fun h hdir => ?_,
      fun h hdir => (Lane.doutPin_of_drives hdir).1 h, fun h hdir => (Lane.doutPin_of_drives hdir).2 h, fun h hdir => ?_,
      Lane.dinPin_of_out⟩,
    fun c k => ⟨c.driveEdge_eq, c.sampleEdge_eq, c.edgeAt_even k, c.edgeAt_odd k, beq_iff_eq, ?_, ?_, ?_, c.dataPeriod_eq k⟩,
    fun c before now words => ⟨c.sampled_eq_inputOf words, c.leadingEdge_iff before now⟩, fun x slot bit k => ?_,
    fun w word => rfl, fun c line slot b => ?_, fun g => ⟨Gen.bitClock_eq_none, Gen.bitClock_eq_some⟩⟩
  · exact ⟨Lane.doutPin_of_inp hdir, Lane.dinPin_of_takes h (by rw [hdir]; decide)⟩
  · exact Lane.dinPin_of_takes h (by rw [hdir]; decide)
  · exact congrArg c.syncLevel (half_of_even k)
  · exact congrArg c.syncLevel (half_of_odd k)
  · rw [← c.activeLevel_eq]
    exact c.syncLevel_eq_active_iff k
  · exact ⟨x.dataBit_of_slot slot bit, x.dataBit_beyond k, congrArg x.dataBit (half_of_even k),
      congrArg x.dataBit (half_of_odd k)⟩
  · refine ⟨fun hdir hslot => ⟨fun hb => ?_, fun hb => ?_⟩, fun h => c.inWord_eq_zero line slot (h.imp_left fun hdir => ?_),
      c.inWord_eq_capturedWord line slot⟩
    · rw [c.inWord_getMsbD line slot hdir hslot, decide_eq_true hb, Bool.true_and]
    · rw [c.inWord_getMsbD line slot hdir hslot, decide_eq_false (Nat.not_lt.mpr hb), Bool.false_and]
    · rw [LaneConfig.takes, hdir]
      rfl

end Sys2Proof.Machine
end

