-- ==== Sys2Proof/Proofs/SampleWords.lean ====
section
/-! Sample words in the payload of a frame: each fills w.bytes bytes of its own, and a word whose bits below the width
are zero comes back as it was (R43, R44). -/

namespace Sys2Proof.Machine

theorem Width.bits_eq_bytes (w : Width) : w.bits = 8 * w.bytes := by
  cases w <;> rfl

theorem Width.bytes_le (w : Width) : w.bytes ≤ 4 := by
  cases w <;> decide

theorem Width.bytes_pos (w : Width) : 0 < w.bytes := by
  cases w <;> decide

/-! ## Unpacking -/

theorem unpackSamples_getElem? (w : Width) (n k : Nat) (bs : List Byte) (h : k < n) :
    (unpackSamples w n bs)[k]? = some (wordOfSample w ((bs.drop (k * w.bytes)).take w.bytes)) := by
  induction n generalizing k bs with
  | zero => exact absurd h (Nat.not_lt_zero k)
  | succ n ih =>
    cases k with
    | zero =>
      rw [Nat.zero_mul]
      rfl
    | succ k =>
      rw [Nat.succ_mul, Nat.add_comm (k * w.bytes), ← List.drop_drop]
      exact ih k (bs.drop w.bytes) (Nat.lt_of_succ_lt_succ h)

/-! ## Packing -/

theorem sampleOfWord_length (w : Width) (x : Word) : (sampleOfWord w x).length = w.bytes := by
  rw [sampleOfWord, List.length_take]
  exact Nat.min_eq_left w.bytes_le

theorem packSamples_cons (w : Width) (x : Word) (xs : List Word) :
    packSamples w (x :: xs) = sampleOfWord w x ++ packSamples w xs := List.flatMap_cons

theorem packSamples_length (w : Width) (xs : List Word) : (packSamples w xs).length = xs.length * w.bytes := by
  induction xs with
  | nil => exact (Nat.zero_mul _).symm
  | cons x xs ih =>
    rw [packSamples_cons, List.length_append, sampleOfWord_length, ih, List.length_cons, Nat.succ_mul, Nat.add_comm]

theorem byteOf_shiftRight (x : Word) (k : Nat) : byteOf (x.toNat / 2 ^ k) = (x >>> k).setWidth 8 := by
  refine BitVec.eq_of_toNat_eq ?_
  rw [byteOf, BitVec.toNat_ofNat, BitVec.toNat_setWidth, BitVec.toNat_ushiftRight, Nat.shiftRight_eq_div_pow]

theorem be4_getD (x : Word) (b : Nat) (h : b < 4) : (be4 x.toNat).getD b 0 = (x >>> (24 - 8 * b)).setWidth 8 := by
  rw [← byteOf_shiftRight]
  match b, h with
  | 0, _ => rfl
  | 1, _ => rfl
  | 2, _ => rfl
  | 3, _ => exact congrArg byteOf (Nat.div_one _).symm

theorem sampleOfWord_getD (w : Width) (x : Word) (b : Nat) (h : b < w.bytes) :
    (sampleOfWord w x).getD b 0 = (x >>> (24 - 8 * b)).setWidth 8 := by
  rw [sampleOfWord, List.getD_eq_getElem?_getD, List.getElem?_take_of_lt h, ← List.getD_eq_getElem?_getD]
  exact be4_getD x b (Nat.lt_of_lt_of_le h w.bytes_le)

theorem packSamples_getD (w : Width) (xs : List Word) (k b : Nat) (hk : k < xs.length) (hb : b < w.bytes) :
    (packSamples w xs).getD (k * w.bytes + b) 0 = (xs.getD k 0 >>> (24 - 8 * b)).setWidth 8 := by
  have hlength := sampleOfWord_length w
  induction xs generalizing k with
  | nil => exact absurd hk (Nat.not_lt_zero k)
  | cons x xs ih =>
    rw [packSamples_cons, List.getD_eq_getElem?_getD]
    cases k with
    | zero =>
      rw [Nat.zero_mul, Nat.zero_add, List.getElem?_append_left ((hlength x).symm ▸ hb), ← List.getD_eq_getElem?_getD]
      exact sampleOfWord_getD w x b hb
    | succ k =>
      rw [List.getElem?_append_right (by rw [hlength, Nat.succ_mul]; omega), hlength, Nat.succ_mul,
        show k * w.bytes + w.bytes + b - w.bytes = k * w.bytes + b by omega, ← List.getD_eq_getElem?_getD]
      exact ih k (Nat.lt_of_succ_lt_succ hk)

/-! ## There and back -/

/-- The bytes sent for a word spell its upper bits. -/
theorem ofBe_sampleOfWord (w : Width) (x : Word) : ofBe (sampleOfWord w x) = x.toNat / 2 ^ (32 - w.bits) := by
  have hx := x.isLt
  cases w
  all_goals
    simp only [sampleOfWord, be4, byteOf, ofBe, Width.bytes, Width.bits, List.take_succ_cons, List.take_zero, List.foldl_cons,
      List.foldl_nil, BitVec.toNat_ofNat]
    omega

theorem wordOfSample_sampleOfWord (w : Width) (x : Word) (h : x &&& BitVec.ofNat 32 (2 ^ (32 - w.bits) - 1) = 0) :
    wordOfSample w (sampleOfWord w x) = x := by
  have hfits : 2 ^ (32 - w.bits) - 1 < 2 ^ 32 := by
    cases w <;> decide
  have hlow : x.toNat % 2 ^ (32 - w.bits) = 0 := by
    have hand := congrArg BitVec.toNat h
    rwa [BitVec.toNat_and, BitVec.toNat_ofNat, Nat.mod_eq_of_lt hfits, Nat.and_two_pow_sub_one_eq_mod] at hand
  rw [wordOfSample, ofBe_sampleOfWord, Nat.div_mul_cancel (Nat.dvd_of_mod_eq_zero hlow), BitVec.ofNat_toNat,
    BitVec.setWidth_eq]

theorem unpackSamples_packSamples (w : Width) (xs : List Word)
    (h : ∀ x ∈ xs, x &&& BitVec.ofNat 32 (2 ^ (32 - w.bits) - 1) = 0) :
    unpackSamples w xs.length (packSamples w xs) = xs := by
  induction xs with
  | nil => rfl
  | cons x xs ih =>
    have hlength := sampleOfWord_length w x
    rw [packSamples_cons, List.length_cons, unpackSamples, List.take_left' hlength, List.drop_left' hlength,
      wordOfSample_sampleOfWord w x (h x List.mem_cons_self), ih fun y hy => h y (List.mem_cons_of_mem _ hy)]

/-- Settles O31. -/
theorem samplesSurviveTheTrunk : Obligations.SamplesSurviveTheTrunk := by
  unfold Obligations.SamplesSurviveTheTrunk
  intro w n payload
  rw [← w.bits_eq_bytes]
  refine ⟨fun _ k hk => unpackSamples_getElem? w n k payload hk, ?_, ?_⟩
  · rintro xs rfl
    exact ⟨packSamples_length w xs, packSamples_getD w xs⟩
  · rintro xs rfl hxs
    exact unpackSamples_packSamples w xs hxs

end Sys2Proof.Machine
end

