-- ==== Sys2Proof/Proofs/SentFrames.lean ====
section
/-! The frames the part sends: a frame with its header, payload and check word passes the checks a receiver makes, its
fields read back, and its nibbles follow one another on the trunk (R41, R42, R47, R148). -/

namespace Sys2Proof.Machine

/-! ## Fields -/

theorem byteOf_toNat_of_lt {n : Nat} (h : n < 256) : (byteOf n).toNat = n := Nat.mod_eq_of_lt h

theorem ofBe_be2 {n : Nat} (h : n < 2 ^ 16) : ofBe (be2 n) = n := by
  simp only [ofBe, be2, byteOf, List.foldl_cons, List.foldl_nil, BitVec.toNat_ofNat]
  omega

theorem half_of_be2 (x : Half) : BitVec.ofNat 16 (ofBe (be2 x.toNat)) = x := by
  rw [ofBe_be2 x.isLt, BitVec.ofNat_toNat, BitVec.setWidth_eq]

theorem word_of_be4 (x : Word) : BitVec.ofNat 32 (ofBe (be4 x.toNat)) = x := by
  rw [ofBe_be4 x.isLt, BitVec.ofNat_toNat, BitVec.setWidth_eq]

theorem byteAt_append_right (xs ys : List Byte) (i : Nat) : byteAt (xs ++ ys) (xs.length + i) = byteAt ys i := by
  rw [byteAt, byteAt, List.getD_eq_getElem?_getD, List.getD_eq_getElem?_getD,
    List.getElem?_append_right (Nat.le_add_right _ _), Nat.add_sub_cancel_left]

/-! ## The parts of a frame -/

/-- A check word as the last four bytes of a frame. -/
def checkBytes (body : List Byte) : List Byte := (be4 (checkWord body).toNat).reverse

theorem checkBytes_eq (body : List Byte) :
    checkBytes body =
      [(checkWord body).extractLsb' 0 8, (checkWord body).extractLsb' 8 8, (checkWord body).extractLsb' 16 8,
        (checkWord body).extractLsb' 24 8] := by
  rw [← byteOf_low, ← byteOf_shift, ← byteOf_shift, ← byteOf_shift]
  rfl

theorem carriedCheckWord_append (body : List Byte) : carriedCheckWord (body ++ checkBytes body) = (checkWord body).toNat := by
  have hlength : (body ++ checkBytes body).length = body.length + 4 := List.length_append
  have hword := (checkWord body).isLt
  unfold carriedCheckWord
  rw [hlength, show body.length + 4 - 4 = body.length + 0 by omega, show body.length + 4 - 3 = body.length + 1 by omega,
    show body.length + 4 - 2 = body.length + 2 by omega, show body.length + 4 - 1 = body.length + 3 by omega,
    byteAt_append_right, byteAt_append_right, byteAt_append_right, byteAt_append_right]
  simp only [checkBytes, be4, byteOf, byteAt, List.reverse_cons, List.reverse_nil, List.nil_append, List.cons_append,
    List.getD_cons_zero, List.getD_cons_succ, BitVec.toNat_ofNat]
  omega

section
variable (kind flags channels code : Nat) (dest source : Half) (tag : Word) (seq : Half) (payload : List Byte)

/-- A frame before its check word. -/
def frameBody : List Byte :=
  [byteOf kind, byteOf flags] ++ be2 dest.toNat ++ be2 source.toNat ++ be4 tag.toNat ++ be2 seq.toNat
    ++ [byteOf channels, byteOf code] ++ be2 payload.length ++ payload

theorem buildFrame_eq :
    buildFrame kind flags dest source tag seq channels code payload =
      frameBody kind flags channels code dest source tag seq payload
        ++ checkBytes (frameBody kind flags channels code dest source tag seq payload) := rfl

theorem frameBody_length : (frameBody kind flags channels code dest source tag seq payload).length = 16 + payload.length :=
  List.length_append

/-- What a receiver reads in a frame sent. -/
structure ReadsBack (f : List Byte) : Prop where
  good : GoodFrame f kind
  length : f.length = 20 + payload.length
  kind : byteAt f 0 = kind
  flags : byteAt f 1 = flags
  dest : frameDest f = dest
  source : frameSource f = source
  tag : frameTag f = tag
  seq : frameSeq f = seq
  channels : byteAt f 12 = channels
  code : byteAt f 13 = code
  payloadLength : beAt f 14 2 = payload.length
  check : f.drop (16 + payload.length) = checkBytes (f.take (16 + payload.length))
  payload : (f.drop 16).take (f.length - 20) = payload

theorem readsBack_buildFrame (hkind : kind = 0x51 ∨ (kind = 0x52 ∧ payload ≠ []) ∨ (kind = 0x53 ∧ 2 ≤ payload.length))
    (hpayload : payload.length ≤ 1024) (hflags : flags < 256) (hchannels : channels < 256) (hcode : code < 256) :
    ReadsBack kind flags channels code dest source tag seq payload
      (buildFrame kind flags dest source tag seq channels code payload) := by
  have hbody := frameBody_length kind flags channels code dest source tag seq payload
  have hlength : (buildFrame kind flags dest source tag seq channels code payload).length = 20 + payload.length := by
    rw [buildFrame_eq, List.length_append, hbody, Nat.add_right_comm]
    rfl
  have hcount : beAt (buildFrame kind flags dest source tag seq channels code payload) 14 2 = payload.length :=
    ofBe_be2 (Nat.lt_of_le_of_lt hpayload (by decide))
  have hbyte : byteAt (buildFrame kind flags dest source tag seq channels code payload) 0 = kind :=
    byteOf_toNat_of_lt (by omega)
  have hcovered : (buildFrame kind flags dest source tag seq channels code payload).take (16 + payload.length) =
      frameBody kind flags channels code dest source tag seq payload := List.take_left' hbody
  have hkinds : kind = 0x51 ∨ (kind = 0x52 ∧ 1 ≤ payload.length) ∨ (kind = 0x53 ∧ 2 ≤ payload.length) :=
    hkind.imp_right fun h => h.imp_left fun h => ⟨h.1, List.length_pos_iff.mpr h.2⟩
  have hgood : GoodFrame (buildFrame kind flags dest source tag seq channels code payload) kind := by
    refine ⟨?_, ?_, ?_, ?_, hbyte, ?_⟩
    · rw [hlength]
      exact Nat.le_add_right _ _
    · rw [hlength]
      omega
    · rw [hcount, hlength, Nat.add_sub_cancel_left]
    · rw [hlength, show 20 + payload.length - 4 = 16 + payload.length by omega, hcovered]
      exact carriedCheckWord_append _
    · rw [hcount]
      exact hkinds
  exact
    { good := hgood, length := hlength, kind := hbyte, flags := byteOf_toNat_of_lt hflags, dest := half_of_be2 dest,
      source := half_of_be2 source, tag := word_of_be4 tag, seq := half_of_be2 seq,
      channels := byteOf_toNat_of_lt hchannels, code := byteOf_toNat_of_lt hcode, payloadLength := hcount,
      check := by
        rw [hcovered]
        exact List.drop_left' hbody
      payload := by
        rw [hlength, Nat.add_sub_cancel_left]
        exact List.take_left }

end

theorem readsBack_sampleFrameBytes (st : Stream) (r : ReadyFrame) (hchannels : st.channels ≤ 16)
    (hpayload : r.words.length * st.width.bytes ≤ 1024) :
    ReadsBack 0x51 ((if r.isFirst then 1 else 0) + (if r.isEnd then 2 else 0)) st.channels st.width.code 0x0000 r.source
      st.tag r.seq (packSamples st.width r.words) (sampleFrameBytes st r) := by
  have hflags : (if r.isFirst then 1 else 0) + (if r.isEnd then 2 else 0) < 256 := by
    split <;> split <;> decide
  have hcode : st.width.code < 256 := by
    cases st.width <;> decide
  refine readsBack_buildFrame _ _ _ _ _ _ _ _ _ (.inl rfl) ?_ hflags (Nat.lt_of_le_of_lt hchannels (by decide)) hcode
  rw [packSamples_length]
  exact hpayload

theorem readsBack_replyBytes (r : Reply) (hmin : 2 ≤ r.payload.length) (hmax : r.payload.length ≤ 1024) :
    ReadsBack 0x53 0 0 0 r.dest r.source r.txn 0 r.payload r.bytes :=
  readsBack_buildFrame _ _ _ _ _ _ _ _ _ (.inr (.inr ⟨rfl, hmin⟩)) hmax (by decide) (by decide) (by decide)

/-! ## Nibbles -/

theorem txNibbles_cons (b : Byte) (bs : List Byte) :
    txNibbles (b :: bs) = b.extractLsb' 0 4 :: b.extractLsb' 4 4 :: txNibbles bs := rfl

theorem txNibbles_length (bs : List Byte) : (txNibbles bs).length = 2 * bs.length := by
  induction bs with
  | nil => rfl
  | cons b bs ih =>
    rw [txNibbles_cons, List.length_cons, List.length_cons, ih]
    rfl

theorem extractLsb'_eq_ushiftRight (b : Byte) (k : Nat) : b.extractLsb' k 4 = (b >>> k).setWidth 4 := by
  refine BitVec.eq_of_toNat_eq ?_
  rw [BitVec.extractLsb'_toNat, BitVec.toNat_setWidth, BitVec.toNat_ushiftRight]

/-- The less significant nibble of a byte, then the more significant. -/
theorem txNibbles_getElem? (bs : List Byte) (k : Nat) (h : k < bs.length) :
    (txNibbles bs)[2 * k]? = some ((bs.getD k 0).setWidth 4)
      ∧ (txNibbles bs)[2 * k + 1]? = some ((bs.getD k 0 >>> 4).setWidth 4) := by
  induction bs generalizing k with
  | nil => exact absurd h (Nat.not_lt_zero k)
  | cons b bs ih =>
    cases k with
    | zero => exact ⟨congrArg some (extractLsb'_eq_ushiftRight b 0), congrArg some (extractLsb'_eq_ushiftRight b 4)⟩
    | succ k => exact ih k (Nat.lt_of_succ_lt_succ h)

section
variable {s : State} {p : Port}

theorem State.txNibble_of_none (h : s.frameOnTrunk p = none) (t : Nat) : s.txNibble p t = none := by
  rw [State.txNibble, h]
  rfl

theorem State.txNibble_of_some {f : List Byte} (h : s.frameOnTrunk p = some f) (t : Nat) :
    s.txNibble p t = (txNibbles f)[t]? := by
  rw [State.txNibble, h]
  rfl

theorem State.txEnable_of_some {f : List Byte} (h : s.frameOnTrunk p = some f) (t : Nat) :
    s.txEnable p t = decide (t < 2 * f.length) := by
  rw [State.txEnable, State.txNibble_of_some h, ← txNibbles_length, Bool.eq_iff_iff, decide_eq_true_eq]
  exact Iff.of_eq (isSome_getElem? (txNibbles f) t)

theorem State.frameOnTrunk_of_quiet (h : (s.port p).tx = .idle ∨ (s.port p).tx = .abortGap) : s.frameOnTrunk p = none := by
  unfold State.frameOnTrunk
  rcases h with h | h <;> rw [h]

theorem State.frameOnTrunk_of_reply {r : Reply} {rest : List Reply} (htx : (s.port p).tx = .reply)
    (hreplies : (s.port p).replies = r :: rest) : s.frameOnTrunk p = some r.bytes := by
  unfold State.frameOnTrunk
  rw [htx, hreplies]
  rfl

theorem State.frameOnTrunk_of_sample {i : StreamIdx} {before behind : List ReadyFrame} {f : ReadyFrame}
    (htx : (s.port p).tx = .sample i) (hready : (s.stream i).ready = before ++ f :: behind) (hsent : f.inTx.get p = true)
    (hbefore : ∀ v ∈ before, v.inTx.get p = false) : s.frameOnTrunk p = some (sampleFrameBytes (s.stream i) f) := by
  have hfind : (s.stream i).ready.find? (fun v => v.inTx.get p) = some f := by
    rw [hready, List.find?_append, List.find?_eq_none.mpr fun v hv => Bool.eq_false_iff.mp (hbefore v hv), Option.none_or,
      List.find?_cons_of_pos (p := fun v : ReadyFrame => v.inTx.get p) hsent]
  unfold State.frameOnTrunk
  rw [htx]
  exact congrArg (Option.map _) hfind

end

/-- Settles O30. Every frame sent is a frame that is built, so what a receiver reads in one holds for samples and
replies alike. -/
theorem sentFramesPassTheChecks : Obligations.SentFramesPassTheChecks := by
  unfold Obligations.SentFramesPassTheChecks
  refine ⟨by decide +kernel, ?built, ?sample, ?reply, fun s p => ⟨State.frameOnTrunk_of_quiet,
    fun r rest => State.frameOnTrunk_of_reply, fun i before f behind => State.frameOnTrunk_of_sample, ?quiet, ?sent⟩⟩
  case built =>
    intro kind flags channels code dest source tag seq payload hkind hpayload hflags hchannels hcode f
    have h := readsBack_buildFrame kind flags channels code dest source tag seq payload hkind hpayload hflags hchannels hcode
    exact ⟨h.good, h.length, h.kind, h.flags, h.dest, h.source, h.tag, h.seq, h.channels, h.code, h.payloadLength, h.payload,
      h.check.trans (checkBytes_eq _)⟩
  case sample =>
    intro st r hchannels hpayload code f
    have h := readsBack_sampleFrameBytes st r hchannels hpayload
    exact ⟨h.good, h.flags, h.dest, h.source, h.tag, h.seq, h.channels, h.code.trans st.width.code_eq,
      h.payloadLength.trans (packSamples_length _ _), h.payload⟩
  case reply =>
    intro r hmin hmax f
    have h := readsBack_replyBytes r hmin hmax
    exact ⟨h.good, h.flags, h.dest, h.source, h.tag, h.seq, h.channels, h.code, h.payloadLength, h.payload⟩
  case quiet =>
    intro h t
    have hnone := State.txNibble_of_none h t
    exact ⟨by rw [State.txEnable, hnone]; rfl, hnone⟩
  case sent =>
    intro f h
    refine ⟨rfl, State.txEnable_of_some h, fun t ht => ?_, fun k hk => ?_⟩
    · rw [State.txNibble_of_some h]
      exact List.getElem?_eq_none ((txNibbles_length f).symm ▸ ht)
    · rw [State.txNibble_of_some h, State.txNibble_of_some h]
      exact txNibbles_getElem? f k hk

end Sys2Proof.Machine
end

