-- ==== Sys2Proof/Proofs/SlaveSync.lean ====
section
/-! SYNC_LEADING_EDGE and SYNC_TIMEOUT: what a slave lane does with an edge in each of its states, and what its streams
do when it leaves RUNNING (R94, R100, R101, R107). -/

namespace Sys2Proof.Machine

/-! ## The lanes after a frame event -/

/-- The record of a lane that gives its frame event (R101, R103, R104). -/
def State.laneAtEvent (s : State) (l : LaneIdx) : Lane :=
  { s.lane l with
    eventDue := false, outWords := s.loadWords l,
    counters := { (s.lane l).counters with frameEvents := bump (s.lane l).counters.frameEvents } }

theorem frameEvent_lanes (l : LaneIdx) (line : PinLevels) (order late : List StreamIdx) (s : State) :
    (frameEvent l line order late s).lanes = (s.setLane l (s.laneAtEvent l)).lanes := by
  obtain ⟨-, -, hlanes, -, -, -⟩ := frameEvent_keeps l line order late s
  exact hlanes

theorem frameEvent_lane_self (l : LaneIdx) (line : PinLevels) (order late : List StreamIdx) (s : State) :
    (frameEvent l line order late s).lane l = s.laneAtEvent l :=
  (congrArg (Vector.get · l) (frameEvent_lanes l line order late s)).trans (State.lane_setLane_self s l _)

theorem frameEvent_lane_other {l m : LaneIdx} (h : m ≠ l) (line : PinLevels) (order late : List StreamIdx) (s : State) :
    (frameEvent l line order late s).lane m = s.lane m :=
  (congrArg (Vector.get · m) (frameEvent_lanes l line order late s)).trans (State.lane_setLane_ne s _ h)

/-! ## The commands in terms of the edge and the frame event -/

section
variable {s : State} {l : LaneIdx} {f : FrameData}

/-- A slave lane whose event has been given has none left. -/
theorem not_atEvent_giveFrameEvent (hrole : (s.lane l).config.role = .slave) :
    ¬ ((giveFrameEvent l f s).lane l).atEvent := by
  by_cases hevent : (s.lane l).atEvent
  · rw [giveFrameEvent_of_atEvent hevent, frameEvent_lane_self]
    exact fun h => Bool.false_ne_true (h.2 hrole)
  · rwa [giveFrameEvent_of_not_atEvent hevent]

theorem not_atEvent_of_state (h : (s.lane l).state ≠ .running) : ¬ (s.lane l).atEvent := fun hevent => h hevent.1

theorem not_atEvent_of_not_due (hrole : (s.lane l).config.role = .slave) (h : (s.lane l).eventDue = false) :
    ¬ (s.lane l).atEvent := fun hevent => Bool.false_ne_true (h.symm.trans (hevent.2 hrole))

theorem exec_syncTimeout_of_running (hrole : (s.lane l).config.role = .slave) (hstate : (s.lane l).state = .running) :
    exec (.syncTimeout ⟨l, f⟩) s =
      .next (enterLost l false (2 * (s.lane l).config.frameLength) (giveFrameEvent l f s)) :=
  congrArg Host.Outcome.next (if_pos ⟨hrole, hstate⟩)

variable {before now : AtEdges Bool} {n : Nat}

theorem exec_syncLeadingEdge_of_no_edge
    (h : ¬ ((s.lane l).config.role = .slave ∧ (s.lane l).config.leadingEdge before now = true)) :
    exec (.syncLeadingEdge l ⟨before, now, n, f⟩) s = .next s := congrArg Host.Outcome.next (if_neg h)

section
variable (hrole : (s.lane l).config.role = .slave) (hleading : (s.lane l).config.leadingEdge before now = true)
include hrole hleading

theorem exec_syncLeadingEdge_of_delayOne (hdelay : (s.lane l).config.delayOne = true) :
    exec (.syncLeadingEdge l ⟨before, now, n, f⟩) s = .next (syncEdge l n (giveFrameEvent l f s)) :=
  congrArg Host.Outcome.next ((if_pos ⟨hrole, hleading⟩).trans (if_pos hdelay))

theorem exec_syncLeadingEdge_of_delayZero (hdelay : (s.lane l).config.delayOne = false) :
    exec (.syncLeadingEdge l ⟨before, now, n, f⟩) s = .next (giveFrameEvent l f (syncEdge l n s)) :=
  congrArg Host.Outcome.next ((if_pos ⟨hrole, hleading⟩).trans (if_neg (Bool.eq_false_iff.mp hdelay)))

/-- Where neither delay finds a frame event to give, the edge acts alone. -/
theorem exec_syncLeadingEdge_of_no_event (hbefore : (s.lane l).config.delayOne = true → ¬ (s.lane l).atEvent)
    (hafter : (s.lane l).config.delayOne = false → ¬ ((syncEdge l n s).lane l).atEvent) :
    exec (.syncLeadingEdge l ⟨before, now, n, f⟩) s = .next (syncEdge l n s) := by
  cases hdelay : (s.lane l).config.delayOne
  · rw [exec_syncLeadingEdge_of_delayZero hrole hleading hdelay, giveFrameEvent_of_not_atEvent (hafter hdelay)]
  · rw [exec_syncLeadingEdge_of_delayOne hrole hleading hdelay, giveFrameEvent_of_not_atEvent (hbefore hdelay)]

end

/-! ## The edge by the state of the lane (R100, R101) -/

theorem syncEdge_of_off (h : (s.lane l).state = .off) : syncEdge l n s = s := by
  rw [syncEdge, h]

theorem syncEdge_of_looking (h : (s.lane l).state = .seeking ∨ (s.lane l).state = .lost) :
    syncEdge l n s =
      if (s.lane l).candidate = false then s.setLane l { s.lane l with candidate := true }
      else if n = (s.lane l).config.frameLength then enterRunning l true s
      else s := by
  have hcandidate : ((!(s.lane l).candidate) = true) = ((s.lane l).candidate = false) := Bool.not_eq_true' _
  simp only [syncEdge]
  rcases h with h | h <;> rw [h] <;> simp only [hcandidate]

theorem syncEdge_of_running (h : (s.lane l).state = .running) :
    syncEdge l n s =
      if n = (s.lane l).config.frameLength then s.setLane l { s.lane l with eventDue := true }
      else enterLost l true (min n (2 * (s.lane l).config.frameLength)) s := by
  simp only [syncEdge]
  split
  next h' => exact nomatch h.symm.trans h'
  next h' => exact nomatch h.symm.trans h'
  next h' => exact nomatch h.symm.trans h'
  next => rfl

theorem not_running_of_looking (h : (s.lane l).state = .seeking ∨ (s.lane l).state = .lost) :
    (s.lane l).state ≠ .running := by
  rcases h with h | h <;> rw [h] <;> decide

theorem enterLost_lane_state (l : LaneIdx) (candidate : Bool) (detail : Nat) (s : State) :
    ((enterLost l candidate detail s).lane l).state = .lost :=
  congrArg Lane.state (State.lane_setLane_self s l _)

/-- A lane that enters RUNNING gives its streams a first frame of zeros (R100). -/
theorem enterRunning_eq (l : LaneIdx) (s : State) :
    enterRunning l true s =
      (s.setLane l
        { s.lane l with
          state := .running, candidate := false, eventDue := true,
          outWords := if (s.lane l).config.direction = .inp then [] else List.replicate (s.lane l).config.slots 0,
          counters := { (s.lane l).counters with entries := bump (s.lane l).counters.entries } }).post .laneRunning (.lane l)
        (BitVec.ofNat 32 ((s.lane l).config.slots * (s.lane l).config.slotWidth.bits)) := by
  rw [← LaneConfig.zeroSlots_eq]
  rfl

end

/-! ## The streams of a lane that leaves RUNNING (R84, R142) -/

section
variable {l : LaneIdx} {st : Stream}

theorem Stream.loseLane_of_other (h : st.lane ≠ l) : st.loseLane l = st := if_neg h

theorem Stream.loseLane_of_playout (hlane : st.lane = l) (hdir : st.direction = .playout)
    (hstate : st.state = .running ∨ st.state = .starved) :
    st.loseLane l =
      { st with
        state := .armed, expected := none, window := [], gap := false, misplaced := 0, readIndex := 0 } := by
  rw [Stream.loseLane, if_pos hlane]
  split
  next => rfl
  next => rfl
  next hcapture _ => exact nomatch hdir.symm.trans hcapture
  next hrunning hstarved _ => exact (hstate.elim (hrunning hdir) (hstarved hdir)).elim

theorem Stream.loseLane_of_capture (hlane : st.lane = l) (hdir : st.direction = .capture) (hstate : st.state = .running) :
    st.loseLane l = { st with state := .armed, construction := none, firstOfRun := false, capture := st.countPartial } := by
  rw [Stream.loseLane, if_pos hlane]
  split
  next hplayout _ => exact nomatch hdir.symm.trans hplayout
  next hplayout _ => exact nomatch hdir.symm.trans hplayout
  next => rw [Stream.dropConstruction_eq_count]
  next hrunning => exact (hrunning hdir hstate).elim

theorem Stream.loseLane_of_still (hrunning : st.state ≠ .running)
    (hstarved : ¬ (st.direction = .playout ∧ st.state = .starved))
    (l : LaneIdx) : st.loseLane l = st := by
  unfold Stream.loseLane
  split
  · split
    next hstate => exact absurd hstate hrunning
    next hdir hstate => exact absurd ⟨hdir, hstate⟩ hstarved
    next hstate => exact absurd hstate hrunning
    next => rfl
  · rfl

end

/-- Settles O14. An edge acts on the state that its own frame event leaves with data delay 1, and the frame event on the
state that the edge leaves with data delay 0; a lane that gives no event leaves the edge to act alone. -/
theorem slaveLanesFollowTheirSync : Obligations.SlaveLanesFollowTheirSync := by
  unfold Obligations.SlaveLanesFollowTheirSync
  refine ⟨fun l before now n f s => ?lane, fun l st => ⟨Stream.loseLane_of_other, Stream.loseLane_of_playout,
    Stream.loseLane_of_capture, fun h h' => Stream.loseLane_of_still h h' l⟩⟩
  intro x length active leading edge lostBy entered
  have hlead : leading → x.config.leadingEdge before now = true := (x.config.leadingEdge_iff before now).mpr
  refine ⟨fun h => ?quiet, fun h => ?noTimeout, fun hrole h hstate => ?looking, fun hrole hstate hdue t ht => ?due,
    fun hrole hstate hdue => ?timeout, fun hrole hstate h hnone => ?running⟩
  case quiet =>
    by_cases hedge : x.config.role = .slave ∧ x.config.leadingEdge before now = true
    · have hoff : x.state = .off := by
        rcases h with h | h | h
        · exact absurd hedge.1 h
        · exact h
        · exact absurd ((x.config.leadingEdge_iff before now).mp hedge.2) h
      have hstay : syncEdge l n s = s := syncEdge_of_off hoff
      have hnot : ¬ (s.lane l).atEvent := not_atEvent_of_state fun hrun => nomatch hoff.symm.trans hrun
      exact (exec_syncLeadingEdge_of_no_event hedge.1 hedge.2 (fun _ => hnot) fun _ => hstay.symm ▸ hnot).trans
        (congrArg Host.Outcome.next hstay)
    · exact exec_syncLeadingEdge_of_no_edge hedge
  case noTimeout => exact congrArg Host.Outcome.next (if_neg fun hand => h.elim (· hand.1) (· hand.2))
  case looking =>
    have hnot : ¬ (s.lane l).atEvent := not_atEvent_of_state (not_running_of_looking hstate)
    have hedge := syncEdge_of_looking (n := n) hstate
    have entering (hcandidate : x.candidate = true) (hn : n = length) : syncEdge l n s = entered :=
      ((hedge.trans (if_neg (ne_false_of_eq_true hcandidate))).trans (if_pos hn)).trans (enterRunning_eq l s)
    refine ⟨fun hcandidate => ?_, fun hcandidate hn => ?_, fun hcandidate hn hdelay => ?_, fun hcandidate hn hdelay => ?_⟩
    · replace hedge := hedge.trans (if_pos hcandidate)
      refine (exec_syncLeadingEdge_of_no_event hrole (hlead h) (fun _ => hnot) fun _ => ?_).trans
        (congrArg Host.Outcome.next hedge)
      rw [hedge, State.lane_setLane_self]
      exact hnot
    · replace hedge := (hedge.trans (if_neg (ne_false_of_eq_true hcandidate))).trans (if_neg hn)
      exact (exec_syncLeadingEdge_of_no_event hrole (hlead h) (fun _ => hnot) fun _ => hedge.symm ▸ hnot).trans
        (congrArg Host.Outcome.next hedge)
    · rw [← entering hcandidate hn]
      exact exec_syncLeadingEdge_of_no_event hrole (hlead h) (fun _ => hnot) fun hzero =>
        absurd (hdelay.symm.trans hzero) (by decide)
    · rw [← entering hcandidate hn]
      exact exec_syncLeadingEdge_of_delayZero hrole (hlead h) hdelay
  case due =>
    have hevent : (s.lane l).atEvent := ⟨hstate, fun _ => hdue⟩
    obtain rfl : giveFrameEvent l f s = t := Host.Outcome.next.inj ht
    have hnone := not_atEvent_giveFrameEvent (f := f) hrole
    have hlane : (giveFrameEvent l f s).lane l = s.laneAtEvent l := by
      rw [giveFrameEvent_of_atEvent hevent, frameEvent_lane_self]
    have hconfig := congrArg Lane.config hlane
    have hrole' : ((giveFrameEvent l f s).lane l).config.role = .slave := (congrArg LaneConfig.role hconfig).trans hrole
    have hstate' : ((giveFrameEvent l f s).lane l).state = .running := (congrArg Lane.state hlane).trans hstate
    refine ⟨?_, fun h hdelay => ?_⟩
    · rw [exec_syncTimeout_of_running hrole hstate, exec_syncTimeout_of_running hrole' hstate',
        giveFrameEvent_of_not_atEvent hnone, hconfig]
      rfl
    · have hlead' : ((giveFrameEvent l f s).lane l).config.leadingEdge before now = true := by
        rw [hconfig]
        exact hlead h
      have hdelay' : ((giveFrameEvent l f s).lane l).config.delayOne = true := by
        rw [hconfig]
        exact hdelay
      refine (exec_syncLeadingEdge_of_delayOne hrole (hlead h) hdelay).trans ?_
      refine Eq.trans ?_ (exec_syncLeadingEdge_of_delayOne hrole' hlead' hdelay').symm
      rw [giveFrameEvent_of_not_atEvent hnone]
  case timeout =>
    rw [exec_syncTimeout_of_running hrole hstate, giveFrameEvent_of_not_atEvent (not_atEvent_of_not_due hrole hdue)]
    rfl
  case running =>
    have hedge := syncEdge_of_running (n := n) hstate
    have hbefore : (s.lane l).config.delayOne = true → ¬ (s.lane l).atEvent := fun hdelay =>
      hnone.elim (not_atEvent_of_not_due hrole) fun hzero => absurd (hdelay.symm.trans hzero) (by decide)
    have lost (hn : n ≠ length) {detail : Nat} (hdetail : min n (2 * length) = detail) :
        edge s = .next (lostBy true detail) := by
      replace hedge := hedge.trans (if_neg hn)
      refine (exec_syncLeadingEdge_of_no_event hrole (hlead h) hbefore fun _ => ?_).trans (congrArg Host.Outcome.next ?_)
      · rw [hedge]
        exact not_atEvent_of_state (by rw [enterLost_lane_state]; decide)
      · rw [hedge, ← hdetail]
        rfl
    refine ⟨fun hn hdelay => ?_, fun hn hdelay => ?_, fun hn hle => lost hn (Nat.min_eq_left hle),
      fun hn hlt => lost hn (Nat.min_eq_right (Nat.le_of_lt hlt))⟩
    · replace hedge := hedge.trans (if_pos hn)
      exact (exec_syncLeadingEdge_of_no_event hrole (hlead h) hbefore fun hzero =>
        absurd (hdelay.symm.trans hzero) (by decide)).trans
        (congrArg Host.Outcome.next hedge)
    · replace hedge := hedge.trans (if_pos hn)
      exact (exec_syncLeadingEdge_of_delayZero hrole (hlead h) hdelay).trans
        (congrArg (fun u => Host.Outcome.next (giveFrameEvent l f u)) hedge)

end Sys2Proof.Machine
end

