-- ==== Sys2Proof/Proofs/FrameTasks.lean ====
section
/-! The tasks of a frame event one at a time: which streams act and in what order, what a capture stream takes and closes
before the arbiters run, and what the servo of a generator does (R103, R120 to R122, R130 to R134, R150). -/

namespace Sys2Proof.Machine

/-! ## Which streams act, and in what order -/

theorem Stream.actsOn_iff (l : LaneIdx) (st : Stream) :
    st.actsOn l = true ↔
      st.playsOn l ∨ (st.direction = .capture ∧ st.lane = l ∧ (st.state = .armed ∨ st.state = .running)) := by
  rw [← Stream.activePlayout_and_lane]
  simp only [Stream.actsOn, Bool.and_eq_true, Bool.or_eq_true, beq_iff_eq]
  constructor
  · rintro ⟨hlane, hactive | ⟨hdir, hstate⟩⟩
    · exact .inl ⟨hactive, hlane⟩
    · exact .inr ⟨hdir, hlane, hstate⟩
  · rintro (⟨hactive, hlane⟩ | ⟨hdir, hlane, hstate⟩)
    · exact ⟨hlane, .inl hactive⟩
    · exact ⟨hlane, .inr ⟨hdir, hstate⟩⟩

theorem mem_streamsWhere {s : State} {f : Stream → Bool} {i : StreamIdx} : i ∈ s.streamsWhere f ↔ f (s.stream i) = true := by
  unfold State.streamsWhere streamIndices
  rw [List.mem_filter]
  exact and_iff_right (List.mem_finRange i)

theorem nodup_eraseDups {α : Type} [BEq α] [LawfulBEq α] (xs : List α) : xs.eraseDups.Nodup := by
  induction hn : xs.length using Nat.strongRecOn generalizing xs with
  | ind n ih =>
    subst hn
    cases xs with
    | nil => exact List.nodup_nil
    | cons x xs =>
      rw [List.eraseDups_cons]
      refine List.nodup_cons.mpr ⟨fun hx => ?_, ih _ (Nat.lt_succ_of_le (List.length_filter_le _ _)) _ rfl⟩
      have hne := (List.mem_filter.mp (List.mem_eraseDups.mp hx)).2
      rw [beq_self_eq_true] at hne
      exact Bool.false_ne_true hne

theorem mem_arrange {order is : List StreamIdx} {i : StreamIdx} : i ∈ arrange order is ↔ i ∈ is := by
  refine ⟨mem_of_mem_arrange, fun hi => ?_⟩
  unfold arrange
  rw [List.mem_append]
  by_cases horder : i ∈ order
  · exact .inl (List.mem_eraseDups.mpr (List.mem_filter.mpr ⟨horder, List.contains_iff_mem.mpr hi⟩))
  · refine .inr (List.mem_filter.mpr ⟨hi, ?_⟩)
    rw [Bool.not_eq_true', Bool.eq_false_iff]
    exact mt List.contains_iff_mem.mp horder

theorem arrange_nodup {order is : List StreamIdx} (h : is.Nodup) : (arrange order is).Nodup := by
  unfold arrange
  refine List.nodup_append.mpr ⟨nodup_eraseDups _, h.filter _, fun i hi j hj e => ?_⟩
  subst e
  have hin := (List.mem_filter.mp (List.mem_eraseDups.mp hi)).1
  have hout := (List.mem_filter.mp hj).2
  rw [List.contains_iff_mem.mpr hin] at hout
  exact Bool.false_ne_true hout

/-- The tasks of a frame event in their order, before the servos and after them. -/
def State.tasks (s : State) (l : LaneIdx) (f : FrameData) : List StreamIdx := (s.frameOrder l f).1 ++ (s.frameOrder l f).2

section
variable {s : State} {l : LaneIdx} {f : FrameData}

/-- The streams that are put off until the servos have acted. -/
def State.putOff (s : State) (f : FrameData) (i : StreamIdx) : Bool := (s.stream i).direction == .capture && f.late.contains i

theorem State.frameOrder_eq (s : State) (l : LaneIdx) (f : FrameData) :
    s.frameOrder l f =
      ((arrange f.order (s.streamsWhere (Stream.actsOn l))).filter fun i => !s.putOff f i,
        (arrange f.order (s.streamsWhere (Stream.actsOn l))).filter (s.putOff f)) := by
  unfold State.frameOrder
  rw [List.partition_eq_filter_filter]
  refine congrArg (Prod.mk _) (congrArg (List.filter · _) (funext fun i => ?_))
  exact Bool.not_not _

theorem State.mem_tasks {i : StreamIdx} : i ∈ s.tasks l f ↔ (s.stream i).actsOn l = true := by
  rw [← mem_streamsWhere (s := s), ← mem_arrange (order := f.order) (is := s.streamsWhere _), State.tasks,
    s.frameOrder_eq, List.mem_append, List.mem_filter, List.mem_filter, ← and_or_left]
  refine and_iff_left ?_
  cases s.putOff f i
  · exact .inl rfl
  · exact .inr rfl

theorem State.tasks_nodup : (s.tasks l f).Nodup := by
  have hwhere : (s.streamsWhere (Stream.actsOn l)).Nodup := (List.nodup_finRange 64).filter _
  have harranged := arrange_nodup (order := f.order) hwhere
  unfold State.tasks
  rw [s.frameOrder_eq]
  refine List.nodup_append.mpr ⟨harranged.filter _, harranged.filter _, fun i hi j hj e => ?_⟩
  subst e
  have hearly := (List.mem_filter.mp hi).2
  rw [(List.mem_filter.mp hj).2] at hearly
  exact Bool.false_ne_true hearly

/-- A playout stream acts before the servos. -/
theorem State.mem_early {i : StreamIdx} (h : (s.stream i).playsOn l) : i ∈ (s.frameOrder l f).1 := by
  rw [s.frameOrder_eq]
  refine List.mem_filter.mpr ⟨mem_arrange.mpr (mem_streamsWhere.mpr ((Stream.actsOn_iff l _).mpr (.inl h))), ?_⟩
  rw [State.putOff, h.1]
  rfl

/-- The servos of the two generators after the streams that act before them. -/
def servos (l : LaneIdx) (before s : State) : State := servoTask l before .mcg1 (servoTask l before .mcg0 s)

theorem frameEvent_eq (line : PinLevels) :
    frameEvent l line f.order f.late s =
      (servos l s ((s.setLane l (s.laneAtEvent l)).forStreams (s.frameOrder l f).1
          (frameTask (s.lane l).config line))).forStreams
        (s.frameOrder l f).2 (frameTask (s.lane l).config line) := by
  rw [s.frameOrder_eq]
  rfl

end

/-! ## Capture up to the arbiters (R130 to R134) -/

theorem Stream.takeWords_eq (st : Stream) (c : LaneConfig) (line : PinLevels) :
    st.takeWords c line = st.channelSlots.map (capturedWord c line) := by
  refine List.map_congr_left fun item _ => ?_
  cases item with
  | none => rfl
  | some k => exact c.inWord_eq_capturedWord line k

/-- The posting of an overrun, if there was one. -/
def overrunPosts (i : StreamIdx) (victim : Option Half) : List (EventKind × Source × Word) :=
  (victim.map fun v => (.captureOverrun, .stream i, v.setWidth 32)).toList

section
variable {s : State} {i : StreamIdx} {c : LaneConfig} {line : PinLevels}

theorem closeFrame_eq (isEnd : Bool) (i : StreamIdx) (s : State) :
    closeFrame isEnd i s =
      let r := ((s.stream i).afterClose isEnd).dispose (closingFrame s (s.stream i) isEnd)
      (s.setStream i r.1).setEvents (s.events.postEach (overrunPosts i r.2)) := by
  unfold closeFrame
  dsimp only
  split
  next hr =>
    rw [hr]
    rfl
  next hr =>
    rw [hr]
    rfl

theorem closingFrame_congr {s t : State} (hlinks : ∀ p, (t.port p).linkUp = (s.port p).linkUp)
    (hcontrol : t.control = s.control)
    (st : Stream) (isEnd : Bool) : closingFrame t st isEnd = closingFrame s st isEnd := by
  unfold closingFrame State.upPorts
  rw [hlinks, hlinks, hcontrol]

theorem State.captured_congr {s t : State} (hlinks : ∀ p, (t.port p).linkUp = (s.port p).linkUp)
    (hcontrol : t.control = s.control) (st : Stream) (c : LaneConfig) (line : PinLevels) :
    t.captured st c line = s.captured st c line := by
  unfold State.captured
  dsimp only
  rw [closingFrame_congr hlinks hcontrol]

/-- The group that an ARMED stream takes begins its run. -/
theorem Stream.withGroup_of_armed {st : Stream} (h : st.state = .armed) :
    st.beginRun.addGroup (st.takeWords c line) = st.withGroup c line := by
  unfold Stream.withGroup Stream.constructionAt
  rw [if_pos h, decide_eq_true h, Bool.or_true, st.takeWords_eq]
  rfl

theorem Stream.withGroup_of_running {st : Stream} (h : st.state = .running) :
    st.addGroup (st.takeWords c line) = st.withGroup c line := by
  have hnot : ¬ st.state = .armed := by
    rw [h]
    exact fun e => (nomatch e)
  unfold Stream.withGroup Stream.constructionAt
  rw [if_neg hnot, decide_eq_false hnot, Bool.or_false, st.takeWords_eq, ← h]
  rfl

theorem Stream.constructionFull_withGroup (st : Stream) : (st.withGroup c line).constructionFull = true ↔ st.fills :=
  decide_eq_true_iff

/-- The sample group of a stream is taken; `u` is the stream with the group. -/
theorem takeSamples_eq {u : Stream} (hu : (s.stream i).addGroup ((s.stream i).takeWords c line) = u) :
    takeSamples c line i s =
      let r := if u.constructionFull then (u.afterClose false).dispose (closingFrame s u false) else (u, none)
      (s.setStream i r.1).setEvents (s.events.postEach (overrunPosts i r.2)) := by
  unfold takeSamples
  dsimp only
  rw [hu]
  split
  · rw [closeFrame_eq, State.stream_setStream_self]
    dsimp only
    rw [State.setStream_setStream]
    rfl
  · rfl

/-- What a capture stream writes at a frame event, before the arbiters run. -/
def State.collected (s : State) (c : LaneConfig) (line : PinLevels) (i : StreamIdx) : State :=
  (s.setStream i (s.captured (s.stream i) c line).1).setEvents (s.events.postEach (s.streamPosts c line i))

theorem State.streamPosts_of_capture (h : (s.stream i).direction = .capture) :
    s.streamPosts c line i =
      overrunPosts i (s.captured (s.stream i) c line).2
        ++ if (s.stream i).state = .armed then [(.streamRunning, .stream i, (s.stream i).nextSeq.setWidth 32)] else [] := by
  unfold State.streamPosts
  dsimp only
  rw [h] <;> rfl

theorem State.captured_eq (st : Stream) :
    s.captured st c line =
      if (st.withGroup c line).constructionFull then
        ((st.withGroup c line).afterClose false).dispose (closingFrame s (st.withGroup c line) false)
      else (st.withGroup c line, none) := by
  unfold State.captured
  dsimp only
  by_cases hfills : st.fills
  · rw [if_pos hfills, if_pos (st.constructionFull_withGroup.mpr hfills)]
  · rw [if_neg hfills, if_neg (mt st.constructionFull_withGroup.mp hfills)]

theorem captureTask_eq (hdir : (s.stream i).direction = .capture)
    (hstate : (s.stream i).state = .armed ∨ (s.stream i).state = .running) :
    captureTask c line i s = runArbiters (s.collected c line i) := by
  unfold captureTask
  dsimp only
  split
  case h_1 harmed =>
    have hgroup := Stream.withGroup_of_armed (c := c) (line := line) harmed
    have htaken := takeSamples_eq (s := s.setStream i (s.stream i).beginRun) (i := i) (c := c) (line := line)
      (u := (s.stream i).withGroup c line) (by rw [State.stream_setStream_self]; exact hgroup)
    rw [htaken, State.collected, State.streamPosts_of_capture hdir, if_pos harmed, State.captured_eq,
      EventQueue.postEach_append]
    dsimp only
    rw [State.setStream_setStream]
    rfl
  case h_2 hrunning =>
    have hnot : ¬ (s.stream i).state = .armed := by
      rw [hrunning]
      exact fun e => (nomatch e)
    rw [takeSamples_eq (Stream.withGroup_of_running hrunning), State.collected, State.streamPosts_of_capture hdir,
      if_neg hnot, List.append_nil, State.captured_eq]
  all_goals
    next hother =>
      rw [hother] at hstate
      exact hstate.elim (fun e => nomatch e) fun e => nomatch e

theorem frameTask_of_capture (hdir : (s.stream i).direction = .capture)
    (hstate : (s.stream i).state = .armed ∨ (s.stream i).state = .running) :
    frameTask c line i s = runArbiters (s.collected c line i) := by
  unfold frameTask
  rw [hdir]
  exact captureTask_eq hdir hstate

theorem frameTask_of_playout (hdir : (s.stream i).direction = .playout) :
    frameTask c line i s =
      (s.setStream i (s.stream i).playStep.stream).setEvents (s.events.postEach (s.streamPosts c line i)) := by
  unfold frameTask State.streamPosts
  dsimp only
  rw [hdir]
  exact State.postAll_eq _ _ _

end

end Sys2Proof.Machine
end

