-- ==== Sys2Proof/Proofs/FrameServos.lean ====
section
/-! The servo of a generator at a frame event (R120 to R123): the record it leaves and what it posts, from the state before
the event. -/

namespace Sys2Proof.Machine

/-! ## A stream that is RUNNING does not enter RUNNING -/

section
variable {st : Stream}

theorem Stream.giveSample_entered (st : Stream) (f : PlayFrame) (i : Nat) : (st.giveSample f i).entered = false := by
  unfold Stream.giveSample
  dsimp only
  split
  · rfl
  · split <;> rfl

theorem Stream.boundary_entered (st : Stream) : st.boundary.entered = false := by
  unfold Stream.boundary
  split
  · split
    · rfl
    · exact st.giveSample_entered _ 0
  · split <;> rfl

theorem Stream.entered_of_running (h : st.state = .running) : st.playStep.entered = false := by
  rw [Stream.playStep_of_running h]
  split
  · rfl
  split
  · exact st.boundary_entered
  split
  · exact st.giveSample_entered _ _
  · exact st.boundary_entered

end

/-! ## The review -/

/-- SERVO_LIMIT where the trim that a review asks for is cut (R123). -/
def limitPosts (g : GenIdx) (wanted : Int) : List (EventKind × Source × Word) :=
  if 512 < wanted then [(.servoLimit, .gen g, 512)]
  else if wanted < -512 then [(.servoLimit, .gen g, 0xFFFFFE00)]
  else []

theorem review_eq (g : GenIdx) (held target : Nat) (s : State) :
    review g held target s =
      (s.setGen g { s.gen g with trim := clampTrim ((s.gen g).asked held target), reviewCount := 0 }).setEvents
        (s.events.postEach (limitPosts g ((s.gen g).asked held target))) := by
  unfold limitPosts
  by_cases habove : 512 < (s.gen g).asked held target
  · rw [if_pos habove, clampTrim_of_above habove]
    exact review_of_above habove
  · by_cases hbelow : (s.gen g).asked held target < -512
    · rw [if_neg habove, if_pos hbelow, clampTrim_of_below hbelow]
      exact review_of_below hbelow
    · rw [if_neg habove, if_neg hbelow, clampTrim_of_within (Int.not_lt.mp hbelow) (Int.not_lt.mp habove)]
      exact review_of_within (Int.not_lt.mp hbelow) (Int.not_lt.mp habove)

/-! ## The servo -/

section
variable {s : State} {l : LaneIdx} {g : GenIdx} {r : StreamIdx}

/-- The servo of a generator counts a frame event of a lane: its reference is RUNNING before and after its step, and the
lane is a master of the generator (R120, R121). -/
abbrev State.countsAt (s : State) (l : LaneIdx) (g : GenIdx) (r : StreamIdx) : Prop :=
  (s.stream r).state = .running ∧ (s.stream r).playStep.stream.state = .running
    ∧ (s.lane l).config.role = (if g = .mcg0 then .master0 else .master1)

/-- The trim that a review at a frame event asks for, on the frames held after the step. -/
def State.wantedAt (s : State) (g : GenIdx) (r : StreamIdx) : Int :=
  (s.gen g).asked ((s.stream r).playStep.stream.window.countP Option.isSome) (s.stream r).depthTarget

/-- The record of a generator after a frame event. -/
def State.genAfter (s : State) (l : LaneIdx) (g : GenIdx) : Gen :=
  match (s.gen g).reference with
  | none => s.gen g
  | some r =>
    if (s.stream r).playsOn l then
      if (s.stream r).playStep.entered = true then { s.gen g with reviewCount := 0 }
      else if s.countsAt l g r then
        if (s.gen g).reviewCount + 1 < 1024 then { s.gen g with reviewCount := (s.gen g).reviewCount + 1 }
        else { s.gen g with trim := clampTrim (s.wantedAt g r), reviewCount := 0 }
      else s.gen g
    else s.gen g

theorem State.genAfter_of_none (h : (s.gen g).reference = none) : s.genAfter l g = s.gen g := by
  unfold State.genAfter
  rw [h]

theorem State.genAfter_of_some (h : (s.gen g).reference = some r) :
    s.genAfter l g =
      if (s.stream r).playsOn l then
        if (s.stream r).playStep.entered = true then { s.gen g with reviewCount := 0 }
        else if s.countsAt l g r then
          if (s.gen g).reviewCount + 1 < 1024 then { s.gen g with reviewCount := (s.gen g).reviewCount + 1 }
          else { s.gen g with trim := clampTrim (s.wantedAt g r), reviewCount := 0 }
        else s.gen g
      else s.gen g := by
  unfold State.genAfter
  rw [h] <;> rfl

theorem State.servoPosts_of_none (h : (s.gen g).reference = none) : s.servoPosts l g = [] := by
  unfold State.servoPosts
  split
  next => rfl
  next hr => exact nomatch h.symm.trans hr

theorem State.servoPosts_of_some (h : (s.gen g).reference = some r) :
    s.servoPosts l g = if s.reviewsAt l g r then limitPosts g (s.wantedAt g r) else [] := by
  have hposts : s.servoPosts l g =
      if s.reviewsAt l g r ∧ 512 < s.wantedAt g r then [(.servoLimit, .gen g, 512)]
      else if s.reviewsAt l g r ∧ s.wantedAt g r < -512 then [(.servoLimit, .gen g, 0xFFFFFE00)]
      else [] := by
    unfold State.servoPosts
    split
    next hr => exact nomatch h.symm.trans hr
    next hr =>
      obtain rfl := Option.some.inj (h.symm.trans hr)
      rfl
  rw [hposts]
  by_cases hreviews : s.reviewsAt l g r
  · refine Eq.trans ?_ (if_pos hreviews).symm
    unfold limitPosts
    by_cases habove : 512 < s.wantedAt g r
    · exact (if_pos ⟨hreviews, habove⟩).trans (if_pos habove).symm
    · refine (if_neg fun h => habove h.2).trans (Eq.trans ?_ (if_neg habove).symm)
      by_cases hbelow : s.wantedAt g r < -512
      · exact (if_pos ⟨hreviews, hbelow⟩).trans (if_pos hbelow).symm
      · exact (if_neg fun h => hbelow h.2).trans (if_neg hbelow).symm
  · exact (if_neg fun h => hreviews h.1).trans ((if_neg fun h => hreviews h.1).trans (if_neg hreviews).symm)

/-- No posting where no review takes place. -/
theorem State.servoPosts_of_not_review (h : (s.gen g).reference = some r) (hreviews : ¬ s.reviewsAt l g r) :
    s.servoPosts l g = [] := (State.servoPosts_of_some h).trans (if_neg hreviews)

theorem State.setGen_gen (s : State) (g : GenIdx) : s.setGen g (s.gen g) = s := by
  cases g <;> rfl

theorem servoTask_of_none {u : State} (h : (u.gen g).reference = none) : servoTask l s g u = u := by
  unfold servoTask
  dsimp only
  split
  next => rfl
  next hr => exact nomatch h.symm.trans hr

theorem servoTask_of_some {u : State} (h : (u.gen g).reference = some r) :
    servoTask l s g u =
      if (s.stream r).playsOn l then
        if (s.stream r).playStep.entered = true then u.setGen g { u.gen g with reviewCount := 0 }
        else if s.countsAt l g r then
          reviewIfDue g (u.setGen g { u.gen g with reviewCount := (u.gen g).reviewCount + 1 })
        else u
      else u := by
  have hcounts : ((s.stream r).state == .running && (s.stream r).playStep.stream.state == .running
      && (s.lane l).config.role.gen == some g) = true ↔ s.countsAt l g r := by
    rw [Bool.and_eq_true, Bool.and_eq_true, beq_iff_eq, beq_iff_eq, beq_iff_eq, Role.gen_eq_some_iff, and_assoc]
  unfold servoTask
  dsimp only
  split
  next hr => exact nomatch h.symm.trans hr
  next hr =>
    obtain rfl := Option.some.inj (h.symm.trans hr)
    simp only [Stream.activePlayout_and_lane, hcounts]

/-- The count that reaches 1024 is a review on what the reference's step has left. -/
theorem reviewIfDue_of_counted {u : State} (hgen : u.gen g = s.gen g) (hr : (s.gen g).reference = some r)
    (hplays : (s.stream r).playsOn l) (hu : u.stream r = (s.stream r).playStep.stream)
    (hdue : 1024 ≤ (s.gen g).reviewCount + 1) :
    reviewIfDue g (u.setGen g { u.gen g with reviewCount := (u.gen g).reviewCount + 1 }) =
      (u.setGen g { s.gen g with trim := clampTrim (s.wantedAt g r), reviewCount := 0 }).setEvents
        (u.events.postEach (limitPosts g (s.wantedAt g r))) := by
  have hdefinition := (s.stream r).playStep_definition
  have htarget : (s.stream r).playStep.stream.depthTarget = (s.stream r).depthTarget :=
    show (s.stream r).playStep.stream.definition.depthTarget = (s.stream r).definition.depthTarget by rw [hdefinition]
  have hdir : (u.stream r).direction = .playout := by
    rw [hu, Stream.direction_congr hdefinition]
    exact hplays.1
  rw [hgen]
  have hself := State.gen_setGen_self u g { s.gen g with reviewCount := (s.gen g).reviewCount + 1 }
  rw [reviewIfDue_of_due (s := State.setGen _ _ _) (r := r) (by rw [hself]; exact hr) (by rw [hself]; exact hdue) hdir,
    review_eq, hself, State.setGen_setGen, State.stream_setGen, hu, htarget]
  rfl

/-- What the servo leaves of a state `u` that the playout streams' steps have led to. -/
theorem servoTask_of_played {u : State} (hgen : u.gen g = s.gen g)
    (hplayed : ∀ i : StreamIdx, (s.stream i).playsOn l → u.stream i = (s.stream i).playStep.stream) :
    servoTask l s g u = (u.setGen g (s.genAfter l g)).setEvents (u.events.postEach (s.servoPosts l g)) := by
  have still : u = (u.setGen g (s.gen g)).setEvents (u.events.postEach []) := by
    rw [← hgen, State.setGen_gen]
    rfl
  by_cases hnone : (s.gen g).reference = none
  · rw [servoTask_of_none (hgen.symm ▸ hnone), State.genAfter_of_none hnone, State.servoPosts_of_none hnone]
    exact still
  obtain ⟨r, hr⟩ := Option.ne_none_iff_exists'.mp hnone
  rw [servoTask_of_some (hgen.symm ▸ hr), State.genAfter_of_some hr]
  by_cases hplays : (s.stream r).playsOn l
  · rw [if_pos hplays, if_pos hplays]
    by_cases hentered : (s.stream r).playStep.entered = true
    · have hnot : ¬ s.reviewsAt l g r := fun ⟨_, _, hrunning, _⟩ =>
        Bool.false_ne_true ((Stream.entered_of_running hrunning).symm.trans hentered)
      rw [if_pos hentered, if_pos hentered, State.servoPosts_of_not_review hr hnot, hgen]
      rfl
    · rw [if_neg hentered, if_neg hentered]
      by_cases hcounts : s.countsAt l g r
      · rw [if_pos hcounts, if_pos hcounts]
        by_cases hearly : (s.gen g).reviewCount + 1 < 1024
        · have hnot : ¬ s.reviewsAt l g r := fun ⟨_, _, _, _, _, hdue⟩ => Nat.not_le.mpr hearly hdue
          rw [if_pos hearly, State.servoPosts_of_not_review hr hnot, hgen]
          refine reviewIfDue_of_not_due (r := r) ?_ fun hdue => Nat.not_le.mpr hearly ?_
          · rw [State.gen_setGen_self]
            exact hr
          · rw [State.gen_setGen_self] at hdue
            exact hdue.1
        · have hdue := Nat.not_lt.mp hearly
          obtain ⟨hrunning, hruns, hrole⟩ := hcounts
          rw [if_neg hearly, State.servoPosts_of_some hr, if_pos ⟨hr, hplays, hrunning, hruns, hrole, hdue⟩]
          exact reviewIfDue_of_counted hgen hr hplays (hplayed r hplays) hdue
      · have hnot : ¬ s.reviewsAt l g r := fun ⟨_, _, hrunning, hruns, hrole, _⟩ => hcounts ⟨hrunning, hruns, hrole⟩
        rw [if_neg hcounts, if_neg hcounts, State.servoPosts_of_not_review hr hnot]
        exact still
  · have hnot : ¬ s.reviewsAt l g r := fun ⟨_, hplays', _⟩ => hplays hplays'
    rw [if_neg hplays, if_neg hplays, State.servoPosts_of_not_review hr hnot]
    exact still

end

end Sys2Proof.Machine
end

