-- ==== Sys2Proof/Proofs/FrameWalk.lean ====
section
/-! A frame event as a walk over the streams of its lane, in a part of any kind: each stream acts once, and beside that the
arbiters mark ready frames of capture streams (R103, R150). -/

namespace Sys2Proof.Machine

/-! ## Marks -/

theorem Remarked.refl (fs : List ReadyFrame) : Remarked fs fs := by
  refine ⟨rfl, fun n f g hf hg => ?_⟩
  obtain rfl := Option.some.inj (hf.symm.trans hg)
  exact ⟨rfl, fun _ _ => rfl⟩

theorem Remarked.trans {fs gs hs : List ReadyFrame} (h : Remarked fs gs) (k : Remarked gs hs) : Remarked fs hs := by
  refine ⟨k.1.trans h.1, fun n f w hf hw => ?_⟩
  have hn : n < gs.length := by
    rw [h.1]
    exact (List.getElem?_eq_some_iff.mp hf).1
  obtain ⟨hv, hkept⟩ := h.2 n f _ hf (List.getElem?_eq_getElem hn)
  obtain ⟨hw, hkept'⟩ := k.2 n _ w (List.getElem?_eq_getElem hn) hw
  refine ⟨by rw [hw, hv], fun p hp => ?_⟩
  have hsame := hkept p hp
  refine (hkept' p ?_).trans hsame
  refine hp.imp (fun hin => hsame.trans hin) fun hpending => ?_
  rw [hv]
  exact hpending

theorem Remarked.cons {f g : ReadyFrame} {fs gs : List ReadyFrame} (hframe : g = { f with inTx := g.inTx })
    (hkept : ∀ p : Port, (f.inTx.get p = true ∨ f.pendingOn.get p = false) → g.inTx.get p = f.inTx.get p)
    (h : Remarked fs gs) : Remarked (f :: fs) (g :: gs) := by
  refine ⟨congrArg (· + 1) h.1, fun n v w hv hw => ?_⟩
  cases n with
  | zero =>
    cases hv
    cases hw
    exact ⟨hframe, hkept⟩
  | succ n => exact h.2 n v w hv hw

theorem remarked_markGranted (p : Port) (fs : List ReadyFrame) : Remarked fs (markGranted p fs) := by
  induction fs with
  | nil => exact .refl []
  | cons f fs ih =>
    by_cases howed : f.owedOn p = true
    · rw [markGranted_of_owed howed]
      refine .cons rfl (fun q hq => PerPort.get_set_ne _ _ fun e => ?_) (.refl fs)
      subst e
      obtain ⟨hpending, hfree⟩ := (ReadyFrame.owedOn_iff q f).mp howed
      rcases hq with hq | hq
      · exact Bool.false_ne_true (hfree.symm.trans hq)
      · exact Bool.false_ne_true (hq.symm.trans hpending)
    · rw [markGranted_of_not_owed howed]
      exact .cons rfl (fun _ _ => rfl) ih

/-- A stream of which ports have begun to send further frames, and nothing else. -/
def Stream.Marked (st st' : Stream) : Prop := ∃ r, Remarked st.ready r ∧ st' = { st with ready := r }

theorem Stream.Marked.refl (st : Stream) : st.Marked st := ⟨st.ready, .refl _, rfl⟩

theorem Stream.Marked.trans {a b c : Stream} (h : a.Marked b) (k : b.Marked c) : a.Marked c := by
  obtain ⟨r, hr, rfl⟩ := h
  obtain ⟨r', hr', rfl⟩ := k
  exact ⟨r', hr.trans hr', rfl⟩

theorem runArbiter_marked (p : Port) (s : State) (i : StreamIdx) : (s.stream i).Marked ((runArbiter p s).stream i) := by
  obtain ⟨r, hr, rfl | rfl⟩ := runArbiter_stream p s i
  · exact ⟨_, .refl _, hr⟩
  · exact ⟨_, remarked_markGranted p _, hr⟩

theorem runArbiters_marked (s : State) (i : StreamIdx) : (s.stream i).Marked ((runArbiters s).stream i) :=
  (runArbiter_marked .ta s i).trans (runArbiter_marked .tb _ i)

/-- The arbiters leave the playout streams. -/
theorem runArbiter_playout (p : Port) {s : State} {i : StreamIdx} (h : (s.stream i).direction = .playout) :
    (runArbiter p s).stream i = s.stream i := by
  cases runArbiter_cases p s with
  | busy _ heq => rw [heq]
  | reply _ _ heq => rw [heq, State.stream_setPort]
  | nothing _ _ heq => rw [heq]
  | grant _ _ howes heq =>
    rw [heq, grantSample, State.stream_setPort, State.stream_setStream_ne]
    intro e
    subst e
    exact nomatch h.symm.trans howes.1

theorem runArbiters_playout {s : State} {i : StreamIdx} (h : (s.stream i).direction = .playout) :
    (runArbiters s).stream i = s.stream i := by
  have first := runArbiter_playout .ta h
  exact (runArbiter_playout .tb (first.symm ▸ h)).trans first

/-! ## One walk -/

/-- What a capture stream that acts at a frame event can be afterwards, whatever the ports send. -/
def State.CapturedAs (s : State) (c : LaneConfig) (line : PinLevels) (i : StreamIdx) (x : Stream) : Prop :=
  (¬ (s.stream i).fills → ∃ r, Remarked (s.stream i).ready r ∧ x = { (s.stream i).withGroup c line with ready := r })
    ∧ ((s.stream i).fills → ∃ r0 r,
        let u := { (s.stream i).withGroup c line with ready := r0 }
        let closed := (u.afterClose false).dispose (closingFrame s u false)
        Remarked (s.stream i).ready r0 ∧ Remarked closed.1.ready r ∧ x = { closed.1 with ready := r })

theorem State.CapturedAs.marked {s : State} {c : LaneConfig} {line : PinLevels} {i : StreamIdx} {x y : Stream}
    (h : s.CapturedAs c line i x) (k : x.Marked y) : s.CapturedAs c line i y := by
  obtain ⟨r', hr', rfl⟩ := k
  refine ⟨fun hfills => ?_, fun hfills => ?_⟩
  · obtain ⟨r, hr, rfl⟩ := h.1 hfills
    exact ⟨r', hr.trans hr', rfl⟩
  · obtain ⟨r0, r, h0, hr, rfl⟩ := h.2 hfills
    exact ⟨r0, r', h0, hr.trans hr', rfl⟩

/-- A stream that acts at a frame event, as its direction and state have it. -/
abbrev Stream.takesPart (st : Stream) : Prop :=
  st.direction = .playout ∨ (st.direction = .capture ∧ (st.state = .armed ∨ st.state = .running))

theorem Stream.takesPart_of_actsOn {st : Stream} {l : LaneIdx} (h : st.actsOn l = true) : st.takesPart :=
  ((Stream.actsOn_iff l st).mp h).imp (·.1) fun ⟨hdir, _, hstate⟩ => ⟨hdir, hstate⟩

/-- The state that the streams of a list have led to by acting one after the other. -/
structure State.Walked (s : State) (c : LaneConfig) (line : PinLevels) (done : List StreamIdx) (t : State) : Prop where
  control : t.control = s.control
  ports : ∀ p, ∃ tx credits, t.port p = { s.port p with tx := tx, credits := credits }
  waits : ∀ i ∉ done, (s.stream i).Marked (t.stream i)
  rests : ∀ i ∉ done, (s.stream i).direction = .playout → t.stream i = s.stream i
  plays : ∀ i ∈ done, (s.stream i).direction = .playout → t.stream i = (s.stream i).playStep.stream
  takes : ∀ i ∈ done, (s.stream i).direction = .capture → (s.stream i).state = .armed ∨ (s.stream i).state = .running →
    s.CapturedAs c line i (t.stream i)

namespace State.Walked

variable {s t u : State} {c : LaneConfig} {line : PinLevels} {done : List StreamIdx}

theorem links (h : s.Walked c line done t) (p : Port) : (t.port p).linkUp = (s.port p).linkUp := by
  obtain ⟨tx, credits, hp⟩ := h.ports p
  rw [hp]

theorem congr (h : s.Walked c line done t) (hstreams : u.streams = t.streams) (hports : u.ports = t.ports)
    (hcontrol : u.control = t.control) : s.Walked c line done u := by
  have hstream (i : StreamIdx) : u.stream i = t.stream i := congrArg (·.get i) hstreams
  have hport (p : Port) : u.port p = t.port p := congrArg (·.get p) hports
  refine ⟨hcontrol.trans h.control, fun p => hport p ▸ h.ports p, ?_, ?_, ?_, ?_⟩
  all_goals
    intro i
    rw [hstream]
  · exact h.waits i
  · exact h.rests i
  · exact h.plays i
  · exact h.takes i

/-- Nothing has acted yet. -/
theorem begin (hstreams : t.streams = s.streams) (hports : t.ports = s.ports) (hcontrol : t.control = s.control) :
    s.Walked c line [] t :=
  congr (t := s) ⟨rfl, fun _ => ⟨_, _, rfl⟩, fun _ _ => .refl _, fun _ _ _ => rfl, fun _ hi => (nomatch hi),
    fun _ hi => (nomatch hi)⟩ hstreams hports hcontrol

theorem play (h : s.Walked c line done t) {i : StreamIdx} (hi : i ∉ done) (hdir : (s.stream i).direction = .playout) :
    s.Walked c line (done ++ [i]) (frameTask c line i t) := by
  have hrest := h.rests i hi hdir
  rw [frameTask_of_playout (hrest.symm ▸ hdir), hrest]
  refine congr (t := t.setStream i (s.stream i).playStep.stream) ?_ rfl rfl rfl
  have hself := State.stream_setStream_self t i (s.stream i).playStep.stream
  have hother {j : StreamIdx} (hj : j ≠ i) : (t.setStream i (s.stream i).playStep.stream).stream j = t.stream j :=
    State.stream_setStream_ne t _ hj
  refine ⟨h.control, h.ports, fun j hj => ?_, fun j hj => ?_, fun j hj hd => ?_, fun j hj hd => ?_⟩
  · rw [hother fun e => hj (List.mem_append_right _ (List.mem_singleton.mpr e))]
    exact h.waits j fun hj' => hj (List.mem_append_left _ hj')
  · rw [hother fun e => hj (List.mem_append_right _ (List.mem_singleton.mpr e))]
    exact h.rests j fun hj' => hj (List.mem_append_left _ hj')
  · rcases List.mem_append.mp hj with hj | hj
    · rw [hother fun e => hi (e ▸ hj)]
      exact h.plays j hj hd
    · obtain rfl := List.mem_singleton.mp hj
      exact hself
  · rcases List.mem_append.mp hj with hj | hj
    · rw [hother fun e => hi (e ▸ hj)]
      exact h.takes j hj hd
    · obtain rfl := List.mem_singleton.mp hj
      exact nomatch hdir.symm.trans hd

theorem capture (h : s.Walked c line done t) {i : StreamIdx} (hi : i ∉ done) (hdir : (s.stream i).direction = .capture)
    (hstate : (s.stream i).state = .armed ∨ (s.stream i).state = .running) :
    s.Walked c line (done ++ [i]) (frameTask c line i t) := by
  obtain ⟨r0, hr0, hmarked⟩ := h.waits i hi
  rw [frameTask_of_capture (by rw [hmarked]; exact hdir) (by rw [hmarked]; exact hstate)]
  have hself : (t.collected c line i).stream i = (s.captured { s.stream i with ready := r0 } c line).1 := by
    rw [← State.captured_congr h.links h.control, ← hmarked]
    exact State.stream_setStream_self t i _
  have hother {j : StreamIdx} (hj : j ≠ i) : (t.collected c line i).stream j = t.stream j :=
    State.stream_setStream_ne t _ hj
  have hmarks {j : StreamIdx} (hj : j ≠ i) : (t.stream j).Marked ((runArbiters (t.collected c line i)).stream j) := by
    rw [← hother hj]
    exact runArbiters_marked _ j
  have hplayout {j : StreamIdx} (hj : j ≠ i) (hd : (t.stream j).direction = .playout) :
      (runArbiters (t.collected c line i)).stream j = t.stream j := by
    rw [← hother hj] at hd ⊢
    exact runArbiters_playout hd
  have taken : s.CapturedAs c line i ((t.collected c line i).stream i) := by
    rw [hself]
    refine ⟨fun hfills => ⟨r0, hr0, ?_⟩, fun hfills => ⟨r0, _, hr0, .refl _, ?_⟩⟩
    · exact congrArg Prod.fst (if_neg hfills)
    · exact congrArg Prod.fst (if_pos hfills)
  refine ⟨?_, fun p => ?_, fun j hj => ?_, fun j hj hd => ?_, fun j hj hd => ?_, fun j hj hd hs => ?_⟩
  · rw [runArbiters_control]
    exact h.control
  · obtain ⟨tx, credits, hp⟩ := h.ports p
    obtain ⟨tx', credits', hp'⟩ := runArbiters_port (t.collected c line i) p
    exact ⟨tx', credits', hp'.trans (by rw [show (t.collected c line i).port p = t.port p from rfl, hp])⟩
  · have hne : j ≠ i := fun e => hj (List.mem_append_right _ (List.mem_singleton.mpr e))
    exact (h.waits j fun hj' => hj (List.mem_append_left _ hj')).trans (hmarks hne)
  · have hne : j ≠ i := fun e => hj (List.mem_append_right _ (List.mem_singleton.mpr e))
    have hrest := h.rests j (fun hj' => hj (List.mem_append_left _ hj')) hd
    exact (hplayout hne (hrest.symm ▸ hd)).trans hrest
  · rcases List.mem_append.mp hj with hj | hj
    · have hplays := h.plays j hj hd
      refine (hplayout (fun e => hi (e ▸ hj)) ?_).trans hplays
      rw [hplays, Stream.direction_congr (s.stream j).playStep_definition]
      exact hd
    · obtain rfl := List.mem_singleton.mp hj
      exact nomatch hdir.symm.trans hd
  · rcases List.mem_append.mp hj with hj | hj
    · exact (h.takes j hj hd hs).marked (hmarks fun e => hi (e ▸ hj))
    · obtain rfl := List.mem_singleton.mp hj
      exact taken.marked (runArbiters_marked _ j)

theorem forStreams (h : s.Walked c line done t) {is : List StreamIdx} (hnodup : (done ++ is).Nodup)
    (hparts : ∀ i ∈ is, (s.stream i).takesPart) : s.Walked c line (done ++ is) (t.forStreams is (frameTask c line)) := by
  induction is generalizing done t with
  | nil =>
    rw [List.append_nil]
    exact h
  | cons i is ih =>
    have hi : i ∉ done := fun hi => (List.nodup_append.mp hnodup).2.2 i hi i List.mem_cons_self rfl
    rw [List.append_cons] at hnodup ⊢
    have first : s.Walked c line (done ++ [i]) (frameTask c line i t) :=
      (hparts i List.mem_cons_self).elim (h.play hi) fun hcapture => h.capture hi hcapture.1 hcapture.2
    exact ih first hnodup fun j hj => hparts j (List.mem_cons_of_mem _ hj)

theorem servoTask (h : s.Walked c line done t) (l : LaneIdx) (before : State) (g : GenIdx) :
    s.Walked c line done (Machine.servoTask l before g t) := by
  obtain ⟨gens, events, heq⟩ := servoTask_eq l before g t
  exact h.congr (by rw [heq]) (by rw [heq]) (by rw [heq])

theorem servos (h : s.Walked c line done t) (l : LaneIdx) (before : State) :
    s.Walked c line done (Machine.servos l before t) :=
  (h.servoTask l before .mcg0).servoTask l before .mcg1

end State.Walked

section
variable {s : State} {l : LaneIdx} {f : FrameData}

theorem State.takesPart_of_mem_tasks {i : StreamIdx} (h : i ∈ s.tasks l f) : (s.stream i).takesPart :=
  Stream.takesPart_of_actsOn (State.mem_tasks.mp h)

/-- The state in which the servos act. -/
def State.beforeServos (s : State) (l : LaneIdx) (f : FrameData) (line : PinLevels) : State :=
  (s.setLane l (s.laneAtEvent l)).forStreams (s.frameOrder l f).1 (frameTask (s.lane l).config line)

theorem State.beforeServos_walked (line : PinLevels) :
    s.Walked (s.lane l).config line (s.frameOrder l f).1 (s.beforeServos l f line) := by
  have begun : s.Walked (s.lane l).config line [] (s.setLane l (s.laneAtEvent l)) := .begin rfl rfl rfl
  have hnodup : (s.frameOrder l f).1.Nodup := (List.nodup_append.mp State.tasks_nodup).1
  exact begun.forStreams hnodup fun _ hi => State.takesPart_of_mem_tasks (List.mem_append_left _ hi)

theorem frameEvent_walked (line : PinLevels) :
    s.Walked (s.lane l).config line (s.tasks l f) (frameEvent l line f.order f.late s) := by
  rw [frameEvent_eq]
  exact (State.beforeServos_walked line |>.servos l s).forStreams State.tasks_nodup fun _ hi =>
    State.takesPart_of_mem_tasks (List.mem_append_right _ hi)

end

end Sys2Proof.Machine
end

