-- ==== Sys2Proof/Proofs/FrameReviews.lean ====
section
/-! A frame event and the depth servos (R120 to R123): the record of each generator after the event, and its postings among
those of the streams. -/

namespace Sys2Proof.Machine

/-! ## The postings of the streams -/

section
variable {s : State} {c : LaneConfig} {line : PinLevels} {i : StreamIdx}

theorem State.source_of_mem_streamPosts {e : EventKind × Source × Word} (h : e ∈ s.streamPosts c line i) :
    e.2.1 = .stream i := by
  cases hdir : (s.stream i).direction with
  | playout =>
    have hposts : s.streamPosts c line i = (s.stream i).playStep.posts.map fun e => (e.1, .stream i, e.2) := by
      unfold State.streamPosts
      dsimp only
      rw [hdir]
    rw [hposts] at h
    obtain ⟨_, _, rfl⟩ := List.mem_map.mp h
    rfl
  | capture =>
    rw [State.streamPosts_of_capture hdir] at h
    rcases List.mem_append.mp h with h | h
    · obtain ⟨_, _, rfl⟩ := Option.map_eq_some_iff.mp (Option.mem_toList.mp h)
      rfl
    · split at h
      · obtain rfl := List.mem_singleton.mp h
        rfl
      · exact nomatch h

/-- A capture stream that is neither ARMED nor RUNNING takes nothing. -/
theorem frameTask_of_still (hdir : (s.stream i).direction = .capture)
    (hstate : ¬ ((s.stream i).state = .armed ∨ (s.stream i).state = .running)) : frameTask c line i s = s := by
  unfold frameTask
  rw [hdir]
  show captureTask c line i s = s
  unfold captureTask
  dsimp only
  split
  case h_1 harmed => exact absurd (.inl harmed) hstate
  case h_2 hrunning => exact absurd (.inr hrunning) hstate
  all_goals rfl

/-- A task of a frame event posts for its stream. -/
theorem frameTask_posts (c : LaneConfig) (line : PinLevels) (i : StreamIdx) (s : State) :
    ∃ posts, (frameTask c line i s).events = s.events.postEach posts ∧ ∀ e ∈ posts, e.2.1 = .stream i := by
  cases hdir : (s.stream i).direction with
  | playout =>
    rw [frameTask_of_playout hdir]
    exact ⟨_, rfl, fun _ he => State.source_of_mem_streamPosts he⟩
  | capture =>
    by_cases hstate : (s.stream i).state = .armed ∨ (s.stream i).state = .running
    · rw [frameTask_of_capture hdir hstate, runArbiters_events]
      exact ⟨_, rfl, fun _ he => State.source_of_mem_streamPosts he⟩
    · rw [frameTask_of_still hdir hstate]
      exact ⟨[], rfl, fun _ he => (nomatch he)⟩

theorem forStreams_posts (c : LaneConfig) (line : PinLevels) (is : List StreamIdx) (s : State) :
    ∃ posts, (s.forStreams is (frameTask c line)).events = s.events.postEach posts
      ∧ ∀ e ∈ posts, ∃ i : StreamIdx, e.2.1 = .stream i := by
  induction is generalizing s with
  | nil => exact ⟨[], rfl, fun _ he => (nomatch he)⟩
  | cons i is ih =>
    obtain ⟨first, hfirst, hsource⟩ := frameTask_posts c line i s
    obtain ⟨rest, hrest, hsources⟩ := ih (frameTask c line i s)
    refine ⟨first ++ rest, ?_, fun e he => ?_⟩
    · rw [EventQueue.postEach_append, ← hfirst]
      exact hrest
    · exact (List.mem_append.mp he).elim (fun he => ⟨i, hsource e he⟩) (hsources e)

end

/-! ## The postings of the generators -/

section
variable {s : State} {l : LaneIdx} {g : GenIdx}

theorem State.mem_servoPosts {e : EventKind × Source × Word} (h : e ∈ s.servoPosts l g) :
    e.1 = .servoLimit ∧ e.2.1 = .gen g := by
  cases hr : (s.gen g).reference with
  | none =>
    rw [State.servoPosts_of_none hr] at h
    exact nomatch h
  | some r =>
    rw [State.servoPosts_of_some hr, limitPosts] at h
    split at h
    · split at h
      · obtain rfl := List.mem_singleton.mp h
        exact ⟨rfl, rfl⟩
      · split at h
        · obtain rfl := List.mem_singleton.mp h
          exact ⟨rfl, rfl⟩
        · exact nomatch h
    · exact nomatch h

/-- The postings of SERVO_LIMIT for a generator. -/
def limitsOf (g : GenIdx) (posts : List (EventKind × Source × Word)) : List (EventKind × Source × Word) :=
  posts.filter fun e => e.1 == .servoLimit && e.2.1 == .gen g

theorem limitsOf_append (g : GenIdx) (a b : List (EventKind × Source × Word)) :
    limitsOf g (a ++ b) = limitsOf g a ++ limitsOf g b := List.filter_append _ _

theorem limitsOf_servoPosts : limitsOf g (s.servoPosts l g) = s.servoPosts l g := by
  refine List.filter_eq_self.mpr fun e he => ?_
  obtain ⟨hkind, hsource⟩ := State.mem_servoPosts he
  rw [hkind, hsource, beq_self_eq_true, beq_self_eq_true]
  rfl

theorem limitsOf_eq_nil {posts : List (EventKind × Source × Word)} (h : ∀ e ∈ posts, e.2.1 ≠ .gen g) :
    limitsOf g posts = [] := by
  refine List.filter_eq_nil_iff.mpr fun e he hlimit => h e he ?_
  exact eq_of_beq ((Bool.and_eq_true _ _).mp hlimit).2

theorem limitsOf_streams {posts : List (EventKind × Source × Word)} (h : ∀ e ∈ posts, ∃ i : StreamIdx, e.2.1 = .stream i) :
    limitsOf g posts = [] :=
  limitsOf_eq_nil fun e he hsource => by
    obtain ⟨i, hi⟩ := h e he
    exact nomatch hi.symm.trans hsource

theorem limitsOf_other {h : GenIdx} (hg : h ≠ g) : limitsOf g (s.servoPosts l h) = [] :=
  limitsOf_eq_nil fun e he hsource => by
    obtain ⟨-, hother⟩ := State.mem_servoPosts he
    cases hother.symm.trans hsource
    exact hg rfl

theorem limitsOf_servos :
    limitsOf g (s.servoPosts l .mcg0) ++ limitsOf g (s.servoPosts l .mcg1) = s.servoPosts l g := by
  cases g with
  | mcg0 => rw [limitsOf_servoPosts, limitsOf_other (by decide), List.append_nil]
  | mcg1 => rw [limitsOf_servoPosts, limitsOf_other (by decide), List.nil_append]

/-! ## Both servos -/

theorem servos_of_played {u : State} (hgens : ∀ g, u.gen g = s.gen g)
    (hplayed : ∀ i : StreamIdx, (s.stream i).playsOn l → u.stream i = (s.stream i).playStep.stream) :
    servos l s u =
      ((u.setGen .mcg0 (s.genAfter l .mcg0)).setGen .mcg1 (s.genAfter l .mcg1)).setEvents
        (u.events.postEach (s.servoPosts l .mcg0 ++ s.servoPosts l .mcg1)) := by
  have first := servoTask_of_played (hgens .mcg0) hplayed
  rw [servos, first, servoTask_of_played (by exact hgens .mcg1) (by exact hplayed), EventQueue.postEach_append]
  rfl

end

section
variable {s : State} {l : LaneIdx} {f : FrameData} (line : PinLevels)

theorem State.beforeServos_played {i : StreamIdx} (h : (s.stream i).playsOn l) :
    (s.beforeServos l f line).stream i = (s.stream i).playStep.stream :=
  (State.beforeServos_walked line).plays i (State.mem_early h) h.1

theorem State.beforeServos_gen (g : GenIdx) : (s.beforeServos l f line).gen g = s.gen g :=
  (forStreams_beside (frameTask_beside _ line) _ _).gen g

theorem servos_beforeServos :
    servos l s (s.beforeServos l f line) =
      (((s.beforeServos l f line).setGen .mcg0 (s.genAfter l .mcg0)).setGen .mcg1 (s.genAfter l .mcg1)).setEvents
        ((s.beforeServos l f line).events.postEach (s.servoPosts l .mcg0 ++ s.servoPosts l .mcg1)) :=
  servos_of_played (State.beforeServos_gen line) fun _ => State.beforeServos_played line

theorem frameEvent_gen (g : GenIdx) : (frameEvent l line f.order f.late s).gen g = s.genAfter l g := by
  rw [frameEvent_eq]
  refine ((forStreams_beside (frameTask_beside _ line) _ _).gen g).trans ?_
  show (servos l s (s.beforeServos l f line)).gen g = _
  rw [servos_beforeServos]
  cases g <;> rfl

/-- The postings of a frame event, those of the generators between those of the streams. -/
theorem frameEvent_posts (f : FrameData) (s : State) :
    ∃ posts, (frameEvent l line f.order f.late s).events = s.events.postEach posts
      ∧ ∀ g, limitsOf g posts = s.servoPosts l g := by
  obtain ⟨early, hearly, hsources⟩ :=
    forStreams_posts (s.lane l).config line (s.frameOrder l f).1 (s.setLane l (s.laneAtEvent l))
  obtain ⟨late, hlate, hsources'⟩ :=
    forStreams_posts (s.lane l).config line (s.frameOrder l f).2 (servos l s (s.beforeServos l f line))
  refine ⟨early ++ (s.servoPosts l .mcg0 ++ s.servoPosts l .mcg1) ++ late, ?_, fun g => ?_⟩
  · rw [frameEvent_eq, EventQueue.postEach_append, EventQueue.postEach_append]
    refine hlate.trans (congrArg (EventQueue.postEach · late) ?_)
    rw [servos_beforeServos]
    exact congrArg (EventQueue.postEach · _) hearly
  · rw [limitsOf_append, limitsOf_append, limitsOf_append, limitsOf_streams hsources, limitsOf_streams hsources',
      limitsOf_servos, List.nil_append, List.append_nil]

end

theorem exec_frameEvent_of_atEvent {s : State} {l : LaneIdx} (h : (s.lane l).atEvent) (f : FrameData) :
    exec (.frameEvent l f.din f.order f.late) s =
      .next (frameEvent l ((s.lane l).config.inputOf f.din) f.order f.late s) :=
  congrArg Host.Outcome.next (giveFrameEvent_of_atEvent h f)

theorem State.countsAt_iff (s : State) (l : LaneIdx) (g : GenIdx) (r : StreamIdx) :
    s.countsAt l g r ↔
      (s.stream r).state = .running ∧ (s.stream r).playStep.stream.state = .running
        ∧ ((g = .mcg0 ∧ (s.lane l).config.role = .master0) ∨ (g = .mcg1 ∧ (s.lane l).config.role = .master1)) := by
  refine and_congr_right fun _ => and_congr_right fun _ => ?_
  cases g
  · exact ⟨fun h => .inl ⟨rfl, h⟩, fun h => h.elim (·.2) fun h => nomatch h.1⟩
  · exact ⟨fun h => .inr ⟨rfl, h⟩, fun h => h.elim (fun h => nomatch h.1) (·.2)⟩

/-- Settles O21: the record of a generator and its postings by what its reference does at the event. -/
theorem frameEventsCountTowardsTheReview : Obligations.FrameEventsCountTowardsTheReview := by
  intro l f s g hevent x mine
  obtain ⟨posts, hposts, hlimits⟩ := frameEvent_posts (l := l) ((s.lane l).config.inputOf f.din) f s
  refine ⟨_, posts, exec_frameEvent_of_atEvent hevent f, hposts, ?_⟩
  intro limits
  have hgen := frameEvent_gen (s := s) (l := l) (f := f) ((s.lane l).config.inputOf f.din) g
  have both {y : Gen} {es : List (EventKind × Source × Word)} (hy : s.genAfter l g = y) (hes : s.servoPosts l g = es) :
      (frameEvent l ((s.lane l).config.inputOf f.din) f.order f.late s).gen g = y ∧ limits = es :=
    ⟨hgen.trans hy, (hlimits g).trans hes⟩
  refine ⟨fun hr => both (State.genAfter_of_none hr) (State.servoPosts_of_none hr), fun r hr => ?_⟩
  intro st after counts
  have hafter := State.genAfter_of_some (l := l) hr
  have hnone := State.servoPosts_of_not_review (l := l) hr
  refine ⟨fun hplays => ?_, fun hplays hentered => ?_, fun hplays hentered hcounts => ?_,
    fun hplays hentered hcounts hearly => ?_, fun hplays hentered hcounts hdue => ?_⟩
  · exact both (hafter.trans (if_neg hplays)) (hnone fun ⟨_, hplays', _⟩ => hplays hplays')
  · refine both (hafter.trans ((if_pos hplays).trans (if_pos hentered))) (hnone fun ⟨_, _, hrunning, _⟩ => ?_)
    exact Bool.false_ne_true ((Stream.entered_of_running hrunning).symm.trans hentered)
  · have hcounts' : ¬ s.countsAt l g r := mt (s.countsAt_iff l g r).mp hcounts
    have hentered' : ¬ (s.stream r).playStep.entered = true := Bool.eq_false_iff.mp hentered
    exact both (hafter.trans ((if_pos hplays).trans ((if_neg hentered').trans (if_neg hcounts'))))
      (hnone fun ⟨_, _, hrunning, hruns, hrole, _⟩ => hcounts' ⟨hrunning, hruns, hrole⟩)
  · have hcounts' : s.countsAt l g r := (s.countsAt_iff l g r).mpr hcounts
    have hentered' : ¬ (s.stream r).playStep.entered = true := Bool.eq_false_iff.mp hentered
    exact both (hafter.trans ((if_pos hplays).trans ((if_neg hentered').trans ((if_pos hcounts').trans (if_pos hearly)))))
      (hnone fun ⟨_, _, _, _, _, hdue⟩ => Nat.not_le.mpr hearly hdue)
  · intro held wanted
    have hcounts' : s.countsAt l g r := (s.countsAt_iff l g r).mpr hcounts
    have hentered' : ¬ (s.stream r).playStep.entered = true := Bool.eq_false_iff.mp hentered
    replace hafter := hafter.trans ((if_pos hplays).trans ((if_neg hentered').trans ((if_pos hcounts').trans
      (if_neg (Nat.not_lt.mpr hdue)))))
    obtain ⟨hrunning, hruns, hrole⟩ := hcounts'
    have hreview := (State.servoPosts_of_some (l := l) hr).trans (if_pos ⟨hr, hplays, hrunning, hruns, hrole, hdue⟩)
    refine ⟨fun hlow hhigh => both ?_ ?_, fun habove => both ?_ ?_, fun hbelow => both ?_ ?_⟩
    · rw [hafter, show clampTrim (s.wantedAt g r) = wanted from clampTrim_of_within hlow hhigh]
    · exact hreview.trans ((if_neg (Int.not_lt.mpr hhigh)).trans (if_neg (Int.not_lt.mpr hlow)))
    · rw [hafter, show clampTrim (s.wantedAt g r) = 512 from clampTrim_of_above habove]
    · exact hreview.trans (if_pos habove)
    · rw [hafter, show clampTrim (s.wantedAt g r) = -512 from clampTrim_of_below hbelow]
    · exact hreview.trans ((if_neg (Int.not_lt.mpr (Int.le_trans (Int.le_of_lt hbelow) (by decide)))).trans (if_pos hbelow))

end Sys2Proof.Machine
end

