-- ==== Sys2Proof/Proofs/FrameGrants.lean ====
section
/-! The grants of a frame event in a part with nothing eligible before it (R132, R134, R149 to R153): all that a port can be
owed is the frame that has just closed, so each port that is UP and IDLE begins to send the first that joins a ready list. -/

namespace Sys2Proof.Machine

/-! ## Frames that a port begins to send -/

/-- A ready frame after a grant (`granted`) or none by a port: where it is pending, it is in transmission. -/
def ReadyFrame.sentOn (p : Port) (granted : Bool) (v : ReadyFrame) : ReadyFrame :=
  { v with inTx := v.inTx.set p (v.inTx.get p || (granted && v.pendingOn.get p)) }

theorem PortSet.set_get (x : PortSet) (p : Port) : x.set p (x.get p) = x := by
  cases p <;> rfl

theorem ReadyFrame.sentOn_false (p : Port) (v : ReadyFrame) : v.sentOn p false = v := by
  rw [ReadyFrame.sentOn, Bool.false_and, Bool.or_false, PortSet.set_get]

theorem ReadyFrame.sentOn_of_owed {p : Port} {v : ReadyFrame} (h : v.owedOn p = true) :
    v.sentOn p true = { v with inTx := v.inTx.set p true } := by
  rw [ReadyFrame.sentOn, ((ReadyFrame.owedOn_iff p v).mp h).1, Bool.and_true, Bool.or_true]

theorem ReadyFrame.sentOn_of_not_owed {p : Port} {v : ReadyFrame} (h : ¬ v.owedOn p = true) : v.sentOn p true = v := by
  have hkept : (v.inTx.get p || (true && v.pendingOn.get p)) = v.inTx.get p := by
    rw [ReadyFrame.owedOn_iff] at h
    cases hin : v.inTx.get p
    · cases hpending : v.pendingOn.get p
      · rfl
      · exact absurd ⟨hpending, hin⟩ h
    · rfl
  rw [ReadyFrame.sentOn, hkept, PortSet.set_get]

theorem ReadyFrame.owedOn_sentOn {p q : Port} (hq : q ≠ p) (b : Bool) (v : ReadyFrame) :
    (v.sentOn p b).owedOn q = v.owedOn q := by
  unfold ReadyFrame.owedOn ReadyFrame.sentOn
  rw [PerPort.get_set_ne _ _ hq]

theorem map_sentOn_false (p : Port) (fs : List ReadyFrame) : fs.map (ReadyFrame.sentOn p false) = fs :=
  (List.map_congr_left fun v _ => v.sentOn_false p).trans fs.map_id

/-- A grant marks the one frame that the port is owed. -/
theorem markGranted_eq_map {p : Port} {old new : List ReadyFrame} (hold : ∀ v ∈ old, ¬ v.owedOn p = true)
    (hnew : new.length ≤ 1) : markGranted p (old ++ new) = (old ++ new).map (ReadyFrame.sentOn p true) := by
  have hkept : old.map (ReadyFrame.sentOn p true) = old :=
    (List.map_congr_left fun v hv => ReadyFrame.sentOn_of_not_owed (hold v hv)).trans old.map_id
  rw [markGranted_append hold, List.map_append, hkept]
  refine congrArg (old ++ ·) ?_
  match new, hnew with
  | [], _ => rfl
  | [f], _ =>
    rw [List.map_singleton]
    by_cases howed : f.owedOn p = true
    · rw [markGranted_of_owed howed, ReadyFrame.sentOn_of_owed howed]
    · rw [markGranted_of_not_owed howed, ReadyFrame.sentOn_of_not_owed howed]
      rfl

/-! ## The arbiter of a port that one stream alone can owe a frame -/

/-- A port at which nothing is eligible but through the frames `new` of one stream. -/
structure State.OffersAt (v : State) (p : Port) (i : StreamIdx) (old new : List ReadyFrame) : Prop where
  capture : (v.stream i).direction = .capture
  level : (v.stream i).level ≤ 2
  ready : (v.stream i).ready = old ++ new
  one : new.length ≤ 1
  replies : (v.port p).linkUp = true → (v.port p).tx = .idle → (v.port p).replies = []
  others : (v.port p).linkUp = true → (v.port p).tx = .idle → ∀ j ≠ i, ¬ (v.stream j).owes p
  old : (v.port p).linkUp = true → (v.port p).tx = .idle → ∀ f ∈ old, ¬ f.owedOn p = true

/-- A port that is UP and IDLE and is owed one of the frames. -/
def State.offered (v : State) (p : Port) (new : List ReadyFrame) : Bool :=
  (v.port p).linkUp && (v.port p).tx == .idle && new.any (ReadyFrame.owedOn p)

section
variable {v : State} {p q : Port} {i : StreamIdx} {old new : List ReadyFrame}

theorem State.offered_iff :
    v.offered p new = true ↔
      ((v.port p).linkUp = true ∧ (v.port p).tx = .idle) ∧ new.any (ReadyFrame.owedOn p) = true := by
  rw [State.offered, Bool.and_eq_true, Bool.and_eq_true, beq_iff_eq]

theorem State.choose_of_only (howes : (v.stream i).owes p) (honly : ∀ j ≠ i, ¬ (v.stream j).owes p)
    (hlevel : (v.stream i).level ≤ 2) :
    v.choose p = some (i, ((v.port p).granted i (v.stream i).level).credits) := by
  have leads {credit : Nat → Nat} (hcredit : 0 < credit (v.stream i).level) : v.leads p credit i := by
    refine ⟨howes, hlevel, hcredit, fun j hj _ _ => ?_⟩
    obtain rfl : j = i := Decidable.byContradiction fun e => honly j e hj
    exact .inr ⟨rfl, Nat.le_refl _⟩
  have hreload : 0 < Credits.of {} (v.stream i).level := by
    have hl : (v.stream i).level = 0 ∨ (v.stream i).level = 1 ∨ (v.stream i).level = 2 := by omega
    rcases hl with hl | hl | hl <;> rw [hl] <;> decide
  unfold PortState.granted
  cases hmode : (v.port p).mode with
  | strict => exact State.choose_of_strict hmode (leads Nat.one_pos)
  | weighted =>
    by_cases hcredit : 0 < (v.port p).credits.of (v.stream i).level
    · rw [State.choose_of_credit hmode (leads hcredit)]
      exact congrArg (fun c => some (i, c)) (if_pos hcredit).symm
    · have hspent : ∀ j : StreamIdx, (v.stream j).owes p → (v.stream j).level ≤ 2 →
          (v.port p).credits.of (v.stream j).level = 0 := fun j hj _ => by
        obtain rfl : j = i := Decidable.byContradiction fun e => honly j e hj
        exact Nat.eq_zero_of_not_pos hcredit
      rw [State.choose_of_reload hmode hspent (leads hreload)]
      exact congrArg (fun c => some (i, c)) (if_neg hcredit).symm

/-- What another port is offered does not turn on the marks of one. -/
theorem runArbiter_offered_ne (hq : q ≠ p) (b : Bool) :
    (runArbiter p v).offered q (new.map (ReadyFrame.sentOn p b)) = v.offered q new := by
  unfold State.offered
  rw [runArbiter_port_ne v hq, List.any_map]
  refine congrArg (_ && ·) (congrArg (List.any new) (funext fun f => ?_))
  exact ReadyFrame.owedOn_sentOn hq b f

namespace State.OffersAt

theorem owes_iff (h : v.OffersAt p i old new) (hup : (v.port p).linkUp = true) (hidle : (v.port p).tx = .idle) :
    (v.stream i).owes p ↔ new.any (ReadyFrame.owedOn p) = true := by
  rw [List.any_eq_true]
  constructor
  · rintro ⟨-, f, hf, hpending, hfree⟩
    have howed := (ReadyFrame.owedOn_iff p f).mpr ⟨hpending, hfree⟩
    rw [h.ready] at hf
    exact (List.mem_append.mp hf).elim (fun hf => absurd howed (h.old hup hidle f hf)) fun hf => ⟨f, hf, howed⟩
  · rintro ⟨f, hf, howed⟩
    refine ⟨h.capture, f, ?_, (ReadyFrame.owedOn_iff p f).mp howed⟩
    rw [h.ready]
    exact List.mem_append_right _ hf

theorem runArbiter_of_offered (h : v.OffersAt p i old new) (hoffered : v.offered p new = true) :
    runArbiter p v =
      (v.setStream i { v.stream i with ready := (v.stream i).ready.map (ReadyFrame.sentOn p true) }).setPort p
        ((v.port p).granted i (v.stream i).level) := by
  obtain ⟨⟨hup, hidle⟩, hany⟩ := State.offered_iff.mp hoffered
  have howes := (h.owes_iff hup hidle).mpr hany
  rw [runArbiter_of_choose hup hidle (h.replies hup hidle) (State.choose_of_only howes (h.others hup hidle) h.level),
    grantSample, h.ready, markGranted_eq_map (h.old hup hidle) h.one]
  rfl

theorem runArbiter_of_not_offered (h : v.OffersAt p i old new) (hoffered : ¬ v.offered p new = true) :
    runArbiter p v = v := by
  by_cases hfree : (v.port p).linkUp = true ∧ (v.port p).tx = .idle
  · obtain ⟨hup, hidle⟩ := hfree
    refine runArbiter_of_nothing_owed (h.replies hup hidle) fun j => ?_
    by_cases hj : j = i
    · rw [hj, h.owes_iff hup hidle]
      exact fun hany => hoffered (State.offered_iff.mpr ⟨⟨hup, hidle⟩, hany⟩)
    · exact h.others hup hidle j hj
  · refine runArbiter_of_not_free ?_
    cases hup : (v.port p).linkUp with
    | false => exact .inl rfl
    | true => exact .inr fun hidle => hfree ⟨hup, hidle⟩

theorem port (h : v.OffersAt p i old new) :
    (runArbiter p v).port p = if v.offered p new = true then (v.port p).granted i (v.stream i).level else v.port p := by
  by_cases hoffered : v.offered p new = true
  · rw [h.runArbiter_of_offered hoffered, if_pos hoffered, State.port_setPort_self]
  · rw [h.runArbiter_of_not_offered hoffered, if_neg hoffered]

theorem stream_other (h : v.OffersAt p i old new) {j : StreamIdx} (hj : j ≠ i) :
    (runArbiter p v).stream j = v.stream j := by
  by_cases hoffered : v.offered p new = true
  · rw [h.runArbiter_of_offered hoffered, State.stream_setPort, State.stream_setStream_ne _ _ hj]
  · rw [h.runArbiter_of_not_offered hoffered]

theorem stream_self (h : v.OffersAt p i old new) :
    (runArbiter p v).stream i =
      { v.stream i with ready := (v.stream i).ready.map (ReadyFrame.sentOn p (v.offered p new)) } := by
  by_cases hoffered : v.offered p new = true
  · rw [h.runArbiter_of_offered hoffered, hoffered, State.stream_setPort, State.stream_setStream_self]
  · rw [h.runArbiter_of_not_offered hoffered, Bool.eq_false_iff.mpr hoffered, map_sentOn_false]

/-- The run of one port's arbiter leaves what the other port is offered. -/
theorem next (h : v.OffersAt p i old new) (k : v.OffersAt q i old new) (hq : q ≠ p) :
    (runArbiter p v).OffersAt q i (old.map (ReadyFrame.sentOn p (v.offered p new)))
      (new.map (ReadyFrame.sentOn p (v.offered p new))) := by
  have hport := runArbiter_port_ne v hq
  have hself := h.stream_self
  refine ⟨?_, ?_, ?_, ?_, ?_, ?_, ?_⟩
  · rw [hself]
    exact k.capture
  · rw [hself]
    exact k.level
  · rw [hself, ← List.map_append]
    exact congrArg (List.map _) k.ready
  · rw [List.length_map]
    exact k.one
  · rw [hport]
    exact k.replies
  · rw [hport]
    intro hup hidle j hj
    rw [h.stream_other hj]
    exact k.others hup hidle j hj
  · rw [hport]
    intro hup hidle f hf
    obtain ⟨v, hv, rfl⟩ := List.mem_map.mp hf
    rw [ReadyFrame.owedOn_sentOn hq]
    exact k.old hup hidle v hv

end State.OffersAt

/-! ## Both arbiters -/

variable (h : ∀ p, v.OffersAt p i old new)
include h

theorem runArbiters_port_of_offers (p : Port) :
    (runArbiters v).port p = if v.offered p new = true then (v.port p).granted i (v.stream i).level else v.port p := by
  unfold runArbiters
  cases p with
  | ta => rw [runArbiter_port_ne _ (by decide), (h .ta).port]
  | tb =>
    have second := ((h .ta).next (h .tb) (by decide)).port
    rw [runArbiter_offered_ne (by decide), runArbiter_port_ne v (p := .ta) (q := .tb) (by decide),
      (h .ta).stream_self] at second
    exact second

theorem runArbiters_stream_other_of_offers {j : StreamIdx} (hj : j ≠ i) : (runArbiters v).stream j = v.stream j :=
  (((h .ta).next (h .tb) (by decide)).stream_other hj).trans ((h .ta).stream_other hj)

theorem runArbiters_stream_self_of_offers :
    (runArbiters v).stream i =
      { v.stream i with
        ready :=
          (v.stream i).ready.map fun f =>
            (f.sentOn .ta (v.offered .ta new)).sentOn .tb (v.offered .tb new) } := by
  have second := ((h .ta).next (h .tb) (by decide)).stream_self
  rw [runArbiter_offered_ne (by decide), (h .ta).stream_self, List.map_map] at second
  exact second

end

/-! ## What a capture stream offers -/

section
variable {t : State} {st : Stream} {c : LaneConfig} {line : PinLevels}

theorem PortSet.get_of_isNone {x : PortSet} (h : x.isNone = true) (p : Port) : x.get p = false := by
  obtain ⟨hta, htb⟩ := (PortSet.isNone_iff x).mp h
  cases p <;> assumption

theorem closingFrame_owedOn (p : Port) (isEnd : Bool) :
    (closingFrame t st isEnd).owedOn p = (t.upPorts st.egress).get p := by
  cases p <;> exact Bool.and_true _

/-- The ready list of a stream after it has taken its samples: frames that were ready before, and the frame closed where it
has joined. -/
theorem State.captured_ready (t : State) (st : Stream) (c : LaneConfig) (line : PinLevels) :
    ∃ old new, (t.captured st c line).1.ready = old ++ new ∧ new.length ≤ 1 ∧ (∀ f ∈ old, f ∈ st.ready)
      ∧ ∀ p, new.any (ReadyFrame.owedOn p) = true ↔
          st.fills ∧ (t.upPorts st.egress).get p = true
            ∧ (st.ready.length < 2 ∨ st.ready.any (fun v => v.inTx.isNone) = true) := by
  unfold State.captured
  dsimp only
  by_cases hfills : st.fills
  · rw [if_pos hfills]
    generalize hf : closingFrame t (st.withGroup c line) false = f
    have howed (p : Port) : [f].any (ReadyFrame.owedOn p) = (t.upPorts st.egress).get p := by
      rw [List.any_cons, List.any_nil, Bool.or_false, ← hf]
      exact closingFrame_owedOn p false
    have hpending : f.pendingOn = t.upPorts st.egress := hf ▸ rfl
    have hready : ((st.withGroup c line).afterClose false).ready = st.ready := rfl
    have dropped {x : Stream} (hx : x.ready = st.ready) (hnone : ∀ p, ¬ (st.fills ∧ (t.upPorts st.egress).get p = true
        ∧ (st.ready.length < 2 ∨ st.ready.any (fun v => v.inTx.isNone) = true))) :
        ∃ old new, x.ready = old ++ new ∧ new.length ≤ 1 ∧ (∀ f ∈ old, f ∈ st.ready)
          ∧ ∀ p, new.any (ReadyFrame.owedOn p) = true ↔
              st.fills ∧ (t.upPorts st.egress).get p = true
                ∧ (st.ready.length < 2 ∨ st.ready.any (fun v => v.inTx.isNone) = true) :=
      ⟨st.ready, [], by rw [hx, List.append_nil], Nat.zero_le _, fun _ hf => hf,
        fun p => iff_of_false (fun e => nomatch e) (hnone p)⟩
    unfold Stream.dispose
    rw [hready]
    split
    next hunclaimed =>
      refine dropped rfl fun p hp => ?_
      rw [hpending] at hunclaimed
      exact Bool.false_ne_true ((PortSet.get_of_isNone hunclaimed p).symm.trans hp.2.1)
    next =>
      split
      next hroom =>
        refine ⟨st.ready, [f], rfl, Nat.le_refl 1, fun _ hf => hf, fun p => ?_⟩
        rw [howed]
        exact ⟨fun hp => ⟨hfills, hp, .inl hroom⟩, (·.2.1)⟩
      next hfull =>
        split
        next v hv =>
          have hany : st.ready.any (fun v => v.inTx.isNone) = true :=
            List.any_eq_true.mpr ⟨v, List.mem_of_find?_eq_some hv,
            List.find?_some (p := fun v : ReadyFrame => v.inTx.isNone) hv⟩
          refine ⟨st.ready.eraseP fun v => v.inTx.isNone, [f], rfl, Nat.le_refl 1, fun _ hf => List.eraseP_sublist.subset hf,
            fun p => ?_⟩
          rw [howed]
          exact ⟨fun hp => ⟨hfills, hp, .inr hany⟩, (·.2.1)⟩
        next hnone =>
          refine dropped rfl fun p hp => hp.2.2.elim hfull fun hany => ?_
          obtain ⟨v, hv, hidle⟩ := List.any_eq_true.mp hany
          exact List.find?_eq_none.mp hnone v hv hidle
  · rw [if_neg hfills]
    exact ⟨st.ready, [], (List.append_nil _).symm, Nat.zero_le _, fun _ hf => hf,
      fun p => iff_of_false (fun e => nomatch e) fun h => hfills h.1⟩

theorem State.captured_definition (t : State) (st : Stream) (c : LaneConfig) (line : PinLevels) :
    (t.captured st c line).1.definition = st.definition := by
  unfold State.captured
  dsimp only
  split
  · exact Stream.dispose_definition _ _
  · rfl

end

end Sys2Proof.Machine
end

