-- ==== Sys2Proof/Proofs/FrameSettled.lean ====
section
/-! A frame event in a part with nothing eligible before it: the streams, the ports and the postings after it, to the last
field (R150 to R153). -/

namespace Sys2Proof.Machine

/-! ## The first stream that joins a ready list for a port -/

/-- A port that can begin to send. -/
abbrev State.freeAt (s : State) (p : Port) : Prop := (s.port p).linkUp = true ∧ (s.port p).tx = .idle

/-- The stream, of those that have acted, whose frame a port has begun to send. -/
def State.firstFor (s : State) (p : Port) (done : List StreamIdx) : Option StreamIdx :=
  if s.freeAt p then done.find? fun i => decide (s.joinsAt p i) else none

section
variable {s : State} {p : Port} {done : List StreamIdx} {i k : StreamIdx}

theorem State.grantedAt_eq (s : State) (l : LaneIdx) (f : FrameData) (p : Port) :
    s.grantedAt l f p = s.firstFor p (s.tasks l f) := rfl

theorem State.mem_of_firstFor (h : s.firstFor p done = some k) : k ∈ done := by
  unfold State.firstFor at h
  split at h
  · exact List.mem_of_find?_eq_some h
  · exact nomatch h

theorem State.firstFor_snoc (s : State) (p : Port) (done : List StreamIdx) (i : StreamIdx) :
    s.firstFor p (done ++ [i]) = (s.firstFor p done).or (if s.freeAt p ∧ s.joinsAt p i then some i else none) := by
  unfold State.firstFor
  by_cases hfree : s.freeAt p
  · rw [if_pos hfree, if_pos hfree, List.find?_append]
    refine congrArg (Option.or _) ?_
    by_cases hjoins : s.joinsAt p i
    · rw [if_pos ⟨hfree, hjoins⟩, List.find?_cons_of_pos (by exact decide_eq_true hjoins)]
    · rw [if_neg fun h => hjoins h.2, List.find?_cons_of_neg (by exact fun h => hjoins (of_decide_eq_true h))]
      rfl
  · rw [if_neg hfree, if_neg hfree, if_neg fun h => hfree h.1]
    rfl

/-- A further stream changes nothing for those that have acted. -/
theorem State.firstFor_snoc_iff (hk : k ≠ i) : s.firstFor p (done ++ [i]) = some k ↔ s.firstFor p done = some k := by
  rw [State.firstFor_snoc]
  cases s.firstFor p done with
  | some j => exact Iff.rfl
  | none =>
    refine iff_of_false (fun h => ?_) fun h => nomatch h
    rw [Option.none_or] at h
    split at h
    · exact hk (Option.some.inj h).symm
    · exact nomatch h

/-- The stream that acts last is the first for a port where it joins and none was before it. -/
theorem State.firstFor_snoc_self (hi : i ∉ done) :
    s.firstFor p (done ++ [i]) = some i ↔ s.firstFor p done = none ∧ s.freeAt p ∧ s.joinsAt p i := by
  rw [State.firstFor_snoc]
  cases hfirst : s.firstFor p done with
  | some j =>
    refine iff_of_false (fun h => ?_) fun h => nomatch h.1
    cases h
    exact hi (State.mem_of_firstFor hfirst)
  | none =>
    rw [Option.none_or]
    constructor
    · intro h
      split at h
      next hjoins => exact ⟨rfl, hjoins⟩
      next => exact nomatch h
    · exact fun h => if_pos h.2

theorem State.firstFor_snoc_of_ne (h : s.firstFor p (done ++ [i]) ≠ some i) :
    s.firstFor p (done ++ [i]) = s.firstFor p done := by
  rw [State.firstFor_snoc] at h ⊢
  cases hfirst : s.firstFor p done with
  | some j => rfl
  | none =>
    rw [hfirst, Option.none_or] at h
    rw [Option.none_or]
    exact if_neg fun hjoins => h (if_pos hjoins)

/-! ## The parts after the streams of a list have acted -/

/-- A port after the streams of a list have acted. -/
def State.portAfter (s : State) (p : Port) (done : List StreamIdx) : PortState :=
  match s.firstFor p done with
  | some i => (s.port p).granted i (s.stream i).level
  | none => s.port p

theorem State.portAfter_linkUp (s : State) (p : Port) (done : List StreamIdx) :
    (s.portAfter p done).linkUp = (s.port p).linkUp := by
  unfold State.portAfter
  split <;> rfl

theorem State.portAfter_of_none (h : s.firstFor p done = none) : s.portAfter p done = s.port p := by
  rw [State.portAfter, h]

theorem State.portAfter_of_some (h : s.firstFor p done = some i) :
    s.portAfter p done = (s.port p).granted i (s.stream i).level := by
  rw [State.portAfter, h]

theorem State.portAfter_congr {done' : List StreamIdx} (h : s.firstFor p done' = s.firstFor p done) :
    s.portAfter p done' = s.portAfter p done := by
  rw [State.portAfter, State.portAfter, h]

/-- A port is free after some streams have acted where it was free and none of them has joined for it. -/
theorem State.portAfter_free :
    ((s.portAfter p done).linkUp = true ∧ (s.portAfter p done).tx = .idle) ↔ s.firstFor p done = none ∧ s.freeAt p := by
  cases hfirst : s.firstFor p done with
  | some j =>
    rw [State.portAfter_of_some hfirst]
    exact iff_of_false (fun h => nomatch h.2) fun h => nomatch h.1
  | none =>
    rw [State.portAfter_of_none hfirst]
    exact (and_iff_right rfl).symm

/-- A ready frame of a stream after the streams of a list have acted. -/
def State.frameAfter (s : State) (done : List StreamIdx) (i : StreamIdx) (v : ReadyFrame) : ReadyFrame :=
  { v with
    inTx := ⟨v.inTx.ta || (decide (s.firstFor .ta done = some i) && v.pendingOn.ta),
      v.inTx.tb || (decide (s.firstFor .tb done = some i) && v.pendingOn.tb)⟩ }

/-- A stream of a list after the streams of that list have acted. -/
def State.streamAfter (s : State) (c : LaneConfig) (line : PinLevels) (done : List StreamIdx) (i : StreamIdx) : Stream :=
  match (s.stream i).direction with
  | .playout => (s.stream i).playStep.stream
  | .capture =>
    let u := (s.captured (s.stream i) c line).1
    { u with ready := u.ready.map (s.frameAfter done i) }

variable {c : LaneConfig} {line : PinLevels}

theorem State.streamAfter_of_playout (h : (s.stream i).direction = .playout) :
    s.streamAfter c line done i = (s.stream i).playStep.stream := by
  unfold State.streamAfter
  rw [h]

theorem State.streamAfter_of_capture (h : (s.stream i).direction = .capture) :
    s.streamAfter c line done i =
      let u := (s.captured (s.stream i) c line).1
      { u with ready := u.ready.map (s.frameAfter done i) } := by
  unfold State.streamAfter
  rw [h] <;> rfl

theorem State.streamAfter_snoc (hk : k ≠ i) : s.streamAfter c line (done ++ [i]) k = s.streamAfter c line done k := by
  have hframe : s.frameAfter (done ++ [i]) k = s.frameAfter done k := by
    funext v
    simp only [State.frameAfter, State.firstFor_snoc_iff hk]
  unfold State.streamAfter
  rw [hframe]

end

/-- The state that the streams of a list have led to in a part with nothing eligible. -/
structure State.Settles (s : State) (c : LaneConfig) (line : PinLevels) (done : List StreamIdx) (t : State) : Prop where
  transmit : t.TransmitOk True
  control : t.control = s.control
  ports : ∀ p, t.port p = s.portAfter p done
  rests : ∀ i ∉ done, t.stream i = s.stream i
  acts : ∀ i ∈ done, t.stream i = s.streamAfter c line done i

namespace State.Settles

variable {s t u : State} {c : LaneConfig} {line : PinLevels} {done : List StreamIdx} {i : StreamIdx}

theorem links (h : s.Settles c line done t) (p : Port) : (t.port p).linkUp = (s.port p).linkUp := by
  rw [h.ports]
  exact s.portAfter_linkUp p done

theorem congr (h : s.Settles c line done t) (hstreams : u.streams = t.streams) (hports : u.ports = t.ports)
    (hcontrol : u.control = t.control) : s.Settles c line done u := by
  have hstream (i : StreamIdx) : u.stream i = t.stream i := congrArg (·.get i) hstreams
  have hport (p : Port) : u.port p = t.port p := congrArg (·.get p) hports
  refine ⟨h.transmit.congr hstreams fun p => ?_, hcontrol.trans h.control, fun p => (hport p).trans (h.ports p),
    fun i hi => (hstream i).trans (h.rests i hi), fun i hi => (hstream i).trans (h.acts i hi)⟩
  rw [hport]
  exact ⟨rfl, rfl, rfl⟩

theorem begin (h : s.TransmitOk True) (hstreams : t.streams = s.streams) (hports : t.ports = s.ports)
    (hcontrol : t.control = s.control) : s.Settles c line [] t := by
  refine congr (t := s) ⟨h, rfl, fun p => (State.portAfter_of_none ?_).symm, fun _ _ => rfl, fun _ hi => (nomatch hi)⟩
    hstreams hports hcontrol
  exact ite_self _

/-- The postings of a stream that has not yet acted are those it would have made first. -/
theorem streamPosts (h : s.Settles c line done t) (hi : i ∉ done) : t.streamPosts c line i = s.streamPosts c line i := by
  unfold State.streamPosts
  dsimp only
  rw [h.rests i hi, State.captured_congr h.links h.control]

theorem play (h : s.Settles c line done t) (hi : i ∉ done) (hdir : (s.stream i).direction = .playout) :
    s.Settles c line (done ++ [i]) (frameTask c line i t) := by
  have hrest := h.rests i hi
  have hfirst (p : Port) : s.firstFor p (done ++ [i]) = s.firstFor p done :=
    State.firstFor_snoc_of_ne fun h => nomatch hdir.symm.trans ((State.firstFor_snoc_self hi).mp h).2.2.1
  have transmit : (t.setStream i (s.stream i).playStep.stream).TransmitOk True := by
    rw [← hrest]
    exact h.transmit.setStream i (Stream.claimsLess_of_ready (Stream.playStep_definition _)
      (Stream.ready_congr (Stream.playStep_packer _)))
  rw [frameTask_of_playout (hrest.symm ▸ hdir), hrest]
  refine congr (t := t.setStream i (s.stream i).playStep.stream)
    ⟨transmit, h.control, fun p => ?_, fun j hj => ?_, fun j hj => ?_⟩
    rfl rfl rfl
  · rw [State.portAfter_congr (hfirst p)]
    exact h.ports p
  · rw [State.stream_setStream_ne _ _ fun e => hj (List.mem_append_right _ (List.mem_singleton.mpr e))]
    exact h.rests j fun hj' => hj (List.mem_append_left _ hj')
  · rcases List.mem_append.mp hj with hj | hj
    · have hne : j ≠ i := fun e => hi (e ▸ hj)
      rw [State.stream_setStream_ne _ _ hne, State.streamAfter_snoc hne]
      exact h.acts j hj
    · obtain rfl := List.mem_singleton.mp hj
      rw [State.stream_setStream_self, State.streamAfter_of_playout hdir]

/-- What a port is offered when a capture stream has acted is the frame that has joined, in a part with nothing eligible. -/
theorem offersAt (h : s.Settles c line done t) (hi : i ∉ done) (hdir : (s.stream i).direction = .capture) :
    ∃ old new, (∀ p, (t.collected c line i).OffersAt p i old new)
      ∧ ∀ p, (t.collected c line i).offered p new = decide (s.firstFor p (done ++ [i]) = some i) := by
  have hrest := h.rests i hi
  obtain ⟨old, new, hready, hone, hold, howed⟩ := t.captured_ready (t.stream i) c line
  have hself : (t.collected c line i).stream i = (t.captured (t.stream i) c line).1 := State.stream_setStream_self t i _
  have hdefinition : ((t.collected c line i).stream i).definition = (t.stream i).definition := by
    rw [hself]
    exact State.captured_definition _ _ _ _
  refine ⟨old, new, fun p => ⟨?_, ?_, hself ▸ hready, hone, fun hup hidle => ?_, fun hup hidle j hj howes => ?_,
    fun hup hidle f hf howed => ?_⟩, fun p => ?_⟩
  · rw [Stream.direction_congr hdefinition, hrest]
    exact hdir
  · rw [Stream.level_congr hdefinition]
    exact h.transmit.levels i
  · exact (h.transmit.settled trivial p hup hidle).1
  · rw [show (t.collected c line i).stream j = t.stream j from State.stream_setStream_ne t _ hj] at howes
    obtain ⟨hcapture, f, hf, hpending, hfree⟩ := howes
    exact Bool.false_ne_true (hfree.symm.trans ((h.transmit.settled trivial p hup hidle).2 j hcapture f hf hpending))
  · obtain ⟨hpending, hfree⟩ := (ReadyFrame.owedOn_iff p f).mp howed
    have hserved := (h.transmit.settled trivial p hup hidle).2 i (hrest.symm ▸ hdir) f (hold f hf) hpending
    exact Bool.false_ne_true (hfree.symm.trans hserved)
  · have hups : t.upPorts (s.stream i).egress = s.upPorts (s.stream i).egress := by
      unfold State.upPorts
      rw [h.links, h.links]
    rw [Bool.eq_iff_iff, State.offered_iff, decide_eq_true_eq, State.firstFor_snoc_self hi, howed, hrest, hups]
    show ((t.port p).linkUp = true ∧ (t.port p).tx = .idle) ∧ _ ↔ _
    rw [h.ports p, State.portAfter_free, and_assoc]
    exact and_congr_right fun _ => and_congr_right fun _ => (and_iff_right hdir).symm

theorem capture (h : s.Settles c line done t) (hi : i ∉ done) (hdir : (s.stream i).direction = .capture)
    (hstate : (s.stream i).state = .armed ∨ (s.stream i).state = .running) :
    s.Settles c line (done ++ [i]) (frameTask c line i t) := by
  have hrest := h.rests i hi
  obtain ⟨old, new, hoffers, hoffered⟩ := h.offersAt hi hdir
  have heq := frameTask_of_capture (c := c) (line := line) (s := t) (i := i) (hrest.symm ▸ hdir) (hrest.symm ▸ hstate)
  have transmit : (frameTask c line i t).TransmitOk True := by
    unfold frameTask
    rw [hrest, hdir]
    exact captureTask_transmitOk h.transmit c line i
  have hother {j : StreamIdx} (hj : j ≠ i) : (frameTask c line i t).stream j = t.stream j := by
    rw [heq, runArbiters_stream_other_of_offers hoffers hj]
    exact State.stream_setStream_ne t _ hj
  refine ⟨transmit, ?_, fun p => ?_, fun j hj => ?_, fun j hj => ?_⟩
  · rw [heq, runArbiters_control]
    exact h.control
  · rw [heq, runArbiters_port_of_offers hoffers, hoffered]
    show (if _ then (t.port p).granted i _ else t.port p) = _
    by_cases hfirst : s.firstFor p (done ++ [i]) = some i
    · have hlevel : ((t.collected c line i).stream i).level = (s.stream i).level := by
        rw [show (t.collected c line i).stream i = _ from State.stream_setStream_self t i _, hrest]
        exact Stream.level_congr (State.captured_definition _ _ _ _)
      rw [if_pos (decide_eq_true hfirst), State.portAfter_of_some hfirst, hlevel, h.ports p,
        State.portAfter_of_none ((State.firstFor_snoc_self hi).mp hfirst).1]
    · rw [if_neg (by rw [decide_eq_true_eq]; exact hfirst), State.portAfter_congr (State.firstFor_snoc_of_ne hfirst)]
      exact h.ports p
  · rw [hother fun e => hj (List.mem_append_right _ (List.mem_singleton.mpr e))]
    exact h.rests j fun hj' => hj (List.mem_append_left _ hj')
  · rcases List.mem_append.mp hj with hj | hj
    · have hne : j ≠ i := fun e => hi (e ▸ hj)
      rw [hother hne, State.streamAfter_snoc hne]
      exact h.acts j hj
    · obtain rfl := List.mem_singleton.mp hj
      rw [heq, runArbiters_stream_self_of_offers hoffers, hoffered, hoffered, State.streamAfter_of_capture hdir,
        show (t.collected c line j).stream j = _ from State.stream_setStream_self t j _, hrest,
        State.captured_congr h.links h.control]
      rfl

theorem forStreams (h : s.Settles c line done t) {is : List StreamIdx} (hnodup : (done ++ is).Nodup)
    (hparts : ∀ i ∈ is, (s.stream i).takesPart) :
    s.Settles c line (done ++ is) (t.forStreams is (frameTask c line))
      ∧ (t.forStreams is (frameTask c line)).events = t.events.postEach (is.flatMap (s.streamPosts c line)) := by
  induction is generalizing done t with
  | nil =>
    rw [List.append_nil]
    exact ⟨h, rfl⟩
  | cons i is ih =>
    have hi : i ∉ done := fun hi => (List.nodup_append.mp hnodup).2.2 i hi i List.mem_cons_self rfl
    have hpart := hparts i List.mem_cons_self
    rw [List.append_cons] at hnodup ⊢
    have first : s.Settles c line (done ++ [i]) (frameTask c line i t) :=
      hpart.elim (h.play hi) fun hcapture => h.capture hi hcapture.1 hcapture.2
    have hposts : (frameTask c line i t).events = t.events.postEach (s.streamPosts c line i) := by
      rw [← h.streamPosts hi]
      rcases hpart with hdir | ⟨hdir, hstate⟩
      · rw [frameTask_of_playout (by rw [h.rests i hi]; exact hdir)]
        rfl
      · rw [frameTask_of_capture (by rw [h.rests i hi]; exact hdir) (by rw [h.rests i hi]; exact hstate), runArbiters_events]
        rfl
    obtain ⟨rest, hrest⟩ := ih first hnodup fun j hj => hparts j (List.mem_cons_of_mem _ hj)
    refine ⟨rest, hrest.trans ?_⟩
    rw [hposts, List.flatMap_cons, EventQueue.postEach_append]

end State.Settles

section
variable {s : State} {l : LaneIdx} (f : FrameData)

/-- A frame event in a part with nothing eligible. -/
theorem frameEvent_settles (h : s.transmitInv) :
    let line := (s.lane l).config.inputOf f.din
    s.Settles (s.lane l).config line (s.tasks l f) (frameEvent l line f.order f.late s)
      ∧ (frameEvent l line f.order f.late s).events = s.events.postEach (s.framePosts l f) := by
  intro line
  have hnodup := State.tasks_nodup (s := s) (l := l) (f := f)
  have begun : s.Settles (s.lane l).config line [] (s.setLane l (s.laneAtEvent l)) :=
    .begin ((State.transmitInv_iff s).mp h) rfl rfl rfl
  obtain ⟨early, hearly⟩ := begun.forStreams (is := (s.frameOrder l f).1) (List.nodup_append.mp hnodup).1 fun _ hi =>
    State.takesPart_of_mem_tasks (f := f) (List.mem_append_left _ hi)
  have servos : s.Settles (s.lane l).config line (s.frameOrder l f).1 (servos l s (s.beforeServos l f line)) := by
    rw [servos_beforeServos]
    exact early.congr rfl rfl rfl
  obtain ⟨late, hlate⟩ := servos.forStreams hnodup fun _ hi => State.takesPart_of_mem_tasks (List.mem_append_right _ hi)
  rw [frameEvent_eq]
  refine ⟨late, hlate.trans ?_⟩
  have hposts : (Machine.servos l s (s.beforeServos l f line)).events =
      (s.beforeServos l f line).events.postEach (s.servoPosts l .mcg0 ++ s.servoPosts l .mcg1) := by
    rw [servos_beforeServos]
    rfl
  rw [hposts, show (s.beforeServos l f line).events = _ from hearly, State.framePosts]
  simp only [EventQueue.postEach_append]
  rfl

end

end Sys2Proof.Machine
end

