-- ==== Sys2Proof/Proofs/FrameEvents.lean ====
section
/-! FRAME_EVENT: the slots it loads, the playout streams it steps and the capture streams it takes samples for (R103, R104,
R130 to R134, R150 to R153). -/

namespace Sys2Proof.Machine

/-! ## The words of the slots (R104) -/

/-- The word that an entry of an out-slot table gives at a frame event of a lane. -/
theorem State.slotWord_eq (s : State) (l : LaneIdx) (e : Option OutSlot) :
    s.slotWord l e =
      match e with
      | none => 0
      | some o =>
        if (s.stream o.stream).playsOn l then (s.stream o.stream).playStep.words.getD o.channel.val 0 else 0 := by
  cases e with
  | none => rfl
  | some o =>
    unfold State.slotWord
    simp only [Stream.activePlayout_and_lane]

theorem State.loadWords_eq (s : State) (l : LaneIdx) :
    s.loadWords l =
      if (s.lane l).config.direction = .inp then []
      else ((s.lane l).outTable.toList.take (s.lane l).config.slots).map (s.slotWord l) := by
  unfold State.loadWords LaneConfig.drives
  dsimp only
  by_cases hdir : (s.lane l).config.direction = .inp
  · rw [if_pos hdir, if_neg (mt bne_iff_ne.mp (not_not_intro hdir))]
  · rw [if_neg hdir, if_pos (bne_iff_ne.mpr hdir)]

section
variable {s : State} {l : LaneIdx} {f : FrameData} {i : StreamIdx}

theorem mem_tasks_of_plays (h : (s.stream i).playsOn l) : i ∈ s.tasks l f :=
  State.mem_tasks.mpr ((Stream.actsOn_iff l _).mpr (.inl h))

theorem notMem_tasks_of_playout (hdir : (s.stream i).direction = .playout) (h : ¬ (s.stream i).playsOn l) :
    i ∉ s.tasks l f := fun hi =>
  ((Stream.actsOn_iff l _).mp (State.mem_tasks.mp hi)).elim h fun hcapture => nomatch hdir.symm.trans hcapture.1

theorem mem_tasks_iff_of_capture (hdir : (s.stream i).direction = .capture) :
    i ∈ s.tasks l f ↔
      (s.stream i).lane = l ∧ ((s.stream i).state = .armed ∨ (s.stream i).state = .running) := by
  rw [State.mem_tasks, Stream.actsOn_iff]
  exact ⟨fun h => h.elim (fun hplays => nomatch hdir.symm.trans hplays.1) (·.2), fun h => .inr ⟨hdir, h⟩⟩

end

theorem EventQueue.postEach_settings (q : EventQueue) (posts : List (EventKind × Source × Word)) :
    (q.postEach posts).levels = q.levels ∧ (q.postEach posts).threshold = q.threshold
      ∧ (q.postEach posts).uptime = q.uptime := by
  induction posts generalizing q with
  | nil => exact ⟨rfl, rfl, rfl⟩
  | cons e posts ih =>
    obtain ⟨hlevels, hthreshold, huptime⟩ := ih (q.post e.1 e.2.1 e.2.2)
    exact ⟨hlevels.trans (q.post_levels _ _ _), hthreshold.trans (q.post_threshold _ _ _),
      huptime.trans (q.post_uptime _ _ _)⟩

/-- Settles O15, for the streams and ports by the walk over the tasks, and to the last field where nothing is eligible. -/
theorem frameEventPlaysAndLoadsTheSlots : Obligations.FrameEventPlaysAndLoadsTheSlots := by
  intro l f s
  refine ⟨fun hevent => congrArg Host.Outcome.next (giveFrameEvent_of_not_atEvent hevent f), fun hevent => ?_⟩
  intro x word
  have walked := frameEvent_walked (s := s) (l := l) (f := f) ((s.lane l).config.inputOf f.din)
  obtain ⟨hphase, hlist, -, hdiscovery, hcontrol, -⟩ := frameEvent_keeps l ((s.lane l).config.inputOf f.din) f.order f.late s
  obtain ⟨posts, hposts, -⟩ := frameEvent_posts (l := l) ((s.lane l).config.inputOf f.din) f s
  obtain ⟨hlevels, hthreshold, huptime⟩ := s.events.postEach_settings posts
  have hslot : s.slotWord l = word := funext (s.slotWord_eq l)
  have hwords : s.loadWords l =
      if x.config.direction = .inp then [] else (x.outTable.toList.take x.config.slots).map word :=
    hslot ▸ s.loadWords_eq l
  refine ⟨_, exec_frameEvent_of_atEvent hevent f, ?lane, fun m hm => frameEvent_lane_other hm _ _ _ s,
    fun i hi => walked.plays i (mem_tasks_of_plays hi) hi.1,
    fun i hdir hi => walked.rests i (notMem_tasks_of_playout hdir hi) hdir,
    walked.ports, fun h => ?settled, hphase, hlist, hdiscovery, hcontrol, hposts ▸ hlevels, hposts ▸ hthreshold,
    hposts ▸ huptime⟩
  case lane =>
    rw [frameEvent_lane_self, State.laneAtEvent, hwords]
  case settled =>
    obtain ⟨settles, hevents⟩ := frameEvent_settles (l := l) f h
    exact ⟨hevents, settles.ports⟩

/-- Settles O16: a stream that does not act is marked alone, one that acts is captured and marked, and where nothing is
eligible the marks are those of the ports that begin to send its frame. -/
theorem frameEventTakesCaptureSamples : Obligations.FrameEventTakesCaptureSamples := by
  intro l f s i hevent hdir st c din acts granted mark
  have walked := frameEvent_walked (s := s) (l := l) (f := f) din
  have hmem : i ∈ s.tasks l f ↔ acts := mem_tasks_iff_of_capture hdir
  have taken (hacts : acts) := walked.takes i (hmem.mpr hacts) hdir hacts.2
  refine ⟨_, exec_frameEvent_of_atEvent hevent f, fun hacts => walked.waits i (mt hmem.mp hacts),
    fun hacts => (taken hacts).1, fun hacts => (taken hacts).2, fun h hacts => ?_, fun h hacts => ?_⟩
  · obtain ⟨settles, -⟩ := frameEvent_settles (l := l) f h
    exact settles.rests i (mt hmem.mp hacts)
  · obtain ⟨settles, -⟩ := frameEvent_settles (l := l) f h
    exact (settles.acts i (hmem.mpr hacts)).trans (State.streamAfter_of_capture hdir)

end Sys2Proof.Machine
end
